-- ==== Sys2Proof/Word.lean ====
section
/-! DEFINITION. The plain number and container types of the model: bytes, cycle numbers, frame positions, node
numbers, lanes, and a value per lane. -/

namespace Sys2Proof

/-- One byte of a record, a cell or a segment. -/
abbrev Byte := BitVec 8

/-- A cycle number, 0 to 4095, wrapping (R1). Differences of cycle numbers are taken modulo 4096. -/
abbrev Cycle := BitVec 12

/-- A frame position: cycle number times 16 plus frame index, modulo 65,536 (R55, R112). -/
abbrev FramePos := BitVec 16

/-- A node number, 0 to 7 (00_scope.md 6.3). -/
abbrev Node := Fin 8

/-- The two MODE lines, read as one number (R30): 00 RUN, 01 STANDBY, 10 WITHDRAW, 11 holds the request. -/
abbrev ModeLines := BitVec 2

/-- A service lane (00_scope.md 6.3). -/
inductive Lane where
  | l0 | l1 | l2
deriving DecidableEq, Repr

/-- One of the node's four lanes: a service lane or the alert lane. -/
inductive LaneId where
  | svc (l : Lane)
  | alert
deriving DecidableEq, Repr

/-- The number of a service lane. -/
def Lane.num : Lane → Nat
  | .l0 => 0
  | .l1 => 1
  | .l2 => 2

/-- The service lanes in ascending order. -/
def Lane.all : List Lane := [.l0, .l1, .l2]

/-- The code of a lane in a sheet or an event record: 0, 1, 2, or 3 for the alert lane (R185, R187). -/
def LaneId.code : LaneId → Nat
  | .svc l => l.num
  | .alert => 3

/-- The order in which the Tenancy Unit takes the lanes at a boundary: alert lane, then lanes 0, 1 and 2 (R58, R74). -/
def LaneId.planningOrder : List LaneId := [.alert, .svc .l0, .svc .l1, .svc .l2]

/-- One value for each service lane. -/
structure Trio (α : Type) where
  l0 : α
  l1 : α
  l2 : α
deriving DecidableEq, Repr

/-- One value for each of the four lanes. -/
structure Quad (α : Type) where
  l0 : α
  l1 : α
  l2 : α
  alert : α
deriving DecidableEq, Repr

variable {α : Type}

/-- The same value for every service lane. -/
def Trio.const (a : α) : Trio α := ⟨a, a, a⟩

/-- The value of lane `l`. -/
def Trio.get (t : Trio α) : Lane → α
  | .l0 => t.l0
  | .l1 => t.l1
  | .l2 => t.l2

/-- `t` with lane `l`'s value replaced. -/
def Trio.set (t : Trio α) (l : Lane) (a : α) : Trio α :=
  match l with
  | .l0 => { t with l0 := a }
  | .l1 => { t with l1 := a }
  | .l2 => { t with l2 := a }

/-- The same value for every lane. -/
def Quad.const (a : α) : Quad α := ⟨a, a, a, a⟩

/-- The value of lane `i`. -/
def Quad.get (q : Quad α) : LaneId → α
  | .svc .l0 => q.l0
  | .svc .l1 => q.l1
  | .svc .l2 => q.l2
  | .alert => q.alert

/-- `q` with lane `i`'s value replaced. -/
def Quad.set (q : Quad α) (i : LaneId) (a : α) : Quad α :=
  match i with
  | .svc .l0 => { q with l0 := a }
  | .svc .l1 => { q with l1 := a }
  | .svc .l2 => { q with l2 := a }
  | .alert => { q with alert := a }

/-- A number rounded up to whole parts of size `b` (00_scope.md 6.4: ceil). -/
def ceilDiv (a b : Nat) : Nat := (a + b - 1) / b

end Sys2Proof
end

