-- ==== Sys2Proof/Config.lean ====
section
/-! DEFINITION. The constants the spec fixes for every IV-3120. The spec leaves no result undefined after which the
node goes on, so there is no free value here; the values each card is configured with are state (they are read from
the image at start), see Machine/State.lean. -/

namespace Sys2Proof.Config

/-- Microseconds in a slot (R1). -/
def slotMicros : Nat := 100
/-- Slots in a frame (R1). -/
def slotsPerFrame : Nat := 800
/-- Directory slots at the head of a frame (R1). -/
def directorySlots : Nat := 24
/-- Microseconds in a frame (R6). -/
def frameMicros : Nat := 80000
/-- Microseconds in a cycle (R5, R6). -/
def cycleMicros : Nat := 1280000
/-- Payload cells of the trunk (R1). -/
def cells : Nat := 776
/-- Content bytes of a slot (R2). -/
def contentBytes : Nat := 36
/-- The tag an undriven slot reads as (R2). -/
def undrivenTag : Byte := 0xFF
/-- Fragments a tenancy may have (R56). -/
def maxFragments : Nat := 4
/-- Misses at which the lock state becomes LOST (R9). -/
def lostMisses : Nat := 8
/-- Frames of the listen period (R26). -/
def listenFrames : Nat := 32
/-- Unheard frames at which a peer becomes SILENT (R45). -/
def silentFrames : Nat := 16
/-- Unheard frames at which a peer becomes LOST (R45). -/
def lostFrames : Nat := 48
/-- Bytes of a lane's audio FIFO (R92). -/
def fifoBytes : Nat := 16384
/-- FIFO fill at or below which a held intake resumes (R93). -/
def resumeFill : Nat := 8192
/-- Largest dropped-unit count (R92). -/
def maxDropped : Nat := 65535
/-- Entries of a caption carousel (R112). -/
def captionEntries : Nat := 16
/-- Longest caption text (R115). -/
def captionText : Nat := 128
/-- Longest alert text (R148). -/
def alertText : Nat := 192
/-- Bytes of a store block (R129). -/
def blockBytes : Nat := 1024
/-- Ordinary blocks, numbered from 0 (R129). -/
def ordinaryBlocks : Nat := 384
/-- All blocks; those from `ordinaryBlocks` on are the alert reserve (R129). -/
def allBlocks : Nat := 512
/-- Largest declared size of an object (R132). -/
def maxObject : Nat := 65536
/-- Objects a lane may hold (R130). -/
def laneObjects : Nat := 8
/-- Chunk timer value at which an assembling object is removed (R135). -/
def chunkTimeout : Nat := 8
/-- Hold count at which an orphaned alert is given up (R164). -/
def orphanHold : Nat := 4
/-- Records the event queue holds (R178). -/
def eventRecords : Nat := 32
/-- Bits of an event record on EVO: twelve bytes of ten bits (R179). -/
def eventBits : Nat := 120
/-- Largest body length of a port record (R85). -/
def maxBody : Nat := 1100
/-- The sync byte of a port record (R85). -/
def sync : Byte := 0xB5
/-- Largest segment payload (R101). -/
def maxPayload : Nat := 60
/-- Bytes of the configuration image (R183). -/
def imageBytes : Nat := 93

end Sys2Proof.Config
end

