-- ==== Sys2Proof/Syntax.lean ====
section
/-! DEFINITION. The commands: one constructor per row of spec/opcode_table.json, in the table's order. The table gives
its rows no bits; the operands are what the row's rule says comes in with it. -/

namespace Sys2Proof

/-- A command of the node: something that reaches it at a connection, or a moment at which the spec lets something
come about (log 1, log 2). -/
inductive Instr where
  /-- RESET_ASSERT (R20). -/
  | resetAssert
  /-- RESET_RELEASE, or power-up (R20). -/
  | resetRelease
  /-- CONFIG_READ_DONE (R21): the bytes read from address 0 of the serial memory. -/
  | configReadDone (image : List Byte)
  /-- REFPULSE (R8): the local count at its arrival, and the MODE lines, which a boundary it raises samples. -/
  | refpulse (arrival : Nat) (lines : ModeLines)
  /-- TOLERANCE_WINDOW_CLOSE (R9): offset +T is reached. -/
  | toleranceWindowClose
  /-- REF_LOST (R9): the window close that is the eighth miss. -/
  | refLost
  /-- FRAME_BOUNDARY (R6), with the MODE lines, which count when the boundary is also a cycle boundary. -/
  | frameBoundary (lines : ModeLines)
  /-- CYCLE_BOUNDARY (R6), with the MODE lines sampled at it (R30). -/
  | cycleBoundary (lines : ModeLines)
  /-- LISTEN_PERIOD_END (R29), with the MODE lines sampled at the same boundary. -/
  | listenPeriodEnd (lines : ModeLines)
  /-- SLOT_START (R13) of the numbered slot of the frame in progress. -/
  | slotStart (slot : Nat)
  /-- SLOT_END (R16): what the line read in the slot, a tag byte and 36 content bytes. -/
  | slotEnd (tag : Byte) (content : List Byte)
  /-- PEER_SILENT (R45): the unheard report that is the peer's sixteenth in a row. -/
  | peerSilent (peer : Node)
  /-- PEER_LOST (R46): the unheard report that is the peer's forty-eighth in a row. -/
  | peerLost (peer : Node)
  /-- AUDIO_UNIT (R92). -/
  | audioUnit (lane : Lane) (unit : List Byte)
  /-- LANE_OPEN (R88), with its rate if the body gives one. -/
  | laneOpen (lane : Lane) (rate : Option (BitVec 16))
  /-- LANE_RATE (R89). -/
  | laneRate (lane : Lane) (rate : BitVec 16)
  /-- LANE_CLOSE (R90). -/
  | laneClose (lane : Lane)
  /-- LANE_RESET (R91). -/
  | laneReset (lane : Lane)
  /-- CAPTION_PUT (R115, R116). -/
  | captionPut (lane : Lane) (id priority dwell repeats : Byte) (text : List Byte)
  /-- CAPTION_DROP (R119). -/
  | captionDrop (lane : Lane) (id : Byte)
  /-- PICTURE_BEGIN (R131, R132). -/
  | pictureBegin (lane : Lane) (id : Byte) (size : BitVec 24) (repeats : Byte) (lifetime : BitVec 16)
  /-- PICTURE_CHUNK (R134). -/
  | pictureChunk (lane : Lane) (id : Byte) (offset : BitVec 24) (bytes : List Byte)
  /-- PICTURE_DROP (R136). -/
  | pictureDrop (lane : Lane) (id : Byte)
  /-- ALERT_RAISE (R147). -/
  | alertRaise (id level : Byte) (duration : BitVec 16)
  /-- ALERT_TEXT (R148). -/
  | alertText (id : Byte) (text : List Byte)
  /-- ALERT_PICTURE_BEGIN (R148, R143). -/
  | alertPictureBegin (id : Byte) (size : BitVec 24)
  /-- ALERT_PICTURE_CHUNK (R145). -/
  | alertPictureChunk (id : Byte) (offset : BitVec 24) (bytes : List Byte)
  /-- ALERT_AUDIO (R148). -/
  | alertAudio (id : Byte) (unit : List Byte)
  /-- ALERT_END (R148). -/
  | alertEnd (id : Byte)
  /-- LANE_STATUS_RECORD_DONE (R98): the record on the return line has been sent; the contributor may then stop its
  clock, as it may on an idle line (log 23). -/
  | laneStatusRecordDone (lane : Lane) (clockStops : Bool)
  /-- EVENT_RECORD_SENT (R179). -/
  | eventRecordSent
  /-- RELEASE_DONE (R72). -/
  | releaseDone (lane : LaneId)
  /-- CLAIM_TAKEN (R72). -/
  | claimTaken (lane : LaneId)
  /-- BACKOFF_END (R65). -/
  | backoffEnd (lane : LaneId)
  /-- ALERT_ENTRY (R154). -/
  | alertEntry
  /-- ALERT_EXIT (R156). -/
  | alertExit
  /-- ALERT_EXPIRED (R149) of the own alert of the level. -/
  | alertExpired (level : Nat)
  /-- ALERT_ORPHANED (R164) of the alert. -/
  | alertOrphaned (id : Byte) (level : Nat)
  /-- REDIRECT_START (R159). -/
  | redirectStart
  /-- DWELL_END (R123). -/
  | dwellEnd (lane : Lane)
  /-- OBJECT_EXPIRED (R135). -/
  | objectExpired (lane : Lane) (id : Byte)
  /-- OBJECT_TIMEOUT (R135, R145): a lane's object or, for the alert lane, a reserve entry. -/
  | objectTimeout (owner : LaneId) (id : Byte)
  /-- RECORD_REJECTED (R86): a record as read on a port, with the CRC received. -/
  | recordRejected (port : LaneId) (kind : Byte) (length : BitVec 16) (body : List Byte) (crc : BitVec 16)
  /-- PORT_CLOCK_RESUME (R98). -/
  | portClockResume (lane : Lane)
deriving DecidableEq, Repr

end Sys2Proof
end

