-- ==== Sys2Proof/Machine/State.lean ====
section
/-! DEFINITION. Everything the node holds, as plain data, and its value right after reset. Each type cites the rule
that names what it holds. What the spec says follows from other state is computed (Machine/Views.lean) and not held
twice: slot and frame index (R5), the outgoing manifest (R38), the self entry (R42), the occupancy map (R49). -/

namespace Sys2Proof.Machine

/-- The node faults never: the spec gives every command an effect in every state. -/
inductive Fault where
  /-- Raised by no meaning. The spec names no condition that stops the node dead: HALTED and QUIET are modes it goes on
  in (R33, R34). Safe. -/
  | never
deriving DecidableEq, Repr

/-- Why a command has no meaning in the model. -/
inductive Refusal where
  /-- Raised by an arm of `exec` for a command the model gives no meaning; no arm does. Safe. -/
  | notModelled (mnemonic : String)
deriving DecidableEq, Repr

/-! ### Configuration -/

/-- Bit order of a port (R22, R183). -/
inductive BitOrder where
  | msbFirst | lsbFirst
deriving DecidableEq, Repr

/-- Clock edge a port samples on (R22, R183). -/
inductive ClockEdge where
  | rising | falling
deriving DecidableEq, Repr

/-- Framing of a port (R22, R23, R85). -/
structure Framing where
  order : BitOrder
  edge : ClockEdge
deriving DecidableEq, Repr

/-- Whether a lane gives up cells to an alert (R23). -/
inductive LaneClass where
  | kept | yieldable
deriving DecidableEq, Repr

/-- The node-wide fields of a good image (R22); `alertGrade` is absent while the alert lane is disabled. -/
structure NodeConfig where
  bulletin : Nat
  alertGrade : Option Nat
  takeoverRate : Nat
  duration1 : Nat
  duration2 : Nat
  duration3 : Nat
  apFraming : Framing
deriving DecidableEq, Repr

/-- A service lane's contract (R23, R80). -/
structure Contract where
  serviceId : BitVec 16
  name : List Byte
  laneClass : LaneClass
  grade : Nat
  rmin : Nat
  rnom : Nat
  rmax : Nat
  annex : Nat
  autoOpen : Bool
  framing : Framing
  dwell : Nat
deriving DecidableEq, Repr

/-! ### Timebase and Trunk Interface -/

/-- Lock state of the Timebase (R5). -/
inductive Lock where
  | unset | locked | holdover | lost
deriving DecidableEq, Repr

/-- The Timebase (R5, R7, R8). `lateOpen`: the tolerance window around the last nominal point is still open.
`hold`: microseconds the count is still to be held at the end of the slot in progress. -/
structure Timebase where
  localCount : Nat
  cycle : Cycle
  lock : Lock
  misses : Nat
  tolerance : Nat
  lateOpen : Bool
  hold : Nat
deriving DecidableEq, Repr

/-- State of the slot in progress, or the result of the last one (R13, R15, R16). -/
inductive SlotState where
  | listening | driving | won | yielded | mismatch | cut | abandoned
deriving DecidableEq, Repr

/-- What the node drives in a slot (R14). -/
inductive Driver where
  | manifest
  | lane (l : LaneId)
deriving DecidableEq, Repr

/-- What a directory slot of the frame in progress gave (R17). -/
inductive DirRead where
  | unread
  | cut
  | read (tag : Byte) (content : List Byte)
deriving DecidableEq, Repr

/-- A relay record handed over at the end of a cell's slot (R18). -/
structure RelayCell where
  cell : Nat
  payload : List Byte
  tagGood : Bool
  checkGood : Bool
deriving DecidableEq, Repr

/-- The Trunk Interface (section 1.3 of 01_trunk_timebase_and_cells.md, R13 to R18). -/
structure Trunk where
  inProgress : Bool
  slotsBegun : Nat
  slotState : SlotState
  driver : Option Driver
  tag : Byte
  content : List Byte
  copy : Option (List Byte)
  directory : DirRead × DirRead × DirRead
  relaySource : Option Node
  relayGrade : Nat
  relaySet : List Nat
  relayGot : List RelayCell
deriving DecidableEq, Repr

/-! ### Mode Controller -/

/-- Node mode (R19). -/
inductive Mode where
  | config | joining | active | standby | withdrawing | quiet | halted
deriving DecidableEq, Repr

/-- Operating request (R19, R30). -/
inductive Request where
  | run | standby | withdraw
deriving DecidableEq, Repr

/-- The Mode Controller (R19). -/
structure ModeCtl where
  mode : Mode
  request : Request
  listenCount : Nat
  cycleSource : Option Node
  node : Node
deriving DecidableEq, Repr

/-! ### Lane sheets and manifests -/

/-- Lane state (R36, R79). -/
inductive LaneState where
  | closed | opening | onAir | squeezed | restoring | closing
deriving DecidableEq, Repr

/-- A run of cells: a start and a length. -/
structure Run where
  start : Nat
  len : Nat
deriving DecidableEq, Repr

/-- Kind of a pending change (R36). -/
inductive ChangeKind where
  | claim | release
deriving DecidableEq, Repr

/-- Rank of a pending change (R36). -/
inductive Rank where
  | ordinary | restore | alert
deriving DecidableEq, Repr

/-- A lane's announced claim or release (R36, R55). -/
structure PendingChange where
  kind : ChangeKind
  rank : Rank
  effective : Cycle
  runs : List Run
deriving DecidableEq, Repr

/-- A lane sheet (R36). -/
structure Sheet where
  lane : LaneId
  state : LaneState
  serviceId : BitVec 16
  laneClass : LaneClass
  grade : Nat
  floor : Nat
  annex : Nat
  current : List Run
  change : Option PendingChange
  redirect : Option Node
deriving DecidableEq, Repr

/-- Role of an own alert (R35, R150). -/
inductive Role where
  | lead | shadow | held
deriving DecidableEq, Repr

/-- Identity of an alert: id and level (R146). -/
structure Ident where
  id : Byte
  level : Nat
deriving DecidableEq, Repr

/-- An own-alert entry of a manifest header (R35). -/
structure OwnEntry where
  ident : Ident
  role : Role
  entry : Cycle
  yield : Nat
  redirect : Option Cycle
  endCycle : Option Cycle
deriving DecidableEq, Repr

/-- A manifest header (R35). `followed` is origin node, alert id and level. -/
structure Header where
  node : Nat
  cycle : Cycle
  frame : Nat
  mode : Mode
  level : Nat
  followed : Option (Nat × Ident)
  own : List OwnEntry
deriving DecidableEq, Repr

/-- State of a peer-table entry (R41). -/
inductive PeerState where
  | unheard | present | silent | lost | outOfStep
deriving DecidableEq, Repr

/-- An entry of the peer table (R41). `silentOutOfStep`: the entry was OUT-OF-STEP before it became SILENT (R50). -/
structure PeerEntry where
  state : PeerState
  unheard : Nat
  silentOutOfStep : Bool
  header : Option Header
  sheets : Quad (Option Sheet)
deriving DecidableEq, Repr

/-! ### Tenancy -/

/-- A current fragment with its loss mark (R55, R77). -/
structure Fragment where
  start : Nat
  len : Nat
  mark : Option FramePos
deriving DecidableEq, Repr

/-- Why a lane's planning is deferred (R55). -/
inductive Deferral where
  | none | room | alert
deriving DecidableEq, Repr

/-- A tenancy record (R55). -/
structure Tenancy where
  fragments : List Fragment
  change : Option PendingChange
  target : Nat
  restoreTarget : Option Nat
  backoff : Nat
  deferral : Deferral
deriving DecidableEq, Repr

/-! ### Lane Units, ports and return lines -/

/-- Intake state (R79). -/
inductive Intake where
  | accepting | held
deriving DecidableEq, Repr

/-- The budget split: lane bytes L, annex X, audio budget U (R83, R84). -/
structure Split where
  bytes : Nat
  annex : Nat
  audio : Nat
deriving DecidableEq, Repr

/-- A frame's lane bytes and the cells that carry them, fixed as slot 24 begins (R94, R95). -/
structure Assembly where
  cells : List Nat
  payload : Nat
  bytes : List Byte
deriving DecidableEq, Repr

/-- A Lane Unit, or the Alert Lane Unit (R79, R94). -/
structure LaneUnit where
  state : LaneState
  intake : Intake
  fifo : List Byte
  dropped : Nat
  split : Split
  assembled : Option Assembly
deriving DecidableEq, Repr

/-- Receive state of a port (R79, R85). -/
inductive RxState where
  | notReceiving | hunt | header | body | check
deriving DecidableEq, Repr

/-- The receiver of a port: its state and the bits it keeps. In HUNT these are the last bits read (at most seven); in a
record they are all bits read from the sync byte on, kept for the rescan (R85). -/
structure Port where
  state : RxState
  bits : List Bool
deriving DecidableEq, Repr

/-- A lane status record (R97). -/
structure LaneStatus where
  lane : Lane
  serviceId : BitVec 16
  name : List Byte
  state : LaneState
  cells : Nat
  audio : Nat
  rate : Nat
  annex : Nat
  fill : Nat
  intake : Intake
  level : Nat
  squeezed : Bool
deriving DecidableEq, Repr

/-- The return line of a contribution port (R79, R98). -/
structure ReturnLine where
  sending : Option LaneStatus
  waiting : Option LaneStatus
  clockStopped : Bool
deriving DecidableEq, Repr

/-! ### Annex Schedulers and carousels -/

/-- A member of a scheduler's high rotation (R99, R104). -/
inductive HighMember where
  | alertCaption | alertPicture | lowGroup
deriving DecidableEq, Repr

/-- A member of a scheduler's low group (R99). -/
inductive LowMember where
  | caption | picture
deriving DecidableEq, Repr

/-- What an alert cursor is sending: origin, identity, and the text's toggle or the picture's transfer number (R99). -/
structure ContentId where
  origin : Node
  ident : Ident
  variant : Nat
deriving DecidableEq, Repr

/-- A non-empty alert cursor (R99). -/
structure Cursor where
  content : ContentId
  sent : Nat
  seq : BitVec 11
deriving DecidableEq, Repr

/-- An Annex Scheduler (R99). -/
structure Scheduler where
  high : HighMember
  low : LowMember
  caption : Option Cursor
  picture : Option Cursor
deriving DecidableEq, Repr

/-- A carousel's send cursor (R112, R137). -/
structure SendCursor where
  sent : Nat
  seq : BitVec 11
deriving DecidableEq, Repr

/-- State of a caption entry (R113). -/
inductive CaptionState where
  | waiting | sending | dwelling
deriving DecidableEq, Repr

/-- A caption entry (R113). -/
structure CaptionEntry where
  id : Byte
  priority : Nat
  text : List Byte
  dwell : Nat
  repeats : Nat
  remaining : Nat
  toggle : Bool
  state : CaptionState
deriving DecidableEq, Repr

/-- A caption carousel (R112). `mark` counts the entries that stand before the mark; 0 is the head. `follows` is the
priority of the entry the mark was set after, kept once that entry has left; absent at the head (R114). -/
structure CaptionCarousel where
  entries : List CaptionEntry
  mark : Nat
  follows : Option Nat
  dwellEnd : Option FramePos
  cursor : Option SendCursor
  toggles : Vector Bool 256
deriving DecidableEq, Repr

/-- A picture carousel (R137). `mark` counts the objects that stand before the mark; 0 is the head. -/
structure PictureCarousel where
  order : List Byte
  mark : Nat
  cursor : Option SendCursor
deriving DecidableEq, Repr

/-- State of an object (R130). -/
inductive ObjectState where
  | assembling | ready | onAir
deriving DecidableEq, Repr

/-- Where a reserve entry's picture comes from (R143). -/
inductive Source where
  | origin
  | relay (lead : Node)
deriving DecidableEq, Repr

/-- An entry in use of the object table (R130, R143). A lane object has level 0 and source ORIGIN, which no rule reads;
a reserve entry leaves repeats, sends remaining and expiry unused. -/
structure Obj where
  owner : LaneId
  id : Byte
  size : Nat
  blocks : List Nat
  received : Nat
  state : ObjectState
  repeats : Nat
  remaining : Nat
  expiry : Option Nat
  expired : Bool
  timer : Nat
  transfer : BitVec 4
  level : Nat
  source : Source
deriving DecidableEq, Repr

/-- The Object Store (R129, R130). `objects` lists the entries in use, the earlier allocated first; `cells` the bytes
of the blocks, address 1,024 times the block number plus the offset; `transfers` the transfer memory. -/
structure ObjectStore where
  objects : List Obj
  cells : List Host.Cell
  transfers : Trio (Vector (BitVec 4) 256)
deriving DecidableEq, Repr

/-! ### Alert Controller -/

/-- The followed alert, or one saved in a context (R146). `hold` is absent while no orphan hold runs (log 17). -/
structure Followed where
  ident : Ident
  lead : Node
  entry : Cycle
  hold : Option Nat
deriving DecidableEq, Repr

/-- Timing of a scheduled entry (R146, R153). -/
inductive Timing where
  | onTime | late | outOfStep
deriving DecidableEq, Repr

/-- A scheduled entry (R146), with the yield figure carried with it (R167). -/
structure Scheduled where
  ident : Ident
  lead : Node
  boundary : Cycle
  timing : Timing
  yield : Nat
deriving DecidableEq, Repr

/-- A context of the takeover stack (R146, R154, R172). -/
structure Context where
  level : Nat
  followed : Option Followed
  ended : Bool
  captions : Trio (Option Byte)
  pictures : Trio (Option Byte)
  restore : Trio (Option Nat)
  kept : Trio (Option Nat)
deriving DecidableEq, Repr

/-- An alert of the pending list (R146, R157), with the yield figure last announced for it (R154 step 3, R167; log 38). -/
structure HeldAlert where
  ident : Ident
  lead : Node
  yield : Nat
deriving DecidableEq, Repr

/-- An own alert (R146). `raised` is the cycle of its raise, which a HELD alert announces (R150). Its picture is the
reserve entry of source ORIGIN with its identity. -/
structure OwnAlert where
  ident : Ident
  role : Role
  entry : Cycle
  yield : Nat
  redirect : Option Cycle
  endCycle : Option Cycle
  limit : Nat
  onAir : Nat
  text : Option (List Byte)
  toggle : Bool
  raised : Cycle
deriving DecidableEq, Repr

/-- A relay text buffer (R146, R161). -/
structure RelayText where
  ident : Ident
  lead : Node
  toggle : Nat
  text : List Byte
deriving DecidableEq, Repr

/-- The text of an own alert that a raise has replaced, kept by the keep rule of R155 (R147; log 13). -/
structure KeptText where
  ident : Ident
  toggle : Bool
  text : List Byte
deriving DecidableEq, Repr

/-- The caption collector while collecting (R161). -/
structure CaptionCollect where
  toggle : Nat
  text : List Byte
  expected : BitVec 11
deriving DecidableEq, Repr

/-- The picture collector while collecting (R162): the transfer number, the expected sequence number, the size bytes
gathered so far, the picture bytes counted after them, and whether a reserve entry has been allocated for it. -/
structure PictureCollect where
  transfer : Nat
  expected : BitVec 11
  sizeBytes : List Byte
  count : Nat
  allocated : Bool
deriving DecidableEq, Repr

/-- An alert's end that has been learned and lies ahead (R155). -/
structure EndNote where
  ident : Ident
  lead : Node
  boundary : Cycle
deriving DecidableEq, Repr

/-- The Alert Controller (R146). `stack` lists the contexts from the top to the bottom one. `redirect` is the redirect
origin of the service-lane sheets and `redirectCycle` the redirect cycle last announced for the followed alert (R159). -/
structure AlertCtl where
  level : Nat
  followed : Option Followed
  scheduled : List Scheduled
  stack : List Context
  pendingAlerts : List HeldAlert
  own : List OwnAlert
  relayTexts : List RelayText
  captionCollector : Option CaptionCollect
  pictureCollector : Option PictureCollect
  laneAlert : Option Ident
  redirect : Option Node
  ends : List EndNote
  relayKey : Option (Node × Ident)
  keptTexts : List KeptText
  redirectCycle : Option Cycle
deriving DecidableEq, Repr

/-! ### Event Output -/

/-- Event kinds (R187). -/
inductive EventKind where
  | configBad | laneConfig | duplicate | joined
  | refMiss | refLost | refRegained
  | peerSilent | peerLost | peerBack | peerOutOfStep
  | claimTaken | claimWithdrawn | claimDeferred | cellLost | releaseDone
  | laneOpened | laneClosed | laneReset | rateClamped | intakeHeld | intakeResumed
  | recordBad | recordClamped
  | captionEvicted | captionRefused
  | objectRefused | objectBad | objectTimeout | objectExpired
  | alertRaised | alertRefused | alertFollowed | alertHeld | alertEnded | alertExpired | alertOrphaned
  | takeoverEnter | takeoverExit | yieldApplied
deriving DecidableEq, Repr

/-- An event record (R178, R180, R187). Subject 255 stands for no node. -/
structure EventRecord where
  seq : Byte
  cycle : Cycle
  frame : Nat
  kind : EventKind
  subject : Nat
  lane : Option LaneId
  arg : Nat
  discarded : Bool
deriving DecidableEq, Repr

/-- State of the EVO line (R177, R179): idle, or sending bit 0 to 119 of the head record (its byte is bit / 10), with
the part of that bit already sent in 1/10,000. -/
inductive EvoLine where
  | idle
  | sending (bit phase : Nat)
deriving DecidableEq, Repr

/-- The Event Output (R177). -/
structure EventOut where
  queue : List EventRecord
  nextSeq : Byte
  discard : Bool
  line : EvoLine
  nfault : Bool
deriving DecidableEq, Repr

/-! ### The node -/

/-- Everything the node holds, and the queue of commands waiting for it. -/
structure State where
  inReset : Bool
  loading : Bool
  config : NodeConfig
  contracts : Trio (Option Contract)
  time : Timebase
  trunk : Trunk
  mode : ModeCtl
  peers : Vector PeerEntry 8
  tenancy : Quad Tenancy
  units : Quad LaneUnit
  ports : Quad Port
  returnLines : Trio ReturnLine
  scheds : Quad Scheduler
  captions : Trio CaptionCarousel
  pictures : Trio PictureCarousel
  store : ObjectStore
  alerts : AlertCtl
  events : EventOut
  pending : List Instr
deriving DecidableEq, Repr

/-! ### Pin reset -/

/-- Most significant bit first, rising edge: the framing before an image is loaded (log 3). -/
def resetFraming : Framing := ⟨.msbFirst, .rising⟩

/-- The node-wide values before an image is loaded (log 3). -/
def resetConfig : NodeConfig := ⟨0, none, 0, 2812, 938, 469, resetFraming⟩

/-- The Timebase after pin reset (R5). -/
def resetTime : Timebase := ⟨0, 0, .unset, 0, 20, false, 0⟩

/-- The Trunk Interface after pin reset (section 1.3). -/
def resetTrunk : Trunk :=
  ⟨false, 0, .listening, none, Config.undrivenTag, [], none, (.unread, .unread, .unread), none, 1, [], []⟩

/-- The Mode Controller after pin reset (R19). -/
def resetMode : ModeCtl := ⟨.config, .standby, 0, none, 0⟩

/-- A peer-table entry after pin reset (R41). -/
def resetPeer : PeerEntry := ⟨.unheard, 0, false, none, Quad.const none⟩

/-- A tenancy record after pin reset (R55). -/
def resetTenancy : Tenancy := ⟨[], none, 0, none, 0, .none⟩

/-- A Lane Unit after pin reset (R79). -/
def resetUnit : LaneUnit := ⟨.closed, .accepting, [], 0, ⟨0, 0, 0⟩, none⟩

/-- A scheduler after pin reset (R99). -/
def resetSched : Scheduler := ⟨.alertCaption, .caption, none, none⟩

/-- A caption carousel after pin reset (R112). -/
def resetCaptions : CaptionCarousel := ⟨[], 0, none, none, none, Vector.replicate 256 false⟩

/-- A picture carousel after pin reset (R137). -/
def resetPictures : PictureCarousel := ⟨[], 0, none⟩

/-- The Object Store after pin reset (R129, R130). -/
def resetStore : ObjectStore := ⟨[], [], Trio.const (Vector.replicate 256 15)⟩

/-- The Alert Controller after pin reset (R146). -/
def resetAlerts : AlertCtl := ⟨0, none, [], [], [], [], [], none, none, none, none, [], none, [], none⟩

/-- The Event Output after pin reset (R177). -/
def resetEvents : EventOut := ⟨[], 0, false, .idle, false⟩

/-- Every block in its pin-reset state, with the pin and the image read as given. -/
def State.pinReset (inReset loading : Bool) (queue : List Instr) : State where
  inReset := inReset
  loading := loading
  config := resetConfig
  contracts := Trio.const none
  time := resetTime
  trunk := resetTrunk
  mode := resetMode
  peers := Vector.replicate 8 resetPeer
  tenancy := Quad.const resetTenancy
  units := Quad.const resetUnit
  ports := Quad.const ⟨.notReceiving, []⟩
  returnLines := Trio.const ⟨none, none, false⟩
  scheds := Quad.const resetSched
  captions := Trio.const resetCaptions
  pictures := Trio.const resetPictures
  store := resetStore
  alerts := resetAlerts
  events := resetEvents
  pending := queue

/-- The node right after RESET is released: every block in its pin-reset state, mode CONFIG, the read of the image
begun (R20; log 4). -/
def State.reset : State := State.pinReset false true []

end Sys2Proof.Machine
end

