-- ==== Sys2Proof/Machine/Flags.lean ====
section
/-! DEFINITION. The checks and comparisons of the spec: the CRC-16 (R182), a cell's protection (R3), the wired trunk
(R2, R15), and the wrap-around tests on cycle numbers and frame positions (R50, R120, R153). -/

namespace Sys2Proof.Machine

/-- The bits of a byte, most significant first. -/
def byteBits (b : Byte) : List Bool :=
  [b.getLsbD 7, b.getLsbD 6, b.getLsbD 5, b.getLsbD 4, b.getLsbD 3, b.getLsbD 2, b.getLsbD 1, b.getLsbD 0]

/-- One data bit of the CRC-16 (R182). -/
def crcBit (reg : BitVec 16) (d : Bool) : BitVec 16 :=
  if reg.msb = d then reg <<< 1 else (reg <<< 1) ^^^ 0x1021

/-- One byte of the CRC-16, most significant bit first (R182). -/
def crcByte (reg : BitVec 16) (b : Byte) : BitVec 16 := (byteBits b).foldl crcBit reg

/-- The CRC-16 over bytes in the order they are sent (R182). -/
def crc16 (bs : List Byte) : BitVec 16 := bs.foldl crcByte 0xFFFF

/-- Payload bytes of a cell at a grade (R3). -/
def gradePayload : Nat → Nat
  | 1 => 18
  | 2 => 24
  | 3 => 27
  | _ => 30

/-- Protection byte `j` of `p`: the exclusive-or of the payload bytes whose position leaves remainder `j` (R3). -/
def protectionByte (p j : Nat) (payload : List Byte) : Byte :=
  (payload.zipIdx.filter (fun x => x.2 % p == j)).foldl (fun acc x => acc ^^^ x.1) 0

/-- The protection bytes of a cell's payload: as many as fill 36 bytes (R3). -/
def protection (payload : List Byte) : List Byte :=
  let p := Config.contentBytes - payload.length
  (List.range p).map (fun j => protectionByte p j payload)

/-- The 36 content bytes of a cell that carries a payload (R3). -/
def cellContent (payload : List Byte) : List Byte := payload ++ protection payload

/-- A received cell passes its protection check at a grade (R3). -/
def protectionGood (grade : Nat) (content : List Byte) : Bool :=
  let payload := content.take (gradePayload grade)
  content.drop (gradePayload grade) == protection payload

/-- Effective cycle `e` counts as reached at `own`: the half-range test of R50. -/
def reached (own e : Cycle) : Bool := decide ((own - e).toNat < 2048)

/-- Cycle `e` lies one or two cycles ahead of `own` (R152, R153). -/
def soon (own e : Cycle) : Bool := decide ((e - own).toNat = 1 ∨ (e - own).toNat = 2)

/-- A dwell end `e` counts as reached in the frame at position `p` (R120). -/
def dwellReached (p e : FramePos) : Bool := decide ((p - e).toNat < 32768)

/-- What the line reads when the given bits are driven at once: dominant, 0, if any driver sends 0 (R2). -/
def lineBit (sent : List Bool) : Bool := sent.all id

/-- One bit of tag arbitration (R15): the line's bit, and the drivers that read back what they sent. Each driver is
its tag and the bits it has still to send. -/
def arbitrateBit (drivers : List (Byte × List Bool)) : Bool × List (Byte × List Bool) :=
  let line := lineBit (drivers.map (fun d => d.2.headD true))
  (line, (drivers.filter (fun d => d.2.headD true == line)).map (fun d => (d.1, d.2.tail)))

/-- `n` bits of tag arbitration: the drivers still sending after them (R15). -/
def arbitrateBits : Nat → List (Byte × List Bool) → List (Byte × List Bool)
  | 0, drivers => drivers
  | n + 1, drivers => arbitrateBits n (arbitrateBit drivers).2

/-- The tags that win a slot driven with the given tags (R15). -/
def arbitrationWinners (tags : List Byte) : List Byte :=
  (arbitrateBits 8 (tags.map (fun t => (t, byteBits t)))).map (fun d => d.1)

end Sys2Proof.Machine
end

