-- ==== Sys2Proof/Machine/Operands.lean ====
section
/-! DEFINITION. The byte layouts of chapter 12: numbers in bytes, port records, the configuration image's fields, the
manifest, the segment header, the event record and the lane status record, each written and read here and nowhere
else. -/

namespace Sys2Proof.Machine

/-! ### Numbers in bytes (most significant byte first, 00_scope.md 6.6) -/

/-- The low byte of a number. -/
def byteOf (n : Nat) : Byte := BitVec.ofNat 8 n

/-- Two bytes. -/
def put16 (n : Nat) : List Byte := [byteOf (n / 256), byteOf n]

/-- Three bytes. -/
def put24 (n : Nat) : List Byte := [byteOf (n / 65536), byteOf (n / 256), byteOf n]

/-- Three bytes: a 12-bit number in the upper half and one in the lower (R185). -/
def put12x2 (a b : Nat) : List Byte := put24 ((a % 4096) * 4096 + b % 4096)

/-- Byte `i`; past the end, all ones, as an absent memory reads (R21). -/
def byteAt (bs : List Byte) (i : Nat) : Nat := (bs.getD i 0xFF).toNat

/-- The two-byte number at `i`. -/
def get16 (bs : List Byte) (i : Nat) : Nat := byteAt bs i * 256 + byteAt bs (i + 1)

/-- The three-byte number at `i`. -/
def get24 (bs : List Byte) (i : Nat) : Nat := get16 bs i * 256 + byteAt bs (i + 2)

/-- The frame position of a cycle and a frame index (R37, R55). -/
def framePos (c : Cycle) (frame : Nat) : FramePos := BitVec.ofNat 16 (c.toNat * 16 + frame)

/-! ### Port records (R184) -/

/-- A record that passed the checks of R86, with its fields. -/
inductive PortRecord where
  | audioUnit (unit : List Byte)
  | laneOpen (rate : Option (BitVec 16))
  | laneClose
  | laneRate (rate : BitVec 16)
  | laneReset
  | captionPut (id priority dwell repeats : Byte) (text : List Byte)
  | captionDrop (id : Byte)
  | pictureBegin (id : Byte) (size : BitVec 24) (repeats : Byte) (lifetime : BitVec 16)
  | pictureChunk (id : Byte) (offset : BitVec 24) (bytes : List Byte)
  | pictureDrop (id : Byte)
  | alertRaise (id level : Byte) (duration : BitVec 16)
  | alertText (id : Byte) (text : List Byte)
  | alertPictureBegin (id : Byte) (size : BitVec 24)
  | alertPictureChunk (id : Byte) (offset : BitVec 24) (bytes : List Byte)
  | alertAudio (id : Byte) (unit : List Byte)
  | alertEnd (id : Byte)
deriving DecidableEq, Repr

/-- The kind code of a record (R184). -/
def PortRecord.code : PortRecord → Nat
  | .audioUnit _ => 0x01
  | .laneOpen _ => 0x02
  | .laneClose => 0x03
  | .laneRate _ => 0x04
  | .laneReset => 0x05
  | .captionPut _ _ _ _ _ => 0x11
  | .captionDrop _ => 0x12
  | .pictureBegin _ _ _ _ => 0x21
  | .pictureChunk _ _ _ => 0x22
  | .pictureDrop _ => 0x23
  | .alertRaise _ _ _ => 0x31
  | .alertText _ _ => 0x32
  | .alertPictureBegin _ _ => 0x33
  | .alertPictureChunk _ _ _ => 0x34
  | .alertAudio _ _ => 0x35
  | .alertEnd _ => 0x36

/-- The body of a record (R184). -/
def PortRecord.body : PortRecord → List Byte
  | .audioUnit unit => unit
  | .laneOpen none => []
  | .laneOpen (some r) => put16 r.toNat
  | .laneClose => []
  | .laneRate r => put16 r.toNat
  | .laneReset => []
  | .captionPut id priority dwell repeats text => id :: priority :: dwell :: repeats :: text
  | .captionDrop id => [id]
  | .pictureBegin id size repeats lifetime => id :: put24 size.toNat ++ repeats :: put16 lifetime.toNat
  | .pictureChunk id offset bytes => id :: put24 offset.toNat ++ bytes
  | .pictureDrop id => [id]
  | .alertRaise id level duration => id :: level :: put16 duration.toNat
  | .alertText id text => id :: text
  | .alertPictureBegin id size => id :: put24 size.toNat
  | .alertPictureChunk id offset bytes => id :: put24 offset.toNat ++ bytes
  | .alertAudio id unit => id :: unit
  | .alertEnd id => [id]

/-- A kind code is taken on a port (R86): contribution-port kinds on CP0 to CP2, alert-port kinds on AP. -/
def kindOnPort (port : LaneId) (kind : Nat) : Bool :=
  match port with
  | .svc _ => [0x01, 0x02, 0x03, 0x04, 0x05, 0x11, 0x12, 0x21, 0x22, 0x23].contains kind
  | .alert => [0x31, 0x32, 0x33, 0x34, 0x35, 0x36].contains kind

/-- The body lengths of a kind code, as ranges: the column of R184's table. -/
def bodyLengths : Nat → List (Nat × Nat)
  | 0x01 => [(1, 1024)]
  | 0x02 => [(0, 0), (2, 2)]
  | 0x03 => [(0, 0)]
  | 0x04 => [(2, 2)]
  | 0x05 => [(0, 0)]
  | 0x11 => [(5, 1100)]
  | 0x12 => [(1, 1)]
  | 0x21 => [(7, 7)]
  | 0x22 => [(5, 1100)]
  | 0x23 => [(1, 1)]
  | 0x31 => [(4, 4)]
  | 0x32 => [(2, 1100)]
  | 0x33 => [(4, 4)]
  | 0x34 => [(5, 1100)]
  | 0x35 => [(2, 1025)]
  | 0x36 => [(1, 1)]
  | _ => []

/-- Check 4 of R86: the kind allows a body of this length. -/
def bodyLengthAllowed (kind len : Nat) : Bool := (bodyLengths kind).any (fun r => decide (r.1 ≤ len ∧ len ≤ r.2))

/-- The record a kind and a body spell (R184). -/
def parseRecord (kind : Nat) (body : List Byte) : Option PortRecord :=
  let b (i : Nat) : Byte := body.getD i 0
  if bodyLengthAllowed kind body.length = false then none
  else if kind = 0x01 then some (.audioUnit body)
  else if kind = 0x02 then
    some (.laneOpen (if body.length = 0 then none else some (BitVec.ofNat 16 (get16 body 0))))
  else if kind = 0x03 then some .laneClose
  else if kind = 0x04 then some (.laneRate (BitVec.ofNat 16 (get16 body 0)))
  else if kind = 0x05 then some .laneReset
  else if kind = 0x11 then some (.captionPut (b 0) (b 1) (b 2) (b 3) (body.drop 4))
  else if kind = 0x12 then some (.captionDrop (b 0))
  else if kind = 0x21 then
    some (.pictureBegin (b 0) (BitVec.ofNat 24 (get24 body 1)) (b 4) (BitVec.ofNat 16 (get16 body 5)))
  else if kind = 0x22 then some (.pictureChunk (b 0) (BitVec.ofNat 24 (get24 body 1)) (body.drop 4))
  else if kind = 0x23 then some (.pictureDrop (b 0))
  else if kind = 0x31 then some (.alertRaise (b 0) (b 1) (BitVec.ofNat 16 (get16 body 2)))
  else if kind = 0x32 then some (.alertText (b 0) (body.drop 1))
  else if kind = 0x33 then some (.alertPictureBegin (b 0) (BitVec.ofNat 24 (get24 body 1)))
  else if kind = 0x34 then some (.alertPictureChunk (b 0) (BitVec.ofNat 24 (get24 body 1)) (body.drop 4))
  else if kind = 0x35 then some (.alertAudio (b 0) (body.drop 1))
  else if kind = 0x36 then some (.alertEnd (b 0))
  else none

/-- The bytes the CRC of a port record covers: kind, length and body (R182). -/
def recordChecked (kind : Byte) (length : BitVec 16) (body : List Byte) : List Byte :=
  kind :: put16 length.toNat ++ body

/-- The first check of R86 that a record as read fails, as its reason, or none when it is taken. -/
def recordReason (port : LaneId) (kind : Byte) (length : BitVec 16) (body : List Byte) (crc : BitVec 16) :
    Option Nat :=
  if Config.maxBody < length.toNat then some 3
  else if crc16 (recordChecked kind length body) ≠ crc then some 1
  else if kindOnPort port kind.toNat = false then some 2
  else if bodyLengthAllowed kind.toNat length.toNat = false then some 4
  else none

/-- A byte whose bits arrive in a port's configured order (R85). -/
def orderBits (order : BitOrder) (b : Byte) : List Bool :=
  match order with
  | .msbFirst => byteBits b
  | .lsbFirst => (byteBits b).reverse

/-- The number that bits spell, most significant first. -/
def bitsToNat (bits : List Bool) : Nat := bits.foldl (fun n b => n * 2 + b.toNat) 0

/-- The byte that eight bits form in a port's configured order (R85). -/
def byteOfBits (order : BitOrder) (bits : List Bool) : Byte :=
  match order with
  | .msbFirst => byteOf (bitsToNat bits)
  | .lsbFirst => byteOf (bitsToNat bits.reverse)

/-- The whole bytes that bits form in a port's configured order, at most `n` of them. -/
def bytesOfBits (order : BitOrder) : Nat → List Bool → List Byte
  | 0, _ => []
  | n + 1, bits => if bits.length < 8 then [] else byteOfBits order (bits.take 8) :: bytesOfBits order n (bits.drop 8)

/-! ### Configuration image (R183) -/

/-- Framing from the framing byte of the image (R183). -/
def framingOf (n : Nat) : Framing :=
  ⟨if n % 2 = 0 then .msbFirst else .lsbFirst, if n / 2 % 2 = 0 then .rising else .falling⟩

/-- The failure reason of the whole-image checks of R21, in their order, or none. -/
def imageReason (image : List Byte) : Option Nat :=
  if image.take 4 ≠ [0x1C, 0x3A, 0x5E, 0x72] then some 1
  else if get16 image 4 ≠ Config.imageBytes then some 2
  else if (crc16 (image.take 91)).toNat ≠ get16 image 91 then some 3
  else if 7 < byteAt image 6 then some 4
  else none

/-! ### Event record (R187) -/

/-- Kind codes (R187). -/
def EventKind.code : EventKind → Nat
  | .configBad => 0x01 | .laneConfig => 0x02 | .duplicate => 0x03 | .joined => 0x04
  | .refMiss => 0x10 | .refLost => 0x11 | .refRegained => 0x12
  | .peerSilent => 0x20 | .peerLost => 0x21 | .peerBack => 0x22 | .peerOutOfStep => 0x23
  | .claimTaken => 0x30 | .claimWithdrawn => 0x31 | .claimDeferred => 0x32 | .cellLost => 0x33 | .releaseDone => 0x34
  | .laneOpened => 0x40 | .laneClosed => 0x41 | .laneReset => 0x42 | .rateClamped => 0x43
  | .intakeHeld => 0x44 | .intakeResumed => 0x45
  | .recordBad => 0x50 | .recordClamped => 0x51
  | .captionEvicted => 0x58 | .captionRefused => 0x59
  | .objectRefused => 0x60 | .objectBad => 0x61 | .objectTimeout => 0x62 | .objectExpired => 0x63
  | .alertRaised => 0x70 | .alertRefused => 0x71 | .alertFollowed => 0x72 | .alertHeld => 0x73 | .alertEnded => 0x74
  | .alertExpired => 0x75 | .alertOrphaned => 0x76 | .takeoverEnter => 0x77 | .takeoverExit => 0x78
  | .yieldApplied => 0x79

/-- The first ten bytes of an event record (R187). -/
def EventRecord.checked (e : EventRecord) : List Byte :=
  0xE7 :: e.seq :: put16 (e.cycle.toNat * 16 + e.frame)
    ++ [byteOf e.kind.code, byteOf e.subject, byteOf (match e.lane with | some l => l.code | none => 255)]
    ++ put16 e.arg ++ [if e.discarded then 1 else 0]

/-- The twelve bytes of an event record (R187). -/
def EventRecord.bytes (e : EventRecord) : List Byte := e.checked ++ put16 (crc16 e.checked).toNat

/-- The level of EVO at bit `n` (0 to 119) of a record: start bit 0, data bits least significant first, stop bit 1
(R179). -/
def EventRecord.evoBit (e : EventRecord) (n : Nat) : Bool :=
  let b := e.bytes.getD (n / 10) 0xFF
  if n % 10 = 0 then false else if n % 10 = 9 then true else b.getLsbD (n % 10 - 1)

/-! ### Lane status record (R184) -/

/-- Code of a lane state (R184). -/
def LaneState.code : LaneState → Nat
  | .closed => 0 | .opening => 1 | .onAir => 2 | .squeezed => 3 | .restoring => 4 | .closing => 5

/-- The lane state of a code, if it is one of the six. -/
def LaneState.ofCode : Nat → Option LaneState
  | 0 => some .closed | 1 => some .opening | 2 => some .onAir | 3 => some .squeezed
  | 4 => some .restoring | 5 => some .closing | _ => none

/-- The body of a lane status record (R184). -/
def LaneStatus.body (r : LaneStatus) : List Byte :=
  byteOf r.lane.num :: put16 r.serviceId.toNat ++ r.name ++ [byteOf r.state.code, byteOf r.cells]
    ++ put16 r.audio ++ put16 r.rate ++ put16 r.annex ++ put16 r.fill
    ++ [match r.intake with | .accepting => 0 | .held => 1, byteOf r.level, if r.squeezed then 1 else 0]

/-- A lane status record as sent on the return line (R97, R184). -/
def LaneStatus.bytes (r : LaneStatus) : List Byte :=
  let checked := recordChecked 0x41 (BitVec.ofNat 16 r.body.length) r.body
  Config.sync :: checked ++ put16 (crc16 checked).toNat

/-- The bits of a lane status record in the order in which the return line sends them, each byte in the port's configured bit
order (R85, R98; DEDUCED, log 59). -/
def LaneStatus.bits (order : BitOrder) (r : LaneStatus) : List Bool := r.bytes.flatMap (orderBits order)

/-! ### Segment header (R186, R189) -/

/-- Segment kinds (R102). -/
inductive SegKind where
  | caption | picture | alertCaption | alertPicture
deriving DecidableEq, Repr

/-- Code of a segment kind (R186). -/
def SegKind.code : SegKind → Nat
  | .caption => 0 | .picture => 1 | .alertCaption => 2 | .alertPicture => 3

/-- A segment (R102). `variant` is the toggle of a caption kind and the transfer number of a picture kind. -/
structure Segment where
  kind : SegKind
  id : Byte
  seq : BitVec 11
  first : Bool
  last : Bool
  variant : Nat
  payload : List Byte
deriving DecidableEq, Repr

/-- A segment as written in an annex: its header, whose end field is the payload length on a Last segment and 63
otherwise (R189), then its payload. -/
def Segment.bytes (g : Segment) : List Byte :=
  byteOf ((if g.last then g.payload.length else 63) * 4 + g.kind.code) :: g.id
    :: put16 ((if g.first then 32768 else 0) + (g.variant % 16) * 2048 + g.seq.toNat) ++ g.payload

/-! ### Manifest (R185) -/

/-- Code of a rank (R185). -/
def Rank.code : Rank → Nat
  | .ordinary => 0 | .restore => 1 | .alert => 2

/-- Code of a role (R185). -/
def Role.code : Role → Nat
  | .lead => 0 | .shadow => 1 | .held => 2

/-- Code of a mode that sends manifests (R185). -/
def modeCode : Mode → Nat
  | .standby => 1 | .withdrawing => 2 | _ => 0

/-- Four places of three bytes for a fragment list (R185). -/
def putRuns (rs : List Run) : List Byte :=
  (List.range 4).flatMap (fun i => match rs[i]? with | some r => put12x2 r.start r.len | none => [0, 0, 0])

/-- The 36 bytes of a lane sheet (R185). -/
def Sheet.bytes (s : Sheet) : List Byte :=
  let flag (b : Bool) (n : Nat) : Nat := if b then n else 0
  let changeBits : Nat := match s.change with
    | none => 0
    | some c => 8 + flag (c.kind == .release) 16 + c.rank.code * 32
  let pendingByte : Nat :=
    (match s.change with | none => 0 | some c => c.runs.length)
      + (match s.redirect with | none => 0 | some m => m.val * 16)
  [byteOf (s.lane.code + s.state.code * 16),
   byteOf (flag (s.laneClass == .yieldable) 128 + s.grade)]
    ++ put16 s.serviceId.toNat ++ [byteOf s.floor] ++ put16 s.annex
    ++ [byteOf (s.current.length + changeBits + flag s.redirect.isSome 128), byteOf pendingByte]
    ++ put16 (match s.change with | none => 0 | some c => c.effective.toNat)
    ++ putRuns s.current ++ putRuns (match s.change with | none => [] | some c => c.runs) ++ [0]

/-- The 8 bytes of an own-alert entry (R185). -/
def OwnEntry.bytes (e : OwnEntry) : List Byte :=
  [byteOf (e.ident.level + e.role.code * 4 + (if e.redirect.isSome then 16 else 0)
      + (if e.endCycle.isSome then 32 else 0)), e.ident.id, byteOf e.yield]
    ++ put12x2 e.entry.toNat (match e.redirect with | none => 0 | some c => c.toNat)
    ++ put16 (match e.endCycle with | none => 0 | some c => c.toNat)

/-- The 32 bytes of a manifest header (R185). -/
def Header.bytes (h : Header) : List Byte :=
  byteOf h.node :: byteOf (modeCode h.mode * 16 + h.level) :: put16 (h.cycle.toNat * 16 + h.frame)
    ++ (match h.followed with | none => [0, 0, 0] | some (o, i) => [byteOf o, i.id, byteOf i.level])
    ++ (List.range 3).flatMap (fun i => match h.own[i]? with | some e => e.bytes | none => List.replicate 8 0)
    ++ [0]

/-- A manifest: header and the two sheets carried (R35, R37). -/
structure Manifest where
  header : Header
  first : Sheet
  second : Sheet
deriving DecidableEq, Repr

/-- The 108 bytes of a manifest, with its check and position repeat (R37, R185). -/
def Manifest.bytes (m : Manifest) : List Byte :=
  let checked := m.header.bytes ++ m.first.bytes ++ m.second.bytes
  checked ++ put16 (crc16 checked).toNat ++ put16 (m.header.cycle.toNat * 16 + m.header.frame)

/-- Cell `k` lies in one of the runs. -/
def inRuns (rs : List Run) (k : Nat) : Bool := rs.any (fun r => decide (r.start ≤ k ∧ k < r.start + r.len))

/-- The cells of runs, in their order. -/
def runCells (rs : List Run) : List Nat := rs.flatMap (fun r => (List.range r.len).map (fun i => r.start + i))

/-- The number of cells in runs. -/
def runTotal (rs : List Run) : Nat := (rs.map (fun r => r.len)).sum

/-- A fragment list meets R36: each run within the 776 cells, starts ascending, no overlap. -/
def runsGood : List Run → Bool
  | [] => true
  | [r] => decide (1 ≤ r.len ∧ r.start + r.len ≤ Config.cells)
  | r :: q :: rest => decide (1 ≤ r.len ∧ r.start + r.len ≤ q.start) && runsGood (q :: rest)

/-- The fragment list in `count` places from byte `i`. -/
def getRuns (bs : List Byte) (i count : Nat) : List Run :=
  (List.range count).map (fun k => ⟨get24 bs (i + 3 * k) / 4096, get24 bs (i + 3 * k) % 4096⟩)

/-- The rank of a code; 3 is none of the three (log 10). -/
def Rank.ofCode : Nat → Option Rank
  | 0 => some .ordinary | 1 => some .restore | 2 => some .alert | _ => none

/-- The role of a code; 3 is none of the three (R189). -/
def Role.ofCode : Nat → Option Role
  | 0 => some .lead | 1 => some .shadow | 2 => some .held | _ => none

/-- The lane of a code of two bits (R185). -/
def laneOfCode : Nat → LaneId
  | 0 => .svc .l0 | 1 => .svc .l1 | 2 => .svc .l2 | _ => .alert

/-- A pending change meets R36 beside the current fragments: claims outside them, releases within. -/
def changeGood (current : List Run) (c : PendingChange) : Bool :=
  runsGood c.runs && (runCells c.runs).all (fun k =>
    match c.kind with
    | .claim => !inRuns current k
    | .release => inRuns current k)

/-- The sheet that 36 bytes spell, when check 5 of R39 passes (R36, R185, R189). -/
def parseSheet (bs : List Byte) : Option Sheet := do
  let state ← LaneState.ofCode (byteAt bs 0 / 16 % 8)
  let grade := byteAt bs 1 % 8
  let flags := byteAt bs 7
  let nCurrent := flags % 8
  let nPending := byteAt bs 8 % 8
  let current := getRuns bs 11 nCurrent
  if grade = 0 ∨ 4 < grade ∨ 4 < nCurrent ∨ runsGood current = false then none
  else
    let change ← if flags / 8 % 2 = 0 then some none else do
      let rank ← Rank.ofCode (flags / 32 % 4)
      let c : PendingChange :=
        ⟨if flags / 16 % 2 = 0 then .claim else .release, rank, BitVec.ofNat 12 (get16 bs 9), getRuns bs 23 nPending⟩
      if nPending = 0 ∨ 4 < nPending ∨ changeGood current c = false then none else some (some c)
    some {
      lane := laneOfCode (byteAt bs 0 % 4)
      state := state
      serviceId := BitVec.ofNat 16 (get16 bs 2)
      laneClass := if byteAt bs 1 / 128 = 1 then .yieldable else .kept
      grade := grade
      floor := byteAt bs 4
      annex := get16 bs 5
      current := current
      change := change
      redirect := if flags / 128 = 0 then none else some (Fin.ofNat 8 (byteAt bs 8 / 16 % 8)) }

/-- The own-alert entry that 8 bytes spell: `some none` for an unused one, `none` for role code 3 (R189). A yield above
100 is read as 100 (log 10). -/
def parseOwn (bs : List Byte) : Option (Option OwnEntry) :=
  let b0 := byteAt bs 0
  if b0 % 4 = 0 then some none
  else do
    let role ← Role.ofCode (b0 / 4 % 4)
    some (some {
      ident := ⟨bs.getD 1 0, b0 % 4⟩
      role := role
      entry := BitVec.ofNat 12 (get24 bs 3 / 4096)
      yield := min 100 (byteAt bs 2)
      redirect := if b0 / 16 % 2 = 0 then none else some (BitVec.ofNat 12 (get24 bs 3 % 4096))
      endCycle := if b0 / 32 % 2 = 0 then none else some (BitVec.ofNat 12 (get16 bs 6)) })

/-- The own-alert list of a header, when check 6 of R39 passes: used entries first, no two of one level (R189). -/
def parseOwnList (bs : List Byte) : Option (List OwnEntry) := do
  let a ← parseOwn ((bs.drop 7).take 8)
  let b ← parseOwn ((bs.drop 15).take 8)
  let c ← parseOwn ((bs.drop 23).take 8)
  let gap := (a.isNone && (b.isSome || c.isSome)) || (b.isNone && c.isSome)
  let used := [a, b, c].filterMap id
  if gap ∨ ¬ (used.map (fun e => e.ident.level)).Nodup then none else some used

/-- The lanes a manifest of a frame index carries (R37). -/
def sheetLanes (frame : Nat) : LaneId × LaneId :=
  if frame % 2 = 0 then (.svc .l0, .svc .l1) else (.svc .l2, .alert)

/-- The mode of a mode code of a manifest, if it is one of the three (R39, R189). -/
def manifestMode : Nat → Option Mode
  | 0 => some .active | 1 => some .standby | 2 => some .withdrawing | _ => none

/-- A heard manifest that the Directory Unit judges valid (R39), in the order of its checks. -/
def judgeManifest (bs : List Byte) : Option Manifest := do
  let position := get16 bs 2
  if (crc16 (bs.take 104)).toNat ≠ get16 bs 104 then none
  else if get16 bs 106 ≠ position then none
  else
    let mode ← manifestMode (byteAt bs 1 / 16)
    let level := byteAt bs 1 % 16
    let frame := position % 16
    let lanes := sheetLanes frame
    if 3 < level then none
    else if laneOfCode (byteAt bs 32 % 4) ≠ lanes.1 ∨ laneOfCode (byteAt bs 68 % 4) ≠ lanes.2 then none
    else
      let first ← parseSheet ((bs.drop 32).take 36)
      let second ← parseSheet ((bs.drop 68).take 36)
      let own ← parseOwnList bs
      if (byteAt bs 6 == 0) != (level == 0) then none
      else
        some ⟨{
          node := byteAt bs 0
          cycle := BitVec.ofNat 12 (position / 16)
          frame := frame
          mode := mode
          level := level
          followed := if level = 0 then none else some (byteAt bs 4, ⟨bs.getD 5 0, byteAt bs 6⟩)
          own := own }, first, second⟩

/-! ### Tag byte (R14, R188) -/

/-- The tag of a driver at node `n` (R14). -/
def tagOf (n : Node) : Driver → Byte
  | .manifest => byteOf (128 + n.val)
  | .lane (.svc l) => byteOf (64 + 4 * n.val + l.num)
  | .lane .alert => byteOf n.val

end Sys2Proof.Machine
end

