-- ==== Sys2Proof/Machine/Ops.lean ====
section
/-! DEFINITION. The named operations over State: one setter per block, the gates the mode puts on the blocks, posting
an event, and the change of mode. Raising an event or an output line is the node's only "exception", and `post` and
`setMode` are the one place it is done. -/

namespace Sys2Proof.Machine

/-! ### Setters: one per block -/

/-- `s` with the RESET pin and the image read as given. -/
def State.setPins (s : State) (inReset loading : Bool) : State := { s with inReset := inReset, loading := loading }
/-- `s` with its node-wide configuration replaced. -/
def State.setConfig (s : State) (c : NodeConfig) : State := { s with config := c }
/-- `s` with lane `l`'s contract replaced. -/
def State.setContract (s : State) (l : Lane) (c : Option Contract) : State :=
  { s with contracts := s.contracts.set l c }
/-- `s` with its Timebase replaced. -/
def State.setTime (s : State) (t : Timebase) : State := { s with time := t }
/-- `s` with its Trunk Interface replaced. -/
def State.setTrunk (s : State) (t : Trunk) : State := { s with trunk := t }
/-- `s` with its Mode Controller replaced. -/
def State.setModeCtl (s : State) (m : ModeCtl) : State := { s with mode := m }
/-- `s` with node `m`'s peer-table entry replaced. -/
def State.setPeer (s : State) (m : Node) (e : PeerEntry) : State := { s with peers := s.peers.set m e }
/-- `s` with lane `i`'s tenancy record replaced. -/
def State.setTenancy (s : State) (i : LaneId) (t : Tenancy) : State := { s with tenancy := s.tenancy.set i t }
/-- `s` with lane `i`'s Lane Unit replaced. -/
def State.setUnit (s : State) (i : LaneId) (u : LaneUnit) : State := { s with units := s.units.set i u }
/-- `s` with port `i`'s receiver replaced. -/
def State.setPort (s : State) (i : LaneId) (p : Port) : State := { s with ports := s.ports.set i p }
/-- `s` with lane `l`'s return line replaced. -/
def State.setReturn (s : State) (l : Lane) (r : ReturnLine) : State := { s with returnLines := s.returnLines.set l r }
/-- `s` with lane `i`'s Annex Scheduler replaced. -/
def State.setSched (s : State) (i : LaneId) (c : Scheduler) : State := { s with scheds := s.scheds.set i c }
/-- `s` with lane `l`'s caption carousel replaced. -/
def State.setCaptions (s : State) (l : Lane) (c : CaptionCarousel) : State := { s with captions := s.captions.set l c }
/-- `s` with lane `l`'s picture carousel replaced. -/
def State.setPictures (s : State) (l : Lane) (c : PictureCarousel) : State := { s with pictures := s.pictures.set l c }
/-- `s` with its Object Store replaced. -/
def State.setStore (s : State) (o : ObjectStore) : State := { s with store := o }
/-- `s` with its Alert Controller replaced. -/
def State.setAlerts (s : State) (a : AlertCtl) : State := { s with alerts := a }
/-- `s` with its Event Output replaced. -/
def State.setEvents (s : State) (e : EventOut) : State := { s with events := e }

/-! ### Time (R5, R6) -/

/-- The frame index, which follows from the local count (R5). -/
def State.frameIndex (s : State) : Nat := s.time.localCount / Config.frameMicros

/-- The slot index, which follows from the local count (R5). -/
def State.slotIndex (s : State) : Nat := s.time.localCount / Config.slotMicros % Config.slotsPerFrame

/-- The frame position of the frame in progress (R55). -/
def State.pos (s : State) : FramePos := framePos s.time.cycle s.frameIndex

/-- A number of cycles as a step of the cycle number. -/
def cyc (n : Nat) : Cycle := BitVec.ofNat 12 n

/-! ### Gates (R13, R32, R34) -/

/-- The node's own number, as every block reads it (R19). -/
def State.node (s : State) : Node := s.mode.node

/-- The modes in which the node drives the trunk and its Tenancy Unit and Alert Controller act: ACTIVE, STANDBY and
WITHDRAWING (R13, R32). -/
def Mode.onTrunk : Mode → Bool
  | .active | .standby | .withdrawing => true
  | .config | .joining | .quiet | .halted => false

/-- The modes in which ports, carousels and the Object Store act: all but CONFIG and HALTED (R25, R34, R87, R135). -/
def Mode.takesRecords : Mode → Bool
  | .joining | .active | .standby | .withdrawing | .quiet => true
  | .config | .halted => false

/-- NFAULT is asserted in this mode (R181). -/
def Mode.faulty : Mode → Bool
  | .quiet | .halted => true
  | .config | .joining | .active | .standby | .withdrawing => false

/-- The node is out of RESET and in ACTIVE, STANDBY or WITHDRAWING. -/
def State.onTrunk (s : State) : Bool := !s.inReset && s.mode.mode.onTrunk

/-- The node is out of RESET and in a mode that takes records. -/
def State.live (s : State) : Bool := !s.inReset && s.mode.mode.takesRecords

/-- The Timebase raises boundaries and windows: out of RESET and not UNSET (R6, R20). -/
def State.counting (s : State) : Bool := !s.inReset && s.time.lock != .unset

/-! ### Events (R178) -/

/-- The record a posted event becomes (R178): stamped with the Timebase's cycle and frame. -/
def eventRecord (kind : EventKind) (subject : Nat) (lane : Option LaneId) (arg : Nat) (s : State) : EventRecord :=
  ⟨s.events.nextSeq, s.time.cycle, s.frameIndex, kind, subject, lane, arg, s.events.discard⟩

/-- The Event Output's answer to an offered record (R178, R179): it joins the tail, taking the sequence number and the
discard mark, and an idle line begins with it; or, with 32 records held, the mark is set. -/
def EventOut.offer (e : EventOut) (r : EventRecord) : EventOut :=
  if e.queue.length < Config.eventRecords then
    { e with
      queue := e.queue ++ [r]
      nextSeq := e.nextSeq + 1
      discard := false
      line := match e.line with | .idle => .sending 0 0 | l => l }
  else { e with discard := true }

/-- An event is posted (00_scope.md 6.3, R178). -/
def post (kind : EventKind) (subject : Nat) (lane : Option LaneId) (arg : Nat) (s : State) : State :=
  s.setEvents (s.events.offer (eventRecord kind subject lane arg s))

/-- An event the node posts about itself (R180). -/
def postSelf (kind : EventKind) (lane : Option LaneId) (arg : Nat) (s : State) : State :=
  post kind s.node.val lane arg s

/-- The head record has been sent (R179): it leaves the queue, and the next begins or the line rests. -/
def EventOut.sent (e : EventOut) : EventOut :=
  match e.line with
  | .idle => e
  | .sending _ _ =>
    { e with queue := e.queue.tail, line := if e.queue.tail.isEmpty then .idle else .sending 0 0 }

/-- The level of EVO (R177, R179): the bit on the line of the record at the head of the queue, and logic 1 while the line
rests. -/
def EventOut.evo (e : EventOut) : Bool :=
  match e.line, e.queue with
  | .sending bit _, r :: _ => r.evoBit bit
  | .sending _ _, [] => true
  | .idle, _ => true

/-! ### Mode changes (R13, R181) -/

/-- The slot in progress when the node enters a mode that drives nothing: a driven slot is abandoned (R13, R16). -/
def Trunk.release (t : Trunk) : Trunk :=
  match t.slotState with
  | .driving => { t with slotState := .abandoned }
  | _ => t

/-- The Mode Controller enters a mode: NFAULT follows it at once (R181), and a mode that drives nothing releases the
line (R13). -/
def setMode (m : Mode) (s : State) : State :=
  let s := s.setModeCtl { s.mode with mode := m }
  let s := s.setEvents { s.events with nfault := m.faulty }
  if m.onTrunk then s else s.setTrunk s.trunk.release

/-- Entry to HALTED (R34): every other block keeps what it holds and is gated by the mode. -/
def enterHalted (s : State) : State := setMode .halted s

/-- A duplicate of the node's number has been found (R16, R28): DUPLICATE names the slot, and the node halts. -/
def duplicateFound (slot : Nat) (s : State) : State :=
  enterHalted (postSelf .duplicate none slot s)

/-! ### Cells for a rate (R57) -/

/-- Cells for a rate at a grade: ceil(10 R / c) (R57). -/
def cellsForRate (rate grade : Nat) : Nat := ceilDiv (10 * rate) (gradePayload grade)

/-- Floor cells of a contract (R57). -/
def Contract.floorCells (c : Contract) : Nat := cellsForRate c.rmin c.grade

/-- Maximum cells of a contract (R57). -/
def Contract.maxCells (c : Contract) : Nat := cellsForRate c.rmax c.grade

/-- The alert lane's grade; 1 stands for a disabled alert lane (R37). -/
def State.alertGrade (s : State) : Nat := s.config.alertGrade.getD 1

/-- D, the alert lane's target at level 3 (R57). -/
def State.takeoverCells (s : State) : Nat :=
  max s.config.bulletin (cellsForRate s.config.takeoverRate s.alertGrade)

/-- The grade of a lane; 1 stands for a disabled lane (R37). -/
def State.laneGrade (s : State) : LaneId → Nat
  | .svc l => match s.contracts.get l with | some c => c.grade | none => 1
  | .alert => s.alertGrade

/-- Floor cells of a service lane; 0 for a disabled lane (R37). -/
def State.floorCells (s : State) (l : Lane) : Nat :=
  match s.contracts.get l with | some c => c.floorCells | none => 0

/-- A service lane is of class YIELDABLE. -/
def State.yieldable (s : State) (l : Lane) : Bool :=
  match s.contracts.get l with | some c => c.laneClass == .yieldable | none => false

/-! ### Tenancy records -/

/-- Current cells of a tenancy record. -/
def Tenancy.cells (t : Tenancy) : Nat := (t.fragments.map (fun f => f.len)).sum

/-- The current fragments as runs. -/
def Tenancy.runs (t : Tenancy) : List Run := t.fragments.map (fun f => ⟨f.start, f.len⟩)

/-- A claim is pending. -/
def Tenancy.claiming (t : Tenancy) : Bool :=
  match t.change with | some c => c.kind == .claim | none => false

/-- A release is pending. -/
def Tenancy.releasing (t : Tenancy) : Bool :=
  match t.change with | some c => c.kind == .release | none => false

/-- Current cells of a lane. -/
def State.cells (s : State) (i : LaneId) : Nat := (s.tenancy.get i).cells

/-! ### Small list operations used by several blocks -/

/-- `f` applied for each member of a list in turn. -/
def forEach {α : Type} (xs : List α) (f : α → State → State) (s : State) : State :=
  xs.foldl (fun s x => f x s) s

/-- `f` applied for lanes 0, 1 and 2 in turn. -/
def forLanes (f : Lane → State → State) (s : State) : State := f .l2 (f .l1 (f .l0 s))

/-- The list without its element at `i`. -/
def removeAt {α : Type} (xs : List α) (i : Nat) : List α := xs.take i ++ xs.drop (i + 1)

/-- A mark after the element at `i` has left: it stays between the same neighbours (R114, R137). -/
def markAfterRemove (mark i : Nat) : Nat := if i < mark then mark - 1 else mark

end Sys2Proof.Machine
end

