-- ==== Sys2Proof/Machine/Caption.lean ====
section
/-! DEFINITION. The caption carousels (chapter 7): entries in carousel order, the mark, sends, dwells, puts and drops,
and what an interruption, a restore and a reset do to them. -/

namespace Sys2Proof.Machine

/-! ### Looking at a carousel -/

/-- The place of the entry of an id. -/
def CaptionCarousel.find (c : CaptionCarousel) (id : Byte) : Option Nat := c.entries.findIdx? (fun e => e.id == id)

/-- The place of the entry that is SENDING. -/
def CaptionCarousel.sending (c : CaptionCarousel) : Option Nat :=
  c.entries.findIdx? (fun e => e.state == .sending)

/-- The place of the next entry: the first after the mark, or the first of all (R114). -/
def CaptionCarousel.next (c : CaptionCarousel) : Option Nat :=
  if c.entries.isEmpty then none else some (if c.mark < c.entries.length then c.mark else 0)

/-- The resume position asked for at a push (R125). -/
def CaptionCarousel.position (c : CaptionCarousel) : Option Byte :=
  match c.sending with
  | some i => (c.entries[i]?).map (fun e => e.id)
  | none => (c.next.bind (fun i => c.entries[i]?)).map (fun e => e.id)

/-! ### Changing a carousel -/

/-- The mark is set directly before the entry at `i`, and so after the one above it; before the first it is at the head
(R114). -/
def CaptionCarousel.markAt (c : CaptionCarousel) (i : Nat) : CaptionCarousel :=
  { c with mark := i, follows := if i = 0 then none else (c.entries[i - 1]?).map (fun e => e.priority) }

/-- An entry of a priority, admitted at the place of the mark, stands before the mark: its order falls before the entry
the mark follows, which has left (R114). -/
def CaptionCarousel.before (c : CaptionCarousel) (priority : Nat) : Bool :=
  match c.follows with | some q => decide (q < priority) | none => false

/-- The entry at `i` changed by `f`. -/
def CaptionCarousel.update (c : CaptionCarousel) (i : Nat) (f : CaptionEntry → CaptionEntry) : CaptionCarousel :=
  { c with entries := c.entries.modify i f }

/-- The entry at `i` leaves: the mark stays between its neighbours (R114), and the send cursor of an entry that was
SENDING is cleared (R119). -/
def CaptionCarousel.remove (c : CaptionCarousel) (i : Nat) : CaptionCarousel :=
  { c with
    entries := removeAt c.entries i
    mark := markAfterRemove c.mark i
    cursor := if c.sending = some i then none else c.cursor }

/-- The place a new entry of a priority takes: after every entry of its own or a higher priority (R114). -/
def CaptionCarousel.placeFor (c : CaptionCarousel) (priority : Nat) : Nat :=
  (c.entries.takeWhile (fun e => decide (priority ≤ e.priority))).length

/-- The opposite of the toggle last given to an id is given to it (R116). -/
def CaptionCarousel.flip (c : CaptionCarousel) (id : Byte) : Bool × CaptionCarousel :=
  let t := !c.toggles.get id.toFin
  (t, { c with toggles := c.toggles.set id.toFin t })

/-- Admission of a new entry (R116). The mark stays between its neighbours; an entry admitted at its place stands after
it if its order falls after the entry the mark follows (R114). -/
def CaptionCarousel.addEntry (c : CaptionCarousel) (id : Byte) (priority dwell repeats : Nat) (text : List Byte) :
    CaptionCarousel :=
  let (t, c) := c.flip id
  let i := c.placeFor priority
  { c with
    entries := c.entries.insertIdx i ⟨id, priority, text, dwell, repeats, repeats, t, .waiting⟩
    mark := if i < c.mark ∨ (i = c.mark ∧ c.before priority) then c.mark + 1 else c.mark }

/-- Replacement of the content of the entry at `i` (R118): a send in progress starts again from its first byte. -/
def CaptionCarousel.replace (c : CaptionCarousel) (i : Nat) (id : Byte) (dwell repeats : Nat) (text : List Byte) :
    CaptionCarousel :=
  let t := match c.entries[i]? with | some e => !e.toggle | none => false
  let c := c.update i (fun e =>
    { e with text := text, dwell := dwell, repeats := repeats, remaining := repeats, toggle := t })
  { c with
    toggles := c.toggles.set id.toFin t
    cursor := if c.sending = some i then some ⟨0, 0⟩ else c.cursor }

/-- The candidate to give way: the first admitted of the lowest priority present (R117). -/
def CaptionCarousel.candidate (c : CaptionCarousel) : Option Nat :=
  match c.entries.getLast? with
  | none => none
  | some e => c.entries.findIdx? (fun x => x.priority == e.priority)

/-- The dwell end is tested at a frame position: once reached it is cleared, and a DWELLING entry waits again (R120,
R123). -/
def CaptionCarousel.testDwell (c : CaptionCarousel) (p : FramePos) : CaptionCarousel :=
  match c.dwellEnd with
  | none => c
  | some e =>
    if dwellReached p e then
      { c with
        dwellEnd := none
        entries := c.entries.map (fun x => if x.state = .dwelling then { x with state := .waiting } else x) }
    else c

/-- The carousel is ready once the dwell end has been tested (R120). -/
def CaptionCarousel.ready (c : CaptionCarousel) : Bool :=
  c.sending.isSome || (!c.entries.isEmpty && c.dwellEnd.isNone)

/-- A send in progress is interrupted (R124). -/
def CaptionCarousel.interrupt (c : CaptionCarousel) : CaptionCarousel :=
  match c.sending with
  | none => c
  | some i =>
    { (c.update i (fun e => { e with state := .waiting })).markAt i with cursor := none }

/-- A resume position is handed back at a pop (R126). -/
def CaptionCarousel.restore (c : CaptionCarousel) (position : Option Byte) : CaptionCarousel :=
  let c := c.interrupt
  let c := match position with
    | none => c.markAt 0
    | some id => match c.find id with | some i => c.markAt i | none => c
  { c with
    dwellEnd := none
    entries := c.entries.map (fun x => if x.state = .dwelling then { x with state := .waiting } else x) }

/-- Discard at LANE_RESET: the toggle memory is kept (R127). -/
def CaptionCarousel.discardAll (c : CaptionCarousel) : CaptionCarousel :=
  { c with entries := [], mark := 0, follows := none, dwellEnd := none, cursor := none }

/-- A send of the next entry begins in the frame at position `p` (R121). -/
def CaptionCarousel.beginSend (c : CaptionCarousel) (p : FramePos) : CaptionCarousel :=
  match c.sending, c.next with
  | none, some i =>
    let dwell := match c.entries[i]? with | some e => e.dwell | none => 0
    { (c.update i (fun e => { e with state := .sending })).markAt (i + 1) with
      cursor := some ⟨0, 0⟩, dwellEnd := some (p + BitVec.ofNat 16 dwell) }
  | _, _ => c

/-- The send of the entry at `i` is over (R122). -/
def CaptionCarousel.endSend (c : CaptionCarousel) (p : FramePos) (i : Nat) : CaptionCarousel :=
  let c := { c with cursor := none }
  let c := c.update i (fun e => { e with remaining := if e.repeats = 0 then e.remaining else e.remaining - 1 })
  match c.entries[i]? with
  | none => c
  | some e =>
    if e.repeats ≠ 0 ∧ e.remaining = 0 then c.remove i
    else
      let dwelling := match c.dwellEnd with | some d => !dwellReached p d | none => false
      c.update i (fun e => { e with state := if dwelling then .dwelling else .waiting })

/-- The segment of the entry that is SENDING, at payload limit `limit`, and the carousel after it (R122). A send begun
afresh by a replacement sets its dwell end with its new first segment (R118, R121). -/
def CaptionCarousel.supply (c : CaptionCarousel) (p : FramePos) (limit : Nat) : Option (Segment × CaptionCarousel) :=
  let c := c.beginSend p
  match c.sending, c.cursor with
  | some i, some k =>
    match c.entries[i]? with
    | none => none
    | some e =>
      let n := min limit (e.text.length - k.sent)
      let last := decide (e.text.length ≤ k.sent + n)
      let g : Segment :=
        ⟨.caption, e.id, k.seq, k.seq == 0, last, if e.toggle then 1 else 0, (e.text.drop k.sent).take n⟩
      let c := if k.sent = 0 then { c with dwellEnd := some (p + BitVec.ofNat 16 e.dwell) } else c
      let c := { c with cursor := some ⟨k.sent + n, k.seq + 1⟩ }
      some (g, if last then c.endSend p i else c)
  | _, _ => none

/-! ### The carousel of a lane -/

/-- `s` with lane `l`'s caption carousel changed by `f`. -/
def onCaptions (l : Lane) (f : CaptionCarousel → CaptionCarousel) (s : State) : State :=
  s.setCaptions l (f (s.captions.get l))

/-- RECORD_CLAMPED for a field of a record (R180): 256 times the field code plus the id. -/
def postClamp (lane : LaneId) (field : Nat) (id : Byte) (s : State) : State :=
  postSelf .recordClamped (some lane) (256 * field + id.toNat) s

/-- `f` when the condition holds. -/
def onlyIf (b : Bool) (f : State → State) (s : State) : State := if b then f s else s

/-- The clamps a CAPTION_PUT posts, in the order text, priority, repeats (R115). -/
def postCaptionClamps (l : Lane) (id priority repeats : Byte) (text : List Byte) (s : State) : State :=
  let s := onlyIf (decide (Config.captionText < text.length)) (postClamp (.svc l) 1 id) s
  let s := onlyIf (decide (3 < priority.toNat)) (postClamp (.svc l) 2 id) s
  onlyIf (decide (15 < repeats.toNat)) (postClamp (.svc l) 3 id) s

/-- The default caption dwell of a lane's contract (R23, R115). -/
def State.defaultDwell (s : State) (l : Lane) : Nat :=
  match s.contracts.get l with | some c => c.dwell | none => 1

/-- A CAPTION_PUT for an id no entry holds, reaching a full carousel (R117). -/
def captionContend (l : Lane) (id : Byte) (priority dwell repeats : Nat) (text : List Byte) (s : State) : State :=
  let c := s.captions.get l
  match c.candidate.bind (fun i => (c.entries[i]?).map (fun e => (i, e))) with
  | none => s
  | some (i, e) =>
    if priority < e.priority then postSelf .captionRefused (some (.svc l)) (256 * 1 + id.toNat) s
    else if e.state = .sending then postSelf .captionRefused (some (.svc l)) (256 * 2 + id.toNat) s
    else
      postSelf .captionEvicted (some (.svc l)) (256 * e.id.toNat + id.toNat)
        (onCaptions l (fun c => (c.remove i).addEntry id priority dwell repeats text) s)

/-- A CAPTION_PUT that has reached the carousel (R115 to R118). -/
def captionPutOp (l : Lane) (id priority dwell repeats : Byte) (text : List Byte) (s : State) : State :=
  let s := postCaptionClamps l id priority repeats text s
  let usedText := text.take Config.captionText
  let usedPriority := min 3 priority.toNat
  let usedRepeats := min 15 repeats.toNat
  let usedDwell := if dwell = 0 then s.defaultDwell l else dwell.toNat
  let c := s.captions.get l
  match c.find id with
  | some i => onCaptions l (fun c => c.replace i id usedDwell usedRepeats usedText) s
  | none =>
    if c.entries.length < Config.captionEntries then
      onCaptions l (fun c => c.addEntry id usedPriority usedDwell usedRepeats usedText) s
    else captionContend l id usedPriority usedDwell usedRepeats usedText s

/-- A CAPTION_DROP that has reached the carousel (R119). -/
def captionDropOp (l : Lane) (id : Byte) (s : State) : State :=
  onCaptions l (fun c => match c.find id with | some i => c.remove i | none => c) s

end Sys2Proof.Machine
end

