-- ==== Sys2Proof/Machine/Picture.lean ====
section
/-! DEFINITION. The Object Store and the picture carousels (chapter 8): the store's bytes in canonical form, the object
table, assembly, passes, expiry and timeouts, and the alert reserve. -/

namespace Sys2Proof.Machine

/-! ### The store's bytes (R129). An unlisted byte reads 0 (log 9). -/

/-- The byte at a store address. -/
def readCell (addr : Nat) : List Host.Cell → Byte
  | [] => 0
  | (a, v) :: rest => if a = addr then v else readCell addr rest

/-- The store's bytes with one byte written, in canonical form: addresses rising, no listed byte 0. -/
def writeCell (addr : Nat) (b : Byte) : List Host.Cell → List Host.Cell
  | [] => if b = 0 then [] else [(addr, b)]
  | (a, v) :: rest =>
    if addr < a then (if b = 0 then (a, v) :: rest else (addr, b) :: (a, v) :: rest)
    else if a = addr then (if b = 0 then rest else (addr, b) :: rest)
    else (a, v) :: writeCell addr b rest

/-- The canonical form: addresses strictly rising and no entry equal to what an unlisted address reads as. -/
def Memory.wf : List Host.Cell → Bool
  | [] => true
  | [(_, v)] => v != 0
  | (a, v) :: (b, w) :: rest => v != 0 && decide (a < b) && Memory.wf ((b, w) :: rest)

/-- The store address of byte `i` of an object (R129). -/
def Obj.address (o : Obj) (i : Nat) : Nat :=
  (o.blocks.getD (i / Config.blockBytes) 0) * Config.blockBytes + i % Config.blockBytes

/-- Bytes of an object written from offset `i` on. -/
def Obj.write (o : Obj) : Nat → List Byte → List Host.Cell → List Host.Cell
  | _, [], cells => cells
  | i, b :: bs, cells => o.write (i + 1) bs (writeCell (o.address i) b cells)

/-- Byte `i` of an object's stream: three size bytes, then the object's bytes (R103). -/
def Obj.streamByte (o : Obj) (cells : List Host.Cell) (i : Nat) : Byte :=
  if i < 3 then (put24 o.size).getD i 0 else readCell (o.address (i - 3)) cells

/-- `n` bytes of an object's stream from `i`. -/
def Obj.stream (o : Obj) (cells : List Host.Cell) (i n : Nat) : List Byte :=
  (List.range n).map (fun j => o.streamByte cells (i + j))

/-! ### The object table -/

/-- Blocks an object of a declared size occupies (R129). -/
def blocksFor (size : Nat) : Nat := ceilDiv size Config.blockBytes

/-- The object of an owner and id. -/
def ObjectStore.find (o : ObjectStore) (owner : LaneId) (id : Byte) : Option Obj :=
  o.objects.find? (fun x => x.owner == owner && x.id == id)

/-- The reserve entry of an identity (R143). -/
def ObjectStore.reserve (o : ObjectStore) (i : Ident) : Option Obj :=
  o.objects.find? (fun x => x.owner == .alert && x.id == i.id && x.level == i.level)

/-- The identity of a reserve entry. -/
def Obj.ident (x : Obj) : Ident := ⟨x.id, x.level⟩

/-- Blocks held by the objects that satisfy `p`. -/
def ObjectStore.held (o : ObjectStore) (p : Obj → Bool) : Nat :=
  ((o.objects.filter p).map (fun x => x.blocks.length)).sum

/-- Free ordinary blocks once the objects that satisfy `gone` are counted as gone (R129, R132). -/
def ObjectStore.freeOrdinary (o : ObjectStore) (gone : Obj → Bool) : Nat :=
  Config.ordinaryBlocks - o.held (fun x => x.owner != .alert && !gone x)

/-- The `n` lowest-numbered free blocks among those from `lo` to below `hi` (log 9). -/
def ObjectStore.takeBlocks (o : ObjectStore) (lo hi n : Nat) : List Nat :=
  (((List.range hi).drop lo).filter (fun b => o.objects.all (fun x => !x.blocks.contains b))).take n

/-- `s` with the object table replaced. -/
def State.setObjects (s : State) (objects : List Obj) : State := s.setStore { s.store with objects := objects }

/-- `s` with the objects of an owner and id changed by `f`. -/
def updateObj (owner : LaneId) (id : Byte) (f : Obj → Obj) (s : State) : State :=
  s.setObjects (s.store.objects.map (fun x => if x.owner = owner ∧ x.id = id then f x else x))

/-! ### Picture carousels -/

/-- The place of an object in the carousel order. -/
def PictureCarousel.find (c : PictureCarousel) (id : Byte) : Option Nat := c.order.findIdx? (fun x => x == id)

/-- The next object (R137). -/
def PictureCarousel.next (c : PictureCarousel) : Option Byte :=
  if c.mark < c.order.length then c.order[c.mark]? else c.order.head?

/-- An object leaves the order: the mark stays between its neighbours (R137). -/
def PictureCarousel.remove (c : PictureCarousel) (id : Byte) : PictureCarousel :=
  match c.find id with
  | none => c
  | some i => { c with order := removeAt c.order i, mark := markAfterRemove c.mark i }

/-- The lane's object that is ON-AIR. -/
def State.onAirObj (s : State) (l : Lane) : Option Obj :=
  s.store.objects.find? (fun x => x.owner == .svc l && x.state == .onAir)

/-- `s` with lane `l`'s picture carousel changed by `f`. -/
def onPictures (l : Lane) (f : PictureCarousel → PictureCarousel) (s : State) : State :=
  s.setPictures l (f (s.pictures.get l))

/-- A lane's object is removed: its blocks are freed, it leaves the order, and the send cursor of an object that was
ON-AIR is cleared (R136, R137). -/
def removeObj (l : Lane) (id : Byte) (s : State) : State :=
  let onAir := match s.onAirObj l with | some o => o.id == id | none => false
  let s := onPictures l (fun c => let c := c.remove id; if onAir then { c with cursor := none } else c) s
  s.setObjects (s.store.objects.filter (fun x => !(x.owner == .svc l && x.id == id)))

/-- The resume position asked for at a push (R141). -/
def State.picturePosition (s : State) (l : Lane) : Option Byte :=
  match s.onAirObj l with
  | some o => some o.id
  | none => (s.pictures.get l).next

/-- The object ON-AIR is interrupted (R140). -/
def interruptPicture (l : Lane) (s : State) : State :=
  match s.onAirObj l with
  | none => s
  | some o =>
    let s := updateObj (.svc l) o.id (fun x => { x with state := .ready }) s
    let s := onPictures l (fun c =>
      { c with cursor := none, mark := match c.find o.id with | some i => i | none => c.mark }) s
    if o.expired then postSelf .objectExpired (some (.svc l)) o.id.toNat (removeObj l o.id s) else s

/-- A resume position is handed back at a pop (R141). -/
def restorePicture (l : Lane) (position : Option Byte) (s : State) : State :=
  onPictures l (fun c =>
    { c with mark := match position with
        | none => 0
        | some id => match c.find id with | some i => i | none => c.mark })
    (interruptPicture l s)

/-- A pass of the next object begins (R138). -/
def beginPass (l : Lane) (s : State) : State :=
  match s.onAirObj l, (s.pictures.get l).next with
  | none, some id =>
    let s := updateObj (.svc l) id (fun x => { x with state := .onAir }) s
    onPictures l (fun c =>
      { c with cursor := some ⟨0, 0⟩, mark := match c.find id with | some i => i + 1 | none => c.mark }) s
  | _, _ => s

/-- The pass of an object is over (R139). -/
def endPass (l : Lane) (id : Byte) (s : State) : State :=
  let s := onPictures l (fun c => { c with cursor := none }) s
  let s := updateObj (.svc l) id (fun x =>
    { x with remaining := if x.repeats = 0 then x.remaining else x.remaining - 1 }) s
  match s.store.find (.svc l) id with
  | none => s
  | some o =>
    if o.repeats ≠ 0 ∧ o.remaining = 0 then removeObj l id s
    else if o.expired then postSelf .objectExpired (some (.svc l)) id.toNat (removeObj l id s)
    else updateObj (.svc l) id (fun x => { x with state := .ready }) s

/-- The segment the picture carousel supplies at a payload limit (R138). First is set on the segment that begins the
pass; a sequence number that wraps to 0 inside a pass does not set it again (log 33). -/
def supplyPicture (l : Lane) (limit : Nat) (s : State) : Option (Segment × State) :=
  let s := beginPass l s
  match s.onAirObj l, (s.pictures.get l).cursor with
  | some o, some k =>
    let n := min limit (o.size + 3 - k.sent)
    let last := decide (o.size + 3 ≤ k.sent + n)
    let g : Segment :=
      ⟨.picture, o.id, k.seq, k.sent == 0, last, o.transfer.toNat, o.stream s.store.cells k.sent n⟩
    let s := onPictures l (fun c => { c with cursor := some ⟨k.sent + n, k.seq + 1⟩ }) s
    some (g, if last then endPass l o.id s else s)
  | _, _ => none

/-! ### Records of the contribution port (R131 to R136, R142) -/

/-- The clamps a PICTURE_BEGIN posts (R131). -/
def postPictureClamps (l : Lane) (id repeats : Byte) (lifetime : BitVec 16) (s : State) : State :=
  let s := onlyIf (decide (15 < repeats.toNat)) (postClamp (.svc l) 3 id) s
  onlyIf (decide (4095 < lifetime.toNat)) (postClamp (.svc l) 4 id) s

/-- The first check of R132 that a PICTURE_BEGIN fails, as its reason, counting an object of the same id as gone. -/
def beginReason (o : ObjectStore) (l : Lane) (id : Byte) (size : Nat) : Option Nat :=
  let same (x : Obj) : Bool := x.owner == .svc l && x.id == id
  if size = 0 ∨ Config.maxObject < size then some 1
  else if Config.laneObjects ≤ (o.objects.filter (fun x => x.owner == .svc l && !same x)).length then some 2
  else if o.freeOrdinary same < blocksFor size then some 4
  else none

/-- Admission of an object (R133). -/
def admitObj (l : Lane) (id : Byte) (size repeats : Nat) (lifetime : Nat) (s : State) : State :=
  let transfer := (s.store.transfers.get l).get id.toFin + 1
  let o : Obj := {
    owner := .svc l, id := id, size := size
    blocks := s.store.takeBlocks 0 Config.ordinaryBlocks (blocksFor size)
    received := 0, state := .assembling, repeats := repeats, remaining := repeats
    expiry := if lifetime = 0 then none else some lifetime
    expired := false, timer := 0, transfer := transfer, level := 0, source := .origin }
  s.setStore { s.store with
    objects := s.store.objects ++ [o]
    transfers := s.store.transfers.set l ((s.store.transfers.get l).set id.toFin transfer) }

/-- A PICTURE_BEGIN that has reached the store (R131 to R133). -/
def pictureBeginOp (l : Lane) (id : Byte) (size : BitVec 24) (repeats : Byte) (lifetime : BitVec 16) (s : State) :
    State :=
  let s := postPictureClamps l id repeats lifetime s
  match beginReason s.store l id size.toNat with
  | some r => postSelf .objectRefused (some (.svc l)) (256 * r + id.toNat) s
  | none => admitObj l id size.toNat (min 15 repeats.toNat) (min 4095 lifetime.toNat) (removeObj l id s)

/-- Bytes taken into an assembling object that begin where it ends and fit it: written, counted, the timer cleared, and
the object READY when whole (R134). -/
def acceptBytes (same : Obj → Bool) (o : Obj) (bytes : List Byte) (s : State) : State :=
  let received := o.received + bytes.length
  let whole := received == o.size
  s.setStore { s.store with
    cells := o.write o.received bytes s.store.cells
    objects := s.store.objects.map (fun x =>
      if same x then { x with received := received, timer := 0, state := if whole then .ready else x.state } else x) }

/-- A PICTURE_CHUNK that has reached the store (R134). -/
def pictureChunkOp (l : Lane) (id : Byte) (offset : BitVec 24) (bytes : List Byte) (s : State) : State :=
  let bad (r : Nat) (s : State) : State := postSelf .objectBad (some (.svc l)) (256 * r + id.toNat) s
  match s.store.find (.svc l) id with
  | none => bad 3 s
  | some o =>
    if o.state ≠ .assembling then bad 3 s
    else if offset.toNat ≠ o.received then bad 1 (removeObj l id s)
    else if o.size < offset.toNat + bytes.length then bad 2 (removeObj l id s)
    else
      let s := acceptBytes (fun x => x.owner == .svc l && x.id == id) o bytes s
      if o.received + bytes.length = o.size then onPictures l (fun c => { c with order := c.order ++ [id] }) s else s

/-- A PICTURE_DROP that has reached the store (R136). -/
def pictureDropOp (l : Lane) (id : Byte) (s : State) : State := removeObj l id s

/-- Every object of a lane is discarded at LANE_RESET; the transfer memory is kept (R142). -/
def discardPictures (l : Lane) (s : State) : State :=
  let s := s.setObjects (s.store.objects.filter (fun x => x.owner != .svc l))
  s.setPictures l ⟨[], 0, none⟩

/-! ### Cycle boundaries (R135, R145) -/

/-- One lane object's expiry count falls; an object that expires and is not ON-AIR is removed (R135). -/
def expireObj (l : Lane) (id : Byte) (s : State) : State :=
  match s.store.find (.svc l) id with
  | none => s
  | some o =>
    match o.expiry with
    | some (n + 1) =>
      let s := updateObj (.svc l) id (fun x => { x with expiry := some n, expired := x.expired || n == 0 }) s
      if n = 0 ∧ o.state ≠ .onAir then postSelf .objectExpired (some (.svc l)) id.toNat (removeObj l id s) else s
    | _ => s

/-- One assembling lane object's chunk timer rises; at 8 the object is removed (R135). -/
def timeObj (l : Lane) (id : Byte) (s : State) : State :=
  match s.store.find (.svc l) id with
  | none => s
  | some o =>
    if o.state ≠ .assembling then s
    else if o.timer + 1 < Config.chunkTimeout then updateObj (.svc l) id (fun x => { x with timer := x.timer + 1 }) s
    else postSelf .objectTimeout (some (.svc l)) id.toNat (removeObj l id s)

/-- The reserve entry of an identity is removed and its blocks freed, with no event (R145). A picture collector that
was filling it is idle from then on (R144, R162; log 20). -/
def discardReserve (i : Ident) (s : State) : State :=
  let s := s.setObjects (s.store.objects.filter (fun x => !(x.owner == .alert && x.ident == i)))
  match s.alerts.pictureCollector, s.alerts.relayKey with
  | some c, some k =>
    if c.allocated ∧ k.2 = i then s.setAlerts { s.alerts with pictureCollector := none } else s
  | _, _ => s

/-- One assembling reserve entry's chunk timer rises; at 8 the entry is removed (R145). -/
def timeReserve (i : Ident) (s : State) : State :=
  match s.store.reserve i with
  | none => s
  | some o =>
    if o.state ≠ .assembling then s
    else if o.timer + 1 < Config.chunkTimeout then
      s.setObjects (s.store.objects.map (fun x =>
        if x.owner = .alert ∧ x.ident = i then { x with timer := x.timer + 1 } else x))
    else postSelf .objectTimeout (some .alert) i.id.toNat (discardReserve i s)

/-- The ids of a lane's objects. -/
def State.laneObjIds (s : State) (l : Lane) : List Byte :=
  (s.store.objects.filter (fun x => x.owner == .svc l)).map (fun x => x.id)

/-- The identities of the reserve entries. -/
def State.reserveIdents (s : State) : List Ident :=
  (s.store.objects.filter (fun x => x.owner == .alert)).map Obj.ident

/-- The Object Store at a cycle boundary (R135, R145): expiry, then chunk timers. First the expiries of lanes 0, 1 and 2,
each lane's oldest entry first, then their chunk timers in that order, and last the reserve's; R135 gives no order for
several objects (DESIGN CHOICE, log 5). -/
def storeBoundary (s : State) : State :=
  let s := forLanes (fun l s => forEach (s.laneObjIds l) (expireObj l) s) s
  let s := forLanes (fun l s => forEach (s.laneObjIds l) (timeObj l) s) s
  forEach s.reserveIdents timeReserve s

/-! ### The alert reserve (R143 to R145) -/

/-- Answer to a request for a reserve entry (R143). -/
inductive Allocation where
  | refused | held | allocated
deriving DecidableEq, Repr

/-- The reserve entry to evict when two are held: the one not of the followed alert, or the earlier (R144). -/
def State.reserveCandidate (s : State) : Option Ident :=
  let followed := s.alerts.followed.map (fun f => f.ident)
  (s.reserveIdents.find? (fun i => some i != followed))

/-- With two entries held, one is evicted (R144). -/
def evictReserve (s : State) : State :=
  if s.reserveIdents.length < 2 then s
  else match s.reserveCandidate with
    | some i => discardReserve i s
    | none => s

/-- The source is RELAY. -/
def Source.isRelay : Source → Bool
  | .origin => false
  | .relay _ => true

/-- An entry for an identity is allocated in the reserve (R143, steps 4 and 5). -/
def allocateEntry (i : Ident) (source : Source) (size : Nat) (relayTransfer : BitVec 4) (s : State) : State :=
  let transfer : BitVec 4 := match source with
    | .relay _ => relayTransfer
    | .origin => match s.store.reserve i with
      | some o => if o.source = .origin then o.transfer + 1 else 0
      | none => 0
  let s := evictReserve (discardReserve i s)
  let o : Obj := {
    owner := .alert, id := i.id, size := size
    blocks := s.store.takeBlocks Config.ordinaryBlocks Config.allBlocks (blocksFor size)
    received := 0, state := .assembling, repeats := 0, remaining := 0, expiry := none, expired := false
    timer := 0, transfer := transfer, level := i.level, source := source }
  s.setObjects (s.store.objects ++ [o])

/-- A request for a reserve entry (R143). -/
def allocateReserve (i : Ident) (source : Source) (size : Nat) (relayTransfer : BitVec 4) (s : State) :
    Allocation × State :=
  if size = 0 ∨ Config.maxObject < size then
    (.refused, if source.isRelay then s else postSelf .objectRefused (some .alert) (256 * 1 + i.id.toNat) s)
  else
    match source.isRelay, s.store.reserve i with
    | true, some o =>
      if o.source = .origin then (.refused, s)
      else if o.state = .ready ∧ o.transfer = relayTransfer then (.held, s)
      else (.allocated, allocateEntry i source size relayTransfer s)
    | _, _ => (.allocated, allocateEntry i source size relayTransfer s)

/-- An ALERT_PICTURE_CHUNK for an own alert's reserve entry (R145): judged as a PICTURE_CHUNK. R145 speaks of an entry of
source ORIGIN; where the alert's picture is being gathered by relay, the chunk has no such entry and is answered with
OBJECT_BAD reason 3, and the RELAY entry stays as it is (DEDUCED, log 56). -/
def reserveChunk (i : Ident) (offset : BitVec 24) (bytes : List Byte) (s : State) : State :=
  let bad (r : Nat) (s : State) : State := postSelf .objectBad (some .alert) (256 * r + i.id.toNat) s
  match s.store.reserve i with
  | none => bad 3 s
  | some o =>
    if o.state ≠ .assembling ∨ o.source ≠ .origin then bad 3 s
    else if offset.toNat ≠ o.received then bad 1 (discardReserve i s)
    else if o.size < offset.toNat + bytes.length then bad 2 (discardReserve i s)
    else acceptBytes (fun x => x.owner == .alert && x.ident == i) o bytes s

/-- Bytes handed over in order by relay reassembly (R145, R162). -/
def reserveAppend (i : Ident) (bytes : List Byte) (s : State) : State :=
  match s.store.reserve i with
  | some o =>
    if o.state = .assembling ∧ bytes ≠ [] then
      acceptBytes (fun x => x.owner == .alert && x.ident == i) o (bytes.take (o.size - o.received)) s
    else s
  | none => s

/-- The alert reserve is freed at QUIET entry (R145). -/
def freeReserve (s : State) : State := s.setObjects (s.store.objects.filter (fun x => x.owner != .alert))

end Sys2Proof.Machine
end

