-- ==== Sys2Proof/Machine/Views.lean ====
section
/-! DEFINITION. What follows from the rest of State: the lane sheets (R36), the header and the outgoing manifest (R35,
R37, R38), the self entry (R42) and the occupancy map (R49 to R53). Each is computed where it is read, so it follows
every change at the moment it is made (R38, R42, R52). -/

namespace Sys2Proof.Machine

/-! ### Own sheets, header and manifest -/

/-- The sheet as a manifest carries it. A lane that a claim has left with a fifth fragment (log 44) announces its four
lowest, which are all that R36 and R185 have places for, and of a pending release the runs that lie in them; the tenancy
record, the self entry and the map keep the fifth. -/
def Sheet.announced (s : Sheet) : Sheet :=
  if s.current.length ≤ Config.maxFragments then s
  else
    let current := s.current.take Config.maxFragments
    let runs (c : PendingChange) : List Run := match c.kind with
      | .claim => c.runs
      | .release => c.runs.filter (fun r => inRuns current r.start)
    { s with
      current := current
      change := s.change.bind (fun c => if (runs c).isEmpty then none else some { c with runs := runs c }) }

/-- The sheet of one of the node's lanes as it stands (R36, R37, R42). -/
def State.sheet (s : State) (i : LaneId) : Sheet :=
  let t := s.tenancy.get i
  let u := s.units.get i
  let base : Sheet := {
    lane := i, state := u.state, serviceId := 0, laneClass := .kept, grade := s.laneGrade i, floor := 0,
    annex := u.split.annex, current := t.runs, change := t.change, redirect := none }
  match i with
  | .alert => base
  | .svc l =>
    match s.contracts.get l with
    | none => { base with redirect := s.alerts.redirect }
    | some c => { base with
        serviceId := c.serviceId, laneClass := c.laneClass, floor := c.floorCells, redirect := s.alerts.redirect }

/-- The entry counts for the map and for alerts: PRESENT, SILENT or OUT-OF-STEP (R49, R54). -/
def PeerEntry.counts (e : PeerEntry) : Bool :=
  match e.state with
  | .present | .silent | .outOfStep => true
  | .unheard | .lost => false

/-- All node numbers in ascending order. -/
def allNodes : List Node := [0, 1, 2, 3, 4, 5, 6, 7]

/-- The own-alert entries in the last headers of the peers whose entries count, lowest peer first (R54, R151). -/
def State.peerAnnounced (s : State) : List (Node × OwnEntry) :=
  allNodes.flatMap (fun m =>
    let e := s.peers.get m
    match decide (m ≠ s.node) && e.counts, e.header with
    | true, some h => h.own.map (fun o => (m, o))
    | _, _ => [])

/-- The lowest peer's announcement of an identity in a role. -/
def State.peerEntryOf (s : State) (i : Ident) (r : Role) : Option (Node × OwnEntry) :=
  s.peerAnnounced.find? (fun x => x.2.ident == i && x.2.role == r)

/-- The announcement a SHADOW copies: the lead's, or else the lowest peer's that announces the identity as SHADOW
(R150). -/
def State.copySource (s : State) (i : Ident) : Option OwnEntry :=
  ((s.peerEntryOf i .lead).or (s.peerEntryOf i .shadow)).map (fun x => x.2)

/-- What a HELD alert announces: the cycle of its raise, yield 0 and no redirect cycle (R150). -/
def OwnAlert.heldAnnounce (o : OwnAlert) : OwnEntry := ⟨o.ident, o.role, o.raised, 0, none, o.endCycle⟩

/-- The announcement of an own alert (R35, R150). Only the node that leads a level-3 alert announces a redirect cycle;
what a SHADOW copied of it stays in the node (R35; log 36). -/
def State.announce (s : State) (o : OwnAlert) : OwnEntry :=
  match o.role with
  | .lead => ⟨o.ident, .lead, o.entry, o.yield, o.redirect, o.endCycle⟩
  | .held => o.heldAnnounce
  | .shadow =>
    match s.copySource o.ident with
    | some e => ⟨o.ident, .shadow, e.entry, e.yield, none, o.endCycle⟩
    | none => o.heldAnnounce

/-- The header of the manifest as it stands (R35). -/
def State.header (s : State) : Header where
  node := s.node.val
  cycle := s.time.cycle
  frame := s.frameIndex
  mode := s.mode.mode
  level := s.alerts.level
  followed := s.alerts.followed.map (fun f => (f.lead.val, f.ident))
  own := s.alerts.own.map s.announce

/-- The outgoing manifest: built in ACTIVE, STANDBY and WITHDRAWING, with the two sheets of the frame index (R37, R38), as
they are announced (R36; log 44). -/
def State.outgoing (s : State) : Option Manifest :=
  if s.onTrunk then
    let lanes := sheetLanes s.frameIndex
    some ⟨s.header, (s.sheet lanes.1).announced, (s.sheet lanes.2).announced⟩
  else none

/-! ### Peer-table entries -/

/-- The self entry (R42). -/
def State.selfEntry (s : State) : PeerEntry :=
  if s.onTrunk then
    ⟨.present, 0, false, some s.header,
      ⟨some (s.sheet (.svc .l0)), some (s.sheet (.svc .l1)), some (s.sheet (.svc .l2)), some (s.sheet .alert)⟩⟩
  else resetPeer

/-- The entry of node `m`, the self entry included. -/
def State.entry (s : State) (m : Node) : PeerEntry :=
  if m = s.node then s.selfEntry else s.peers.get m

/-- The entry's changes are judged against the node's own cycle number (R50, R51). -/
def PeerEntry.inStep (e : PeerEntry) : Bool :=
  match e.state with
  | .present => true
  | .silent => !e.silentOutOfStep
  | .unheard | .lost | .outOfStep => false

/-- All lanes in ascending order of code. -/
def allLanes : List LaneId := [.svc .l0, .svc .l1, .svc .l2, .alert]

/-! ### Coverings and the map (R49 to R52) -/

/-- A covering of cells by a lane of a node: those in `runs` and not in `less`, HELD or PENDING for a cycle. -/
structure Covering where
  node : Node
  lane : LaneId
  pendingFor : Option Cycle
  runs : List Run
  less : List Run
deriving DecidableEq, Repr

/-- The covering takes in cell `k`. -/
def Covering.covers (c : Covering) (k : Nat) : Bool := inRuns c.runs k && !inRuns c.less k

/-- A change of a stored sheet counts as reached (R50, R51). -/
def changeReached (own : Cycle) (inStep : Bool) (c : PendingChange) : Bool := inStep && reached own c.effective

/-- The coverings of one stored sheet (R49, R50, R51). -/
def sheetCoverings (own : Cycle) (m : Node) (inStep : Bool) (sh : Sheet) : List Covering :=
  match sh.change with
  | none => [⟨m, sh.lane, none, sh.current, []⟩]
  | some c =>
    match c.kind with
    | .release =>
      [⟨m, sh.lane, none, sh.current, if changeReached own inStep c then c.runs else []⟩]
    | .claim =>
      [⟨m, sh.lane, none, sh.current, []⟩,
       ⟨m, sh.lane, if changeReached own inStep c then none else some c.effective, c.runs, []⟩]

/-- The stored sheets of an entry, in lane order. -/
def PeerEntry.sheetList (e : PeerEntry) : List Sheet :=
  allLanes.filterMap (fun i => e.sheets.get i)

/-- The coverings of node `m`'s entry (R49). -/
def entryCoverings (own : Cycle) (m : Node) (e : PeerEntry) : List Covering :=
  if e.counts then e.sheetList.flatMap (sheetCoverings own m e.inStep) else []

/-- Every covering in the node's view. -/
def State.coverings (s : State) : List Covering :=
  allNodes.flatMap (fun m => entryCoverings s.time.cycle m (s.entry m))

/-- The value of a cell in the occupancy map (section 3.4). -/
inductive CellValue where
  | free
  | held (node : Node) (lane : LaneId)
  | pending (node : Node) (lane : LaneId) (effective : Cycle)
deriving DecidableEq, Repr

/-- The tag of a covering's lane. -/
def Covering.tag (c : Covering) : Nat := (tagOf c.node (.lane c.lane)).toNat

/-- The covering of the lowest tag among those given (R52). -/
def lowestTag : List Covering → Option Covering
  | [] => none
  | c :: cs =>
    match lowestTag cs with
    | none => some c
    | some d => if d.tag < c.tag then some d else some c

/-- The map's value of cell `k` (R52). -/
def State.cellValue (s : State) (k : Nat) : CellValue :=
  let cs := s.coverings.filter (fun c => c.covers k)
  match lowestTag (cs.filter (fun c => c.pendingFor.isNone)) with
  | some c => .held c.node c.lane
  | none =>
    match lowestTag cs with
    | some c => .pending c.node c.lane (c.pendingFor.getD 0)
    | none => .free

/-- Cell `k` is covered by none of the coverings. -/
def cellFree (cs : List Covering) (k : Nat) : Bool := cs.all (fun c => !c.covers k)

/-- The maximal runs of free cells below `n`, put before the runs already found above it (R53). -/
def freeRunsBelow (cs : List Covering) : Nat → List Run → List Run
  | 0, acc => acc
  | n + 1, acc =>
    if cellFree cs n then
      match acc with
      | r :: rest => if r.start = n + 1 then freeRunsBelow cs n (⟨n, r.len + 1⟩ :: rest)
                     else freeRunsBelow cs n (⟨n, 1⟩ :: r :: rest)
      | [] => freeRunsBelow cs n [⟨n, 1⟩]
    else freeRunsBelow cs n acc

/-- The free runs of the map, in ascending order of start (R53). -/
def State.freeRuns (s : State) : List Run := freeRunsBelow s.coverings Config.cells []

/-- The number of free cells (R53). -/
def State.freeCount (s : State) : Nat := runTotal s.freeRuns

/-- The cells a stored sheet's lane holds: current fragments and a reached claim, less a reached release (R53). -/
def heldCells (own : Cycle) (inStep : Bool) (sh : Sheet) : List Nat :=
  let held := (sheetCoverings own 0 inStep sh).filter (fun c => c.pendingFor.isNone)
  (List.range Config.cells).filter (fun k => held.any (fun c => c.covers k))

/-- The cells an entry's stored sheets cover at own cycle `own`, each counted once (R45): in current fragments, but for
those that a reached release takes off them, and in pending claims, reached ones among them, as the map covers them (R49
to R51). -/
def PeerEntry.coveredCount (e : PeerEntry) (own : Cycle) : Nat :=
  let cs := e.sheetList.flatMap (sheetCoverings own 0 e.inStep)
  ((List.range Config.cells).filter (fun k => cs.any (fun c => c.covers k))).length

/-! ### Announced alerts (R54, R151) -/

/-- The own-alert entries announced on the trunk, with the node that announces each, lowest first: those of the peers
whose entries count, and the node's own. -/
def State.announced (s : State) : List (Node × OwnEntry) :=
  s.peerAnnounced.filter (fun x => decide (x.1 < s.node))
    ++ s.alerts.own.map (fun o => (s.node, s.announce o))
    ++ s.peerAnnounced.filter (fun x => decide (s.node < x.1))

/-- The own-alert entry of an identity in node `m`'s last header, if its entry counts. -/
def State.announcedBy (s : State) (m : Node) (i : Ident) : Option OwnEntry :=
  (s.announced.find? (fun x => x.1 == m && x.2.ident == i)).map (fun x => x.2)

/-- Node `m`'s announcement of an identity as its lead, as last stored or, for the node's own alert, as it stands. -/
def State.leadEntry (s : State) (m : Node) (i : Ident) : Option OwnEntry :=
  (s.announced.find? (fun x => x.1 == m && x.2.ident == i && x.2.role == .lead)).map (fun x => x.2)

/-- The nodes that announce an identity as LEAD, lowest first. -/
def State.leadsOf (s : State) (i : Ident) : List Node :=
  (s.announced.filter (fun x => x.2.ident == i && x.2.role == .lead)).map (fun x => x.1)

/-- The active alerts: announced as LEAD with no end cycle (R151), each with the yield announced (R167). -/
def State.activeAlerts (s : State) : List HeldAlert :=
  (s.announced.filter (fun x => x.2.role == .lead && x.2.endCycle.isNone)).map
    (fun x => ⟨x.2.ident, x.1, x.2.yield⟩)

/-- The lowest lead of an active alert (R151). -/
def State.activeLead (s : State) (i : Ident) : Option Node :=
  (s.activeAlerts.find? (fun a => a.ident == i)).map (fun a => a.lead)

/-- The better of two alerts: the higher level, then the lower lead (R151). -/
def HeldAlert.better (a b : HeldAlert) : Bool :=
  decide (b.ident.level < a.ident.level) || (a.ident.level == b.ident.level && decide (a.lead < b.lead))

/-- The best alert of a list (R151). -/
def bestAlert : List HeldAlert → Option HeldAlert
  | [] => none
  | a :: rest =>
    match bestAlert rest with
    | none => some a
    | some b => if b.better a then some b else some a

/-- The own alert of an id (R148). -/
def State.ownById (s : State) (id : Byte) : Option OwnAlert := s.alerts.own.find? (fun o => o.ident.id == id)

/-- The own alert of an identity. -/
def State.ownOf (s : State) (i : Ident) : Option OwnAlert := s.alerts.own.find? (fun o => o.ident == i)

/-- `s` with every own alert of an identity changed by `f`. -/
def State.updateOwn (s : State) (i : Ident) (f : OwnAlert → OwnAlert) : State :=
  s.setAlerts { s.alerts with own := s.alerts.own.map (fun o => if o.ident = i then f o else o) }

end Sys2Proof.Machine
end

