-- ==== Sys2Proof/Machine/LaneUnit.lean ====
section
/-! DEFINITION. What a Lane Unit does with its lane's state (chapter 5): the budget split, lane status records, the
closing of a lane, the Tenancy Unit's reports, and the completion of a restore (R175). -/

namespace Sys2Proof.Machine

/-! ### The budget split (R83, R84, R110) -/

/-- The split of a service lane from its cells, payload and configured annex (R83). -/
def serviceSplit (cells payload annex : Nat) : Split :=
  let l := cells * payload
  let x := min annex (l / 4)
  ⟨l, x, l - x⟩

/-- The split of the alert lane from its cells, payload, bulletin size and the node's alert level (R84, R110). -/
def alertSplit (cells payload bulletin level : Nat) : Split :=
  let l := cells * payload
  let x := if level = 0 then 0 else if level = 3 then min (bulletin * payload) (l / 2) else min l (bulletin * payload)
  ⟨l, x, l - x⟩

/-- The split a lane's cells give. -/
def State.splitOf (s : State) (i : LaneId) : Split :=
  match i with
  | .svc l =>
    serviceSplit (s.cells i) (gradePayload (s.laneGrade i)) (match s.contracts.get l with | some c => c.annex | none => 0)
  | .alert => alertSplit (s.cells i) (gradePayload (s.laneGrade i)) s.config.bulletin s.alerts.level

/-- A Lane Unit changed by `f`. -/
def onUnit (i : LaneId) (f : LaneUnit → LaneUnit) (s : State) : State := s.setUnit i (f (s.units.get i))

/-- The split recomputed at a change of the lane's cells or, for the alert lane, of the level (R83, R84). -/
def resplit (i : LaneId) (s : State) : State := onUnit i (fun u => { u with split := s.splitOf i }) s

/-- A lane put in a state. -/
def setLaneState (i : LaneId) (x : LaneState) (s : State) : State := onUnit i (fun u => { u with state := x }) s

/-! ### Lane status records (R97, R98) -/

/-- The lane status record of a lane as it stands (R97). -/
def State.laneStatus (s : State) (l : Lane) : LaneStatus :=
  let u := s.units.get (.svc l)
  let c := s.contracts.get l
  { lane := l
    serviceId := match c with | some c => c.serviceId | none => 0
    name := match c with | some c => c.name | none => List.replicate 8 0
    state := u.state
    cells := s.cells (.svc l)
    audio := u.split.audio
    rate := u.split.audio / 10
    annex := u.split.annex
    fill := u.fifo.length
    intake := u.intake
    level := s.alerts.level
    squeezed := u.state == .squeezed || u.state == .restoring }

/-- A record made for a return line (R98): it begins at once on an idle line whose clock runs; otherwise it waits, in
the place of a record already waiting. -/
def ReturnLine.make (r : ReturnLine) (record : LaneStatus) : ReturnLine :=
  if r.sending.isNone ∧ r.clockStopped = false then { r with sending := some record }
  else { r with waiting := some record }

/-- A lane status record is made, in every mode but CONFIG and HALTED (R98). -/
def makeStatus (l : Lane) (s : State) : State :=
  if s.live then s.setReturn l ((s.returnLines.get l).make (s.laneStatus l)) else s

/-! ### Discarding a FIFO, closing a lane -/

/-- The Lane Unit with its FIFO discarded: intake ACCEPTING, nothing counted as dropped (R79, R91, R93; log 25). -/
def LaneUnit.discard (u : LaneUnit) : LaneUnit := { u with fifo := [], intake := .accepting, dropped := 0 }

/-- A lane status record for the return to ACCEPTING at a discard of a held FIFO (R98); none for the alert lane
(R96). -/
def statusIfHeld (i : LaneId) (was : Intake) (s : State) : State :=
  match i, was with
  | .svc l, .held => makeStatus l s
  | _, _ => s

/-- The lane's scheduler when a service lane becomes CLOSED (R99): both alert cursors emptied, and the items in progress
interrupted. -/
def closeSched (i : LaneId) (s : State) : State :=
  match i with
  | .alert => s
  | .svc l =>
    let s := s.setSched i { s.scheds.get i with caption := none, picture := none }
    interruptPicture l (onCaptions l CaptionCarousel.interrupt s)

/-- A lane becomes CLOSED: its FIFO is discarded and LANE_CLOSED names the bytes it held (R81, R96). The interruption of
its items (R99) comes first, so that the OBJECT_EXPIRED of an expired picture (R140) is posted before LANE_CLOSED; R178
leaves the two in either order (DESIGN CHOICE, log 6). -/
def closeLane (i : LaneId) (s : State) : State :=
  let u := s.units.get i
  let s := onUnit i (fun u => { u.discard with state := .closed }) s
  let s := closeSched i s
  statusIfHeld i u.intake (postSelf .laneClosed (some i) u.fifo.length s)

/-! ### Restore completion (R175) -/

/-- The restore value of a lane in the bottom context. -/
def State.bottomRestore (s : State) (l : Lane) : Option Nat :=
  (s.alerts.stack.getLast?).bind (fun c => c.restore.get l)

/-- The state a lane takes when its restore completes (R175). -/
def State.restoredState (s : State) (l : Lane) : LaneState :=
  let n := s.cells (.svc l)
  if s.alerts.level ≠ 0 ∧ n < (s.bottomRestore l).getD 0 ∧ s.floorCells l ≤ n then .squeezed else .onAir

/-- A tenancy record changed by `f`. -/
def onTenancy (i : LaneId) (f : Tenancy → Tenancy) (s : State) : State := s.setTenancy i (f (s.tenancy.get i))

/-- The check for a completed restore (R175): made at each report and at each change of target or restore target. -/
def checkRestore (l : Lane) (s : State) : State :=
  let t := s.tenancy.get (.svc l)
  match (s.units.get (.svc l)).state, t.restoreTarget with
  | .restoring, some r =>
    if min r t.target ≤ t.cells then
      setLaneState (.svc l) (s.restoredState l) (onTenancy (.svc l) (fun t => { t with restoreTarget := none }) s)
    else s
  | _, _ => s

/-! ### The Tenancy Unit's reports (R55, R81, R82, R96, R171) -/

/-- What a report does to a service lane (R81, R82, R171, R175). A SQUEEZED lane that a report finds above 0 cells and below
its floor is ON-AIR whatever took the cells, a due release after an earlier cell loss too: R171's table names cell loss
alone, and R169 has no SQUEEZED lane below its floor (DEDUCED, log 52). -/
def reportService (l : Lane) (s : State) : State :=
  let t := s.tenancy.get (.svc l)
  let bare := t.cells = 0 ∧ t.change.isNone
  match (s.units.get (.svc l)).state with
  | .closed => s
  | .opening => if 0 < t.cells then setLaneState (.svc l) .onAir s else s
  | .onAir => if bare then setLaneState (.svc l) .opening s else s
  | .squeezed =>
    if bare then setLaneState (.svc l) .opening s
    else if 0 < t.cells ∧ t.cells < s.floorCells l then setLaneState (.svc l) .onAir s else s
  | .restoring => checkRestore l s
  | .closing => if bare then closeLane (.svc l) s else s

/-- What a report does to the alert lane (R96). -/
def reportAlert (s : State) : State :=
  let t := s.tenancy.get .alert
  let bare := t.cells = 0 ∧ t.change.isNone
  match (s.units.get .alert).state with
  | .opening => if 0 < t.cells then setLaneState .alert .onAir s else s
  | .onAir => if bare ∧ 0 < t.target then setLaneState .alert .opening s else s
  | .closing =>
    if bare then
      let s := closeLane .alert s
      if 0 < t.target then
        postSelf .laneOpened (some .alert) t.target (setLaneState .alert .opening s)
      else s
    else s
  | .closed | .squeezed | .restoring => s

/-- The Tenancy Unit reports a lane whose cells or pending change have changed (R55): the split follows (R83), then the
lane state. -/
def reportLane (i : LaneId) (s : State) : State :=
  let s := resplit i s
  match i with
  | .svc l => reportService l s
  | .alert => reportAlert s

end Sys2Proof.Machine
end

