-- ==== Sys2Proof/Machine/TenancyUnit.lean ====
section
/-! DEFINITION. The Tenancy Unit (chapter 4): planning claims and releases, withdrawals, what a cycle boundary applies,
trimming, cell loss, and the requests of the Lane Units, the Mode Controller and the Alert Controller. -/

namespace Sys2Proof.Machine

/-! ### Runs and fragments -/

/-- A fragment put in its place by start. -/
def insertFragment (f : Fragment) : List Fragment → List Fragment
  | [] => [f]
  | g :: rest => if f.start ≤ g.start then f :: g :: rest else g :: insertFragment f rest

/-- A fragment joined to the list above it when it abuts its first; the joined fragment keeps a loss mark (R72). -/
def joinFragment (f : Fragment) (above : List Fragment) : List Fragment :=
  match above with
  | [] => [f]
  | g :: rest =>
    if f.start + f.len = g.start then ⟨f.start, f.len + g.len, f.mark.or g.mark⟩ :: rest else f :: g :: rest

/-- A fragment list with runs added, abutting ones joined (R59, R72). -/
def addRuns (fs : List Fragment) (rs : List Run) : List Fragment :=
  ((rs.foldl (fun acc r => insertFragment ⟨r.start, r.len, none⟩ acc) fs).foldr joinFragment [])

/-- What is left of a run when the cells of another are removed: the parts below and above. -/
def runMinus (a b : Run) : List Run :=
  let below := min (a.start + a.len) b.start
  let above := max a.start (b.start + b.len)
  (if a.start < below then [⟨a.start, below - a.start⟩] else [])
    ++ (if above < a.start + a.len then [⟨above, a.start + a.len - above⟩] else [])

/-- A run of no cells removes nothing. -/
def runMinus' (a b : Run) : List Run := if b.len = 0 then [a] else runMinus a b

/-- Runs with the cells of others removed. -/
def runsMinus (rs gone : List Run) : List Run :=
  gone.foldl (fun acc g => acc.flatMap (fun r => runMinus' r g)) rs

/-- Fragments with the cells of runs removed; what is left keeps its mark. -/
def fragmentsMinus (fs : List Fragment) (gone : List Run) : List Fragment :=
  fs.flatMap (fun f => (runsMinus [⟨f.start, f.len⟩] gone).map (fun r => ⟨r.start, r.len, f.mark⟩))

/-- The `k` highest cells taken off fragments listed from the highest down: what stays, and the runs removed, in
ascending order (R66). -/
def trimDown : Nat → List Fragment → List Run → List Fragment × List Run
  | _, [], gone => ([], gone)
  | k, f :: fs, gone =>
    if k = 0 then (f :: fs, gone)
    else if f.len ≤ k then trimDown (k - f.len) fs (⟨f.start, f.len⟩ :: gone)
    else ({ f with len := f.len - k } :: fs, ⟨f.start + (f.len - k), k⟩ :: gone)

/-- Trimming `k` cells from a lane (R66): the fragments left and the runs removed. -/
def trim (k : Nat) (fs : List Fragment) : List Fragment × List Run :=
  let (left, gone) := trimDown k fs.reverse []
  (left.reverse, gone)

/-- The runs a claim of `need` cells takes from free runs, first fit, within four fragments (R59). -/
def takeRuns (current : List Fragment) : List Run → Nat → List Run → List Run
  | [], _, taken => taken
  | r :: rs, need, taken =>
    if need = 0 then taken
    else
      let piece : Run := ⟨r.start, min r.len need⟩
      let more := taken ++ [piece]
      if (addRuns current more).length ≤ Config.maxFragments ∧ more.length ≤ Config.maxFragments then
        takeRuns current rs (need - piece.len) more
      else takeRuns current rs need taken

/-! ### Announcing frames (R61, R152) -/

/-- The node's directory slot 3n of the frame in progress has begun. -/
def State.directoryBegun (s : State) : Bool := decide (3 * s.node.val < s.trunk.slotsBegun)

/-- The parity of the frames that carry a lane's sheet (R37). -/
def laneParity : LaneId → Nat
  | .svc .l0 => 0
  | .svc .l1 => 0
  | .svc .l2 => 1
  | .alert => 1

/-- The cycle Ca of the announcing frame of a change of a lane planned now (R61). -/
def State.announceCycle (s : State) (i : LaneId) : Cycle :=
  let f := s.frameIndex
  let next := if f % 2 = laneParity i then (if s.directoryBegun then f + 2 else f) else f + 1
  if next < 16 then s.time.cycle else s.time.cycle + 1

/-- The first frame whose slot 3n begins after this instant: its cycle and index (R152). -/
def State.nextAnnounce (s : State) : Cycle × Nat :=
  let next := if s.directoryBegun then s.frameIndex + 1 else s.frameIndex
  if next < 16 then (s.time.cycle, next) else (s.time.cycle + 1, next - 16)

/-- The margin of R152: the cycle after the announcing frame's when at least four frames follow it, else the one after
that. -/
def State.margin (s : State) : Cycle :=
  let (ca, f) := s.nextAnnounce
  if f ≤ 11 then ca + 1 else ca + 2

/-- The effective cycle of a change planned now (R61). -/
def State.effectiveCycle (s : State) (i : LaneId) (kind : ChangeKind) (rank : Rank) : Cycle :=
  match kind, rank with
  | .claim, .ordinary => s.announceCycle i + 2
  | .claim, .restore => s.announceCycle i + 2
  | .claim, .alert => s.announceCycle i + 1
  | .release, _ => s.announceCycle i + 1

/-! ### Planning (R58 to R60, R67) -/

/-- A change becomes the lane's pending change at once (R61); the Lane Unit is not yet told. -/
def setChange (i : LaneId) (kind : ChangeKind) (rank : Rank) (runs : List Run) (s : State) : State :=
  onTenancy i (fun t => { t with change := some ⟨kind, rank, s.effectiveCycle i kind rank, runs⟩ }) s

/-- The rank of a lane's releases (R55). -/
def releaseRank : LaneId → Rank
  | .alert => .alert
  | .svc _ => .ordinary

/-- A release of the top `k` cells is planned (R67), without a report. -/
def setRelease (i : LaneId) (k : Nat) (s : State) : State :=
  setChange i .release (releaseRank i) (trim k (s.tenancy.get i).fragments).2 s

/-- The rank of the claim a lane would make and the cells it wants (R58). -/
def State.wants (s : State) (i : LaneId) : Rank × Nat :=
  let t := s.tenancy.get i
  match i with
  | .alert => (.alert, t.target)
  | .svc _ =>
    match (s.units.get i).state, t.restoreTarget with
    | .restoring, some r => (.restore, min r t.target)
    | _, _ => (.ordinary, t.target)

/-- The mode in which a lane's claims are planned (R58). -/
def State.claimMode (s : State) (i : LaneId) : Bool :=
  match i with
  | .alert => s.onTrunk
  | .svc _ => !s.inReset && s.mode.mode == .active

/-- CLAIM_DEFERRED is posted unless the lane's deferral already is `d`; the deferral becomes `d` (R58, R60). -/
def defer (i : LaneId) (d : Deferral) (arg : Nat) (s : State) : State :=
  let posted := (s.tenancy.get i).deferral == d
  let s := onTenancy i (fun t => { t with deferral := d }) s
  if posted then s else postSelf .claimDeferred (some i) arg s

/-- A claim of `need` cells is planned (R59, R60). -/
def makeClaim (i : LaneId) (rank : Rank) (need : Nat) (s : State) : State :=
  let taken := takeRuns (s.tenancy.get i).fragments s.freeRuns need []
  let enough : Bool := match rank with
    | .ordinary => runTotal taken == need
    | .restore | .alert => decide (0 < runTotal taken)
  if enough then
    reportLane i (onTenancy i (fun t => { t with deferral := .none }) (setChange i .claim rank taken s))
  else defer i .room need s

/-- A planning attempt for a lane (R58). -/
def planAttempt (i : LaneId) (s : State) : State :=
  let t := s.tenancy.get i
  let (rank, want) := s.wants i
  if t.target < t.cells then
    if t.change.isNone then reportLane i (setRelease i (t.cells - t.target) s) else s
  else if want ≤ t.cells then s
  else if s.claimMode i ∧ t.change.isNone ∧ t.backoff = 0 then
    if rank = .ordinary ∧ s.alerts.level ≠ 0 then defer i .alert (1024 + (want - t.cells)) s
    else makeClaim i rank (want - t.cells) s
  else s

/-! ### Withdrawal (R64) -/

/-- The backoff a withdrawal sets (R64). -/
def withdrawBackoff (node : Node) (cause : Nat) (rank : Rank) (old : Nat) : Nat :=
  if cause = 1 ∨ cause = 2 then
    match rank with
    | .ordinary => 2 + node.val
    | .restore => 1
    | .alert => 0
  else old

/-- A pending claim is withdrawn (R64), without a report; a pending release never is. -/
def withdrawCore (i : LaneId) (cause : Nat) (who : Node) (s : State) : State :=
  match (s.tenancy.get i).change with
  | some c =>
    if c.kind = .claim then
      postSelf .claimWithdrawn (some i) (256 * cause + who.val)
        (onTenancy i (fun t =>
          { t with change := none, deferral := .none, backoff := withdrawBackoff s.node cause c.rank t.backoff }) s)
    else s
  | none => s

/-- A pending claim is withdrawn (R64) and the lane reported. -/
def withdraw (i : LaneId) (cause : Nat) (who : Node) (s : State) : State :=
  if (s.tenancy.get i).claiming then reportLane i (withdrawCore i cause who s) else s

/-- A pending claim of a rank is withdrawn. -/
def withdrawRank (i : LaneId) (rank : Rank) (cause : Nat) (s : State) : State :=
  match (s.tenancy.get i).change with
  | some c => if c.kind = .claim ∧ c.rank = rank then withdraw i cause s.node s else s
  | none => s

/-! ### Conflicts with a stored sheet (R62, R63) -/

/-- Two run lists share a cell. -/
def runsMeet (a b : List Run) : Bool := (runCells a).any (fun k => inRuns b k)

/-- Order of ranks: ALERT above RESTORE above ORDINARY (R62). -/
def Rank.weight : Rank → Nat
  | .ordinary => 0 | .restore => 1 | .alert => 2

/-- The own claim loses to a peer's claim (R62). -/
def ownLoses (own peer : Rank) (me m : Node) : Bool :=
  decide (own.weight < peer.weight) || (own.weight == peer.weight && decide (m < me))

/-- The own pending claim of lane `i` is compared with a stored sheet of peer `m`: with its pending claim by rank
(R62), and with its held cells (R63). Where both withdraw it the cause is 1, the rank's; the spec gives no order of the
two (log 43). -/
def conflictCheck (m : Node) (inStep : Bool) (sh : Sheet) (i : LaneId) (s : State) : State :=
  match (s.tenancy.get i).change with
  | none => s
  | some c =>
    if c.kind ≠ .claim then s
    else
      let cs := sheetCoverings s.time.cycle m inStep sh
      let pending := (cs.filter (fun x => x.pendingFor.isSome)).flatMap (fun x => x.runs)
      let peerRank := match sh.change with | some p => p.rank | none => .ordinary
      let held := cs.filter (fun x => x.pendingFor.isNone)
      if runsMeet c.runs pending ∧ ownLoses c.rank peerRank s.node m then withdraw i 1 m s
      else if (runCells c.runs).any (fun k => held.any (fun x => x.covers k)) then withdraw i 2 m s
      else s

/-! ### Cycle boundary, steps 1, 2 and 4 (R65, R72, R74) -/

/-- The change is due at the cycle in progress (R72). -/
def PendingChange.due (c : PendingChange) (kind : ChangeKind) (now : Cycle) : Bool :=
  c.kind == kind && c.effective == now

/-- A due release of a lane is applied (R72 step 1), without a report. -/
def applyRelease (i : LaneId) (s : State) : State :=
  match (s.tenancy.get i).change with
  | some c =>
    if c.due .release s.time.cycle then
      postSelf .releaseDone (some i) (runTotal c.runs)
        (onTenancy i (fun t => { t with fragments := fragmentsMinus t.fragments c.runs, change := none }) s)
    else s
  | none => s

/-- A due claim of a lane is applied (R72 step 2), without a report. Where a fragment that the claim would have joined has
been dropped since (R78 leaves the claim), the lane can hold five fragments, and the fifth stands (R56; log 44). -/
def applyClaim (i : LaneId) (s : State) : State :=
  match (s.tenancy.get i).change with
  | some c =>
    if c.due .claim s.time.cycle then
      postSelf .claimTaken (some i) (runTotal c.runs)
        (onTenancy i (fun t => { t with fragments := addRuns t.fragments c.runs, change := none }) s)
    else s
  | none => s

/-- A lane has a change of a kind due at the cycle in progress. -/
def State.isDue (s : State) (i : LaneId) (kind : ChangeKind) : Bool :=
  match (s.tenancy.get i).change with | some c => c.due kind s.time.cycle | none => false

/-- Steps 1 and 2 of a cycle boundary, then the reports (R72), each for the alert lane and then lanes 0, 1 and 2; the spec
gives no order of the lanes (DESIGN CHOICE, log 5). -/
def tenancySteps12 (s : State) : State :=
  let changed := LaneId.planningOrder.filter (fun i => s.isDue i .release || s.isDue i .claim)
  let s := forEach LaneId.planningOrder applyRelease s
  let s := forEach LaneId.planningOrder applyClaim s
  forEach changed reportLane s

/-- Step 4 for one lane (R65): count down the backoff, or make a planning attempt. Backoff holds off claims only: a
release that is needed is planned all the same (R65, R67; log 34). -/
def stepFour (i : LaneId) (s : State) : State :=
  let t := s.tenancy.get i
  if 0 < t.backoff then
    let s := onTenancy i (fun t => { t with backoff := t.backoff - 1 }) s
    if t.target < t.cells then planAttempt i s else s
  else planAttempt i s

/-- Step 4 of a cycle boundary (R74). -/
def tenancyStep4 (s : State) : State := forEach LaneId.planningOrder stepFour s

/-! ### Trimming under yield (R73), and cell loss (R77, R78) -/

/-- A pending release without cells the lane no longer holds; one left empty is cleared (R73, R78). -/
def dropFromRelease (gone : List Run) (c : Option PendingChange) : Option PendingChange :=
  match c with
  | some p =>
    if p.kind = .release then
      let left := runsMinus p.runs gone
      if left.isEmpty then none else some { p with runs := left }
    else some p
  | none => none

/-- A service lane gives up `k` cells at once (R73). -/
def shrinkLane (l : Lane) (k : Nat) (s : State) : State :=
  if k = 0 then s
  else
    let (left, gone) := trim k (s.tenancy.get (.svc l)).fragments
    reportLane (.svc l) (postSelf .yieldApplied (some (.svc l)) k
      (onTenancy (.svc l) (fun t => { t with fragments := left, change := dropFromRelease gone t.change }) s))

/-- The backoff after a lost fragment (R78). -/
def lossBackoff (s : State) (i : LaneId) : Nat :=
  match i with
  | .alert => 0
  | .svc _ => if (s.units.get i).state = .restoring then 1 else 2 + s.node.val

/-- A fragment is dropped (R78). -/
def dropFragment (i : LaneId) (f : Fragment) (s : State) : State :=
  let b := lossBackoff s i
  reportLane i (postSelf .cellLost (some i) f.start
    (onTenancy i (fun t => { t with
      fragments := t.fragments.filter (fun g => g.start != f.start)
      change := dropFromRelease [⟨f.start, f.len⟩] t.change
      deferral := .none
      backoff := b }) s))

/-- A lost-slot report for a cell of a lane in the frame at position `p` (R77). -/
def lostSlot (i : LaneId) (cell : Nat) (p : FramePos) (s : State) : State :=
  match (s.tenancy.get i).fragments.find? (fun f => decide (f.start ≤ cell ∧ cell < f.start + f.len)) with
  | none => s
  | some f =>
    if f.mark = some (p - 1) then dropFragment i f s
    else onTenancy i (fun t => { t with
      fragments := t.fragments.map (fun g => if g.start = f.start then { g with mark := some p } else g) }) s

/-- At a frame boundary each mark that is not the position of the frame just ended is cleared (R77). -/
def clearMarks (ended : FramePos) (s : State) : State :=
  forEach LaneId.planningOrder (fun i => onTenancy i (fun t => { t with
    fragments := t.fragments.map (fun g => if g.mark = some ended then g else { g with mark := none }) })) s

/-! ### Requests of the Lane Unit and the Mode Controller (R68 to R70, R172, R173) -/

/-- A service lane's target cells set for a rate. -/
def setTargetRate (l : Lane) (rate : Nat) (s : State) : State :=
  onTenancy (.svc l) (fun t => { t with target := cellsForRate rate (s.laneGrade (.svc l)) }) s

/-- A service lane is opened at a rate, its planning attempt still to be made (R68, R81): OPENING, LANE_OPENED, the
target. -/
def openUnplanned (l : Lane) (rate : Nat) (s : State) : State :=
  setTargetRate l rate (postSelf .laneOpened (some (.svc l)) rate (setLaneState (.svc l) .opening s))

/-- A service lane is opened at a rate (R68, R81), with its planning attempt. -/
def openService (l : Lane) (rate : Nat) (s : State) : State := planAttempt (.svc l) (openUnplanned l rate s)

/-- The last element of a list changed by `f`: the bottom context. -/
def mapLast {α : Type} (f : α → α) : List α → List α
  | [] => []
  | [x] => [f x]
  | x :: y :: rest => x :: mapLast f (y :: rest)

/-- A rate is kept in the bottom context (R173). -/
def keepRate (l : Lane) (rate : Nat) (s : State) : State :=
  s.setAlerts { s.alerts with
    stack := mapLast (fun c => { c with kept := c.kept.set l (some rate) }) s.alerts.stack }

/-- A new target rate for an open service lane (R69). The withdrawal of its pending claim makes no report, since the lane
state does not change on the record (R89): an ON-AIR lane that it leaves without cells stays ON-AIR. The change of the target
can complete a restore (R175). -/
def rateRequest (l : Lane) (rate : Nat) (s : State) : State :=
  if s.alerts.stack ≠ [] then keepRate l rate s
  else
    let s := setTargetRate l rate s
    let s := withdrawCore (.svc l) 3 s.node s
    planAttempt (.svc l) (checkRestore l s)

/-- The saved contexts when a service lane is closed (R172): restore value 0, no kept rate. -/
def closeContexts (l : Lane) (s : State) : State :=
  s.setAlerts { s.alerts with
    stack := s.alerts.stack.map (fun c =>
      { c with restore := c.restore.set l ((c.restore.get l).map (fun _ => 0)), kept := c.kept.set l none }) }

/-- The Tenancy Unit's part of a close (R70); it makes no report that moves the lane (R82). -/
def tenancyClose (l : Lane) (s : State) : State :=
  let s := onTenancy (.svc l) (fun t => { t with target := 0, restoreTarget := none }) s
  let s := withdrawCore (.svc l) 4 s.node s
  let t := s.tenancy.get (.svc l)
  if 0 < t.cells ∧ t.change.isNone then setRelease (.svc l) t.cells s else s

/-- A service lane that is OPENING, ON-AIR, SQUEEZED or RESTORING is closed (R70, R81, R90, R172). -/
def closeService (l : Lane) (s : State) : State :=
  let s := closeContexts l (tenancyClose l s)
  if 0 < s.cells (.svc l) then setLaneState (.svc l) .closing s else closeLane (.svc l) s

/-! ### The alert lane's target (R75, R96) -/

/-- What a new target does to the alert lane's state (R96). -/
def alertLaneTargetState (target : Nat) (s : State) : State :=
  let u := s.units.get .alert
  if target = 0 then
    if 0 < s.cells .alert then (if u.state = .closed then s else setLaneState .alert .closing s)
    else if u.state = .closed then s else closeLane .alert s
  else if u.state = .closed then
    postSelf .laneOpened (some .alert) target (setLaneState .alert .opening s)
  else s

/-- The Alert Controller sets the alert lane's target (R75): a claim no longer needed is withdrawn, the lane state
follows (R96), and a planning attempt is made. -/
def setAlertTarget (target : Nat) (s : State) : State :=
  let s := onTenancy .alert (fun t => { t with target := target }) s
  let s := if target = 0 ∨ target < s.cells .alert then withdrawCore .alert 7 s.node s else s
  planAttempt .alert (alertLaneTargetState target s)

end Sys2Proof.Machine
end

