-- ==== Sys2Proof/Machine/LaneRecords.lean ====
section
/-! DEFINITION. What the lane records of a contribution port do (sections 5.5 and 5.6): audio units, opening, rating,
closing and resetting a lane. -/

namespace Sys2Proof.Machine

/-! ### The audio FIFO (R92) -/

/-- An intake change of a lane has come about: a service lane makes a lane status record (R98); the alert lane makes
none (R96). -/
def statusForIntake (i : LaneId) (s : State) : State :=
  match i with
  | .svc l => makeStatus l s
  | .alert => s

/-- A coded unit handed to a Lane Unit that takes it (R92). -/
def appendUnit (i : LaneId) (unit : List Byte) (s : State) : State :=
  let u := s.units.get i
  match u.intake with
  | .held => s.setUnit i { u with dropped := min Config.maxDropped (u.dropped + 1) }
  | .accepting =>
    if unit.length ≤ Config.fifoBytes - u.fifo.length then s.setUnit i { u with fifo := u.fifo ++ unit }
    else
      statusForIntake i
        (postSelf .intakeHeld (some i) u.fifo.length (s.setUnit i { u with intake := .held, dropped := 1 }))

/-- A lane state in which audio units are taken (R87, R92). -/
def LaneState.takesAudio : LaneState → Bool
  | .opening | .onAir | .squeezed | .restoring => true
  | .closed | .closing => false

/-- An AUDIO_UNIT taken on the port of an enabled lane (R87, R92). -/
def audioUnitOp (l : Lane) (unit : List Byte) (s : State) : State :=
  if (s.units.get (.svc l)).state.takesAudio then appendUnit (.svc l) unit s else s

/-! ### Opening, rating and closing (R88 to R90) -/

/-- The rate used for a rate given: rounded down to a multiple of 8, then clamped to the contract (R89). -/
def Contract.rateUsed (c : Contract) (given : Nat) : Nat := max c.rmin (min c.rmax (given / 8 * 8))

/-- RATE_CLAMPED when the rate used differs from the rate given (R89). -/
def postRateClamped (l : Lane) (given used : Nat) (s : State) : State :=
  if used = given then s else postSelf .rateClamped (some (.svc l)) used s

/-- A new target rate for an open lane (R89). -/
def rateOp (l : Lane) (c : Contract) (given : Nat) (s : State) : State :=
  rateRequest l (c.rateUsed given) (postRateClamped l given (c.rateUsed given) s)

/-- A LANE_OPEN taken on the port of an enabled lane (R87, R88). -/
def laneOpenOp (l : Lane) (c : Contract) (rate : Option (BitVec 16)) (s : State) : State :=
  match (s.units.get (.svc l)).state with
  | .closed =>
    if s.mode.mode = .active then
      match rate with
      | none => openService l c.rnom s
      | some r => openService l (c.rateUsed r.toNat) (postRateClamped l r.toNat (c.rateUsed r.toNat) s)
    else s
  | .opening | .onAir | .squeezed | .restoring =>
    match rate with
    | none => s
    | some r => rateOp l c r.toNat s
  | .closing => s

/-- A LANE_RATE taken on the port of an enabled lane (R87, R89). -/
def laneRateOp (l : Lane) (c : Contract) (rate : BitVec 16) (s : State) : State :=
  match (s.units.get (.svc l)).state with
  | .opening | .onAir | .squeezed | .restoring => rateOp l c rate.toNat s
  | .closed | .closing => s

/-- A close of a service lane, by LANE_CLOSE or at entry to WITHDRAWING (R81, R90): a lane that is CLOSED or CLOSING
stays as it is. -/
def laneCloseOp (l : Lane) (s : State) : State :=
  match (s.units.get (.svc l)).state with
  | .opening | .onAir | .squeezed | .restoring => closeService l s
  | .closed | .closing => s

/-! ### Resetting a lane (R91, R109) -/

/-- A cursor returned to the first byte of its content, its identity kept (R109). -/
def Cursor.rewind (k : Cursor) : Cursor := { k with sent := 0, seq := 0 }

/-- A LANE_RESET taken on the port of an enabled lane (R91, R109, R127, R142). -/
def laneResetOp (l : Lane) (s : State) : State :=
  let u := s.units.get (.svc l)
  let s := s.setUnit (.svc l) u.discard
  let s := discardPictures l (onCaptions l CaptionCarousel.discardAll s)
  let k := s.scheds.get (.svc l)
  let s := s.setSched (.svc l) { k with caption := k.caption.map Cursor.rewind, picture := k.picture.map Cursor.rewind }
  statusIfHeld (.svc l) u.intake (postSelf .laneReset (some (.svc l)) u.fifo.length s)

end Sys2Proof.Machine
end

