-- ==== Sys2Proof/Machine/AlertLead.lean ====
section
/-! DEFINITION. The lead's side of an alert (chapters 9 and 10): the lane alert and its target (R158), the yield figure
(R166), origination and takeover (R152), roles (R150), and what an identity that is held no more leaves (R155). -/

namespace Sys2Proof.Machine

/-! ### Identities the node holds (R155) -/

/-- The identity is followed, scheduled, pending or own. -/
def State.holds (s : State) (i : Ident) : Bool :=
  (match s.alerts.followed with | some f => f.ident == i | none => false)
    || s.alerts.scheduled.any (fun x => x.ident == i) || s.alerts.pendingAlerts.any (fun x => x.ident == i)
    || s.alerts.own.any (fun x => x.ident == i)

/-- The identities that are followed, scheduled, pending or own. -/
def State.heldIdents (s : State) : List Ident :=
  (match s.alerts.followed with | some f => [f.ident] | none => [])
    ++ s.alerts.scheduled.map (fun x => x.ident) ++ s.alerts.pendingAlerts.map (fun x => x.ident)
    ++ s.alerts.own.map (fun x => x.ident)

/-- The kept text of an identity is discarded. -/
def dropKeptText (i : Ident) (s : State) : State :=
  s.setAlerts { s.alerts with keptTexts := s.alerts.keptTexts.filter (fun t => t.ident != i) }

/-- An identity's relay text buffer is discarded, and with it a kept text (R147, R155). -/
def dropRelayText (i : Ident) (s : State) : State :=
  let s := dropKeptText i s
  s.setAlerts { s.alerts with relayTexts := s.alerts.relayTexts.filter (fun t => t.ident != i) }

/-- What the identities that were held before and are held no more leave behind: reserve entry and relay text are
discarded (R155). -/
def sweepIdents (before : List Ident) (s : State) : State :=
  forEach (before.filter (fun i => !s.holds i)) (fun i s => dropRelayText i (discardReserve i s)) s

/-- `f`, and then the keep rule of R155. -/
def keeping (f : State → State) (s : State) : State := sweepIdents s.heldIdents (f s)

/-! ### Events of alerts -/

/-- 256 times the level plus the id. -/
def Ident.arg (i : Ident) : Nat := 256 * i.level + i.id.toNat

/-- An alert event with a node as subject and no lane (R180). -/
def postAlert (kind : EventKind) (subject : Node) (i : Ident) (s : State) : State :=
  post kind subject.val none i.arg s

/-! ### The lane alert (R158) -/

/-- The identity of highest level in a list, and of several of that level the first. -/
def topIdent : List Ident → Option Ident
  | [] => none
  | i :: rest =>
    match topIdent rest with
    | none => some i
    | some j => if i.level < j.level then some j else some i

/-- The own alert of highest level in role LEAD (R158). -/
def State.laneAlertNow (s : State) : Option Ident :=
  topIdent ((s.alerts.own.filter (fun o => o.role == .lead)).map (fun o => o.ident))

/-- The target of the alert lane for a lane alert (R158). -/
def State.laneAlertTarget (s : State) (i : Option Ident) : Nat :=
  match i with
  | none => 0
  | some i => if i.level = 3 then s.takeoverCells else s.config.bulletin

/-- The lane alert follows the own alerts; a change empties the alert scheduler's cursors and sets the alert lane's
target (R158). In WITHDRAWING a target above 0 is set only while the lane holds cells or has a pending claim. -/
def updateLaneAlert (s : State) : State :=
  let new := s.laneAlertNow
  if new = s.alerts.laneAlert then s
  else
    let s := s.setAlerts { s.alerts with laneAlert := new }
    let s := s.setSched .alert { s.scheds.get .alert with caption := none, picture := none }
    let target := s.laneAlertTarget new
    if s.mode.mode = .withdrawing ∧ 0 < target ∧ s.cells .alert = 0 ∧ (s.tenancy.get .alert).claiming = false then s
    else setAlertTarget target s

/-! ### The yield figure (R166) -/

/-- H: the alert lane's current cells, plus a pending claim's, less a pending release's (R166). -/
def State.alertLaneHeld (s : State) : Nat :=
  let t := s.tenancy.get .alert
  match t.change with
  | none => t.cells
  | some c =>
    match c.kind with
    | .claim => t.cells + runTotal c.runs
    | .release => t.cells - runTotal c.runs

/-- The spare cells of a sheet of class YIELDABLE (R166). -/
def spareOf (own : Cycle) (inStep : Bool) (sh : Sheet) : Nat :=
  match sh.laneClass with
  | .kept => 0
  | .yieldable => (heldCells own inStep sh).length - sh.floor

/-- Yt: the yieldable total over the self entry and the peers whose entries count (R166). -/
def State.yieldableTotal (s : State) : Nat :=
  (allNodes.map (fun m =>
    let e := s.entry m
    if e.counts then (e.sheetList.map (spareOf s.time.cycle e.inStep)).sum else 0)).sum

/-- The yield for a need and a yieldable total (R166). -/
def yieldFor (need total : Nat) : Nat :=
  if need = 0 ∨ total = 0 then 0 else min 100 (ceilDiv (100 * need) total)

/-- The yield figure as the map stands (R166). -/
def State.yieldFigure (s : State) : Nat :=
  yieldFor ((s.tenancy.get .alert).target - s.alertLaneHeld - s.freeCount) s.yieldableTotal

/-! ### Origination and takeover (R152, R159) -/

/-- The node originates the timing of an own alert that becomes LEAD (R152): entry cycle by the margin, the alert lane's
target and its planning attempt, then redirect cycle (R159; log 30) and yield figure (R166). -/
def originate (i : Ident) (s : State) : State :=
  let entry := s.margin
  let s := s.updateOwn i (fun o =>
    { o with role := .lead, entry := entry, yield := 0, redirect := none, onAir := 0 })
  let s := updateLaneAlert s
  let y := s.yieldFigure
  let redirect : Option Cycle :=
    if i.level = 3 then some (if s.takeoverCells ≤ s.alertLaneHeld then entry else entry + 1) else none
  s.updateOwn i (fun o => { o with yield := y, redirect := redirect })

/-- Cycles on air of an alert taken over (R152). -/
def takenOnAir (now entry : Cycle) : Nat := if soon now entry then 0 else (now - entry).toNat

/-- The entry boundary and the redirect cycle that a node knows of an alert it follows. -/
def State.followedTimes (s : State) (i : Ident) : Option (Cycle × Option Cycle) :=
  match s.alerts.followed with
  | some f => if f.ident = i then some (f.entry, s.alerts.redirectCycle) else none
  | none => none

/-- An own alert that becomes LEAD takes the alert over (R152): it keeps the entry cycle, yield and redirect cycle
announced for the alert by its lead, or copied by a SHADOW. Any other takes them from the peer that announces the alert
as SHADOW, and with none such the entry boundary at which the node follows the alert with yield 0; a redirect cycle that
no header gives is the one last announced for the followed alert (log 16). -/
def takenOver (s : State) (o : OwnAlert) : OwnAlert :=
  let known := s.followedTimes o.ident
  let redirect := known.bind (fun x => x.2)
  match s.peerEntryOf o.ident .lead, o.role, s.peerEntryOf o.ident .shadow with
  | some (_, e), _, _ => { o with entry := e.entry, yield := e.yield, redirect := e.redirect }
  | none, .shadow, _ => o
  | none, _, some (_, e) => { o with entry := e.entry, yield := e.yield, redirect := redirect }
  | none, _, none => { o with entry := (known.map (fun x => x.1)).getD o.entry, yield := 0, redirect := redirect }

/-- The own alert of an identity becomes LEAD by takeover (R152). -/
def takeOver (i : Ident) (s : State) : State :=
  updateLaneAlert (s.updateOwn i (fun o =>
    let o := takenOver s o
    { o with role := .lead, onAir := takenOnAir s.time.cycle o.entry }))

/-! ### Roles (R150) -/

/-- The node follows, or has scheduled, an alert of the level with another id whose lead has a lower number (R150). The lead
of a followed alert is the node it names, LOST too while the orphan hold runs: that a peer counts only if PRESENT, SILENT or
OUT-OF-STEP is taken to be about what peers announce (DEDUCED, log 54). -/
def State.outledAt (s : State) (i : Ident) : Bool :=
  let other (j : Ident) (lead : Node) : Bool := j.level == i.level && j.id != i.id && decide (lead < s.node)
  (match s.alerts.followed with | some f => other f.ident f.lead | none => false)
    || s.alerts.scheduled.any (fun x => other x.ident x.lead)

/-- Node `m`'s last header is of mode ACTIVE or STANDBY. -/
def State.peerServing (s : State) (m : Node) : Bool :=
  match (s.peers.get m).header with
  | some h => h.mode == .active || h.mode == .standby
  | none => false

/-- A lower-numbered peer announces the identity as LEAD, or as SHADOW while ACTIVE or STANDBY (R150). -/
def State.shadowed (s : State) (i : Ident) : Bool :=
  s.peerAnnounced.any (fun x => decide (x.1 < s.node) && x.2.ident == i
    && (x.2.role == .lead || (x.2.role == .shadow && s.peerServing x.1)))

/-- The role of an own alert (R150). -/
def State.decideRole (s : State) (o : OwnAlert) : Role :=
  if s.outledAt o.ident then .held
  else if s.shadowed o.ident then .shadow
  else if s.mode.mode = .active ∨ s.mode.mode = .standby ∨ o.role = .lead then .lead
  else .shadow

/-- The node follows the identity or has it scheduled. -/
def State.followsOrScheduled (s : State) (i : Ident) : Bool :=
  (match s.alerts.followed with | some f => f.ident == i | none => false)
    || s.alerts.scheduled.any (fun x => x.ident == i)

/-- A SHADOW copies entry cycle, yield percent and redirect cycle from the lead's announcement (R150). Another SHADOW's
announcement carries no redirect cycle (R35), so that one stays as last copied (log 36). -/
def copyShadow (i : Ident) (s : State) : State :=
  match s.copySource i with
  | some e => s.updateOwn i (fun o =>
      if o.role = .shadow then
        { o with entry := e.entry, yield := e.yield, redirect := if e.role = .lead then e.redirect else o.redirect }
      else o)
  | none => s

/-- Every own SHADOW copies afresh from the headers as they stand. -/
def copyShadows (s : State) : State := forEach (s.alerts.own.map (fun o => o.ident)) copyShadow s

/-- The role of an own alert is decided and taken (R150, R152, R158). An alert that the node neither follows nor has
scheduled, and no other node leads, is originated, a SHADOW's too (R152's first sentence; log 37). An own LEAD that the node
holds as the lead of an alert and that falls to SHADOW or HELD gives that alert to the lowest node announced as LEAD at the
next judging (R163); with none such no orphan hold starts: R163 starts one at a peer's loss or a header that shows it
(DEDUCED, log 55). -/
def applyRole (i : Ident) (s : State) : State :=
  match s.ownOf i with
  | none => s
  | some o =>
    match s.decideRole o with
    | .lead =>
      if o.role = .lead then s
      else if (s.peerEntryOf i .lead).isNone ∧ s.followsOrScheduled i = false then originate i s
      else takeOver i s
    | .shadow => updateLaneAlert (copyShadow i (s.updateOwn i (fun o => { o with role := .shadow })))
    | .held => updateLaneAlert (s.updateOwn i (fun o => { o with role := .held }))

/-- The roles of all own alerts are decided at a boundary, one own alert after another by rising level, the order of the list
(R35). R150 gives no order (DESIGN CHOICE, log 58): where two become LEAD at once, or one leaves LEAD as another becomes it, each
reads the alert lane's target and claim as the one before has left them, which decides the claim made, the yield (R166) and
the redirect cycle (R159) of each. -/
def applyRoles (s : State) : State := forEach (s.alerts.own.map (fun o => o.ident)) applyRole s

end Sys2Proof.Machine
end

