-- ==== Sys2Proof/Machine/AlertFollow.lean ====
section
/-! DEFINITION. The follower's side of an alert (chapter 9): the pending list (R157), scheduling (R151, R153), the end of
an alert (R155), judging (R151), the loss of its lead (R163), the redirect (R159) and the relay source (R160). -/

namespace Sys2Proof.Machine

/-! ### The pending list (R157) -/

/-- An alert put on the pending list in the place of its level. -/
def holdAlert (a : HeldAlert) (s : State) : State :=
  postAlert .alertHeld a.lead a.ident (s.setAlerts { s.alerts with
    pendingAlerts := s.alerts.pendingAlerts.filter (fun x => x.ident.level != a.ident.level) ++ [a] })

/-- An alert offered to the pending list (R157). -/
def offerAlert (a : HeldAlert) (s : State) : State :=
  match s.alerts.pendingAlerts.find? (fun x => x.ident.level == a.ident.level) with
  | none => holdAlert a s
  | some h => if a.lead < h.lead then holdAlert a s else s

/-! ### Scheduling (R151, R153) -/

/-- The boundary and timing of an entry found now (R153). A self-led alert whose entry cycle is past enters at the next
boundary as LATE (log 12). -/
def State.timingOf (s : State) (lead : Node) (entry : Cycle) : Cycle × Timing :=
  let now := s.time.cycle
  if lead = s.node then
    if 2048 ≤ (now - entry).toNat then (entry, .onTime) else (now + 1, .late)
  else if (s.peers.get lead).inStep then
    if soon now entry then (entry, .onTime) else (now + 1, .late)
  else (now + 1, .outOfStep)

/-- The candidate is scheduled, in the place of a scheduled entry of its level (R151). -/
def scheduleAlert (a : HeldAlert) (s : State) : State :=
  let entry := match s.announcedBy a.lead a.ident with | some e => e.entry | none => s.time.cycle
  let (boundary, timing) := s.timingOf a.lead entry
  s.setAlerts { s.alerts with
    scheduled := s.alerts.scheduled.filter (fun x => x.ident.level != a.ident.level)
      ++ [⟨a.ident, a.lead, boundary, timing, a.yield⟩] }

/-- Scheduled entries whose alert is no longer active leave; the others name the lowest lead (R151). -/
def pruneScheduled (s : State) : State :=
  s.setAlerts { s.alerts with
    scheduled := s.alerts.scheduled.filterMap (fun x =>
      (s.activeLead x.ident).map (fun l => { x with lead := l })) }

/-- The lead recorded for an alert is lost: its orphan hold runs, or the lead is the node itself and its own alert is LEAD no
more (R163; log 55). -/
def State.leadLost (s : State) (i : Ident) (lead : Node) (hold : Option Nat) : Bool :=
  hold.isSome || (lead == s.node && s.alerts.own.any (fun o => o.ident == i && o.role != .lead))

/-- The lead that an alert whose lead is lost takes: the lowest node that announces the identity as LEAD, with an end cycle or
without (R163; log 17). -/
def State.nextLead (s : State) (i : Ident) (lead : Node) (hold : Option Nat) : Option Node :=
  if s.leadLost i lead hold then (s.leadsOf i).head? else none

/-- The followed alert takes the lowest lead of the active alert (R151), or the lead that replaces a lost one, and its hold
ends (R163; log 17). -/
def switchLead (s : State) : State :=
  match s.alerts.followed with
  | none => s
  | some f =>
    match (s.activeLead f.ident).or (s.nextLead f.ident f.lead f.hold) with
    | none => s
    | some l => s.setAlerts { s.alerts with followed := some { f with lead := l, hold := none } }

/-- Saved and pending alerts whose lead is lost take the lead that replaces it (R157, R163; log 17). -/
def switchSaved (s : State) : State :=
  s.setAlerts { s.alerts with
    stack := s.alerts.stack.map (fun c =>
      match c.followed with
      | some f =>
        match s.nextLead f.ident f.lead f.hold with
        | some l => { c with followed := some { f with lead := l, hold := none } }
        | none => c
      | none => c)
    pendingAlerts := s.alerts.pendingAlerts.map (fun x =>
      match s.nextLead x.ident x.lead none with
      | some l => { x with lead := l }
      | none => x) }

/-- The identity is saved in a context. -/
def State.saved (s : State) (i : Ident) : Bool :=
  s.alerts.stack.any (fun c => match c.followed with | some f => f.ident == i | none => false)

/-- The best active alert above the current level that is neither followed nor scheduled is scheduled (R151). -/
def scheduleCandidate (s : State) : State :=
  match bestAlert s.activeAlerts with
  | none => s
  | some a => if s.alerts.level < a.ident.level ∧ s.followsOrScheduled a.ident = false then scheduleAlert a s else s

/-- The active alerts of level at most the current one that the node holds nowhere, each with its lowest lead, best first
(R151). R151 and R157 give no order of several (DESIGN CHOICE, log 15). -/
def State.offers (s : State) : List HeldAlert :=
  ([3, 2, 1].flatMap (fun level => s.activeAlerts.filter (fun a => a.ident.level == level))).filter (fun a =>
    decide (a.ident.level ≤ s.alerts.level) && !s.followsOrScheduled a.ident && !s.saved a.ident
      && s.activeLead a.ident == some a.lead)

/-! ### The end of an alert (R155) -/

/-- An end learned is noted once for each identity and lead. -/
def addEnd (ends : List EndNote) (n : EndNote) : List EndNote :=
  if ends.any (fun x => x.ident == n.ident && x.lead == n.lead) then ends else ends ++ [n]

/-- An end has been learned. -/
def noteEnd (i : Ident) (lead : Node) (boundary : Cycle) (s : State) : State :=
  s.setAlerts { s.alerts with ends := addEnd s.alerts.ends ⟨i, lead, boundary⟩ }

/-- A scheduled entry of an identity is removed (R155). -/
def unschedule (i : Ident) (lead : Node) (s : State) : State :=
  s.setAlerts { s.alerts with scheduled := s.alerts.scheduled.filter (fun x => !(x.ident == i && x.lead == lead)) }

/-- The boundary of an end that a header shows by an end cycle (R155 (a); log 11). -/
def State.endBoundary (s : State) (m : Node) (e : Cycle) : Cycle :=
  if (s.peers.get m).inStep ∧ soon s.time.cycle e then e else s.time.cycle + 1

/-- The lead of the alert of which the node holds an own copy: the followed alert's, where the node follows it, or else the
lowest node that announces the identity as LEAD, one without an end cycle before the others (R151, R155; log 49). -/
def State.copyLead (s : State) (i : Ident) : Option Node :=
  let announced := (s.activeLead i).or (s.leadsOf i).head?
  match s.alerts.followed with
  | some f => if f.ident = i then some f.lead else announced
  | none => announced

/-- The alerts that the node holds, with the lead each has: followed, saved, pending, and the own SHADOW copies that a node
leads. -/
def State.heldLeads (s : State) : List (Ident × Node) :=
  s.alerts.followed.toList.map (fun f => (f.ident, f.lead))
    ++ (s.alerts.stack.filter (fun c => !c.ended)).filterMap (fun c => c.followed.map (fun f => (f.ident, f.lead)))
    ++ s.alerts.pendingAlerts.map (fun x => (x.ident, x.lead))
    ++ (s.alerts.own.filter (fun o => o.role == .shadow)).filterMap (fun o => (s.copyLead o.ident).map (fun l => (o.ident, l)))

/-- The end that a peer announces for an alert it leads (R155 (a)). The end cycle of an own LEAD needs no note. -/
def State.leadEnd (s : State) (i : Ident) (lead : Node) : Option EndNote :=
  if lead = s.node then none
  else ((s.leadEntry lead i).bind (fun e => e.endCycle)).map (fun c => ⟨i, lead, s.endBoundary lead c⟩)

/-- The ends that the leads of the alerts held announce are noted, also that of a node that came to lead an alert after its
header with the end cycle was stored (R155, R163; log 17). -/
def noteLeadEnds (s : State) : State :=
  s.setAlerts { s.alerts with
    ends := (s.heldLeads.filterMap (fun x => s.leadEnd x.1 x.2)).foldl addEnd s.alerts.ends }

/-! ### Judging (R151) -/

/-- The active alerts are judged (R151). -/
def judgeAlerts (s : State) : State :=
  let s := noteLeadEnds (switchSaved (switchLead (pruneScheduled s)))
  let s := scheduleCandidate s
  forEach s.offers offerAlert s

/-! ### The redirect (R159) -/

/-- The redirect cycle last announced for the followed alert by its lead: that of the announcement as it stands, or the
one kept (R159). -/
def State.redirectLast (s : State) : Option Cycle :=
  match s.alerts.followed with
  | none => none
  | some f =>
    match s.leadEntry f.lead f.ident with
    | some e => e.redirect
    | none => s.alerts.redirectCycle

/-- The redirect cycle last announced is kept, so that it outlives the lead's header (R159; log 30). -/
def noteRedirect (s : State) : State := s.setAlerts { s.alerts with redirectCycle := s.redirectLast }

/-- Redirect cycle `r` lies ahead: 1 to 3 cycles, since an entry cycle is announced at most two cycles ahead and a
redirect cycle follows it by one at most (R152, R159; log 30). -/
def redirectAhead (now r : Cycle) : Bool := decide (1 ≤ (r - now).toNat ∧ (r - now).toNat ≤ 3)

/-- The redirect cycle of the followed alert has come, or its lead is out of step and its entry boundary lies behind
(R159; log 30). -/
def State.redirectDue (s : State) (f : Followed) : Bool :=
  let now := s.time.cycle
  let lead := s.peers.get f.lead
  if f.lead ≠ s.node ∧ lead.counts = true ∧ lead.inStep = false then f.entry != now
  else
    match s.alerts.redirectCycle with
    | some r => !redirectAhead now r
    | none => false

/-- The redirect origin as it stands from this boundary (R159). -/
def State.redirectNow (s : State) : Option Node :=
  match s.alerts.followed with
  | some f =>
    if f.ident.level = 3 ∧ (s.alerts.redirect.isSome ∨ s.redirectDue f) then some f.lead else none
  | none => none

/-- The redirect origin is put into the service-lane sheets, renamed or removed (R159). -/
def updateRedirect (s : State) : State := s.setAlerts { s.alerts with redirect := s.redirectNow }

/-! ### The yield figure (R167) -/

/-- The yield last announced for an alert by its lead: that of the announcement as it stands, or the one kept (R154 step 3,
R167). -/
def State.yieldLast (s : State) (lead : Node) (i : Ident) (kept : Nat) : Nat :=
  match s.leadEntry lead i with
  | some e => e.yield
  | none => kept

/-- Scheduled entries and pending alerts carry the yield last announced, so that it outlives the lead's header (R167; log
38). -/
def noteYields (s : State) : State :=
  s.setAlerts { s.alerts with
    scheduled := s.alerts.scheduled.map (fun x => { x with yield := s.yieldLast x.lead x.ident x.yield })
    pendingAlerts := s.alerts.pendingAlerts.map (fun x => { x with yield := s.yieldLast x.lead x.ident x.yield }) }

/-! ### The relay source (R160) -/

/-- The highest-level scheduled entry. -/
def topScheduled : List Scheduled → Option Scheduled
  | [] => none
  | x :: rest =>
    match topScheduled rest with
    | none => some x
    | some y => if x.ident.level < y.ident.level then some y else some x

/-- The relay source (R160): the lead of the highest scheduled entry, or else of the followed alert, when it is a peer. -/
def State.relaySource (s : State) : Option Node :=
  let peer (n : Node) : Option Node := if n = s.node then none else some n
  (((topScheduled s.alerts.scheduled).bind (fun x => peer x.lead))).or (s.alerts.followed.bind (fun f => peer f.lead))

/-- The wanted alert: the highest-level entry in role LEAD of the relay source's last header (R160). -/
def State.wantedAlert (s : State) (source : Node) : Option Ident :=
  match (s.peers.get source).header with
  | some h => topIdent ((h.own.filter (fun e => e.role == .lead)).map (fun e => e.ident))
  | none => none

/-- The relay source with its wanted alert. -/
def State.relayKeyNow (s : State) : Option (Node × Ident) :=
  s.relaySource.bind (fun n => (s.wantedAlert n).map (fun i => (n, i)))

/-- The picture collector stops at a gap: its entry is discarded, and it is idle (R162). -/
def pictureGap (i : Ident) (s : State) : State :=
  match s.alerts.pictureCollector with
  | none => s
  | some c =>
    let s := if c.allocated then discardReserve i s else s
    s.setAlerts { s.alerts with pictureCollector := none }

/-- A change of the relay source or of the wanted alert resets both collectors (R160). -/
def syncRelay (s : State) : State :=
  let now := s.relayKeyNow
  if now = s.alerts.relayKey then s
  else
    let s := match s.alerts.relayKey with | some k => pictureGap k.2 s | none => s
    s.setAlerts { s.alerts with captionCollector := none, pictureCollector := none, relayKey := now }

/-- The list or the roles have changed, a header has been stored, or a peer has been lost: the node judges (R151). -/
def judged (s : State) : State := syncRelay (noteYields (noteRedirect (judgeAlerts s)))

/-! ### Loss of the lead (R163) -/

/-- The identities whose lead, in the node's records, is `m`: followed, saved, scheduled or pending, and the own SHADOW
copies that `m` led by the header it sent before (R155). They are told of an end, and note it, in this order; the spec gives
none (DESIGN CHOICE, log 6). -/
def State.ledBy (s : State) (m : Node) (before : Option Header) : List Ident :=
  ((match s.alerts.followed with | some f => if f.lead = m then [f.ident] else [] | none => [])
    ++ s.alerts.stack.filterMap (fun c => c.followed.bind (fun f =>
        if f.lead = m ∧ c.ended = false then some f.ident else none))
    ++ (s.alerts.scheduled.filter (fun x => x.lead == m)).map (fun x => x.ident)
    ++ (s.alerts.pendingAlerts.filter (fun x => x.lead == m)).map (fun x => x.ident)
    ++ (s.alerts.own.filter (fun o => o.role == .shadow && (s.leadsOf o.ident).all (fun n => n == m) &&
        (match before with
        | some h => h.own.any (fun e => e.ident == o.ident && e.role == .lead)
        | none => false))).map (fun o => o.ident)).dedup

/-- A followed or saved alert whose lead is lost: another lead, or the orphan hold. A further report of the same loss
lets a hold that runs go on from its count (R163; log 50). -/
def Followed.lose (f : Followed) (other : Option Node) : Followed :=
  match other with
  | some l => { f with lead := l, hold := none }
  | none => { f with hold := some (f.hold.getD 0) }

/-- The lowest node other than `m` that announces the identity as LEAD. -/
def State.otherLead (s : State) (m : Node) (i : Ident) : Option Node := (s.leadsOf i).find? (fun n => n != m)

/-- Node `m` is lost as lead of an identity (R157, R163). -/
def loseLead (m : Node) (i : Ident) (s : State) : State :=
  let other := s.otherLead m i
  let hit (j : Ident) (lead : Node) : Bool := j == i && lead == m
  s.setAlerts { s.alerts with
    followed := s.alerts.followed.map (fun f => if hit f.ident f.lead then f.lose other else f)
    stack := s.alerts.stack.map (fun c =>
      { c with followed := c.followed.map (fun f => if hit f.ident f.lead ∧ c.ended = false then f.lose other else f) })
    scheduled := s.alerts.scheduled.filterMap (fun x =>
      if hit x.ident x.lead then other.map (fun l => { x with lead := l }) else some x)
    pendingAlerts := s.alerts.pendingAlerts.filterMap (fun x =>
      if hit x.ident x.lead then other.map (fun l => { x with lead := l }) else some x) }

/-- What node `m`'s new header does to one identity that `m` leads (R155, R163). -/
def headerFor (m : Node) (h : Header) (i : Ident) (s : State) : State :=
  match h.own.find? (fun e => e.ident == i) with
  | none =>
    let boundary := if h.frame ≤ 11 then s.time.cycle + 1 else s.time.cycle + 2
    noteEnd i m boundary (unschedule i m s)
  | some e =>
    match e.role with
    | .lead =>
      match e.endCycle with
      | some c => noteEnd i m (s.endBoundary m c) (unschedule i m s)
      | none => s
    | .shadow | .held => loseLead m i s

/-- The Alert Controller is told of a header stored for node `m`, in place of the header before (R54, R151, R155). -/
def headerStored (m : Node) (before : Option Header) (h : Header) (s : State) : State :=
  if s.onTrunk then
    keeping (fun s =>
      let s := copyShadows s
      let s := forEach (s.ledBy m before) (headerFor m h) s
      judged s) s
  else s

/-- The Alert Controller is told of the loss of node `m` (R46, R163). -/
def peerLossAlerts (m : Node) (s : State) : State :=
  if s.onTrunk then keeping (fun s => judged (forEach (s.ledBy m none) (loseLead m) s)) s else s

end Sys2Proof.Machine
end

