-- ==== Sys2Proof/Machine/Takeover.lean ====
section
/-! DEFINITION. Entry to an alert and exit from it (R154 to R156), the shrink (R168, R169), the restore (R174), and what
the Alert Controller does at a cycle boundary (R149, R155, R164). -/

namespace Sys2Proof.Machine

/-! ### The shrink at an entry (R168, R169) -/

/-- The cells a yieldable lane gives up under a yield (R168). -/
def giveFor (y n floor : Nat) : Nat := ceilDiv (y * (n - floor)) 100

/-- The state a yieldable lane takes at an entry from its state before and the cells given (R169). -/
def squeezedState (before : LaneState) (given cells floor : Nat) : LaneState :=
  match before with
  | .onAir => if 0 < given then .squeezed else .onAir
  | .squeezed => .squeezed
  | .restoring => if 0 < given ∨ floor ≤ cells then .squeezed else .onAir
  | .closed => .closed
  | .opening => .opening
  | .closing => .closing

/-- One yieldable lane at an entry: the shrink of step 3, then the state the Alert Controller gives it. A lane that was
CLOSING, CLOSED or OPENING keeps what the report of the shrink left (R168, R169). -/
def squeezeLane (y : Nat) (l : Lane) (s : State) : State :=
  if s.yieldable l = false then s
  else
    let before := (s.units.get (.svc l)).state
    let given := giveFor y (s.cells (.svc l)) (s.floorCells l)
    let s := shrinkLane l given s
    match before with
    | .closed | .opening | .closing => s
    | .onAir | .squeezed | .restoring =>
      setLaneState (.svc l) (squeezedState before given (s.cells (.svc l)) (s.floorCells l))
        (onTenancy (.svc l) (fun t => { t with restoreTarget := none }) s)

/-! ### Entry (R154) -/

/-- The context an entry pushes (R154, R172). -/
def State.contextNow (s : State) : Context :=
  let value (l : Lane) : Option Nat := if s.yieldable l then some (s.cells (.svc l)) else none
  { level := s.alerts.level
    followed := s.alerts.followed
    ended := false
    captions := ⟨(s.captions.get .l0).position, (s.captions.get .l1).position, (s.captions.get .l2).position⟩
    pictures := ⟨s.picturePosition .l0, s.picturePosition .l1, s.picturePosition .l2⟩
    restore := ⟨value .l0, value .l1, value .l2⟩
    kept := Trio.const none }

/-- Code of a timing in ALERT_FOLLOWED (R154). -/
def Timing.code : Timing → Nat
  | .onTime => 0 | .late => 1 | .outOfStep => 2

/-- The level rises from 0: a service lane's pending ORDINARY claim is withdrawn with cause 5, and the lane makes a
planning attempt (R71). -/
def holdOrdinary (l : Lane) (s : State) : State :=
  match (s.tenancy.get (.svc l)).change with
  | some c =>
    if c.kind = .claim ∧ c.rank = .ordinary then planAttempt (.svc l) (withdraw (.svc l) 5 s.node s) else s
  | none => s

/-- The low group of every service lane is suspended (R108), in the order of lanes 0, 1 and 2, and so come the
OBJECT_EXPIRED of several lanes (R140); the spec gives no order (DESIGN CHOICE, log 5). -/
def suspendLow (s : State) : State :=
  forLanes (fun l s => interruptPicture l (onCaptions l CaptionCarousel.interrupt s)) s

/-- The context is pushed and the alert followed at its level (R154, steps 1 and 2); the redirect cycle known of it is the
one announced (R159). -/
def pushAlert (a : HeldAlert) (s : State) : State :=
  noteRedirect (s.setAlerts { s.alerts with
    stack := s.contextNow :: s.alerts.stack
    level := a.ident.level
    followed := some ⟨a.ident, a.lead, s.time.cycle, none⟩
    redirectCycle := none })

/-- An alert is entered at this boundary (R154, R71, R76, R108, R84, R73, R169). The yield is the one carried with the
scheduled entry, or held with the pending alert: the figure last announced for it (R154 step 3, R167; log 38). At a rise
from level 0 the claims held and their planning attempts (R71) come before the shrinks, so the M of a CLAIM_DEFERRED is
reckoned from the cells before the shrink; R167 allows either order (DESIGN CHOICE, log 5). The claims held are withdrawn,
each with its CLAIM_WITHDRAWN, in the order of lanes 0, 1 and 2, all ORDINARY ones (R71, cause 5) before all RESTORE ones
(R76, cause 6); the spec gives no order (DESIGN CHOICE, log 5). -/
def enterAlert (a : HeldAlert) (timing : Timing) (s : State) : State :=
  let old := s.alerts.level
  let s := pushAlert a s
  let s := post .alertFollowed a.lead.val none (1024 * timing.code + a.ident.arg) s
  let s := postSelf .takeoverEnter none (256 * a.ident.level + s.alerts.stack.length) s
  let s := if old = 0 then forLanes holdOrdinary s else s
  let s := forLanes (fun l => withdrawRank (.svc l) .restore 6) s
  let s := if old ≤ 1 ∧ 2 ≤ a.ident.level then suspendLow s else s
  forLanes (squeezeLane a.yield) (resplit .alert s)

/-! ### Exit (R156, R174) -/

/-- The contexts an exit pops: their number, the last of them, and those left (R156). A context that holds an ended alert
is popped with the one below it. -/
def popContexts : List Context → Option (Nat × Context × List Context)
  | [] => none
  | c :: rest =>
    if c.ended then
      match popContexts rest with
      | some (n, last, left) => some (n + 1, last, left)
      | none => some (1, c, rest)
    else some (1, c, rest)

/-- A lane's kept rate of the bottom context is applied (R174): the target, and for a YIELDABLE lane the restore value. -/
def applyKept (l : Lane) (rate : Nat) (ctx : Context) (s : State) : Context × State :=
  let s := setTargetRate l rate s
  let n := (s.tenancy.get (.svc l)).target
  (if s.yieldable l then { ctx with restore := ctx.restore.set l (some n) } else ctx, s)

/-- The kept rates of a bottom context are applied (R174, step 1). -/
def applyKepts (ctx : Context) (s : State) : Context × State :=
  Lane.all.foldl (fun (p : Context × State) l =>
    match ctx.kept.get l with
    | some r => applyKept l r p.1 p.2
    | none => p) (ctx, s)

/-- A yieldable lane takes its restore value (R174, step 2; R175). Its planning attempt is one of `exitAttempts`. -/
def restoreLane (l : Lane) (value : Nat) (s : State) : State :=
  let t := s.tenancy.get (.svc l)
  match (s.units.get (.svc l)).state with
  | .closed | .closing => s
  | .opening | .onAir | .squeezed | .restoring =>
    if t.cells < value then
      checkRestore l
        (setLaneState (.svc l) .restoring (onTenancy (.svc l) (fun t => { t with restoreTarget := some value }) s))
    else
      let s := onTenancy (.svc l) (fun t => { t with restoreTarget := none }) s
      if (s.units.get (.svc l)).state = .opening ∧ t.cells = 0 then s
      else setLaneState (.svc l) (s.restoredState l) s

/-- The restore of the service lanes from the last context popped (R174). -/
def restoreLanes (ctx : Context) (s : State) : State :=
  forLanes (fun l s =>
    if s.yieldable l then
      match ctx.restore.get l with
      | some r => restoreLane l r s
      | none => s
    else s) s

/-- The resume positions of a context are handed back to the carousels (R126, R141), those of lanes 0, 1 and 2 in that
order, and so come the OBJECT_EXPIRED of several lanes (R140); the spec gives no order (DESIGN CHOICE, log 5). A fall from 3
to 2 hands them over too, as R126, R141 and R156 have it for every pop; R108's "changes nothing in the low group" is taken
to be about the suspension (DEDUCED, log 57). -/
def restorePositions (ctx : Context) (s : State) : State :=
  forLanes (fun l s => restorePicture l (ctx.pictures.get l) (onCaptions l (fun c => c.restore (ctx.captions.get l)) s)) s

/-- At level 0 the alert cursors of every scheduler are emptied (R107, R111). -/
def emptyCursors (s : State) : State :=
  forEach allLanes (fun i s => s.setSched i { s.scheds.get i with caption := none, picture := none }) s

/-- The followed alert is exited (R156, steps 1 to 4, with R174, R107, R108 and R110). The resume positions go back to the
carousels at a fall from 3 to 2 too, against R108's "changes nothing in the low group" (DEDUCED, log 57). The planning attempts that the exit
causes are made after the restore (R174), with those of the same boundary in the order of R58: by step 4 (R74), or by
`exitAttempts` where an entry comes first or no step 4 follows (log 31). -/
def exitAlert (s : State) : State :=
  match popContexts s.alerts.stack with
  | none => s
  | some (n, ctx, left) =>
    let s := s.setAlerts { s.alerts with
      stack := left, level := ctx.level, followed := ctx.followed, redirect := none, redirectCycle := none }
    let s := restorePositions ctx s
    let s := if ctx.level = 0 then emptyCursors s else s
    let s := resplit .alert s
    let (ctx, s) := if left.isEmpty then applyKepts ctx s else (ctx, s)
    postSelf .takeoverExit none (256 * ctx.level + n) (restoreLanes ctx s)

/-- The planning attempts of an exit (R58, R174): every lane's where the level has fallen to 0, and otherwise those of the
lanes given a restore target; the alert lane first, then lanes 0, 1 and 2. -/
def exitAttempts (s : State) : State :=
  forEach (LaneId.planningOrder.filter (fun i => s.alerts.level == 0 || (s.tenancy.get i).restoreTarget.isSome))
    planAttempt s

/-! ### Entries at a boundary (R154, R156, R157) -/

/-- The scheduled entries whose boundary is the cycle in progress. -/
def State.dueEntries (s : State) : List Scheduled := s.alerts.scheduled.filter (fun x => x.boundary == s.time.cycle)

/-- The timing of an entry made from the pending list (R153; log 14). -/
def State.pendingTiming (s : State) (a : HeldAlert) : Timing :=
  match s.announcedBy a.lead a.ident with
  | some e => (s.timingOf a.lead e.entry).2
  | none => .late

/-- The due entries leave the schedule; the best of them, and at an exit of the pending alerts, is entered if it is above
the current level, and the other due entries are offered to the pending list (R154, R156). An entry at an exit boundary
withdraws the claims that the exit made (R176), so the exit's planning attempts come before it. The due entries that are not
entered are offered after the entry, in the order in which they were scheduled, and so come their ALERT_HELD; R154 and R157
give no order (DESIGN CHOICE, log 15). -/
def boundaryEntries (exited : Bool) (s : State) : State :=
  let due := s.dueEntries
  let dueAlerts := due.map (fun x => (⟨x.ident, x.lead, x.yield⟩ : HeldAlert))
  let s := s.setAlerts { s.alerts with scheduled := s.alerts.scheduled.filter (fun x => x.boundary != s.time.cycle) }
  let best := bestAlert (dueAlerts ++ if exited then s.alerts.pendingAlerts else [])
  match best with
  | none => s
  | some b =>
    if s.alerts.level < b.ident.level then
      let timing := match due.find? (fun x => x.ident == b.ident) with
        | some x => x.timing
        | none => s.pendingTiming b
      let s := s.setAlerts { s.alerts with pendingAlerts := s.alerts.pendingAlerts.filter (fun x => x.ident != b.ident) }
      let s := enterAlert b timing (if exited then exitAttempts s else s)
      forEach (dueAlerts.filter (fun x => x.ident != b.ident)) offerAlert s
    else forEach dueAlerts offerAlert s

/-! ### Cycles on air, holds and ends at a boundary (R149, R155, R164) -/

/-- A LEAD own alert counts this boundary as a cycle on air (R149). -/
def OwnAlert.counts (o : OwnAlert) (now : Cycle) : Bool :=
  o.role == .lead && (decide (0 < o.onAir) || decide (1 ≤ (now - o.entry).toNat ∧ (now - o.entry).toNat ≤ 2047))

/-- Cycles on air of one own alert, and its expiry (R149; log 22). -/
def stepOnAir (i : Ident) (s : State) : State :=
  match s.ownOf i with
  | none => s
  | some o =>
    if o.counts s.time.cycle then
      let n := min 4095 (o.onAir + 1)
      let s := s.updateOwn i (fun o => { o with onAir := n })
      if o.limit ≤ n ∧ o.endCycle.isNone then
        let e := s.margin
        postSelf .alertExpired (some .alert) i.arg (s.updateOwn i (fun o => { o with endCycle := some e }))
      else s
    else s

/-- Cycles on air of every own alert (R149), by rising level, and so come the ALERT_EXPIRED of several; the spec gives no order
(DESIGN CHOICE, log 6). -/
def stepOnAirs (s : State) : State := forEach (s.alerts.own.map (fun o => o.ident)) stepOnAir s

/-- A hold count rises (R164). -/
def Followed.stepHold (f : Followed) : Followed := { f with hold := f.hold.map (fun n => min Config.orphanHold (n + 1)) }

/-- The orphan hold of an alert is over: the count is reached, and no node announces the identity as LEAD (R164). -/
def State.orphaned (s : State) (f : Followed) : Bool :=
  (match f.hold with | some n => decide (Config.orphanHold ≤ n) | none => false) && (s.leadsOf f.ident).isEmpty

/-- Every hold count rises at a boundary (R164). -/
def stepHolds (s : State) : State :=
  s.setAlerts { s.alerts with
    followed := s.alerts.followed.map Followed.stepHold
    stack := s.alerts.stack.map (fun c => if c.ended then c else { c with followed := c.followed.map Followed.stepHold }) }

/-- The orphaned saved alerts are marked ended, each with ALERT_ORPHANED (R164), from the top context down; the spec gives no
order (DESIGN CHOICE, log 6). -/
def orphanSaved (s : State) : State :=
  let isOver (c : Context) : Bool := match c.followed with | some f => !c.ended && s.orphaned f | none => false
  let gone := (s.alerts.stack.filter isOver).filterMap (fun c => c.followed)
  let s := s.setAlerts { s.alerts with stack := s.alerts.stack.map (fun c => if isOver c then { c with ended := true } else c) }
  forEach gone (fun f => postAlert .alertOrphaned f.lead f.ident) s

/-- The ends whose boundary is the cycle in progress: those noted, of peers' alerts and of own ones replaced, and the own
alerts' end cycles, each once (R149, R155): those noted in the order learned, then the own ones by rising level, and so come
their ALERT_ENDED; the spec gives no order (DESIGN CHOICE, log 6). An own end cycle names the node itself as the node whose alert ends, also where
the own alert has become SHADOW of a peer's since that cycle was set (DESIGN CHOICE, log 51). -/
def State.dueEnds (s : State) : List EndNote :=
  let noted := s.alerts.ends.filter (fun n => n.boundary == s.time.cycle)
  let own := (s.alerts.own.filter (fun o => o.endCycle == some s.time.cycle)).map
    (fun o => (⟨o.ident, s.node, s.time.cycle⟩ : EndNote))
  (noted ++ own).dedup

/-- The followed alert ends by one of the ends given: one learned of its lead. An end learned of a lead that the alert has
since left does not end it (R151, R155; log 49). -/
def State.followedEnds (s : State) (ends : List EndNote) : Bool :=
  match s.alerts.followed with
  | some f => ends.any (fun n => n.ident == f.ident && n.lead == f.lead)
  | none => false

/-- The own alert of an identity goes at an end: at its own end cycle whatever its role, or as a SHADOW copy at the end of
its alert's lead (R149, R155). `lead` is the lead the alert has as the end falls due: an end learned of a lead that the alert
has since left does not take the copy, and where no node leads the alert any end of it does (log 49). -/
def OwnAlert.endsWith (o : OwnAlert) (n : EndNote) (self : Node) (lead : Option Node) : Bool :=
  o.ident == n.ident && ((n.lead == self && o.endCycle == some n.boundary)
    || (n.lead != self && o.role == .shadow && (lead.isNone || lead == some n.lead)))

/-- One end is carried out wherever the alert is held but in the followed place, and ALERT_ENDED is posted once if the
alert was held anywhere (R155). -/
def applyEnd (n : EndNote) (s : State) : State :=
  let a := s.alerts
  let inContext (c : Context) : Bool := match c.followed with
    | some f => !c.ended && f.ident == n.ident && f.lead == n.lead
    | none => false
  let held := s.followedEnds [n] || a.stack.any inContext
    || a.pendingAlerts.any (fun x => x.ident == n.ident && x.lead == n.lead)
    || a.own.any (fun o => o.endsWith n s.node (s.copyLead o.ident))
  let s := s.setAlerts { a with
    stack := a.stack.map (fun c => if inContext c then { c with ended := true } else c)
    scheduled := a.scheduled.filter (fun x => !(x.ident == n.ident && x.lead == n.lead))
    pendingAlerts := a.pendingAlerts.filter (fun x => !(x.ident == n.ident && x.lead == n.lead))
    own := a.own.filter (fun o => !o.endsWith n s.node (s.copyLead o.ident))
    ends := a.ends.filter (fun x => x != n) }
  if held then postAlert .alertEnded n.lead n.ident s else s

/-- The followed alert, when its orphan hold is over and it does not end (R164). -/
def State.orphanNow (s : State) (ended : Bool) : Option Followed :=
  match s.alerts.followed with
  | some f => if ended then none else if s.orphaned f then some f else none
  | none => none

/-- ALERT_ORPHANED for an orphaned followed alert (R164). -/
def postOrphan (o : Option Followed) (s : State) : State :=
  match o with
  | some f => postAlert .alertOrphaned f.lead f.ident s
  | none => s

/-- The exits of a boundary: ends that fall due, the followed alert's orphan hold, and the exit they cause; whether the
followed alert was exited is given back (R155, R156, R164). -/
def boundaryExits (s : State) : Bool × State :=
  let ended := s.followedEnds s.dueEnds
  let orphan := s.orphanNow ended
  let s := updateLaneAlert (postOrphan orphan (forEach s.dueEnds applyEnd s))
  if ended ∨ orphan.isSome then (true, exitAlert s) else (false, s)

/-- What the Alert Controller does at a cycle boundary, after the Tenancy Unit's steps 1 and 2 and before its step 4
(R149 to R164; log 5). -/
def alertBoundary (s : State) : State :=
  if s.onTrunk then
    keeping (fun s =>
      let s := orphanSaved (stepHolds (stepOnAirs s))
      let (exited, s) := boundaryExits s
      let s := boundaryEntries exited s
      judged (applyRoles (updateRedirect s))) s
  else s

end Sys2Proof.Machine
end

