-- ==== Sys2Proof/Machine/AlertPort.lean ====
section
/-! DEFINITION. What the records of the alert port do (section 9.2). -/

namespace Sys2Proof.Machine

/-- An event about an alert-port record: the alert lane, the node itself (section 9.2). -/
def postPort (kind : EventKind) (arg : Nat) (s : State) : State := postSelf kind (some .alert) arg s

/-- ALERT_REFUSED with a reason (R147, R148). -/
def refuseAlert (reason : Nat) (id : Byte) (s : State) : State := postPort .alertRefused (256 * reason + id.toNat) s

/-- The first check of R147 that a raise fails, as its reason. -/
def raiseReason (id level : Byte) (s : State) : Option Nat :=
  if s.config.alertGrade.isNone then some 1
  else if ¬ (s.mode.mode = .active ∨ s.mode.mode = .standby) then some 2
  else if level.toNat = 0 ∨ 3 < level.toNat then some 3
  else if s.alerts.own.any (fun o => o.ident.id == id && o.ident.level != level.toNat) then some 4
  else none

/-- The configured maximum duration of a level (R22). -/
def NodeConfig.duration (c : NodeConfig) (level : Nat) : Nat :=
  if level = 1 then c.duration1 else if level = 2 then c.duration2 else c.duration3

/-- The duration limit a raise gives: 0 means the configured maximum, and a value outside 16 to 4,095 is clamped (R147). -/
def durationUsed (c : NodeConfig) (level given : Nat) : Nat :=
  if given = 0 then c.duration level else max 16 (min 4095 given)

/-- The own alert is put in its place by rising level (R35). -/
def insertOwn (o : OwnAlert) : List OwnAlert → List OwnAlert
  | [] => [o]
  | x :: rest => if o.ident.level < x.ident.level then o :: x :: rest else x :: insertOwn o rest

/-- The text of an own alert that is dropped is kept for as long as its identity is held elsewhere (R147, R155). -/
def keepText (o : OwnAlert) (s : State) : State :=
  match o.text with
  | none => s
  | some t => s.setAlerts { s.alerts with
      keptTexts := s.alerts.keptTexts.filter (fun x => x.ident != o.ident) ++ [⟨o.ident, o.toggle, t⟩] }

/-- The own alert that holds a level under another id is dropped (R147). A node that followed itself as its lead ends
the alert at the end cycle it announced, or else by the margin of R152 (log 13). -/
def dropReplaced (i : Ident) (s : State) : State :=
  match s.alerts.own.find? (fun o => o.ident.level == i.level && o.ident.id != i.id) with
  | none => s
  | some o =>
    let s := keepText o (s.setAlerts { s.alerts with own := s.alerts.own.filter (fun x => x.ident != o.ident) })
    if o.role = .lead then noteEnd o.ident s.node (o.endCycle.getD s.margin) s else s

/-- The picture that the node still keeps of an own alert it has dropped, the reserve entry of source ORIGIN, goes. -/
def dropOriginEntry (i : Ident) (s : State) : State :=
  s.setObjects (s.store.objects.filter (fun x => !(x.owner == .alert && x.ident == i && x.source == .origin)))

/-- What the node still keeps of an own alert it has dropped goes when its identity is raised anew, since a new own alert
begins with no text and no picture (R147): the kept text, the picture, and the end noted for the alert dropped, which is not
the new one's (R155; log 13). -/
def dropTraces (i : Ident) (s : State) : State :=
  let s := dropOriginEntry i (dropKeptText i s)
  s.setAlerts { s.alerts with ends := s.alerts.ends.filter (fun n => !(n.ident == i && n.lead == s.node)) }

/-- A raise that has passed its checks (R147, R150). -/
def raiseAlert (i : Ident) (limit : Nat) (s : State) : State :=
  match s.ownOf i with
  | some _ => s.updateOwn i (fun o => { o with limit := limit })
  | none =>
    let s := dropTraces i (dropReplaced i s)
    let now := s.time.cycle
    let o : OwnAlert := {
      ident := i, role := .held, entry := now, yield := 0, redirect := none, endCycle := none, limit := limit
      onAir := 0, text := none, toggle := false, raised := now }
    let s := s.setAlerts { s.alerts with own := insertOwn o s.alerts.own }
    judged (updateLaneAlert (applyRole i s))

/-- An ALERT_RAISE taken (R147). -/
def alertRaiseOp (id level : Byte) (duration : BitVec 16) (s : State) : State :=
  match raiseReason id level s with
  | some r => refuseAlert r id s
  | none =>
    let limit := durationUsed s.config level.toNat duration.toNat
    let i : Ident := ⟨id, level.toNat⟩
    let s := if duration.toNat = 0 ∨ limit = duration.toNat then s else postClamp .alert 6 id s
    keeping (raiseAlert i limit) (postPort .alertRaised i.arg s)

/-- An ALERT_TEXT taken (R148). -/
def alertTextOp (id : Byte) (text : List Byte) (s : State) : State :=
  match s.ownById id with
  | none => refuseAlert 5 id s
  | some o =>
    let s := if Config.alertText < text.length then postClamp .alert 1 id s else s
    s.updateOwn o.ident (fun o => { o with text := some (text.take Config.alertText), toggle := !o.toggle })

/-- An ALERT_PICTURE_BEGIN taken (R148, R143). -/
def alertPictureBeginOp (id : Byte) (size : BitVec 24) (s : State) : State :=
  match s.ownById id with
  | none => refuseAlert 5 id s
  | some o => (allocateReserve o.ident .origin size.toNat 0 s).2

/-- An ALERT_PICTURE_CHUNK taken (R148, R145). -/
def alertPictureChunkOp (id : Byte) (offset : BitVec 24) (bytes : List Byte) (s : State) : State :=
  match s.ownById id with
  | none => refuseAlert 5 id s
  | some o => reserveChunk o.ident offset bytes s

/-- An ALERT_AUDIO taken: passed on for an own alert of level 3 in role LEAD (R148; log 21), and appended while the
alert lane is ON-AIR with an audio budget (R96). -/
def alertAudioOp (id : Byte) (unit : List Byte) (s : State) : State :=
  match s.ownById id with
  | none => s
  | some o =>
    let u := s.units.get .alert
    if o.ident.level = 3 ∧ o.role = .lead ∧ u.state = .onAir ∧ 0 < u.split.audio then appendUnit .alert unit s else s

/-- An own LEAD alert is given an end cycle by the margin of R152. -/
def endOwn (i : Ident) (s : State) : State :=
  let e := s.margin
  judged (s.updateOwn i (fun o => { o with endCycle := some e }))

/-- An own SHADOW or HELD alert is dropped at an ALERT_END, with ALERT_ENDED (R148, R180). -/
def dropOwn (i : Ident) (s : State) : State :=
  let s := s.setAlerts { s.alerts with own := s.alerts.own.filter (fun o => o.ident != i) }
  judged (postPort .alertEnded i.arg s)

/-- An ALERT_END taken (R148). -/
def alertEndOp (id : Byte) (s : State) : State :=
  match s.ownById id with
  | none => refuseAlert 5 id s
  | some o =>
    match o.role with
    | .lead => if o.endCycle.isSome then s else keeping (endOwn o.ident) s
    | .shadow | .held => keeping (dropOwn o.ident) s

end Sys2Proof.Machine
end

