-- ==== Sys2Proof/Machine/Relay.lean ====
section
/-! DEFINITION. Relay reassembly (section 9.8): the annex of the lead's alert lane is read segment by segment, and the
caption and picture collectors gather its alert's text and picture. -/

namespace Sys2Proof.Machine

/-! ### The caption collector (R161) -/

/-- A completed text is stored for the wanted identity and lead, unless an own alert has a text (R161). It takes the place
of a kept text. A buffer that a new text of its identity replaces keeps its place in age (log 39). The variant is kept as
the segments gave it, above 1 too (R189; log 47). -/
def storeRelayText (i : Ident) (lead : Node) (toggle : Nat) (text : List Byte) (s : State) : State :=
  let ownText := match s.ownOf i with | some o => o.text.isSome | none => false
  let t : RelayText := ⟨i, lead, toggle, text⟩
  let held := s.alerts.relayTexts
  if ownText then s
  else
  let s := dropKeptText i s
  if held.any (fun x => x.ident == i) then
    s.setAlerts { s.alerts with relayTexts := held.map (fun x => if x.ident = i then t else x) }
  else
    let followed := s.alerts.followed.map (fun f => f.ident)
    let kept := if held.length < 2 then held
      else match held.findIdx? (fun x => some x.ident != followed) with
        | some k => removeAt held k
        | none => held
    s.setAlerts { s.alerts with relayTexts := kept ++ [t] }

/-- The collector after a segment that starts or continues a text; a text past 192 bytes is given up (R161). -/
def captionAccept (c : CaptionCollect) (i : Ident) (lead : Node) (last : Bool) (s : State) : State :=
  if Config.alertText < c.text.length then s.setAlerts { s.alerts with captionCollector := none }
  else if last then
    storeRelayText i lead c.toggle c.text (s.setAlerts { s.alerts with captionCollector := none })
  else s.setAlerts { s.alerts with captionCollector := some c }

/-- An ALERT CAPTION segment handed to the caption collector (R161). -/
def captionSegment (g : Segment) (i : Ident) (lead : Node) (s : State) : State :=
  if g.first then captionAccept ⟨g.variant, g.payload, 1⟩ i lead g.last s
  else match s.alerts.captionCollector with
    | none => s
    | some c =>
      if g.seq = c.expected ∧ g.variant = c.toggle then
        captionAccept ⟨c.toggle, c.text ++ g.payload, c.expected + 1⟩ i lead g.last s
      else s.setAlerts { s.alerts with captionCollector := none }

/-! ### The picture collector (R162) -/

/-- The size that three size bytes spell. -/
def PictureCollect.size (c : PictureCollect) : Nat := get24 c.sizeBytes 0

/-- Stream bytes past the size handed to the store in order (R162): at the whole picture the collector is idle; bytes
past it, or a Last segment before it, are a gap. -/
def pictureBytes (c : PictureCollect) (bytes : List Byte) (last : Bool) (i : Ident) (s : State) : State :=
  let count := c.count + bytes.length
  if c.size < count ∨ (last ∧ count < c.size) then pictureGap i s
  else
    let s := reserveAppend i bytes s
    if count = c.size then s.setAlerts { s.alerts with pictureCollector := none }
    else s.setAlerts { s.alerts with pictureCollector := some { c with count := count } }

/-- A segment that starts or continues a picture: the size bytes are gathered first, then a RELAY entry is asked for
(R143, R162). `count` counts the picture's bytes after the three size bytes. -/
def pictureAccept (c : PictureCollect) (g : Segment) (i : Ident) (lead : Node) (s : State) : State :=
  let need := 3 - c.sizeBytes.length
  let c := { c with sizeBytes := c.sizeBytes ++ g.payload.take need }
  let rest := g.payload.drop need
  let s := s.setAlerts { s.alerts with pictureCollector := some c }
  if c.sizeBytes.length < 3 then (if g.last then pictureGap i s else s)
  else if c.allocated then pictureBytes c rest g.last i s
  else
    let (answer, s) := allocateReserve i (.relay lead) c.size (BitVec.ofNat 4 c.transfer) s
    match answer with
    | .refused | .held => s.setAlerts { s.alerts with pictureCollector := none }
    | .allocated =>
      let c := { c with allocated := true }
      pictureBytes c rest g.last i (s.setAlerts { s.alerts with pictureCollector := some c })

/-- An ALERT PICTURE segment handed to the picture collector (R162). After a First the number expected is 1 whatever the
First's own number: R161 says so for captions, and R162 names no number (DESIGN CHOICE, log 53). -/
def pictureSegment (g : Segment) (i : Ident) (lead : Node) (s : State) : State :=
  if g.first then pictureAccept ⟨g.variant, 1, [], 0, false⟩ g i lead (pictureGap i s)
  else match s.alerts.pictureCollector with
    | none => s
    | some c =>
      if g.seq = c.expected ∧ g.variant = c.transfer then
        pictureAccept { c with expected := c.expected + 1 } g i lead s
      else pictureGap i s

/-! ### Reading the annex (R160, R189) -/

/-- The lead's alert-lane bytes of a frame: a cell whose record is good gives its payload, any other a gap (R18). -/
def relayStream (cells : List Nat) (got : List RelayCell) (payload : Nat) : List (Option Byte) :=
  cells.flatMap (fun k =>
    match got.find? (fun r => r.cell == k && r.tagGood && r.checkGood) with
    | some r => r.payload.map some
    | none => List.replicate payload none)

/-- The next `n` bytes, unless one of them lies in a gap. -/
def takeBytes : Nat → List (Option Byte) → Option (List Byte)
  | 0, _ => some []
  | _ + 1, [] => none
  | n + 1, b :: rest =>
    match b, takeBytes n rest with
    | some v, some vs => some (v :: vs)
    | _, _ => none

/-- The segment at the head of what remains of an annex, `r` bytes of it, for the wanted id; none where reading stops
(R160, R189). A header of end field 63 in the last 4 bytes is a segment of min(60, 0) = 0 bytes, not Last, and is handed on
(R189; log 19). -/
def readSegment (wanted : Byte) (r : Nat) (bytes : List (Option Byte)) : Option Segment := do
  if r < 4 then none
  else
    let header ← takeBytes 4 bytes
    let b0 := byteAt header 0
    let w := get16 header 2
    let field := b0 / 4
    let len := if field = 63 then min 60 (r - 4) else field
    let kind : SegKind := if b0 % 4 = 2 then .alertCaption else .alertPicture
    if b0 % 4 < 2 ∨ header.getD 1 0 ≠ wanted ∨ field = 0 ∨ field = 61 ∨ field = 62 ∨ r < 4 + len then none
    else
      let payload ← takeBytes len (bytes.drop 4)
      some ⟨kind, wanted, BitVec.ofNat 11 w, decide (32768 ≤ w), decide (field ≠ 63), w / 2048 % 16, payload⟩

/-- The segments of an annex handed to the collectors in order; `fuel` bounds their number. -/
def readAnnex (i : Ident) (lead : Node) : Nat → Nat → List (Option Byte) → State → State
  | 0, _, _, s => s
  | fuel + 1, r, bytes, s =>
    match readSegment i.id r bytes with
    | none => s
    | some g =>
      let s := match g.kind with
        | .alertCaption => captionSegment g i lead s
        | _ => pictureSegment g i lead s
      let n := 4 + g.payload.length
      readAnnex i lead fuel (r - n) (bytes.drop n) s

/-- The end of a frame's relay (R18, R160). The bytes are read while the source of the frame's set is the relay source
still; a frame whose set was taken from a source named no more is not read (log 40). -/
def relayEnd (s : State) : State :=
  match s.trunk.relaySource, s.alerts.relayKey with
  | some n, some (m, i) =>
    if n = m then
      match (s.peers.get n).sheets.alert with
      | some sh =>
        let bytes := relayStream s.trunk.relaySet s.trunk.relayGot (gradePayload s.trunk.relayGrade)
        readAnnex i n sh.annex sh.annex bytes s
      | none => s
    else s
  | _, _ => s

/-! ### The relay cell set (R18) -/

/-- The relay cell set and its grade as the named source's stored sheet gives them (R18). -/
def State.relayCells (s : State) : Option Node × Nat × List Nat :=
  match s.relaySource with
  | none => (none, 1, [])
  | some n =>
    let e := s.peers.get n
    match e.sheets.alert with
    | none => (some n, 1, [])
    | some sh => (some n, sh.grade, heldCells s.time.cycle e.inStep sh)

/-- At a frame boundary, in whatever mode, the Trunk Interface takes its relay cell set for the frame (R18). -/
def takeRelaySet (s : State) : State :=
  let (source, grade, cells) := s.relayCells
  s.setTrunk { s.trunk with relaySource := source, relayGrade := grade, relaySet := cells, relayGot := [] }

/-- The relay of the frame ended by a boundary that came before its last cell was handed over: the cells left are gaps
(R8, R18; log 18). -/
def relayLeftover (s : State) : State :=
  if s.onTrunk ∧ s.trunk.relaySet ≠ [] ∧ s.trunk.relayGot.length < s.trunk.relaySet.length then
    keeping relayEnd s
  else s

/-- A relay record handed over as a cell's slot ends; with the last cell the frame's relay ends (R18). -/
def relayHandOver (r : RelayCell) (s : State) : State :=
  let got := s.trunk.relayGot ++ [r]
  let s := s.setTrunk { s.trunk with relayGot := got }
  if s.onTrunk ∧ got.length = s.trunk.relaySet.length then keeping relayEnd s else s

end Sys2Proof.Machine
end

