-- ==== Sys2Proof/Machine/Annex.lean ====
section
/-! DEFINITION. The Annex Schedulers (chapter 6) and the assembly of a frame's lane bytes (R93 to R95). -/

namespace Sys2Proof.Machine

/-! ### Alert content (R104, R107, R111) -/

/-- The text of an alert that is complete in the node, with its toggle: the own alert's, or the one kept of an own alert
that was replaced (R147), or a relay buffer's (R161), whose variant is kept as it was read (log 47). -/
def State.alertText (s : State) (i : Ident) : Option (Nat × List Byte) :=
  ((s.ownOf i).bind (fun o => o.text.map (fun t => (o.toggle.toNat, t)))).or
    (((s.alerts.keptTexts.find? (fun t => t.ident == i)).map (fun t => (t.toggle.toNat, t.text))).or
      ((s.alerts.relayTexts.find? (fun t => t.ident == i)).map (fun t => (t.toggle, t.text))))

/-- The picture of an alert that is complete in the reserve (R145). -/
def State.alertPicture (s : State) (i : Ident) : Option Obj :=
  match s.store.reserve i with
  | some o => if o.state = .ready then some o else none
  | none => none

/-- The alert whose content a lane's scheduler sends, with its origin: the followed alert, or on the alert lane the lane
alert (R107, R111). The origin of a followed alert's content is its lead as it stands, so a switch of lead restarts the
cursor (R99; log 41). -/
def State.contentAlert (s : State) (lane : LaneId) : Option (Node × Ident) :=
  match lane with
  | .svc _ => s.alerts.followed.map (fun f => (f.lead, f.ident))
  | .alert => s.alerts.laneAlert.map (fun i => (s.node, i))

/-- The content in force for an alert cursor with its stream, and the alert member it is for. -/
structure AlertContent where
  kind : SegKind
  content : ContentId
  stream : List Byte
deriving DecidableEq, Repr

/-- The alert caption ready for a lane (R104, R111). On the alert lane too the text may be a relayed one: R111 asks for a
text that is complete in the node (log 48). -/
def State.captionContent (s : State) (lane : LaneId) : Option AlertContent :=
  (s.contentAlert lane).bind (fun x => (s.alertText x.2).map (fun t => ⟨.alertCaption, ⟨x.1, x.2, t.1⟩, t.2⟩))

/-- The alert picture ready for a lane (R104, R111). -/
def State.pictureContent (s : State) (lane : LaneId) : Option AlertContent :=
  (s.contentAlert lane).bind (fun x => (s.alertPicture x.2).map (fun o =>
    ⟨.alertPicture, ⟨x.1, x.2, o.transfer.toNat⟩, o.stream s.store.cells 0 (o.size + 3)⟩))

/-- The cursor with which a turn begins: it goes on with the same content, and restarts in every other case (R107). A
content that is no longer than the bytes already sent of it, its identity and variant the same, begins again from its first
byte, since every segment carries at least one (R101; log 42). -/
def cursorFor (c : AlertContent) (k : Option Cursor) : Cursor :=
  match k with
  | some k => if k.content = c.content ∧ k.sent < c.stream.length then k else ⟨c.content, 0, 0⟩
  | none => ⟨c.content, 0, 0⟩

/-- The segment of an alert member's turn at a payload limit, and the cursor after it (R101, R102, R107). The variant sent
of a relayed text is the one it was gathered with, a number from 0 to 15 (log 47). -/
def alertSegment (c : AlertContent) (k : Cursor) (limit : Nat) : Segment × Cursor :=
  let n := min limit (c.stream.length - k.sent)
  let last := decide (c.stream.length ≤ k.sent + n)
  (⟨c.kind, c.content.ident.id, k.seq, k.sent == 0, last, c.content.variant, (c.stream.drop k.sent).take n⟩,
   if last then ⟨c.content, 0, 0⟩ else ⟨c.content, k.sent + n, k.seq + 1⟩)

/-! ### Turns (R104, R105) -/

/-- The high rotation of a lane at an alert level (R104, R111). -/
def composition (lane : LaneId) (level : Nat) : List HighMember :=
  match lane with
  | .alert => [.alertCaption, .alertPicture]
  | .svc _ => if level = 0 then [.lowGroup] else if level = 1 then [.alertCaption, .lowGroup]
              else [.alertCaption, .alertPicture]

/-- A turn given to a low member, if it is ready (R104, R120, R138). -/
def lowMemberTurn (l : Lane) (m : LowMember) (limit : Nat) (s : State) : Option (Segment × State) :=
  match m with
  | .caption =>
    let c := (s.captions.get l).testDwell s.pos
    if c.ready then (c.supply s.pos limit).map (fun r => (r.1, s.setCaptions l r.2)) else none
  | .picture => supplyPicture l limit s

/-- The other low member. -/
def LowMember.other : LowMember → LowMember
  | .caption => .picture
  | .picture => .caption

/-- `s` with the low pointer of a lane's scheduler set. -/
def setLow (lane : LaneId) (m : LowMember) (s : State) : State := s.setSched lane { s.scheds.get lane with low := m }

/-- `s` with the high pointer of a lane's scheduler set. -/
def setHigh (lane : LaneId) (m : HighMember) (s : State) : State := s.setSched lane { s.scheds.get lane with high := m }

/-- The low group's turn (R105, step 3): the low pointer ends on the member that did not place. -/
def lowTurn (l : Lane) (limit : Nat) (s : State) : Option (Segment × State) :=
  let m := (s.scheds.get (.svc l)).low
  match lowMemberTurn l m limit s with
  | some (g, s) => some (g, setLow (.svc l) m.other s)
  | none => lowMemberTurn l m.other limit s

/-- A turn given to a member of the high rotation, if it is ready (R105). -/
def highTurn (lane : LaneId) (m : HighMember) (limit : Nat) (s : State) : Option (Segment × State) :=
  let k := s.scheds.get lane
  match m with
  | .alertCaption => (s.captionContent lane).map (fun c =>
      let (g, cur) := alertSegment c (cursorFor c k.caption) limit
      (g, s.setSched lane { k with caption := some cur }))
  | .alertPicture => (s.pictureContent lane).map (fun c =>
      let (g, cur) := alertSegment c (cursorFor c k.picture) limit
      (g, s.setSched lane { k with picture := some cur }))
  | .lowGroup => match lane with
    | .svc l => lowTurn l limit s
    | .alert => none

/-- A rotation begun at a member; at its head when the member is not in it (R105, step 1). -/
def rotateTo (comp : List HighMember) (m : HighMember) : List HighMember :=
  if comp.contains m then comp.dropWhile (· != m) ++ comp.takeWhile (· != m) else comp

/-- The member after one in a rotation's order, wrapping at its end (R105, step 4). -/
def memberAfter (comp : List HighMember) (m : HighMember) : HighMember :=
  match rotateTo comp m with
  | _ :: n :: _ => n
  | _ => m

/-- The members tried in turn until one places (R105). -/
def tryMembers (lane : LaneId) (comp : List HighMember) (limit : Nat) (s : State) :
    List HighMember → Option (Segment × State)
  | [] => none
  | m :: rest =>
    match highTurn lane m limit s with
    | some (g, s) => some (g, setHigh lane (memberAfter comp m) s)
    | none => tryMembers lane comp limit s rest

/-- One placement: the member whose turn it is supplies a segment (R105). -/
def placeSegment (lane : LaneId) (limit : Nat) (s : State) : Option (Segment × State) :=
  let comp := composition lane s.alerts.level
  tryMembers lane comp limit s (rotateTo comp (s.scheds.get lane).high)

/-! ### Filling (R100, R101) -/

/-- The annex of `r` bytes filled with segments and padding; `fuel` bounds the number of placements (R101). -/
def fillAnnex (lane : LaneId) : Nat → Nat → State → List Byte × State
  | 0, r, s => (List.replicate r 0, s)
  | fuel + 1, r, s =>
    if r < 5 then (List.replicate r 0, s)
    else match placeSegment lane (min 60 (r - 4)) s with
      | none => (List.replicate r 0, s)
      | some (g, s) =>
        let (rest, s) := fillAnnex lane fuel (r - (4 + g.payload.length)) s
        (g.bytes ++ rest, s)

/-! ### Assembly (R93 to R95) -/

/-- The intake check after a drain (R93). -/
def resumeIntake (i : LaneId) (s : State) : State :=
  let u := s.units.get i
  match u.intake with
  | .held =>
    if u.fifo.length ≤ Config.resumeFill then
      statusForIntake i (postSelf .intakeResumed (some i) u.dropped
        (s.setUnit i { u with intake := .accepting, dropped := 0 }))
    else s
  | .accepting => s

/-- A lane's bytes of the frame are assembled (R94): annex, audio part, intake check. A lane without cells assembles
nothing. -/
def assembleLane (i : LaneId) (s : State) : State :=
  let cells := runCells (s.tenancy.get i).runs
  if cells.isEmpty then onUnit i (fun u => { u with assembled := none }) s
  else
    let split := (s.units.get i).split
    let (annex, s) := fillAnnex i split.annex split.annex s
    let u := s.units.get i
    let audio := u.fifo.take split.audio
    let bytes := annex ++ audio ++ List.replicate (split.audio - audio.length) 0
    resumeIntake i (s.setUnit i { u with
      fifo := u.fifo.drop split.audio
      assembled := some ⟨cells, gradePayload (s.laneGrade i), bytes⟩ })

/-- Frame assembly for every lane, as slot 24 begins (R94, R100). The lanes are taken in the order 0, 1, 2, alert, and so
come the events of several; R94 gives no order (DESIGN CHOICE, log 5). -/
def assembleFrame (s : State) : State := forEach allLanes assembleLane s

/-- The payload of a cell in an assembled frame (R95). A cell that was not a lane's at the assembly carries zeros (log
35). -/
def Assembly.payloadOf (a : Assembly) (cell : Nat) : List Byte :=
  match a.cells.findIdx? (fun k => k == cell) with
  | some j => (a.bytes.drop (j * a.payload)).take a.payload
  | none => List.replicate a.payload 0

end Sys2Proof.Machine
end

