-- ==== Sys2Proof/Machine/PeerView.lean ====
section
/-! DEFINITION. The Directory Unit's judgement of what is heard and the Peer View's table (sections 3.2 and 3.3), with
cycle adoption and the joining duplicate check (R27, R28). -/

namespace Sys2Proof.Machine

/-! ### Unheard reports (R45, R46) -/

/-- An entry becomes LOST (R46): header and sheets are discarded, PEER_LOST is posted, and the Alert Controller is told of
the loss. The cells are free from the hand-over that counts the frame, as its slot 3m + 2 ends (R17, R45), not only from
the end of the frame (log 45). -/
def losePeer (m : Node) (s : State) : State :=
  let e := s.peers.get m
  let s := s.setPeer m { e with state := .lost, silentOutOfStep := false, header := none, sheets := Quad.const none }
  peerLossAlerts m (post .peerLost m.val none (e.coveredCount s.time.cycle) s)

/-- An entry becomes SILENT (R45, R50): its record is kept, with the state it was in. -/
def silencePeer (m : Node) (s : State) : State :=
  let e := s.peers.get m
  post .peerSilent m.val none (e.coveredCount s.time.cycle)
    (s.setPeer m { e with state := .silent, silentOutOfStep := e.state == .outOfStep })

/-- An unheard report for node `m` (R45, R46); for the self entry it changes nothing (R42). -/
def unheardReport (m : Node) (s : State) : State :=
  if m = s.node then s
  else
    let e := s.peers.get m
    let n := min Config.lostFrames (e.unheard + 1)
    let s := s.setPeer m { e with unheard := n }
    match e.state with
    | .present | .outOfStep => if n = Config.silentFrames then silencePeer m s else s
    | .silent => if n = Config.lostFrames then losePeer m s else s
    | .unheard | .lost => s

/-! ### Storing a manifest (R43, R44) -/

/-- The entry a stored manifest leaves (R43, R44): old sheets go if the entry was SILENT or LOST. -/
def PeerEntry.store (e : PeerEntry) (inStep : Bool) (x : Manifest) : PeerEntry :=
  let base := match e.state with
    | .silent | .lost => Quad.const none
    | .unheard | .present | .outOfStep => e.sheets
  { state := if inStep then .present else .outOfStep
    unheard := 0
    silentOutOfStep := false
    header := some x.header
    sheets := (base.set x.first.lane (some x.first)).set x.second.lane (some x.second) }

/-- The event a stored manifest posts (R43, R44). -/
def postStored (m : Node) (was : PeerState) (inStep : Bool) (h : Header) (s : State) : State :=
  if inStep then
    match was with
    | .silent => post .peerBack m.val none 1 s
    | .lost => post .peerBack m.val none 2 s
    | .outOfStep => post .peerBack m.val none 3 s
    | .unheard | .present => s
  else
    match was with
    | .outOfStep => s
    | .unheard | .present | .silent | .lost => post .peerOutOfStep m.val none (h.cycle.toNat * 16 + h.frame) s

/-- The header's cycle number and frame index are the node's own (R43). -/
def State.matchesOwn (s : State) (h : Header) : Bool := h.cycle == s.time.cycle && h.frame == s.frameIndex

/-- The conflict checks of the node's pending claims with the two sheets stored, the first before the second (R43 step 7,
R62, R63; log 43). The own lanes are taken in the order alert lane, 0, 1, 2, which R62 and R63 leave open (log 43). -/
def checkConflicts (m : Node) (inStep : Bool) (x : Manifest) (s : State) : State :=
  if s.onTrunk then
    forEach LaneId.planningOrder (conflictCheck m inStep x.second)
      (forEach LaneId.planningOrder (conflictCheck m inStep x.first) s)
  else s

/-- The Peer View is passed a valid manifest for node `m` (R43, R44). -/
def storeManifest (m : Node) (x : Manifest) (s : State) : State :=
  let e := s.peers.get m
  let inStep := s.matchesOwn x.header
  let s := postStored m e.state inStep x.header s
  let s := s.setPeer m (e.store inStep x)
  headerStored m e.header x.header (checkConflicts m inStep x s)

/-! ### Hand-over (R17, R27, R28, R39, R40) -/

/-- Cycle adoption while JOINING (R12, R27): the manifest's cycle number is loaded and its sender becomes the cycle
source. -/
def adoptCycle (m : Node) (h : Header) (s : State) : State :=
  if s.mode.cycleSource.isNone ∧ h.frame = s.frameIndex then
    (s.setTime { s.time with cycle := h.cycle }).setModeCtl { s.mode with cycleSource := some m }
  else s

/-- A heard manifest of another node number is passed on, or counted as unheard (R39, R40). -/
def passManifest (m : Node) (heard : Option (List Byte)) (s : State) : State :=
  match heard.bind judgeManifest with
  | none => unheardReport m s
  | some x =>
    if x.header.node ≠ m.val then unheardReport m s
    else
      let s := if s.mode.mode = .joining then adoptCycle m x.header s else s
      storeManifest m x s

/-- The result for node number `m` of the frame's directory slots is handed over (R17, R28, R40). -/
def handOver (m : Node) (heard : Option (List Byte)) (s : State) : State :=
  match s.mode.mode with
  | .config | .halted => s
  | .quiet => unheardReport m s
  | .joining =>
    if m = s.node then
      match heard.bind judgeManifest with
      | some _ => duplicateFound (3 * m.val) s
      | none => s
    else passManifest m heard s
  | .active | .standby | .withdrawing => if m = s.node then s else passManifest m heard s

end Sys2Proof.Machine
end

