-- ==== Sys2Proof/Machine/TrunkUnit.lean ====
section
/-! DEFINITION. The Trunk Interface (sections 1.3 and 1.4): what a slot's start decides, what its end settles, and what
is routed on. -/

namespace Sys2Proof.Machine

/-! ### Directory slots (R17) -/

/-- The place of a directory slot's reading among its node's three, replaced. -/
def setReading (d : DirRead × DirRead × DirRead) (j : Nat) (r : DirRead) : DirRead × DirRead × DirRead :=
  match j with
  | 0 => (r, .unread, .unread)
  | 1 => (d.1, r, .unread)
  | _ => (d.1, d.2.1, r)

/-- The 108 bytes of a heard manifest: all three slots read the node's manifest tag and none was cut (R17). -/
def heardManifest (m : Node) (d : DirRead × DirRead × DirRead) : Option (List Byte) :=
  let t := tagOf m .manifest
  match d with
  | (.read t0 c0, .read t1 c1, .read t2 c2) => if t0 = t ∧ t1 = t ∧ t2 = t then some (c0 ++ c1 ++ c2) else none
  | _ => none

/-- A directory slot has been read, or cut; at the third of a node's slots the result is handed over (R17). -/
def directorySlot (k : Nat) (r : DirRead) (s : State) : State :=
  let d := setReading s.trunk.directory (k % 3) r
  let s := s.setTrunk { s.trunk with directory := d }
  let m : Node := Fin.ofNat 8 (k / 3)
  if k % 3 = 2 then handOver m (heardManifest m d) s else s

/-! ### Relay cells (R18) -/

/-- The relay record of a cell's slot. -/
def relayRecord (s : State) (cell : Nat) (tag : Byte) (content : List Byte) : RelayCell :=
  { cell := cell
    payload := content.take (gradePayload s.trunk.relayGrade)
    tagGood := match s.trunk.relaySource with | some l => tag == tagOf l (.lane .alert) | none => false
    checkGood := protectionGood s.trunk.relayGrade content }

/-- What a payload slot read is handed over when the cell is in the relay cell set (R18). -/
def payloadSlot (cell : Nat) (tag : Byte) (content : List Byte) (s : State) : State :=
  if s.trunk.relaySet.contains cell then relayHandOver (relayRecord s cell tag content) s else s

/-! ### Cutting a slot (R8, R11, R16) -/

/-- The slot in progress is ended early: it has no read-back result; a directory slot was cut, and a relay cell is handed
over as bad. A payload slot is cut too where its tag had been lost before the pulse came: R15 reports the slots whose
result is YIELDED, a slot that was cut has no result (R16), and so no loss is reported (DEDUCED, log 6). -/
def cutSlot (s : State) : State :=
  if s.trunk.inProgress then
    let k := s.trunk.slotsBegun - 1
    let s := s.setTrunk { s.trunk with inProgress := false, slotState := .cut, driver := none }
    if k < Config.directorySlots then directorySlot k .cut s
    else if s.trunk.relaySet.contains (k - Config.directorySlots) then
      relayHandOver ⟨k - Config.directorySlots, [], false, false⟩ s
    else s
  else s

/-! ### Start of a slot (R4, R13, R14, R94) -/

/-- The lane that holds a cell in a current fragment. -/
def State.laneHolding (s : State) (cell : Nat) : Option LaneId :=
  LaneId.planningOrder.find? (fun i => inRuns (s.tenancy.get i).runs cell)

/-- What the node drives in slot `k`, by its mode and lane sheets as they stand (R13). -/
def State.driverOf (s : State) (k : Nat) : Option Driver :=
  if s.onTrunk then
    if k < Config.directorySlots then (if k / 3 = s.node.val then some .manifest else none)
    else (s.laneHolding (k - Config.directorySlots)).map Driver.lane
  else none

/-- The content of slot `k` for its driver: a part of the manifest copy (R4), or a cell with its protection (R3, R95). -/
def State.slotContent (s : State) (k : Nat) : Driver → List Byte
  | .manifest => (((s.trunk.copy).getD []).drop (36 * (k % 3))).take 36
  | .lane i =>
    match (s.units.get i).assembled with
    | some a => cellContent (a.payloadOf (k - Config.directorySlots))
    | none => cellContent (List.replicate (gradePayload (s.laneGrade i)) 0)

/-- The manifest copy is taken as slot 3n begins (R4), or in the node's next directory slot if none stands. -/
def takeCopy (k : Nat) (s : State) : State :=
  if k / 3 = s.node.val ∧ k < Config.directorySlots ∧ (k % 3 = 0 ∨ s.trunk.copy.isNone) then
    s.setTrunk { s.trunk with copy := s.outgoing.map Manifest.bytes }
  else s

/-- The Trunk Interface decides slot `k` (R13, R14). -/
def decideSlot (k : Nat) (s : State) : State :=
  let driver := s.driverOf k
  s.setTrunk { s.trunk with
    inProgress := true
    slotsBegun := k + 1
    slotState := match driver with | some _ => .driving | none => .listening
    driver := driver
    tag := match driver with | some d => tagOf s.node d | none => Config.undrivenTag
    content := match driver with | some d => s.slotContent k d | none => [] }

/-- Slot `k` of the frame in progress starts (R13). -/
def startSlot (k : Nat) (s : State) : State :=
  let s := cutSlot s
  let s := s.setTime { s.time with localCount := s.frameIndex * Config.frameMicros + k * Config.slotMicros, hold := 0 }
  let s := if k = Config.directorySlots ∧ s.onTrunk then assembleFrame s else s
  decideSlot k (takeCopy k s)

/-! ### End of a slot (R15 to R18, R77) -/

/-- A slot that was lost in tag arbitration (R15): a loss in a payload cell is reported to the Tenancy Unit. -/
def reportLoss (k : Nat) (d : Option Driver) (s : State) : State :=
  match d with
  | some (.lane i) => if s.onTrunk then lostSlot i (k - Config.directorySlots) s.pos s else s
  | _ => s

/-- The result of a slot that was driven: what was sent against what the line read (R15, R16). -/
def driveResult (t : Trunk) (tag : Byte) (content : List Byte) : SlotState :=
  if tag ≠ t.tag then .yielded else if content ≠ t.content then .mismatch else .won

/-- The result of the slot in progress (R16). -/
def slotResult (t : Trunk) (tag : Byte) (content : List Byte) : SlotState :=
  match t.slotState with
  | .driving => driveResult t tag content
  | x => x

/-- What slot `k` read is routed on (R17, R18). -/
def routeSlot (k : Nat) (tag : Byte) (content : List Byte) (s : State) : State :=
  if k < Config.directorySlots then directorySlot k (.read tag content) s
  else payloadSlot (k - Config.directorySlots) tag content s

/-- The slot in progress ends with the line having read a tag and a content (R16). -/
def endSlot (tag : Byte) (content : List Byte) (s : State) : State :=
  if s.trunk.inProgress then
    let k := s.trunk.slotsBegun - 1
    let d := s.trunk.driver
    let result := slotResult s.trunk tag content
    let s := s.setTrunk { s.trunk with inProgress := false, slotState := result, driver := none }
    match result with
    | .mismatch => duplicateFound k s
    | .yielded => routeSlot k tag content (reportLoss k d s)
    | _ => routeSlot k tag content s
  else s

end Sys2Proof.Machine
end

