-- ==== Sys2Proof/Machine/Loader.lean ====
section
/-! DEFINITION. The Configuration Loader (section 2.2): the node-wide fields, the lane contracts, and a good or bad
image. -/

namespace Sys2Proof.Machine

/-- LANE_CONFIG for a clamp (disable = false) or a disabling (R22, R23). -/
def postConfig (lane : Option LaneId) (disable : Bool) (code : Nat) (s : State) : State :=
  postSelf .laneConfig lane ((if disable then 256 else 0) + code) s

/-- A number brought into a range. -/
def clampTo (lo hi n : Nat) : Nat := max lo (min hi n)

/-- A field clamped to a range: LANE_CONFIG is posted when the value used differs (R22, R23). -/
def takeClamped (lane : Option LaneId) (code lo hi n : Nat) (s : State) : Nat × State :=
  (clampTo lo hi n, if clampTo lo hi n = n then s else postConfig lane false code s)

/-- A rate field: rounded down to a multiple of 8, then clamped; rounding is no clamp (R22, R23). -/
def takeRate (lane : Option LaneId) (code lo hi n : Nat) (s : State) : Nat × State :=
  takeClamped lane code lo hi (n / 8 * 8) s

/-- A field whose 0 means a default (R22). -/
def takeOrDefault (lane : Option LaneId) (code lo hi dflt n : Nat) (s : State) : Nat × State :=
  if n = 0 then (dflt, s) else takeClamped lane code lo hi n s

/-- The node-wide fields of a good image, in the order of R22's table (R183). -/
def takeNodeFields (image : List Byte) (s : State) : State :=
  let s := s.setModeCtl { s.mode with node := Fin.ofNat 8 (byteAt image 6) }
  let (t, s) := takeOrDefault none 16 4 250 20 (byteAt image 7) s
  let s := s.setTime { s.time with tolerance := t }
  let (b, s) := takeClamped (some .alert) 17 4 32 (byteAt image 8) s
  let grade := byteAt image 9
  let good : Bool := decide (1 ≤ grade ∧ grade ≤ 4)
  let s := if good then s else postConfig (some .alert) true 18 s
  let (rate, s) := takeRate (some .alert) 19 16 192 (get16 image 10) s
  let (d1, s) := takeOrDefault (some .alert) 20 16 4095 2812 (get16 image 12) s
  let (d2, s) := takeOrDefault (some .alert) 21 16 4095 938 (get16 image 14) s
  let (d3, s) := takeOrDefault (some .alert) 22 16 4095 469 (get16 image 16) s
  s.setConfig {
    bulletin := b, alertGrade := if good then some grade else none, takeoverRate := rate
    duration1 := d1, duration2 := d2, duration3 := d3, apFraming := framingOf (byteAt image 18) }

/-- A lane is disabled by a check (R23, R24). -/
def disableLane (l : Lane) (code : Nat) (s : State) : State :=
  (postConfig (some (.svc l)) true code s).setContract l none

/-- A lane's contract after its class and grade have been accepted: rates, their order, annex and dwell (R23). -/
def takeRates (l : Lane) (c : List Byte) (s : State) : State :=
  let lane := some (LaneId.svc l)
  let (rmin, s) := takeRate lane 3 8 384 (get16 c 13) s
  let (rnom, s) := takeRate lane 4 8 384 (get16 c 15) s
  let (rmax, s) := takeRate lane 5 8 384 (get16 c 17) s
  if rmin ≤ rnom ∧ rnom ≤ rmax then
    let (annex, s) := takeClamped lane 7 0 512 (get16 c 19) s
    let (dwell, s) := takeClamped lane 8 1 255 (byteAt c 23) s
    s.setContract l (some {
      serviceId := BitVec.ofNat 16 (get16 c 1), name := (c.drop 3).take 8
      laneClass := if byteAt c 11 = 1 then .yieldable else .kept
      grade := byteAt c 12, rmin := rmin, rnom := rnom, rmax := rmax, annex := annex
      autoOpen := decide (byteAt c 21 ≠ 0), framing := framingOf (byteAt c 22), dwell := dwell })
  else disableLane l 6 s

/-- A service lane's contract is taken from its 24 bytes of the image (R23, R183). -/
def takeContract (l : Lane) (c : List Byte) (s : State) : State :=
  if byteAt c 0 = 0 then s.setContract l none
  else if 1 < byteAt c 11 then disableLane l 1 s
  else if byteAt c 12 = 0 ∨ 4 < byteAt c 12 then disableLane l 2 s
  else takeRates l c s

/-- The Mode Controller enters JOINING from CONFIG: every port begins to hunt (R25, R85). -/
def enterJoining (s : State) : State :=
  let s := setMode .joining s
  let s := s.setModeCtl { s.mode with listenCount := 0, cycleSource := none }
  forEach allLanes (fun i s => s.setPort i ⟨.hunt, []⟩) s

/-- The image read is complete (R21 to R25). -/
def finishLoad (image : List Byte) (s : State) : State :=
  let s := s.setPins s.inReset false
  match imageReason image with
  | some r => enterHalted (post .configBad 255 none r s)
  | none =>
    let s := takeNodeFields image s
    let s := takeContract .l0 ((image.drop 19).take 24) s
    let s := takeContract .l1 ((image.drop 43).take 24) s
    let s := takeContract .l2 ((image.drop 67).take 24) s
    enterJoining s

end Sys2Proof.Machine
end

