-- ==== Sys2Proof/Machine/Boundary.lean ====
section
/-! DEFINITION. The Timebase and what its boundaries drive (sections 1.2, 2.3 to 2.5, 4.7): reference pulses, tolerance
windows, frame and cycle boundaries, the end of the listen period, mode transitions and QUIET. Log 5 gives the order of
what falls at one boundary. -/

namespace Sys2Proof.Machine

/-! ### QUIET entry (R33) -/

/-- A Lane Unit at QUIET entry (R79): CLOSED, FIFO discarded, no bytes. -/
def LaneUnit.quiet (u : LaneUnit) : LaneUnit := { u.discard with state := .closed, split := ⟨0, 0, 0⟩, assembled := none }

/-- A lane at QUIET entry: its tenancy record and Lane Unit, and what its scheduler drops (R55, R79, R99). -/
def quietLane (i : LaneId) (s : State) : State :=
  let s := s.setTenancy i resetTenancy
  let s := onUnit i LaneUnit.quiet s
  let s := s.setSched i { s.scheds.get i with caption := none, picture := none }
  match i with
  | .svc l => interruptPicture l (onCaptions l CaptionCarousel.interrupt s)
  | .alert => s

/-- The Mode Controller enters QUIET (R33, R55, R79, R99, R145, R146, R165). The carousels of lanes 0, 1 and 2 are interrupted
in that order, and so come their OBJECT_EXPIRED (R140); the spec gives no order (DESIGN CHOICE, log 5). -/
def quietEntry (s : State) : State :=
  let was := s.units
  let s := setMode .quiet s
  let s := s.setModeCtl { s.mode with listenCount := 0, cycleSource := none }
  let s := freeReserve (s.setAlerts resetAlerts)
  let s := forEach allLanes quietLane s
  forLanes (fun l => statusIfHeld (.svc l) (was.get (.svc l)).intake) s

/-- The Timebase reports holdover exhausted (R33): a node that takes part, or joins, enters QUIET. -/
def holdoverExhausted (s : State) : State :=
  match s.mode.mode with
  | .joining | .active | .standby | .withdrawing => quietEntry s
  | .config | .quiet | .halted => s

/-! ### The MODE lines (R30) -/

/-- The request after a sample of the MODE lines (R30). -/
def sampled (lines : ModeLines) (old : Request) : Request :=
  if lines = 0 then .run else if lines = 1 then .standby else if lines = 2 then .withdraw else old

/-- The MODE lines are sampled, in every mode but CONFIG and HALTED (R30). -/
def sampleMode (lines : ModeLines) (s : State) : State :=
  if s.mode.mode.takesRecords then s.setModeCtl { s.mode with request := sampled lines s.mode.request } else s

/-! ### Entering and leaving the running modes (R29, R31) -/

/-- Every enabled lane with auto-open set is opened at Rnom (R29). The lanes are opened in the order 0, 1, 2, each with its
planning attempt before the next is opened, and so stand their LANE_OPENED: a later lane's comes after an earlier lane's
CLAIM_DEFERRED. R29 gives no order of the lanes (DESIGN CHOICE, log 5). -/
def autoOpenLanes (s : State) : State :=
  forLanes (fun l s =>
    match s.contracts.get l with
    | some c => if c.autoOpen then laneOpenOp l c none s else s
    | none => s) s

/-- Every enabled lane with auto-open set that is CLOSED is opened at Rnom at a boundary that has a step 4 still to come
(R31): its planning attempt is the one of step 4, after the alert lane's (R58; log 31). The lanes are opened in the order 0,
1, 2, and so stand their LANE_OPENED; R31 gives no order (DESIGN CHOICE, log 5). -/
def autoOpenUnplanned (s : State) : State :=
  forLanes (fun l s =>
    match s.contracts.get l with
    | some c => if c.autoOpen ∧ (s.units.get (.svc l)).state = .closed then openUnplanned l c.rnom s else s
    | none => s) s

/-- The listen period ends (R29, steps 2 to 4; step 1 stands in `State.comingCycle`): the mode of the request, JOINED,
auto-open, and the alerts stored while joining are judged (R165). -/
def endListening (s : State) : State :=
  let active : Bool := s.mode.request == .run
  let s := setMode (if active then .active else .standby) s
  let source := match s.mode.cycleSource with | some n => n.val | none => 255
  let s := postSelf .joined none ((if active then 0 else 256) + source) s
  judged (if active then autoOpenLanes s else s)

/-- Every service lane is CLOSED. -/
def State.allClosed (s : State) : Bool := Lane.all.all (fun l => (s.units.get (.svc l)).state == .closed)

/-- A WITHDRAWING node whose service lanes are all CLOSED enters STANDBY (R31). -/
def withdrawnCheck (s : State) : State :=
  if s.mode.mode = .withdrawing ∧ s.allClosed then setMode .standby s else s

/-- The transitions of R31 at a cycle boundary, from the mode held when the boundary was raised. At the entry to WITHDRAWING
the lanes are closed in the order 0, 1, 2, and so stand their CLAIM_WITHDRAWN (R70, cause 4) and LANE_CLOSED; R31 gives no
order (DESIGN CHOICE, log 5). -/
def modeTransition (s : State) : State :=
  match s.mode.mode with
  | .active =>
    match s.mode.request with
    | .run => s
    | .standby | .withdraw => withdrawnCheck (forLanes laneCloseOp (setMode .withdrawing s))
  | .standby =>
    match s.mode.request with
    | .run => autoOpenUnplanned (setMode .active s)
    | .standby | .withdraw => s
  | .withdrawing => withdrawnCheck s
  | .config | .joining | .quiet | .halted => s

/-! ### Boundaries (R6) -/

/-- What every frame boundary does to the Trunk Interface, HALTED included (R8, R13, R18): the frame's relay ends, and a
frame begins. A slot left in progress has been cut before. -/
def trunkFrame (s : State) : State :=
  let s := relayLeftover s
  s.setTrunk { s.trunk with
    inProgress := false, slotsBegun := 0, copy := none, directory := (.unread, .unread, .unread) }

/-- What every frame boundary does: the Trunk Interface begins a frame, and but in HALTED the frame's lane bytes go, loss
marks are cleared and dwell ends tested (R34, R77, R94, R120). -/
def frameWork (ended : FramePos) (s : State) : State :=
  let s := trunkFrame s
  if s.live then
    let s := forEach allLanes (onUnit · (fun u => { u with assembled := none })) s
    let s := clearMarks ended s
    forLanes (fun l s => onCaptions l (fun c => c.testDwell s.pos) s) s
  else s

/-- While JOINING a frame boundary adds one to the listen count (R26). -/
def listenStep (s : State) : State :=
  if s.mode.mode = .joining then
    s.setModeCtl { s.mode with listenCount := min Config.listenFrames (s.mode.listenCount + 1) }
  else s

/-- What the running blocks do at a cycle boundary: steps 1 and 2, the mode, the Alert Controller with step 3, step 4
(R72 to R74, R31, R149 to R159). -/
def runningWork (s : State) : State :=
  if s.onTrunk then tenancyStep4 (alertBoundary (modeTransition (tenancySteps12 s))) else s

/-- The lane status records of a cycle boundary (R98). -/
def statusRecords (s : State) : State := forLanes makeStatus s

/-- What a cycle boundary drives once the frame's work is done (log 5). -/
def cycleWork (lines : ModeLines) (s : State) : State :=
  if s.live then
    let s := sampleMode lines s
    let s := if s.mode.mode = .joining ∧ s.mode.listenCount = Config.listenFrames then endListening s
             else runningWork s
    statusRecords (storeBoundary s)
  else s

/-- The Timebase as a cycle begins with the number given (R6); the window around the nominal point is open while it
follows pulses (R7). -/
def Timebase.beginCycle (t : Timebase) (cycle : Cycle) (lateOpen : Bool) : Timebase :=
  { t with localCount := 0, cycle := cycle, lateOpen := lateOpen, hold := 0 }

/-- The Timebase follows pulses: LOCKED or HOLDOVER. -/
def Timebase.follows (t : Timebase) : Bool := t.lock == .locked || t.lock == .holdover

/-- The number the coming cycle boundary opens its cycle with: one more, but 0 where it ends a listen period without a
cycle source (R29), and as it stands before the first pulse (R11). -/
def State.comingCycle (s : State) : Cycle :=
  if s.time.lock = .unset then s.time.cycle
  else if s.mode.mode = .joining ∧ s.mode.cycleSource = none ∧ Config.listenFrames ≤ s.mode.listenCount + 1 then 0
  else s.time.cycle + 1

/-- A cycle boundary: `lateOpen` tells whether its late half is still to come (R6, R7). A slot left in progress is cut first,
in the cycle and frame in which it stood (R16, R178; log 6). The number is loaded at once, also
the 0 with which a listen period ends (R29, step 1), so that the dwell ends are tested with the position of the frame that
begins (R120). The relay set is taken last, from the source as the boundary leaves it (R18; log 5). -/
def cycleBoundary (lines : ModeLines) (lateOpen : Bool) (s : State) : State :=
  let ended := s.pos
  let s := cutSlot s
  let s := s.setTime (s.time.beginCycle s.comingCycle lateOpen)
  let s := listenStep (frameWork ended s)
  takeRelaySet (cycleWork lines s)

/-- A frame boundary that is not a cycle boundary (R6). A slot left in progress is cut first (R16; log 6). -/
def plainFrameBoundary (s : State) : State :=
  let ended := s.pos
  let s := cutSlot s
  let s := s.setTime { s.time with localCount := (s.frameIndex + 1) * Config.frameMicros, hold := 0 }
  takeRelaySet (listenStep (frameWork ended s))

/-- The local count reaches a multiple of 80,000 (R6; log 28). -/
def frameBoundary (lines : ModeLines) (s : State) : State :=
  if s.frameIndex < 15 then plainFrameBoundary s else cycleBoundary lines s.time.follows s

/-- A part of the coming cycle boundary carried out by a command of its own: what it reads of the time, and the stamp of
its events (R178), are those of the boundary, and the Timebase itself moves with the boundary (log 2). -/
def atBoundary (f : State → State) (s : State) : State :=
  (f (s.setTime (s.time.beginCycle s.comingCycle s.time.lateOpen))).setTime s.time

/-! ### Reference pulses (R7 to R11) -/

/-- The Timebase has taken a pulse as the cycle's reference (R8). -/
def Timebase.locked (t : Timebase) : Timebase := { t with lock := .locked, misses := 0, lateOpen := false }

/-- REF_REGAINED with the misses held before the pulse, when the pulse was taken in HOLDOVER (R8). -/
def postRegained (was : Timebase) (s : State) : State :=
  if was.lock = .holdover then postSelf .refRegained none was.misses s else s

/-- A pulse in the early half (R8): the cycle ends at the pulse, at which the count stands at its arrival, and the slot
in progress is cut. -/
def earlyPulse (arrival : Nat) (lines : ModeLines) (s : State) : State :=
  let was := s.time
  let s := cutSlot (s.setTime { s.time with localCount := min arrival (Config.cycleMicros - 1) })
  let s := postRegained was (s.setTime s.time.locked)
  cycleBoundary lines false s

/-- A pulse in the late half (R8): the count is held still for the offset after the slot in progress. -/
def latePulse (arrival : Nat) (s : State) : State :=
  postRegained s.time (s.setTime { s.time.locked with localCount := arrival, hold := arrival })

/-- The phase is set outright by a pulse (R11), from UNSET while JOINING: the boundary carries cycle number 0, and the
listen period begins (R26). -/
def firstPulse (lines : ModeLines) (s : State) : State :=
  let ended := s.pos
  let s := cutSlot s
  let s := s.setTime (s.time.locked.beginCycle s.time.cycle false)
  let s := frameWork ended s
  let s := s.setModeCtl { s.mode with listenCount := 0, cycleSource := none }
  takeRelaySet (cycleWork lines s)

/-- The phase is set outright by a pulse (R11), from LOST while QUIET: REF_REGAINED with argument 8, and the node goes on
to JOINING (R33, R26). What the cut of the slot in progress posts is stamped before the boundary (R178; log 6). The ports,
which go on in QUIET (R79), keep their receive state and the bits they hold: R85's HUNT at JOINING entry is that of R25,
from CONFIG (log 46). -/
def realignPulse (lines : ModeLines) (s : State) : State :=
  let ended := s.pos
  let s := cutSlot s
  let s := s.setTime (s.time.locked.beginCycle (s.time.cycle + 1) false)
  let s := frameWork ended s
  let s := postSelf .refRegained none Config.lostMisses s
  let s := setMode .joining s
  let s := s.setModeCtl { s.mode with listenCount := 0, cycleSource := none }
  takeRelaySet (cycleWork lines s)

/-- A REFPULSE pulse arrives at a local count (R8, R10, R11). -/
def pulse (arrival : Nat) (lines : ModeLines) (s : State) : State :=
  match s.time.lock with
  | .unset => if s.mode.mode = .joining then firstPulse lines s else s
  | .lost => if s.mode.mode = .quiet then realignPulse lines s else s
  | .locked | .holdover =>
    if Config.cycleMicros - s.time.tolerance ≤ arrival then earlyPulse arrival lines s
    else if arrival ≤ s.time.tolerance ∧ s.time.lateOpen then latePulse arrival s
    else s

/-- A tolerance window closes without a pulse (R9). -/
def windowClose (s : State) : State :=
  if s.time.follows ∧ s.time.lateOpen then
    let n := s.time.misses + 1
    let lost : Bool := decide (Config.lostMisses ≤ n)
    let s := s.setTime { s.time with
      misses := n, lateOpen := false, lock := if lost then .lost else .holdover
      localCount := max s.time.localCount s.time.tolerance }
    let s := postSelf .refMiss none n s
    if lost then holdoverExhausted (postSelf .refLost none Config.lostMisses s) else s
  else s

/-! ### The passing of a microsecond (log 1) -/

/-- The local count after a microsecond with no command: it waits at the end of a slot, for as long as a late pulse holds
it and then for the slot or boundary that follows, and at offset +T while the window is open (R6, R8, R9). -/
def Timebase.tick (t : Timebase) : Timebase :=
  if t.lock = .unset then t
  else if t.localCount % Config.slotMicros = 99 then { t with hold := t.hold - 1 }
  else if t.lateOpen ∧ t.localCount = t.tolerance then t
  else { t with localCount := t.localCount + 1 }

/-- EVO after a microsecond: 115,200 bit/s is 1,152 ten-thousandths of a bit (R179). It waits in bit 119 for the record to
be sent. -/
def EvoLine.tick (l : EvoLine) : EvoLine :=
  match l with
  | .idle => .idle
  | .sending bit phase =>
    if phase + 1152 < 10000 then .sending bit (phase + 1152)
    else if bit + 1 < Config.eventBits then .sending (bit + 1) (phase + 1152 - 10000)
    else .sending bit phase

/-- A microsecond passes with no command waiting. -/
def tick (s : State) : State :=
  if s.inReset then s
  else (s.setTime s.time.tick).setEvents { s.events with line := s.events.line.tick }

end Sys2Proof.Machine
end

