-- ==== Sys2Proof/Machine/Ports.lean ====
section
/-! DEFINITION. The ports (section 5.4): framing a record out of bits, judging it, the rescan after a rejected one (R85,
R86), and handing a taken record on (R87). -/

namespace Sys2Proof.Machine

/-! ### Framing (R85, R86) -/

/-- What a port makes of the bits it reads: a record taken, or one rejected with a reason and the kind byte as read. -/
inductive PortEvent where
  | taken (r : PortRecord)
  | rejected (reason : Nat) (kind : Byte)
deriving DecidableEq, Repr

/-- What the bits from a sync byte on make: the bits do not suffice yet (with the receive state), or a record is judged,
with the number of bits it took. -/
inductive Framed where
  | waiting (state : RxState)
  | judged (e : PortEvent) (bits : Nat)
deriving DecidableEq, Repr

/-- The judgement of a whole record (R86, checks 2 to 4). -/
def judgeRecord (port : LaneId) (kind : Byte) (body : List Byte) (crc : BitVec 16) : PortEvent :=
  match recordReason port kind (BitVec.ofNat 16 body.length) body crc with
  | some r => .rejected r kind
  | none =>
    match parseRecord kind.toNat body with
    | some r => .taken r
    | none => .rejected 4 kind

/-- Bits that begin with a sync byte, framed (R85): 32 bits of sync, kind and length, then body and CRC. -/
def frameBits (order : BitOrder) (port : LaneId) (bits : List Bool) : Framed :=
  if bits.length < 32 then .waiting .header
  else
    let head := bytesOfBits order 4 bits
    let kind := head.getD 1 0
    let len := get16 head 2
    if Config.maxBody < len then .judged (.rejected 3 kind) 32
    else if bits.length < 32 + 8 * len then .waiting .body
    else if bits.length < 48 + 8 * len then .waiting .check
    else
      let rest := bytesOfBits order (len + 2) (bits.drop 32)
      .judged (judgeRecord port kind (rest.take len) (BitVec.ofNat 16 (get16 rest len))) (48 + 8 * len)

/-- A port in HUNT reads bits (R85): what it takes and rejects, and the receiver it is left in. After a rejected record
it hunts again from the bit after the first bit of that record's sync byte, after a taken one from the bit after its
last. `fuel` bounds the number of places looked at. -/
def scanBits (order : BitOrder) (port : LaneId) : Nat → List Bool → List PortEvent × Port
  | 0, bits => ([], ⟨.hunt, bits⟩)
  | fuel + 1, bits =>
    if bits.length < 8 then ([], ⟨.hunt, bits⟩)
    else if byteOfBits order (bits.take 8) ≠ Config.sync then scanBits order port fuel (bits.drop 1)
    else match frameBits order port bits with
      | .waiting state => ([], ⟨state, bits⟩)
      | .judged (.taken r) n =>
        let (es, p) := scanBits order port fuel (bits.drop n)
        (.taken r :: es, p)
      | .judged (.rejected r k) _ =>
        let (es, p) := scanBits order port fuel (bits.drop 1)
        (.rejected r k :: es, p)

/-- The configured bit order of a port; a disabled lane's port keeps the order before an image (log 8). -/
def State.portOrder (s : State) : LaneId → BitOrder
  | .svc l => match s.contracts.get l with | some c => c.framing.order | none => resetFraming.order
  | .alert => s.config.apFraming.order

/-- A record as bits on a port: sync, kind, length, body and CRC; a record rejected at its length has no more than its
header (R85, R86). -/
def recordBits (order : BitOrder) (kind : Byte) (length : BitVec 16) (body : List Byte) (crc : BitVec 16) : List Bool :=
  let bytes := Config.sync :: kind :: put16 length.toNat
    ++ (if Config.maxBody < length.toNat then [] else body ++ put16 crc.toNat)
  bytes.flatMap (orderBits order)

/-! ### Acting on a record (R87, R148) -/

/-- A record taken on the port of an enabled service lane (R87). -/
def actService (l : Lane) (c : Contract) (r : PortRecord) (s : State) : State :=
  match r with
  | .audioUnit unit => audioUnitOp l unit s
  | .laneOpen rate => laneOpenOp l c rate s
  | .laneClose => laneCloseOp l s
  | .laneRate rate => laneRateOp l c rate s
  | .laneReset => laneResetOp l s
  | .captionPut id priority dwell repeats text => captionPutOp l id priority dwell repeats text s
  | .captionDrop id => captionDropOp l id s
  | .pictureBegin id size repeats lifetime => pictureBeginOp l id size repeats lifetime s
  | .pictureChunk id offset bytes => pictureChunkOp l id offset bytes s
  | .pictureDrop id => pictureDropOp l id s
  | .alertRaise _ _ _ | .alertText _ _ | .alertPictureBegin _ _ | .alertPictureChunk _ _ _ | .alertAudio _ _
  | .alertEnd _ => s

/-- A record taken on the alert port (R147, R148). -/
def actAlert (r : PortRecord) (s : State) : State :=
  match r with
  | .alertRaise id level duration => alertRaiseOp id level duration s
  | .alertText id text => alertTextOp id text s
  | .alertPictureBegin id size => alertPictureBeginOp id size s
  | .alertPictureChunk id offset bytes => alertPictureChunkOp id offset bytes s
  | .alertAudio id unit => alertAudioOp id unit s
  | .alertEnd id => alertEndOp id s
  | .audioUnit _ | .laneOpen _ | .laneClose | .laneRate _ | .laneReset | .captionPut _ _ _ _ _ | .captionDrop _
  | .pictureBegin _ _ _ _ | .pictureChunk _ _ _ | .pictureDrop _ => s

/-- A record taken on a port is acted on; the port of a disabled lane discards it (R24, R87). -/
def actRecord (port : LaneId) (r : PortRecord) (s : State) : State :=
  match port with
  | .alert => actAlert r s
  | .svc l => match s.contracts.get l with | some c => actService l c r s | none => s

/-- RECORD_BAD (R86); a disabled lane's port posts none (R24; log 8). -/
def postBad (port : LaneId) (reason : Nat) (kind : Byte) (s : State) : State :=
  let silent : Bool := match port with | .svc l => (s.contracts.get l).isNone | .alert => false
  if silent then s else postSelf .recordBad (some port) (256 * reason + kind.toNat) s

/-- What a port made of its bits is carried out in order. -/
def portEvent (port : LaneId) (e : PortEvent) (s : State) : State :=
  match e with
  | .taken r => actRecord port r s
  | .rejected reason kind => postBad port reason kind s

/-- A port reads bits behind those it holds (R85): the last ones of its hunt, or a record begun. -/
def readBits (port : LaneId) (bits : List Bool) (s : State) : State :=
  let all := (s.ports.get port).bits ++ bits
  let (es, p) := scanBits (s.portOrder port) port all.length all
  forEach es (portEvent port) (s.setPort port p)

/-- The record of a command, as it was framed on a port (log 7). A port that holds no bits takes a record whose body has a
length its kind allows; otherwise the record is read as the bits it came in, behind those the port holds (R85, R86). A
record commanded on a port whose clock stands still is taken all the same, and the clock is still held as stopped (R85, R98;
log 23). -/
def takeRecord (port : LaneId) (r : PortRecord) (s : State) : State :=
  if s.live then
    if (s.ports.get port).bits = [] ∧ r.body.length ≤ Config.maxBody ∧
        bodyLengthAllowed r.code r.body.length = true then
      actRecord port r (s.setPort port ⟨.hunt, []⟩)
    else
      let kind := byteOf r.code
      let length : BitVec 16 := BitVec.ofNat 16 (min 65535 r.body.length)
      readBits port (recordBits (s.portOrder port) kind length r.body (crc16 (recordChecked kind length r.body))) s
  else s

/-- A record as read on a port fails a check of R86. -/
def rejectRecord (port : LaneId) (kind : Byte) (length : BitVec 16) (body : List Byte) (crc : BitVec 16) (s : State) :
    State :=
  if s.live ∧ (recordReason port kind length body crc).isSome then
    readBits port (recordBits (s.portOrder port) kind length body crc) s
  else s

end Sys2Proof.Machine
end

