-- ==== Sys2Proof/Machine/AlertCommands.lean ====
section
/-! DEFINITION. The meanings of the records of the alert port and of what falls due for an alert (chapters 9 and 10). -/

namespace Sys2Proof.Machine

/-- ALERT_RAISE (R147). -/
def execAlertRaise (id level : Byte) (duration : BitVec 16) (s : State) : Host.Outcome State Fault Refusal :=
  .next (takeRecord .alert (.alertRaise id level duration) s)

/-- ALERT_TEXT (R148). -/
def execAlertText (id : Byte) (text : List Byte) (s : State) : Host.Outcome State Fault Refusal :=
  .next (takeRecord .alert (.alertText id text) s)

/-- ALERT_PICTURE_BEGIN (R143, R148). -/
def execAlertPictureBegin (id : Byte) (size : BitVec 24) (s : State) : Host.Outcome State Fault Refusal :=
  .next (takeRecord .alert (.alertPictureBegin id size) s)

/-- ALERT_PICTURE_CHUNK (R145, R148). -/
def execAlertPictureChunk (id : Byte) (offset : BitVec 24) (bytes : List Byte) (s : State) :
    Host.Outcome State Fault Refusal :=
  .next (takeRecord .alert (.alertPictureChunk id offset bytes) s)

/-- ALERT_AUDIO (R96, R148). -/
def execAlertAudio (id : Byte) (unit : List Byte) (s : State) : Host.Outcome State Fault Refusal :=
  .next (takeRecord .alert (.alertAudio id unit) s)

/-- ALERT_END (R148). -/
def execAlertEnd (id : Byte) (s : State) : Host.Outcome State Fault Refusal :=
  .next (takeRecord .alert (.alertEnd id) s)

/-- ALERT_ENTRY (R154): the entries whose boundary the cycle in progress began with. -/
def execAlertEntry (s : State) : Host.Outcome State Fault Refusal :=
  .next (if s.onTrunk && !s.dueEntries.isEmpty then keeping (fun s => syncRelay (boundaryEntries false s)) s else s)

/-- The entries that follow an exit (R156), and the planning attempts that the exit causes (R58): the commands that carry
out an exit have no step 4 to make them. An entry has made them first and leaves none to make. -/
def afterExit (s : State) : State := syncRelay (exitAttempts (boundaryEntries true s))

/-- The exits that are due, and what follows one (R156). -/
def exitDue (s : State) : State :=
  let (exited, s) := boundaryExits s
  if exited then afterExit s else syncRelay (boundaryEntries false s)

/-- ALERT_EXIT (R156): the followed alert ends with the cycle boundary that began the cycle in progress. -/
def execAlertExit (s : State) : Host.Outcome State Fault Refusal :=
  .next (if s.onTrunk && s.followedEnds s.dueEnds then keeping exitDue s else s)

/-- The own LEAD alert of a level whose next cycle on air reaches its limit (R149). -/
def State.expiring (s : State) (level : Nat) : Option Ident :=
  (s.alerts.own.find? (fun o => o.ident.level == level && o.counts s.time.cycle && o.endCycle.isNone
    && decide (o.limit ≤ min 4095 (o.onAir + 1)))).map (fun o => o.ident)

/-- The own LEAD alert of a level that expires at this boundary is given its end (R149). -/
def expireAlert (level : Nat) (s : State) : State :=
  match s.expiring level with
  | some i => keeping (fun s => judged (stepOnAir i s)) s
  | none => s

/-- ALERT_EXPIRED (R149): at the coming cycle boundary. -/
def execAlertExpired (level : Nat) (s : State) : Host.Outcome State Fault Refusal :=
  .next (if s.onTrunk then atBoundary (expireAlert level) s else s)

/-- The hold count of an alert reaches 4 at its next step, and no node announces the identity as LEAD (R164). -/
def State.orphanDue (s : State) (i : Ident) (f : Followed) : Bool := f.ident == i && s.orphaned f.stepHold

/-- The orphan hold of an alert is over: the followed alert is exited, once steps 1 and 2 of the boundary are done (R156),
or the saved one marked ended (R164). -/
def orphanStep (i : Ident) (s : State) : State :=
  match s.alerts.followed with
  | some f =>
    if s.orphanDue i f then
      let s := tenancySteps12 s
      afterExit (exitAlert (postAlert .alertOrphaned f.lead i
        (s.setAlerts { s.alerts with followed := some f.stepHold })))
    else
      let isOver (c : Context) : Bool := match c.followed with | some g => !c.ended && s.orphanDue i g | none => false
      let gone := (s.alerts.stack.filter isOver).filterMap (fun c => c.followed)
      forEach gone (fun g => postAlert .alertOrphaned g.lead i) (s.setAlerts { s.alerts with
        stack := s.alerts.stack.map (fun c =>
          if isOver c then { c with ended := true, followed := c.followed.map Followed.stepHold } else c) })
  | none => s

/-- ALERT_ORPHANED (R164): at the coming cycle boundary. -/
def execAlertOrphaned (id : Byte) (level : Nat) (s : State) : Host.Outcome State Fault Refusal :=
  .next (if s.onTrunk then atBoundary (keeping (orphanStep ⟨id, level⟩)) s else s)

/-- REDIRECT_START (R159). -/
def execRedirectStart (s : State) : Host.Outcome State Fault Refusal :=
  .next (if s.onTrunk && s.alerts.redirect.isNone then updateRedirect s else s)

end Sys2Proof.Machine
end

