-- ==== Sys2Proof/Machine/DueCommands.lean ====
section
/-! DEFINITION. The meanings of what falls due in the Tenancy Unit, the carousels and the Object Store (chapters 4, 7 and
8). -/

namespace Sys2Proof.Machine

/-- RELEASE_DONE (R72, step 1). -/
def execReleaseDone (lane : LaneId) (s : State) : Host.Outcome State Fault Refusal :=
  .next (if s.onTrunk && s.isDue lane .release then reportLane lane (applyRelease lane s) else s)

/-- CLAIM_TAKEN (R72, step 2). -/
def execClaimTaken (lane : LaneId) (s : State) : Host.Outcome State Fault Refusal :=
  .next (if s.onTrunk && s.isDue lane .claim then reportLane lane (applyClaim lane s) else s)

/-- BACKOFF_END (R65): a lane whose backoff has run out makes its planning attempt. -/
def execBackoffEnd (lane : LaneId) (s : State) : Host.Outcome State Fault Refusal :=
  .next (if s.onTrunk && (s.tenancy.get lane).backoff == 0 then planAttempt lane s else s)

/-- DWELL_END (R120, R123). -/
def execDwellEnd (lane : Lane) (s : State) : Host.Outcome State Fault Refusal :=
  .next (if s.live then onCaptions lane (fun c => c.testDwell s.pos) s else s)

/-- A lane's object expires at its next cycle boundary (R135). -/
def State.expiryDue (s : State) (l : Lane) (id : Byte) : Bool :=
  match s.store.find (.svc l) id with
  | some o => o.expiry == some 1
  | none => false

/-- OBJECT_EXPIRED (R135): at the coming cycle boundary. -/
def execObjectExpired (lane : Lane) (id : Byte) (s : State) : Host.Outcome State Fault Refusal :=
  .next (if s.live && s.expiryDue lane id then atBoundary (expireObj lane id) s else s)

/-- An object is ASSEMBLING, and its chunk timer reaches 8 at its next step (R135). -/
def Obj.timeoutDue (o : Obj) : Bool := o.state == .assembling && o.timer + 1 == Config.chunkTimeout

/-- The chunk timeout of a lane's object, or of the reserve entries of an alert id (R135, R145). A lane's object that
expires at the same boundary goes there as expired, and its timer takes no step (R135, steps 2 and 3). -/
def timeoutStep (owner : LaneId) (id : Byte) (s : State) : State :=
  match owner with
  | .svc l =>
    match s.store.find (.svc l) id with
    | some o => if o.timeoutDue && o.expiry != some 1 then timeObj l id s else s
    | none => s
  | .alert =>
    forEach ((s.store.objects.filter (fun o => o.owner == .alert && o.id == id && o.timeoutDue)).map Obj.ident)
      timeReserve s

/-- OBJECT_TIMEOUT (R135, R145): at the coming cycle boundary. -/
def execObjectTimeout (owner : LaneId) (id : Byte) (s : State) : Host.Outcome State Fault Refusal :=
  .next (if s.live then atBoundary (timeoutStep owner id) s else s)

end Sys2Proof.Machine
end

