-- ==== Sys2Proof/Machine/LaneCommands.lean ====
section
/-! DEFINITION. The meanings of the records of a contribution port (chapters 5, 7 and 8), of a rejected record, and of
the return lines (R98). -/

namespace Sys2Proof.Machine

/-- AUDIO_UNIT (R87, R92). -/
def execAudioUnit (lane : Lane) (unit : List Byte) (s : State) : Host.Outcome State Fault Refusal :=
  .next (takeRecord (.svc lane) (.audioUnit unit) s)

/-- LANE_OPEN (R87, R88). -/
def execLaneOpen (lane : Lane) (rate : Option (BitVec 16)) (s : State) : Host.Outcome State Fault Refusal :=
  .next (takeRecord (.svc lane) (.laneOpen rate) s)

/-- LANE_RATE (R87, R89). -/
def execLaneRate (lane : Lane) (rate : BitVec 16) (s : State) : Host.Outcome State Fault Refusal :=
  .next (takeRecord (.svc lane) (.laneRate rate) s)

/-- LANE_CLOSE (R87, R90). -/
def execLaneClose (lane : Lane) (s : State) : Host.Outcome State Fault Refusal :=
  .next (takeRecord (.svc lane) .laneClose s)

/-- LANE_RESET (R87, R91). -/
def execLaneReset (lane : Lane) (s : State) : Host.Outcome State Fault Refusal :=
  .next (takeRecord (.svc lane) .laneReset s)

/-- CAPTION_PUT (R87, R115 to R118). -/
def execCaptionPut (lane : Lane) (id priority dwell repeats : Byte) (text : List Byte) (s : State) :
    Host.Outcome State Fault Refusal :=
  .next (takeRecord (.svc lane) (.captionPut id priority dwell repeats text) s)

/-- CAPTION_DROP (R87, R119). -/
def execCaptionDrop (lane : Lane) (id : Byte) (s : State) : Host.Outcome State Fault Refusal :=
  .next (takeRecord (.svc lane) (.captionDrop id) s)

/-- PICTURE_BEGIN (R87, R131 to R133). -/
def execPictureBegin (lane : Lane) (id : Byte) (size : BitVec 24) (repeats : Byte) (lifetime : BitVec 16) (s : State) :
    Host.Outcome State Fault Refusal :=
  .next (takeRecord (.svc lane) (.pictureBegin id size repeats lifetime) s)

/-- PICTURE_CHUNK (R87, R134). -/
def execPictureChunk (lane : Lane) (id : Byte) (offset : BitVec 24) (bytes : List Byte) (s : State) :
    Host.Outcome State Fault Refusal :=
  .next (takeRecord (.svc lane) (.pictureChunk id offset bytes) s)

/-- PICTURE_DROP (R87, R136). -/
def execPictureDrop (lane : Lane) (id : Byte) (s : State) : Host.Outcome State Fault Refusal :=
  .next (takeRecord (.svc lane) (.pictureDrop id) s)

/-- RECORD_REJECTED (R86). -/
def execRecordRejected (port : LaneId) (kind : Byte) (length : BitVec 16) (body : List Byte) (crc : BitVec 16)
    (s : State) : Host.Outcome State Fault Refusal :=
  .next (rejectRecord port kind length body crc s)

/-- The return line after the record on it has been sent (R98): the waiting record begins, unless the contributor's
clock has stopped. On an idle line there is no record to end, and the command tells only whether the clock stops there: a
port whose clock has stopped sends nothing until it resumes (R85, R98; log 23). -/
def ReturnLine.done (r : ReturnLine) (clockStops : Bool) : ReturnLine :=
  if clockStops then { r with sending := none, clockStopped := true }
  else if r.sending.isNone then r
  else { r with sending := r.waiting, waiting := none }

/-- LANE_STATUS_RECORD_DONE (R98); in CONFIG and HALTED the line rests idle. -/
def execLaneStatusRecordDone (lane : Lane) (clockStops : Bool) (s : State) : Host.Outcome State Fault Refusal :=
  .next (if s.live then s.setReturn lane ((s.returnLines.get lane).done clockStops) else s)

/-- The return line once its stopped clock has resumed (R98): the waiting record begins. -/
def ReturnLine.resume (r : ReturnLine) : ReturnLine :=
  if r.clockStopped = false then r
  else if r.sending.isNone then { sending := r.waiting, waiting := none, clockStopped := false }
  else { r with clockStopped := false }

/-- The level of a return line (R98) while the contributor's clock has brought it to bit `bit` of the record that it sends:
that bit, and 1 on a line that sends nothing, or once the last bit is out. How far the contributor's clock has come is no
state of the node: it comes from outside, and no command carries an edge of it (log 59). -/
def ReturnLine.level (order : BitOrder) (r : ReturnLine) (bit : Nat) : Bool :=
  match r.sending with
  | some record => (record.bits order).getD bit true
  | none => true

/-- The level of a lane's return line at the contributor's bit `bit` (R98): in CONFIG, in HALTED and while RESET is asserted
the line rests idle at 1 (R20, R34), whatever record HALTED has left on it (log 29). A disabled lane's line sends in the bit
order that its port frames in (log 8). -/
def State.returnLevel (s : State) (l : Lane) (bit : Nat) : Bool :=
  if s.live then (s.returnLines.get l).level (s.portOrder (.svc l)) bit else true

/-- PORT_CLOCK_RESUME (R98). -/
def execPortClockResume (lane : Lane) (s : State) : Host.Outcome State Fault Refusal :=
  .next (if s.live then s.setReturn lane (s.returnLines.get lane).resume else s)

/-- EVENT_RECORD_SENT (R179). -/
def execEventRecordSent (s : State) : Host.Outcome State Fault Refusal :=
  .next (if s.inReset then s else s.setEvents s.events.sent)

end Sys2Proof.Machine
end

