-- ==== Sys2Proof/Machine/StartUpCommands.lean ====
section
/-! DEFINITION. The meanings of the commands of reset, start-up and the Timebase (chapters 1 and 2). -/

namespace Sys2Proof.Machine

/-- RESET_ASSERT (R20): every block in its pin-reset state, held there; no image is read. -/
def execResetAssert (s : State) : Host.Outcome State Fault Refusal := .next (State.pinReset true false s.pending)

/-- RESET_RELEASE, or power-up (R20): the read of the image begins from its first byte. -/
def execResetRelease (s : State) : Host.Outcome State Fault Refusal := .next (State.pinReset false true s.pending)

/-- CONFIG_READ_DONE (R21): takes effect while an image is being read. -/
def execConfigReadDone (image : List Byte) (s : State) : Host.Outcome State Fault Refusal :=
  .next (if !s.inReset && s.loading && s.mode.mode == .config then finishLoad image s else s)

/-- REFPULSE (R8, R10, R11). -/
def execRefpulse (arrival : Nat) (lines : ModeLines) (s : State) : Host.Outcome State Fault Refusal :=
  .next (if s.inReset then s else pulse arrival lines s)

/-- TOLERANCE_WINDOW_CLOSE (R9). -/
def execToleranceWindowClose (s : State) : Host.Outcome State Fault Refusal :=
  .next (if s.counting then windowClose s else s)

/-- REF_LOST (R9): the window close that is the eighth miss. -/
def execRefLost (s : State) : Host.Outcome State Fault Refusal :=
  .next (if s.counting && s.time.misses == 7 then windowClose s else s)

/-- FRAME_BOUNDARY (R6). -/
def execFrameBoundary (lines : ModeLines) (s : State) : Host.Outcome State Fault Refusal :=
  .next (if s.counting then frameBoundary lines s else s)

/-- CYCLE_BOUNDARY (R6). -/
def execCycleBoundary (lines : ModeLines) (s : State) : Host.Outcome State Fault Refusal :=
  .next (if s.counting then cycleBoundary lines s.time.follows s else s)

/-- LISTEN_PERIOD_END (R26, R29): the cycle boundary that brings the listen count to 32. -/
def execListenPeriodEnd (lines : ModeLines) (s : State) : Host.Outcome State Fault Refusal :=
  .next (if s.counting && s.mode.mode == .joining && decide (Config.listenFrames ≤ s.mode.listenCount + 1)
         then cycleBoundary lines s.time.follows s else s)

end Sys2Proof.Machine
end

