-- ==== Sys2Proof/Machine/TrunkCommands.lean ====
section
/-! DEFINITION. The meanings of the commands of the trunk and the peer table (chapters 1 and 3). -/

namespace Sys2Proof.Machine

/-- SLOT_START (R13). A number past the last slot names no slot and changes nothing (log 27). -/
def execSlotStart (slot : Nat) (s : State) : Host.Outcome State Fault Refusal :=
  .next (if s.counting && decide (slot < Config.slotsPerFrame) then startSlot slot s else s)

/-- SLOT_END (R16). -/
def execSlotEnd (tag : Byte) (content : List Byte) (s : State) : Host.Outcome State Fault Refusal :=
  .next (if s.counting then endSlot tag content s else s)

/-- The next unheard report makes the entry of a peer SILENT (R45). -/
def State.silentDue (s : State) (m : Node) : Bool :=
  let e := s.peers.get m
  s.live && (e.state == .present || e.state == .outOfStep) && e.unheard + 1 == Config.silentFrames

/-- PEER_SILENT (R45): the unheard report that is the peer's sixteenth in a row. -/
def execPeerSilent (peer : Node) (s : State) : Host.Outcome State Fault Refusal :=
  .next (if s.silentDue peer then unheardReport peer s else s)

/-- The next unheard report makes the entry of a peer LOST (R45). -/
def State.lostDue (s : State) (m : Node) : Bool :=
  let e := s.peers.get m
  s.live && e.state == .silent && e.unheard + 1 == Config.lostFrames

/-- PEER_LOST (R46): the unheard report that is the peer's forty-eighth in a row. -/
def execPeerLost (peer : Node) (s : State) : Host.Outcome State Fault Refusal :=
  .next (if s.lostDue peer then unheardReport peer s else s)

end Sys2Proof.Machine
end

