-- ==== Sys2Proof/Machine/Dispatch.lean ====
section
/-! DEFINITION. The effect of a command on everything but the queue: one direct call of its meaning. -/

namespace Sys2Proof.Machine

def exec (i : Instr) (s : State) : Host.Outcome State Fault Refusal :=
  match i with
  | .resetAssert => Sys2Proof.Machine.execResetAssert s
  | .resetRelease => Sys2Proof.Machine.execResetRelease s
  | .configReadDone image => Sys2Proof.Machine.execConfigReadDone image s
  | .refpulse arrival lines => Sys2Proof.Machine.execRefpulse arrival lines s
  | .toleranceWindowClose => Sys2Proof.Machine.execToleranceWindowClose s
  | .refLost => Sys2Proof.Machine.execRefLost s
  | .frameBoundary lines => Sys2Proof.Machine.execFrameBoundary lines s
  | .cycleBoundary lines => Sys2Proof.Machine.execCycleBoundary lines s
  | .listenPeriodEnd lines => Sys2Proof.Machine.execListenPeriodEnd lines s
  | .slotStart slot => Sys2Proof.Machine.execSlotStart slot s
  | .slotEnd tag content => Sys2Proof.Machine.execSlotEnd tag content s
  | .peerSilent peer => Sys2Proof.Machine.execPeerSilent peer s
  | .peerLost peer => Sys2Proof.Machine.execPeerLost peer s
  | .audioUnit lane unit => Sys2Proof.Machine.execAudioUnit lane unit s
  | .laneOpen lane rate => Sys2Proof.Machine.execLaneOpen lane rate s
  | .laneRate lane rate => Sys2Proof.Machine.execLaneRate lane rate s
  | .laneClose lane => Sys2Proof.Machine.execLaneClose lane s
  | .laneReset lane => Sys2Proof.Machine.execLaneReset lane s
  | .captionPut lane id priority dwell repeats text => Sys2Proof.Machine.execCaptionPut lane id priority dwell repeats text s
  | .captionDrop lane id => Sys2Proof.Machine.execCaptionDrop lane id s
  | .pictureBegin lane id size repeats lifetime => Sys2Proof.Machine.execPictureBegin lane id size repeats lifetime s
  | .pictureChunk lane id offset bytes => Sys2Proof.Machine.execPictureChunk lane id offset bytes s
  | .pictureDrop lane id => Sys2Proof.Machine.execPictureDrop lane id s
  | .alertRaise id level duration => Sys2Proof.Machine.execAlertRaise id level duration s
  | .alertText id text => Sys2Proof.Machine.execAlertText id text s
  | .alertPictureBegin id size => Sys2Proof.Machine.execAlertPictureBegin id size s
  | .alertPictureChunk id offset bytes => Sys2Proof.Machine.execAlertPictureChunk id offset bytes s
  | .alertAudio id unit => Sys2Proof.Machine.execAlertAudio id unit s
  | .alertEnd id => Sys2Proof.Machine.execAlertEnd id s
  | .laneStatusRecordDone lane clockStops => Sys2Proof.Machine.execLaneStatusRecordDone lane clockStops s
  | .eventRecordSent => Sys2Proof.Machine.execEventRecordSent s
  | .releaseDone lane => Sys2Proof.Machine.execReleaseDone lane s
  | .claimTaken lane => Sys2Proof.Machine.execClaimTaken lane s
  | .backoffEnd lane => Sys2Proof.Machine.execBackoffEnd lane s
  | .alertEntry => Sys2Proof.Machine.execAlertEntry s
  | .alertExit => Sys2Proof.Machine.execAlertExit s
  | .alertExpired level => Sys2Proof.Machine.execAlertExpired level s
  | .alertOrphaned id level => Sys2Proof.Machine.execAlertOrphaned id level s
  | .redirectStart => Sys2Proof.Machine.execRedirectStart s
  | .dwellEnd lane => Sys2Proof.Machine.execDwellEnd lane s
  | .objectExpired lane id => Sys2Proof.Machine.execObjectExpired lane id s
  | .objectTimeout owner id => Sys2Proof.Machine.execObjectTimeout owner id s
  | .recordRejected port kind length body crc => Sys2Proof.Machine.execRecordRejected port kind length body crc s
  | .portClockResume lane => Sys2Proof.Machine.execPortClockResume lane s

end Sys2Proof.Machine
end

