-- ==== Sys2Proof/Machine/Step.lean ====
section
/-! DEFINITION. One step of the node: the command at the front of the queue, or, with no command waiting, the passing of a
microsecond (log 1). -/

namespace Sys2Proof.Machine

/-- `s` with its queue of waiting commands replaced. -/
def State.setQueue (s : State) (q : List Instr) : State := { s with pending := q }

/-- One step: the front command with the rest of the queue, or the passing of a microsecond. -/
def step (s : State) : Host.Outcome State Fault Refusal :=
  match s.pending with
  | [] => .next (tick s)
  | c :: rest => exec c (s.setQueue rest)

/-- `s` with the command that a word spells put at the front of its queue; no word spells one. -/
def State.withFetchWord (s : State) (nbits w : Nat) : State :=
  match decodeTableWord nbits w with
  | some c => s.setQueue (c :: s.pending)
  | none => s

end Sys2Proof.Machine
end

