-- ==== Sys2Proof/Safety.lean ====
section
/-! DEFINITION. What counts as a sound state of the node: the laws the rules give for the Timebase, the Event Output, the
FIFOs, the store, the caption carousels, the takeover stack and the alert lists, the trunk, the tenancies and the budget
splits. Each of these is a predicate that holds of State.reset; statements about every state use them. Beside them stand
what the statements say of a command's frame, of the lanes in view and of relay. -/

namespace Sys2Proof.Machine

/-- The Timebase holds values of R5: the local count within the cycle, T in its range, the miss count the lock state
gives, and in UNSET count and cycle number 0 (R6). -/
def Timebase.Sound (t : Timebase) : Prop :=
  t.localCount < Config.cycleMicros ∧ 4 ≤ t.tolerance ∧ t.tolerance ≤ 250 ∧
  match t.lock with
  | .unset => t.misses = 0 ∧ t.localCount = 0 ∧ t.cycle = 0
  | .locked => t.misses = 0
  | .holdover => 1 ≤ t.misses ∧ t.misses ≤ 7
  | .lost => t.misses = 8

/-- The Event Output keeps R177 to R179: at most 32 records, the line idle exactly while the queue is empty, and a record
on the line at one of its 120 bits. -/
def EventOut.Sound (e : EventOut) : Prop :=
  e.queue.length ≤ Config.eventRecords ∧ (e.line = .idle ↔ e.queue = []) ∧
  match e.line with
  | .idle => True
  | .sending bit phase => bit < Config.eventBits ∧ phase < 10000

/-- NFAULT is asserted in QUIET and HALTED and in no other mode (R181). -/
def State.NfaultSound (s : State) : Prop := s.events.nfault = s.mode.mode.faulty

/-- A Lane Unit's FIFO and intake keep R79 and R92: at most 16,384 bytes, and units counted as dropped exactly while the
intake is HELD. -/
def LaneUnit.FifoSound (u : LaneUnit) : Prop :=
  u.fifo.length ≤ Config.fifoBytes ∧
  match u.intake with
  | .accepting => u.dropped = 0
  | .held => 1 ≤ u.dropped ∧ u.dropped ≤ Config.maxDropped

/-- Every lane's FIFO and intake are sound. -/
def State.FifosSound (s : State) : Prop := ∀ i, (s.units.get i).FifoSound

/-- A caption carousel keeps R112 to R114 and R117: at most 16 entries, no two of one id, in falling order of priority;
one entry SENDING exactly while the send cursor is present; SENDING and DWELLING entries together at most one (R113), a
DWELLING one only while a dwell end is held. -/
structure CaptionCarousel.Sound (c : CaptionCarousel) : Prop where
  bound : c.entries.length ≤ Config.captionEntries
  ids : (c.entries.map (fun e => e.id)).Nodup
  order : (c.entries.map (fun e => e.priority)).Pairwise (· ≥ ·)
  sends : c.entries.countP (fun e => e.state == .sending) = if c.cursor.isSome then 1 else 0
  busy : c.entries.countP (fun e => e.state != .waiting) ≤ 1
  dwells : c.entries.countP (fun e => e.state == .dwelling) = 0 ∨ c.dwellEnd.isSome = true

/-- Every caption carousel is sound. -/
def State.CaptionsSound (s : State) : Prop := ∀ l, (s.captions.get l).Sound

/-- The takeover stack keeps R154: the level is that of the followed alert, 0 with none and with no context; the levels
saved rise strictly from bottom to top, each below the current one, and the same holds of each context. -/
def StackSound : Nat → Option Followed → List Context → Prop
  | level, followed, [] => level = 0 ∧ followed = none
  | level, followed, c :: rest =>
    c.level < level ∧ followed.map (fun f => f.ident.level) = some level ∧ StackSound c.level c.followed rest

/-- The Alert Controller's level, followed alert and takeover stack are sound (R154). -/
def AlertCtl.Sound (a : AlertCtl) : Prop := StackSound a.level a.followed a.stack

/-- The Alert Controller's lists hold one alert of a level at most: the own alerts, of levels 1 to 3, in rising order of
level (R35, R147), the scheduled entries (R146, R151) and the pending alerts (R157). -/
structure AlertCtl.ListsSound (a : AlertCtl) : Prop where
  own : (a.own.map (fun o => o.ident.level)).Pairwise (· < ·)
  ownLevels : ∀ o ∈ a.own, 1 ≤ o.ident.level ∧ o.ident.level ≤ 3
  scheduled : (a.scheduled.map (fun x => x.ident.level)).Nodup
  pending : (a.pendingAlerts.map (fun x => x.ident.level)).Nodup

/-- Off the trunk, HALTED apart, the Alert Controller holds what it holds after pin reset and QUIET entry, and the Object Store
no reserve entry (R145, R146). -/
def State.AlertsRest (s : State) : Prop :=
  s.mode.mode.onTrunk = false → s.mode.mode ≠ .halted → s.alerts = resetAlerts ∧ ∀ o ∈ s.store.objects, o.owner ≠ .alert

/-- A slot is driven only in ACTIVE, STANDBY and WITHDRAWING (R13). -/
def State.DrivesOnlyOnTrunk (s : State) : Prop := s.trunk.slotState = .driving → s.mode.mode.onTrunk = true

/-- The store's bytes are in canonical form (log 9). -/
def State.StoreCanonical (s : State) : Prop := Memory.wf s.store.cells = true

/-- The listen count stays in its range (R19). -/
def State.ListenBounded (s : State) : Prop := s.mode.listenCount ≤ Config.listenFrames

/-- The node's lane `i` holds cell `k`, or its pending claim asks for it (R49). -/
def State.occupies (s : State) (i : LaneId) (k : Nat) : Prop :=
  inRuns (s.tenancy.get i).runs k = true ∨
    ∃ c, (s.tenancy.get i).change = some c ∧ c.kind = .claim ∧ inRuns c.runs k = true

/-- What the tenancies keep of R36, R55 and R56: each lane's fragments ascend, do not overlap and lie within the 776 cells;
its pending change does too, a claim outside the lane's cells and a release inside them; no two lanes hold or claim one
cell. On the trunk a pending change lies one to four cycles ahead: one to three by R61 and R72, and a fourth for one that
ALERT_ORPHANED plans before the Timebase moves (log 2). Off it no lane holds or claims a cell (R55), but for the state that
HALTED keeps (R34). Left out are the number of fragments (log 44), that no two abut (R55), and the lane's maximum (R56). -/
structure State.TenanciesSound (s : State) : Prop where
  fragments : ∀ i, runsGood (s.tenancy.get i).runs = true
  changes : ∀ i c, (s.tenancy.get i).change = some c →
    c.runs ≠ [] ∧ runsGood c.runs = true ∧
      ∀ k, inRuns c.runs k = true → inRuns (s.tenancy.get i).runs k = (c.kind == .release)
  apart : ∀ i j k, i ≠ j → s.occupies i k → ¬ s.occupies j k
  ahead : s.mode.mode.onTrunk = true → ∀ i c, (s.tenancy.get i).change = some c →
    1 ≤ (c.effective - s.time.cycle).toNat ∧ (c.effective - s.time.cycle).toNat ≤ 4
  off : s.mode.mode.onTrunk = false → s.mode.mode ≠ .halted →
    ∀ i, (s.tenancy.get i).fragments = [] ∧ (s.tenancy.get i).change = none

/-- The annex of a lane of `bytes` lane bytes (R83, R84, R110): the configured annex, and at most a quarter of the bytes,
for a service lane; for the alert lane nothing at level 0, the bulletin's bytes at levels 1 and 2, and at most half the
bytes at level 3. -/
def State.annexOf (s : State) (bytes : Nat) : LaneId → Nat
  | .svc l => min (match s.contracts.get l with | some c => c.annex | none => 0) (bytes / 4)
  | .alert =>
    let bulletin := s.config.bulletin * gradePayload s.alertGrade
    if s.alerts.level = 0 then 0 else if s.alerts.level = 3 then min bulletin (bytes / 2) else min bytes bulletin

/-- Every lane's budget split is the one its cells give (R83, R84): the lane bytes are its cells times the payload of its
grade, and annex and audio budget share them. -/
def State.SplitsSound (s : State) : Prop :=
  ∀ i, let u := (s.units.get i).split
    u.bytes = s.cells i * gradePayload (s.laneGrade i) ∧ u.annex = s.annexOf u.bytes i ∧ u.annex + u.audio = u.bytes

/-- The Object Store keeps R129, R130 and R143: no block in two objects, or twice in one; a lane's object in the 384
ordinary blocks and a reserve entry in the 128 above; each of 1 to 65,536 bytes, in the blocks its size needs, ASSEMBLING
exactly while bytes are lacking; one object of an id in a lane and one entry of an identity in the reserve; at most eight
objects a lane, and two entries. -/
structure ObjectStore.Sound (o : ObjectStore) : Prop where
  apart : (o.objects.flatMap (fun x => x.blocks)).Nodup
  places : ∀ x ∈ o.objects, ∀ b ∈ x.blocks, b < Config.allBlocks ∧ (x.owner = .alert ↔ Config.ordinaryBlocks ≤ b)
  sizes : ∀ x ∈ o.objects, 1 ≤ x.size ∧ x.size ≤ Config.maxObject ∧ x.blocks.length = (x.size + 1023) / 1024
  whole : ∀ x ∈ o.objects, x.received ≤ x.size ∧ (x.state = .assembling ↔ x.received < x.size)
  ids : (o.objects.map (fun x => (x.owner, x.id, x.level))).Nodup
  levels : ∀ x ∈ o.objects, x.owner ≠ .alert → x.level = 0
  lane : ∀ l, (o.objects.filter (fun x => x.owner == .svc l)).length ≤ Config.laneObjects
  reserve : (o.objects.filter (fun x => x.owner == .alert)).length ≤ 2

/-- A lane's picture carousel keeps R137: its order lists, each once, the ids of the lane's objects that are not
ASSEMBLING, and one of them is ON-AIR exactly while the send cursor is present. -/
structure State.PictureSound (s : State) (l : Lane) : Prop where
  nodup : (s.pictures.get l).order.Nodup
  order : ∀ id, id ∈ (s.pictures.get l).order ↔
    ∃ x ∈ s.store.objects, x.owner = .svc l ∧ x.id = id ∧ x.state ≠ .assembling
  passes : s.store.objects.countP (fun x => x.owner == .svc l && x.state == .onAir) =
    if (s.pictures.get l).cursor.isSome then 1 else 0

/-- The Object Store and every picture carousel are sound. -/
def State.ObjectsSound (s : State) : Prop := s.store.Sound ∧ ∀ l, s.PictureSound l

/-- Port `p` holds no bits of an earlier record (R85). A port that holds some reads a record's bits behind them
(`Obligations.RecordCommandIsItsBits`). -/
abbrev State.Hunting (s : State) (p : LaneId) : Prop := (s.ports.get p).bits = []

/-! ### What happens from one state to another -/

/-- What an event record says, but for its stamp. -/
def EventRecord.says (e : EventRecord) : EventKind × Nat × Option LaneId × Nat := (e.kind, e.subject, e.lane, e.arg)

/-- The event queue has room for `n` more records. -/
abbrev State.Room (s : State) (n : Nat) : Prop := s.events.queue.length + n ≤ Config.eventRecords

/-- From `s` to `t` the event queue gained records that say `es`, in their order, and no others. -/
def Posted (s t : State) (es : List (EventKind × Nat × Option LaneId × Nat)) : Prop :=
  t.events.queue.map EventRecord.says = s.events.queue.map EventRecord.says ++ es

/-- From `s` to `t` the event queue gained records of which the first say `es`. -/
def PostedFirst (s t : State) (es : List (EventKind × Nat × Option LaneId × Nat)) : Prop :=
  ∃ more, Posted s t (es ++ more)

/-- What no service-lane record touches, whatever its lane: the RESET pin, configuration, contracts, Timebase, Trunk
Interface, modes, peer table, queue of commands and NFAULT. -/
structure SameNode (s t : State) : Prop where
  inReset : t.inReset = s.inReset
  loading : t.loading = s.loading
  config : t.config = s.config
  contracts : t.contracts = s.contracts
  time : t.time = s.time
  trunk : t.trunk = s.trunk
  mode : t.mode = s.mode
  peers : t.peers = s.peers
  pending : t.pending = s.pending
  nfault : t.events.nfault = s.events.nfault

/-- Everything one service lane has is unchanged: tenancy, Lane Unit, port, return line, scheduler, carousels, objects and
transfer memory. -/
structure SameLane (l : Lane) (s t : State) : Prop where
  tenancy : t.tenancy.get (.svc l) = s.tenancy.get (.svc l)
  unit : t.units.get (.svc l) = s.units.get (.svc l)
  port : t.ports.get (.svc l) = s.ports.get (.svc l)
  returnLine : t.returnLines.get l = s.returnLines.get l
  sched : t.scheds.get (.svc l) = s.scheds.get (.svc l)
  captions : t.captions.get l = s.captions.get l
  pictures : t.pictures.get l = s.pictures.get l
  objects : t.store.objects.filter (fun o => o.owner == .svc l) = s.store.objects.filter (fun o => o.owner == .svc l)
  transfers : t.store.transfers.get l = s.store.transfers.get l

/-- Everything the alert lane has is unchanged: tenancy, Lane Unit, port, scheduler and reserve entries. -/
structure SameAlertLane (s t : State) : Prop where
  tenancy : t.tenancy.get .alert = s.tenancy.get .alert
  unit : t.units.get .alert = s.units.get .alert
  port : t.ports.get .alert = s.ports.get .alert
  sched : t.scheds.get .alert = s.scheds.get .alert
  reserve : t.store.objects.filter (fun o => o.owner == .alert) = s.store.objects.filter (fun o => o.owner == .alert)

/-- From `s` to `t` nothing of another lane has changed, and nothing of SameNode. -/
structure OnlyLane (i : LaneId) (s t : State) : Prop where
  node : SameNode s t
  lanes : ∀ l, i ≠ .svc l → SameLane l s t
  alert : i ≠ .alert → SameAlertLane s t

/-- From `s` to `t` node `m` has been lost as lead of an alert (R157, R163). The alert followed, or saved in a context and
not ended, takes the lowest other node announced as LEAD and has no orphan hold, or begins its hold at 0 where there is
none, with no change of level or stack; a scheduled entry and a pending alert take that lead, or go. -/
structure LeadLost (m : Node) (i : Ident) (s t : State) : Prop where
  level : t.alerts.level = s.alerts.level ∧ t.alerts.stack.length = s.alerts.stack.length
  followed : ∀ f, s.alerts.followed = some f → f.ident = i → f.lead = m → match s.otherLead m i with
    | some k => t.alerts.followed = some { f with lead := k, hold := none }
    | none => f.hold = none → t.alerts.followed = some { f with hold := some 0 }
  saved : ∀ (n : Nat) c f, s.alerts.stack[n]? = some c → c.ended = false → c.followed = some f → f.ident = i →
    f.lead = m → match s.otherLead m i with
      | some k => t.alerts.stack[n]? = some { c with followed := some { f with lead := k, hold := none } }
      | none => f.hold = none → t.alerts.stack[n]? = some { c with followed := some { f with hold := some 0 } }
  scheduled : ∀ x ∈ s.alerts.scheduled, x.ident = i → x.lead = m → match s.otherLead m i with
    | some k => ∃ y ∈ t.alerts.scheduled, y.ident = i ∧ y.lead = k ∧ y.boundary = x.boundary ∧ y.timing = x.timing
    | none => ∀ y ∈ t.alerts.scheduled, y.ident ≠ i
  pending : ∀ x ∈ s.alerts.pendingAlerts, x.ident = i → x.lead = m → match s.otherLead m i with
    | some k => ∃ y ∈ t.alerts.pendingAlerts, y.ident = i ∧ y.lead = k
    | none => ∀ y ∈ t.alerts.pendingAlerts, y.ident = i → y.lead ≠ m

/-! ### The lanes of the trunk in the node's view (R42, R49 to R53) -/

/-- A lane of some node as the node sees it: what its sheet says of cells, pending change, class and floor, and whether the
change is judged against the own cycle number. -/
structure LaneView where
  node : Node
  lane : LaneId
  inStep : Bool
  laneClass : LaneClass
  floor : Nat
  current : List Run
  change : Option PendingChange

/-- The lanes in the node's view, those of lower nodes first: of a peer PRESENT, SILENT or OUT-OF-STEP the lanes whose sheets
are stored, in step while PRESENT, or SILENT from there (R49, R50); and on the trunk the node's own (R42). -/
def State.laneViews (s : State) : List LaneView :=
  ([0, 1, 2, 3, 4, 5, 6, 7] : List Node).flatMap (fun m =>
    let own (i : LaneId) : LaneView :=
      let terms : LaneClass × Nat := match i with
        | .alert => (.kept, 0)
        | .svc l => match s.contracts.get l with
          | none => (.kept, 0)
          | some c => (c.laneClass, (10 * c.rmin + gradePayload c.grade - 1) / gradePayload c.grade)
      ⟨m, i, true, terms.1, terms.2, (s.tenancy.get i).fragments.map (fun f => ⟨f.start, f.len⟩), (s.tenancy.get i).change⟩
    let e := s.peers.get m
    let step : Bool := decide (e.state = .present ∨ e.state = .silent ∧ e.silentOutOfStep = false)
    if m = s.mode.node then
      if s.onTrunk = true then [own (.svc .l0), own (.svc .l1), own (.svc .l2), own .alert] else []
    else if e.state = .present ∨ e.state = .silent ∨ e.state = .outOfStep then
      ([e.sheets.l0, e.sheets.l1, e.sheets.l2, e.sheets.alert].filterMap id).map
        (fun sh => ⟨m, sh.lane, step, sh.laneClass, sh.floor, sh.current, sh.change⟩)
    else [])

/-- A change of the lane counts as reached at own cycle `now`: in step, and its cycle 0 to 2,047 cycles back (R50, R51). -/
def LaneView.reached (v : LaneView) (now : Cycle) (c : PendingChange) : Bool :=
  v.inStep && decide ((now - c.effective).toNat < 2048)

/-- The lane holds cell `k`: a current one that no reached release takes, or one of a reached claim (R49, R51, R53). -/
def LaneView.holds (v : LaneView) (now : Cycle) (k : Nat) : Bool :=
  match v.change with
  | none => inRuns v.current k
  | some c => match c.kind with
    | .claim => inRuns v.current k || (v.reached now c && inRuns c.runs k)
    | .release => inRuns v.current k && !(v.reached now c && inRuns c.runs k)

/-- The lane's pending claim, not yet reached, asks for cell `k` (R49, R50). -/
def LaneView.asks (v : LaneView) (now : Cycle) (k : Nat) : Bool :=
  match v.change with
  | none => false
  | some c => c.kind == .claim && !v.reached now c && inRuns c.runs k

/-- The lane's tag, by which the map chooses among several lanes (R14, R52). -/
def LaneView.tag (v : LaneView) : Nat := (tagOf v.node (.lane v.lane)).toNat

/-! ### Relay (R18, R160) -/

/-- Node `n`, or none, is the relay source (R160): the lead of the scheduled entry of highest level, if that lead is a peer,
or else the lead of the followed alert, if that is one. -/
def State.NamesRelay (s : State) (n : Option Node) : Prop :=
  let peer (m : Node) : Option Node := if m = s.mode.node then none else some m
  let byFollowed : Option Node := s.alerts.followed.bind (fun f => peer f.lead)
  (s.alerts.scheduled = [] → n = byFollowed) ∧
    ∀ x ∈ s.alerts.scheduled, (∀ y ∈ s.alerts.scheduled, y = x ∨ y.ident.level < x.ident.level) →
      n = (peer x.lead).or byFollowed

/-- The collectors gather the wanted alert of the relay source (R160): the entry of highest level in role LEAD of the
source's last header. -/
def State.RelayKeyed (s : State) : Prop :=
  ∃ source, s.NamesRelay source ∧ match source with
    | none => s.alerts.relayKey = none
    | some n =>
      let leads := match (s.peers.get n).header with | some h => h.own.filter (fun e => e.role == .lead) | none => []
      (leads = [] → s.alerts.relayKey = none) ∧
        ∀ e ∈ leads, (∀ y ∈ leads, y = e ∨ y.ident.level < e.ident.level) → s.alerts.relayKey = some (n, e.ident)

/-- From `s` to `t` the relay of a frame has ended with the cells handed over in `s` (R18, R160). Where the source of the
frame's set is the one whose alert the collectors gather (log 40), and its alert-lane sheet is stored, its annex has been
read: the bytes of the set's cells in their order, those of a cell whose record is good, and a gap for every other cell. In
any other case alerts and store are as they were. -/
def RelayEnded (s t : State) : Prop :=
  let bytes : List (Option Byte) := s.trunk.relaySet.flatMap (fun k =>
    match s.trunk.relayGot.find? (fun r => r.cell == k && r.tagGood && r.checkGood) with
    | some r => r.payload.map some
    | none => List.replicate (gradePayload s.trunk.relayGrade) none)
  (∀ n i sh, s.trunk.relaySource = some n → s.alerts.relayKey = some (n, i) → (s.peers.get n).sheets.alert = some sh →
    let u := readAnnex i n sh.annex sh.annex bytes s
    t.alerts = u.alerts ∧ t.store = u.store) ∧
  ((∀ n i, s.trunk.relaySource = some n → s.alerts.relayKey = some (n, i) → (s.peers.get n).sheets.alert = none) →
    t.alerts = s.alerts ∧ t.store = s.store)

/-! ### What a manifest can carry -/

/-- A sheet that R36 and R185 allow: a grade of 1 to 4, a floor of one byte and an annex of two, at most four current runs
in order, and a pending change, if one stands, of one to four. -/
structure Sheet.Sendable (s : Sheet) : Prop where
  grade : 1 ≤ s.grade ∧ s.grade ≤ 4
  floor : s.floor < 256
  annex : s.annex < 65536
  current : s.current.length ≤ 4 ∧ runsGood s.current = true
  change : ∀ c, s.change = some c → 1 ≤ c.runs.length ∧ c.runs.length ≤ 4 ∧ changeGood s.current c = true

/-- A header that R35 and R185 allow: a mode that sends manifests, a level of 0 to 3 with a followed alert exactly above
0, and at most three own alerts, of levels 1 to 3 no two alike, each with a yield of 100 at most. -/
structure Header.Sendable (h : Header) : Prop where
  node : h.node < 256
  frame : h.frame < 16
  mode : h.mode.onTrunk = true
  level : h.level ≤ 3
  followed : match h.followed with
    | none => h.level = 0
    | some (origin, i) => h.level ≠ 0 ∧ origin < 256 ∧ 1 ≤ i.level ∧ i.level < 256
  own : h.own.length ≤ 3 ∧ (h.own.map (fun e => e.ident.level)).Nodup
  entries : ∀ e ∈ h.own, 1 ≤ e.ident.level ∧ e.ident.level ≤ 3 ∧ e.yield ≤ 100

/-- A manifest with the two sheets of its frame index (R37). -/
structure Manifest.Sendable (m : Manifest) : Prop where
  header : m.header.Sendable
  lanes : (m.first.lane, m.second.lane) = sheetLanes m.header.frame
  first : m.first.Sendable
  second : m.second.Sendable

end Sys2Proof.Machine
end

