-- ==== Sys2Proof/WellFormed.lean ====
section
/-! DEFINITION. When a command is one the node's surroundings can send: every operand lies in the range the spec gives
it. A meaning does not depend on this check (it is total, log 27); statements that need a bound assume it. -/

namespace Sys2Proof

open Machine (bodyLengthAllowed)

/-- The operands of a command lie in the ranges of the spec. -/
def Instr.wellFormed : Instr → Bool
  | .configReadDone image => image.length == Config.imageBytes
  | .refpulse arrival _ => decide (arrival < Config.cycleMicros)
  | .slotStart slot => decide (slot < Config.slotsPerFrame)
  | .slotEnd _ content => content.length == Config.contentBytes
  | .audioUnit _ unit => bodyLengthAllowed 0x01 unit.length
  | .captionPut _ _ _ _ _ text => bodyLengthAllowed 0x11 (4 + text.length)
  | .pictureChunk _ _ _ bytes => bodyLengthAllowed 0x22 (4 + bytes.length)
  | .alertText _ text => bodyLengthAllowed 0x32 (1 + text.length)
  | .alertPictureChunk _ _ bytes => bodyLengthAllowed 0x34 (4 + bytes.length)
  | .alertAudio _ unit => bodyLengthAllowed 0x35 (1 + unit.length)
  | .alertExpired level => decide (1 ≤ level ∧ level ≤ 3)
  | .alertOrphaned _ level => decide (1 ≤ level ∧ level ≤ 3)
  | .recordRejected _ _ length body _ =>
      decide (Config.maxBody < length.toNat) || body.length == length.toNat
  | .resetAssert | .resetRelease | .toleranceWindowClose | .refLost | .frameBoundary _ | .cycleBoundary _
  | .listenPeriodEnd _ | .peerSilent _ | .peerLost _ | .laneOpen _ _ | .laneRate _ _ | .laneClose _ | .laneReset _
  | .captionDrop _ _ | .pictureBegin _ _ _ _ _ | .pictureDrop _ _ | .alertRaise _ _ _ | .alertPictureBegin _ _
  | .alertEnd _ | .laneStatusRecordDone _ _ | .eventRecordSent | .releaseDone _ | .claimTaken _ | .backoffEnd _
  | .alertEntry | .alertExit | .redirectStart | .dwellEnd _ | .objectExpired _ _ | .objectTimeout _ _
  | .portClockResume _ => true

/-- The port record a command carries, with the port it comes in on (R184). -/
def Instr.record : Instr → Option (LaneId × Machine.PortRecord)
  | .audioUnit l unit => some (.svc l, .audioUnit unit)
  | .laneOpen l rate => some (.svc l, .laneOpen rate)
  | .laneRate l rate => some (.svc l, .laneRate rate)
  | .laneClose l => some (.svc l, .laneClose)
  | .laneReset l => some (.svc l, .laneReset)
  | .captionPut l id priority dwell repeats text => some (.svc l, .captionPut id priority dwell repeats text)
  | .captionDrop l id => some (.svc l, .captionDrop id)
  | .pictureBegin l id size repeats lifetime => some (.svc l, .pictureBegin id size repeats lifetime)
  | .pictureChunk l id offset bytes => some (.svc l, .pictureChunk id offset bytes)
  | .pictureDrop l id => some (.svc l, .pictureDrop id)
  | .alertRaise id level duration => some (.alert, .alertRaise id level duration)
  | .alertText id text => some (.alert, .alertText id text)
  | .alertPictureBegin id size => some (.alert, .alertPictureBegin id size)
  | .alertPictureChunk id offset bytes => some (.alert, .alertPictureChunk id offset bytes)
  | .alertAudio id unit => some (.alert, .alertAudio id unit)
  | .alertEnd id => some (.alert, .alertEnd id)
  | .resetAssert | .resetRelease | .configReadDone _ | .refpulse _ _ | .toleranceWindowClose | .refLost
  | .frameBoundary _ | .cycleBoundary _ | .listenPeriodEnd _ | .slotStart _ | .slotEnd _ _ | .peerSilent _
  | .peerLost _ | .laneStatusRecordDone _ _ | .eventRecordSent | .releaseDone _ | .claimTaken _ | .backoffEnd _
  | .alertEntry | .alertExit | .alertExpired _ | .alertOrphaned _ _ | .redirectStart | .dwellEnd _
  | .objectExpired _ _ | .objectTimeout _ _ | .recordRejected _ _ _ _ _ | .portClockResume _ => none

end Sys2Proof
end

