-- ==== Sys2Proof/Certificates/Slice0/Obligations.lean ====
section
/-! DEFINITION. The statements for the provers. Each docstring cites the rules a statement follows; where a statement
rests on a choice of the model it names the log entry. -/

section

open Sys2Proof Sys2Proof.Machine

/-! ### The queue of commands, and reset -/

/-- Any command `c`: a step with `c` at the front of the queue is `exec c` on the rest of the queue, and a step with no
command waiting lets a microsecond pass (the model's form, log 1). -/
def Obligations.StepRunsFrontCommand : Prop :=
  ∀ (c : Instr) (rest : List Instr) (s : State), step (s.setQueue (c :: rest)) = exec c (s.setQueue rest) ∧
    step (s.setQueue []) = .next (tick (s.setQueue []))

/-- What the spec says the blocks hold right after reset (R5, R19, R41, R55, R79, R99, R112, R129, R130, R137, R146, R177,
and the opening of section 1.3): Timebase UNSET with count, cycle and misses 0 and T 20; the Trunk Interface listening,
driving nothing, its buffers and relay cell set empty; CONFIG, request STANDBY, no listen frame, no cycle source; every peer
UNHEARD with count 0 and without header or sheets; every lane CLOSED, ACCEPTING, its FIFO empty, no unit dropped, without
bytes of annex or audio, assembled frame, cells, target, change, backoff or deferral; every port not receiving and every
return line idle; the schedulers' pointers at ALERT CAPTION and CAPTION, their cursors empty; carousels and store empty,
the marks at the head, every toggle clear and every transfer number 15; alert level 0 with nothing followed, scheduled,
saved, pending or own, no relayed text, idle collectors, no lane alert and no redirect; the event queue empty, the next
sequence number 0, the line idle and NFAULT released. -/
def Obligations.ResetValues : Prop :=
  let s := State.reset
  (s.time.lock = .unset ∧ s.time.localCount = 0 ∧ s.time.cycle = 0 ∧ s.time.misses = 0 ∧ s.time.tolerance = 20) ∧
  (s.trunk.slotState = .listening ∧ s.trunk.driver = none ∧ s.trunk.copy = none ∧
    s.trunk.directory = (.unread, .unread, .unread) ∧ s.trunk.relaySet = [] ∧ s.trunk.relayGot = []) ∧
  (s.mode.mode = .config ∧ s.mode.request = .standby ∧ s.mode.listenCount = 0 ∧ s.mode.cycleSource = none) ∧
  (∀ m, (s.peers.get m).state = .unheard ∧ (s.peers.get m).unheard = 0 ∧ (s.peers.get m).header = none ∧
    ∀ i, (s.peers.get m).sheets.get i = none) ∧
  (∀ i, (s.units.get i).state = .closed ∧ (s.units.get i).intake = .accepting ∧ (s.units.get i).fifo = [] ∧
    (s.units.get i).dropped = 0 ∧ (s.units.get i).split = ⟨0, 0, 0⟩ ∧ (s.units.get i).assembled = none ∧
    (s.tenancy.get i).fragments = [] ∧ (s.tenancy.get i).change = none ∧ (s.tenancy.get i).target = 0 ∧
    (s.tenancy.get i).restoreTarget = none ∧ (s.tenancy.get i).backoff = 0 ∧ (s.tenancy.get i).deferral = .none ∧
    (s.ports.get i).state = .notReceiving) ∧
  (∀ i, s.scheds.get i = ⟨.alertCaption, .caption, none, none⟩) ∧
  (∀ l, (s.captions.get l).entries = [] ∧ (s.captions.get l).dwellEnd = none ∧ (s.captions.get l).cursor = none ∧
    (s.captions.get l).mark = 0 ∧ (s.pictures.get l).mark = 0 ∧
    (s.pictures.get l).order = [] ∧ (s.pictures.get l).cursor = none ∧
    (s.returnLines.get l).sending = none ∧ (s.returnLines.get l).waiting = none ∧
    ∀ id : Fin 256, (s.captions.get l).toggles.get id = false ∧ (s.store.transfers.get l).get id = 15) ∧
  s.store.objects = [] ∧
  (s.alerts.level = 0 ∧ s.alerts.followed = none ∧ s.alerts.scheduled = [] ∧ s.alerts.stack = [] ∧
    s.alerts.pendingAlerts = [] ∧ s.alerts.own = [] ∧ s.alerts.relayTexts = [] ∧ s.alerts.captionCollector = none ∧
    s.alerts.pictureCollector = none ∧ s.alerts.laneAlert = none ∧ s.alerts.redirect = none) ∧
  (s.events.queue = [] ∧ s.events.nextSeq = 0 ∧ s.events.discard = false ∧ s.events.line = .idle ∧
    s.events.nfault = false)

/-- Every soundness predicate of Sys2Proof/Safety.lean holds right after reset: Timebase (R5), Event Output (R177), NFAULT
(R181), FIFOs (R79), captions (R112), takeover stack and alert lists (R146, R154), alerts at rest (R146), driving
(R13), listen count (R19), tenancies (R55, R56), budget splits (R83, R84), Object Store and picture carousels (R129, R137),
and the canonical form of the store's bytes, which is the model's (log 9). -/
def Obligations.ResetIsSound : Prop :=
  let s := State.reset
  s.time.Sound ∧ s.events.Sound ∧ s.NfaultSound ∧ s.FifosSound ∧ s.CaptionsSound ∧ s.alerts.Sound ∧
    s.DrivesOnlyOnTrunk ∧ s.StoreCanonical ∧ s.ListenBounded ∧ s.TenanciesSound ∧ s.SplitsSound ∧ s.ObjectsSound ∧
    s.alerts.ListsSound ∧ s.AlertsRest

/-- RESET_ASSERT and RESET_RELEASE, in every state (R20): every block returns to its pin-reset state, NFAULT is released
and EVO rests; after an assertion the node is held in reset and reads no image, after a release it reads one from its
start; the queue of waiting commands is kept (log 4). While RESET is asserted, no other command changes anything, and no
time passes. -/
def Obligations.ResetReturnsEveryBlock : Prop :=
  (∀ s, exec .resetAssert s = .next { State.reset with inReset := true, loading := false, pending := s.pending } ∧
    exec .resetRelease s = .next { State.reset with pending := s.pending }) ∧
  ∀ c s, s.inReset = true →
    (c ≠ .resetAssert → c ≠ .resetRelease → exec c s = .next s) ∧ tick s = s

/-- In HALTED, a command other than RESET_ASSERT and RESET_RELEASE answers a next state in which the configuration, the
Mode Controller, the peer table, the tenancies, Lane Units, ports, return lines, schedulers, carousels, the store and the
Alert Controller are as they were, and NFAULT too: only the Timebase, the Trunk Interface and the event queue go on (R34,
R181). That the return lines' fields stay is the model's reading of R34's idle lines (DEDUCED, log 29). -/
def Obligations.HaltedHoldsItsState : Prop :=
  ∀ c s, s.mode.mode = .halted → s.NfaultSound → c ≠ .resetAssert → c ≠ .resetRelease →
    ∃ t, exec c s = .next t ∧ t.events.nfault = s.events.nfault ∧
      t = { s with time := t.time, trunk := t.trunk, events := t.events }

/-! ### Start-up (chapter 2) -/

/-- CONFIG_READ_DONE while an image is read in CONFIG, the image failing a check of R21: CONFIG_BAD with the reason and no
node as subject, HALTED, NFAULT asserted, and the reading over; nothing else changes (R21, R34, R180, R181). -/
def Obligations.BadImageHalts : Prop :=
  ∀ image s reason, s.inReset = false → s.loading = true → s.mode.mode = .config → imageReason image = some reason →
    s.Room 1 → s.trunk.slotState ≠ .driving →
    ∃ t, exec (.configReadDone image) s = .next t ∧ t.mode = { s.mode with mode := .halted } ∧ t.loading = false ∧
      t.events.nfault = true ∧ Posted s t [(.configBad, 255, none, reason)] ∧
      t = { s with loading := false, mode := t.mode, events := t.events }

/-- CONFIG_READ_DONE while an image is read in CONFIG, the image passing every check of R21: the node joins under the
image's node number with a listen count of 0 and no cycle source; T is 20 for 0 and otherwise the image's byte brought
into 4 to 250; the alert grade is the image's if it is 1 to 4, and the alert lane is disabled otherwise; bulletin,
takeover rate and durations are brought into the ranges of R22; the alert port has the framing of the image's byte (R22).
A lane is disabled with byte 0 clear, a class over 1, a grade outside 1 to 4 or rates out of order, and otherwise enabled
with every field of R23 clamped to its range; LANE_CONFIG tells of every clamp and disabling, in the order of the fields
(R22, R23); and every port hunts (R25). -/
def Obligations.GoodImageJoins : Prop :=
  ∀ image s, s.inReset = false → s.loading = true → s.mode.mode = .config → imageReason image = none →
    let event (lane : Option LaneId) (code : Nat) : EventKind × Nat × Option LaneId × Nat :=
      (.laneConfig, byteAt image 6, lane, code)
    let range (lo hi n : Nat) : Nat := max lo (min hi n)
    let told (lane : Option LaneId) (code lo hi n : Nat) : List (EventKind × Nat × Option LaneId × Nat) :=
      if range lo hi n = n then [] else [event lane code]
    let orDefault (lo hi dflt n : Nat) : Nat := if n = 0 then dflt else range lo hi n
    let toldUnless0 (lane : Option LaneId) (code lo hi n : Nat) : List (EventKind × Nat × Option LaneId × Nat) :=
      if n = 0 then [] else told lane code lo hi n
    let rate (i : Nat) : Nat := get16 image i / 8 * 8
    let graded : Bool := decide (1 ≤ byteAt image 9 ∧ byteAt image 9 ≤ 4)
    let base (l : Lane) : Nat := 19 + 24 * l.num
    let used (l : Lane) (i : Nat) : Nat := range 8 384 (rate (base l + i))
    let ordered (l : Lane) : Bool := decide (used l 13 ≤ used l 15 ∧ used l 15 ≤ used l 17)
    let bad (l : Lane) : Bool := decide (byteAt image (base l) = 0 ∨ 1 < byteAt image (base l + 11) ∨
      byteAt image (base l + 12) = 0 ∨ 4 < byteAt image (base l + 12))
    let laneEvents (l : Lane) : List (EventKind × Nat × Option LaneId × Nat) :=
      let svc := some (LaneId.svc l)
      if byteAt image (base l) = 0 then []
      else if 1 < byteAt image (base l + 11) then [event svc (256 + 1)]
      else if byteAt image (base l + 12) = 0 ∨ 4 < byteAt image (base l + 12) then [event svc (256 + 2)]
      else told svc 3 8 384 (rate (base l + 13)) ++ told svc 4 8 384 (rate (base l + 15)) ++
        told svc 5 8 384 (rate (base l + 17)) ++
        if ordered l then told svc 7 0 512 (get16 image (base l + 19)) ++ told svc 8 1 255 (byteAt image (base l + 23))
        else [event svc (256 + 6)]
    ∃ t, exec (.configReadDone image) s = .next t ∧ t.loading = false ∧
      t.mode.mode = .joining ∧ t.mode.node.val = byteAt image 6 ∧ t.mode.listenCount = 0 ∧ t.mode.cycleSource = none ∧
      t.time = { s.time with tolerance := orDefault 4 250 20 (byteAt image 7) } ∧
      t.config.bulletin = range 4 32 (byteAt image 8) ∧
      t.config.alertGrade = (if graded then some (byteAt image 9) else none) ∧
      t.config.takeoverRate = range 16 192 (rate 10) ∧
      t.config.duration1 = orDefault 16 4095 2812 (get16 image 12) ∧
      t.config.duration2 = orDefault 16 4095 938 (get16 image 14) ∧
      t.config.duration3 = orDefault 16 4095 469 (get16 image 16) ∧
      t.config.apFraming = framingOf (byteAt image 18) ∧
      (∀ l, t.contracts.get l = if bad l ∨ ordered l = false then none else some {
        serviceId := BitVec.ofNat 16 (get16 image (base l + 1)), name := (image.drop (base l + 3)).take 8
        laneClass := if byteAt image (base l + 11) = 1 then .yieldable else .kept
        grade := byteAt image (base l + 12), rmin := used l 13, rnom := used l 15, rmax := used l 17
        annex := range 0 512 (get16 image (base l + 19)), autoOpen := decide (byteAt image (base l + 21) ≠ 0)
        framing := framingOf (byteAt image (base l + 22)), dwell := range 1 255 (byteAt image (base l + 23)) }) ∧
      (s.Room 22 → Posted s t
        (toldUnless0 none 16 4 250 (byteAt image 7) ++ told (some .alert) 17 4 32 (byteAt image 8) ++
          (if graded then [] else [event (some .alert) (256 + 18)]) ++ told (some .alert) 19 16 192 (rate 10) ++
          toldUnless0 (some .alert) 20 16 4095 (get16 image 12) ++
          toldUnless0 (some .alert) 21 16 4095 (get16 image 14) ++
          toldUnless0 (some .alert) 22 16 4095 (get16 image 16) ++
          (laneEvents .l0 ++ laneEvents .l1 ++ laneEvents .l2))) ∧
      (∀ i, t.ports.get i = ⟨.hunt, []⟩) ∧ t.events.nfault = false ∧
      (t.tenancy = s.tenancy ∧ t.units = s.units ∧ t.peers = s.peers ∧ t.store = s.store ∧ t.alerts = s.alerts ∧
        t.captions = s.captions ∧ t.pictures = s.pictures)

/-! ### Timebase (section 1.2) -/

/-- A REFPULSE pulse that R10 discards changes nothing and posts nothing: while LOCKED or HOLDOVER one outside every
window (later than +T and earlier than T before the next nominal point), or one in the late half of a window that is
already closed; every one while LOST and HALTED; every one while UNSET in CONFIG or HALTED. -/
def Obligations.StrayPulsesAreDiscarded : Prop :=
  ∀ arrival lines (s : State), s.inReset = false →
    (s.time.lock = .locked ∨ s.time.lock = .holdover) ∧ arrival < 1280000 - s.time.tolerance ∧
        (s.time.tolerance < arrival ∨ s.time.lateOpen = false) ∨
      s.time.lock = .lost ∧ s.mode.mode = .halted ∨
      s.time.lock = .unset ∧ (s.mode.mode = .config ∨ s.mode.mode = .halted) →
    exec (.refpulse arrival lines) s = .next s

/-- The late half of an open window (R7 to R9). A pulse in it locks the Timebase: LOCKED with no misses, the window closed,
the count the offset at the pulse and held for as many microseconds, REF_REGAINED with the misses held being posted if the
node was in HOLDOVER. A window that closes without a pulse before the eighth miss: HOLDOVER, one miss more, the window
closed, and REF_MISS with the new count. Nothing else changes. -/
def Obligations.WindowHitLateOrMissed : Prop :=
  ∀ (s : State), s.inReset = false → s.time.lock = .locked ∨ s.time.lock = .holdover → s.time.Sound →
    s.time.lateOpen = true →
    (∀ arrival lines, arrival ≤ s.time.tolerance → exec (.refpulse arrival lines) s = .next { s with
      time := { s.time with localCount := arrival, lock := .locked, misses := 0, lateOpen := false, hold := arrival }
      events := if s.time.lock = .holdover then
          s.events.offer ⟨s.events.nextSeq, s.time.cycle, 0, .refRegained, s.mode.node.val, none, s.time.misses,
            s.events.discard⟩
        else s.events }) ∧
    (s.time.misses < 7 →
      let count := max s.time.localCount s.time.tolerance
      exec .toleranceWindowClose s = .next { s with
        time := { s.time with localCount := count, lock := .holdover, misses := s.time.misses + 1, lateOpen := false }
        events := s.events.offer ⟨s.events.nextSeq, s.time.cycle, count / 80000, .refMiss, s.mode.node.val, none,
          s.time.misses + 1, s.events.discard⟩ })

/-- A pulse in the early half (R8): a cycle boundary at the pulse, LOCKED with no misses and the window closed. The cycle
number is 0 where a listen period ends there with no cycle source (R29), and otherwise one more. In HOLDOVER, REF_REGAINED
with the misses held is posted, before anything else where no directory slot or relay cell is cut by the pulse (log 6).
Configuration, contracts, ports and the queue of commands are as before. -/
def Obligations.EarlyPulseBeginsCycle : Prop :=
  ∀ arrival lines (s : State), s.inReset = false → s.time.lock = .locked ∨ s.time.lock = .holdover →
    1280000 - s.time.tolerance ≤ arrival →
    let listened : Bool := s.mode.mode == .joining && s.mode.cycleSource == none && decide (31 ≤ s.mode.listenCount)
    ∃ t, exec (.refpulse arrival lines) s = .next t ∧
      t.time = ⟨0, if listened then 0 else s.time.cycle + 1, .locked, 0, s.time.tolerance, false, 0⟩ ∧
      (s.time.lock = .holdover → s.Room 1 →
        s.trunk.inProgress = false ∨ 25 ≤ s.trunk.slotsBegun ∧ (s.trunk.slotsBegun - 25) ∉ s.trunk.relaySet →
        PostedFirst s t [(.refRegained, s.mode.node.val, none, s.time.misses)]) ∧
      t.config = s.config ∧ t.contracts = s.contracts ∧ t.ports = s.ports ∧ t.pending = s.pending

/-- The first pulse after UNSET while JOINING, and the realigning pulse after LOST while QUIET, with no slot in progress
(R11, R26, R33): LOCKED at count 0 with no misses, JOINING with no listen frame and no cycle source. The first leaves cycle
number 0; the second adds one to it, posts REF_REGAINED with argument 8, and releases NFAULT. The peer table is as before, and
the ports too, with the bits they hold: R85's HUNT at JOINING entry is read as that from CONFIG (DEDUCED, log 46).
That REF_REGAINED comes before what another block posts at that boundary is the model's order (DEDUCED, log 6). -/
def Obligations.PhaseSetOutright : Prop :=
  ∀ arrival lines (s : State), s.inReset = false → s.time.Sound → s.trunk.inProgress = false →
    s.time.lock = .unset ∧ s.mode.mode = .joining ∨ s.time.lock = .lost ∧ s.mode.mode = .quiet →
    ∃ t, exec (.refpulse arrival lines) s = .next t ∧
      t.time = ⟨0, if s.time.lock = .unset then 0 else s.time.cycle + 1, .locked, 0, s.time.tolerance, false, 0⟩ ∧
      t.mode.mode = .joining ∧ t.mode.listenCount = 0 ∧ t.mode.cycleSource = none ∧ t.mode.node = s.mode.node ∧
      (s.time.lock = .lost → t.events.nfault = false) ∧
      (s.time.lock = .lost → s.Room 1 → PostedFirst s t [(.refRegained, s.mode.node.val, none, 8)]) ∧
      t.config = s.config ∧ t.contracts = s.contracts ∧ t.peers = s.peers ∧ t.ports = s.ports ∧ t.pending = s.pending

/-- The eighth miss, by either of its commands, in JOINING, ACTIVE, STANDBY or WITHDRAWING (R9, R33): LOST with 8 misses;
REF_MISS and REF_LOST, each with 8, before anything else (before what other blocks post at QUIET entry, an order R178
leaves open and the model's: DEDUCED, log 6); QUIET with NFAULT asserted; every lane CLOSED with nothing held,
intake ACCEPTING, FIFO empty, no bytes; every alert forgotten and the reserve freed; scheduler pointers, peer table,
request, contracts and configuration kept (R55, R79, R99, R145, R146, R181). -/
def Obligations.EighthMissMakesQuiet : Prop :=
  ∀ c (s : State), c = .toleranceWindowClose ∨ c = .refLost → s.inReset = false →
    s.time.lock = .locked ∨ s.time.lock = .holdover → s.time.lateOpen = true → s.time.misses = 7 →
    s.mode.mode ∈ [.joining, .active, .standby, .withdrawing] →
    ∃ t, exec c s = .next t ∧
      t.time = { s.time with
        localCount := max s.time.localCount s.time.tolerance, lock := .lost, misses := 8, lateOpen := false } ∧
      t.mode = { s.mode with mode := .quiet, listenCount := 0, cycleSource := none } ∧ t.events.nfault = true ∧
      t.trunk.slotState ≠ .driving ∧
      (∀ i, t.tenancy.get i = resetTenancy ∧ t.units.get i = resetUnit ∧
        t.scheds.get i = { s.scheds.get i with caption := none, picture := none }) ∧
      t.alerts = resetAlerts ∧ (∀ o ∈ t.store.objects, o.owner ≠ .alert) ∧
      (s.Room 2 → PostedFirst s t [(.refMiss, s.mode.node.val, none, 8), (.refLost, s.mode.node.val, none, 8)]) ∧
      t.peers = s.peers ∧ t.config = s.config ∧ t.contracts = s.contracts ∧ t.ports = s.ports ∧ t.pending = s.pending

/-- A frame boundary inside a cycle, with no slot left in progress (R6, R13, R18, R26): the count stands at the next
frame's start, nothing is held, and the cycle number, lock state and misses stay; in every mode, HALTED included, a frame
of no slots begins with nothing read and the relay cell set is taken. Its source is the lead of the scheduled entry of
highest level, if that lead is a peer, or else the followed alert's, if that is one (R160). The set is the cells the source
holds by its stored alert-lane sheet, of that sheet's grade: the current ones, with those of a pending claim and without
those of a pending release that is reached (R50, R51, R53); without a source or a sheet there are none. A JOINING node
counts a listen frame, to 32 at most; no event is posted; and every lane's state, cells and FIFO, the peer table, modes and
ports are as before. Where cells of the old frame's set have not been handed over, the relay of that frame ends on the trunk
with those cells as gaps (R8, R18; DEDUCED, log 18), its annex read as RelayEnded says; otherwise alerts and store stay. -/
def Obligations.FrameBoundaryInsideCycle : Prop :=
  ∀ lines (s : State), s.inReset = false → s.time.lock ≠ .unset → s.frameIndex < 15 → s.trunk.inProgress = false →
    let peer (n : Node) : Option Node := if n = s.mode.node then none else some n
    let byFollowed : Option Node := s.alerts.followed.bind (fun f => peer f.lead)
    let reached (e : PeerEntry) (c : PendingChange) : Bool :=
      decide (e.state = .present ∨ e.state = .silent ∧ e.silentOutOfStep = false) &&
        decide ((s.time.cycle - c.effective).toNat < 2048)
    let holds (e : PeerEntry) (sh : Sheet) (k : Nat) : Bool := match sh.change with
      | none => inRuns sh.current k
      | some c => match c.kind with
        | .claim => inRuns sh.current k || (reached e c && inRuns c.runs k)
        | .release => inRuns sh.current k && !(reached e c && inRuns c.runs k)
    ∃ t, exec (.frameBoundary lines) s = .next t ∧
      t.time = { s.time with localCount := (s.frameIndex + 1) * 80000, hold := 0 } ∧
      (t.trunk.slotsBegun = 0 ∧ t.trunk.copy = none ∧ t.trunk.directory = (.unread, .unread, .unread) ∧
        t.trunk.relayGot = []) ∧
      (s.alerts.scheduled = [] → t.trunk.relaySource = byFollowed) ∧
      (∀ x ∈ s.alerts.scheduled, (∀ y ∈ s.alerts.scheduled, y = x ∨ y.ident.level < x.ident.level) →
        t.trunk.relaySource = (peer x.lead).or byFollowed) ∧
      (match t.trunk.relaySource with
        | none => t.trunk.relaySet = []
        | some n => match (s.peers.get n).sheets.alert with
          | none => t.trunk.relaySet = []
          | some sh => t.trunk.relayGrade = sh.grade ∧
              t.trunk.relaySet = (List.range 776).filter (holds (s.peers.get n) sh)) ∧
      (s.mode.mode.onTrunk = true ∧ s.trunk.relayGot.length < s.trunk.relaySet.length →
        RelayEnded { s with time := t.time } t) ∧
      (¬ (s.mode.mode.onTrunk = true ∧ s.trunk.relayGot.length < s.trunk.relaySet.length) →
        t.alerts = s.alerts ∧ t.store = s.store) ∧
      t.mode = { s.mode with
        listenCount := if s.mode.mode = .joining then min 32 (s.mode.listenCount + 1) else s.mode.listenCount } ∧
      t.events = s.events ∧
      (∀ i, (t.tenancy.get i).runs = (s.tenancy.get i).runs ∧ (t.tenancy.get i).change = (s.tenancy.get i).change ∧
        (t.units.get i).state = (s.units.get i).state ∧ (t.units.get i).fifo = (s.units.get i).fifo) ∧
      t.peers = s.peers ∧ t.config = s.config ∧ t.contracts = s.contracts ∧ t.ports = s.ports ∧ t.pending = s.pending

/-- A cycle boundary that ends no listen period, with no slot in progress, as CYCLE_BOUNDARY or as the sixteenth frame
boundary (log 28): count 0, cycle one more, lock state and misses kept, the late half open while the node follows pulses
(R6, R7). MODE is sampled but in CONFIG and HALTED, a JOINING node counts a listen frame (R26, R30), and the mode is
R31's: STANDBY asked to RUN is ACTIVE; ACTIVE asked for else, and WITHDRAWING, are STANDBY with the service lanes CLOSED
after due changes, as is an open lane then without cells, and else WITHDRAWING; at STANDBY to ACTIVE, nothing followed,
enabled CLOSED lanes without cells open as their contract says. On the trunk each lane holds the cells its due change
gives it, a yieldable one where no alert can be entered; RELEASE_DONE and then CLAIM_TAKEN come first, the alert lane's
before 0, 1 and 2 (R72; DESIGN CHOICE, log 5). No due entry stays scheduled. With no end due and no orphan hold, without
a due entry the takeover stays; a sole one above the level is entered: level, followed alert, a context more,
ALERT_FOLLOWED and TAKEOVER_ENTER, each yieldable lane giving its share of the yield (R73, R154, R168). With the
followed alert's end alone due the top context is taken back, with ALERT_ENDED and TAKEOVER_EXIT (R156). The other
contexts stay, with their leads where the node leads none of them (log 55). At step 4 a backoff falls by one and no
claim is made; at 0 the alert lane, and in ACTIVE any, claims what it wants or defers it; one above its target has a
change pending, always (R65, R74; log 34). Off the trunk tenancies stay, and alerts, at rest there (R146). In live modes
each lane's new status record begins on an idle line and else waits (R98); an object's expiry count falls, and at 0 it
goes, with OBJECT_EXPIRED, or ON-AIR is marked; the chunk timer of one ASSEMBLING rises, and at 8 it goes with
OBJECT_TIMEOUT (R135), a held reserve entry too (R145); one that is gathered goes where the relay key changes (R160,
R162). -/
def Obligations.CycleBoundaryCountsSamplesAndMoves : Prop :=
  ∀ c lines (s : State), c = .cycleBoundary lines ∨ c = .frameBoundary lines ∧ s.frameIndex = 15 →
    s.inReset = false → s.time.lock ≠ .unset → (s.mode.mode = .joining → s.mode.listenCount < 31) →
    s.trunk.inProgress = false →
    let asked := if lines = 0 then .run else if lines = 1 then .standby else if lines = 2 then .withdraw
      else s.mode.request
    let now := s.time.cycle + 1
    let due (i : LaneId) : Option PendingChange := (s.tenancy.get i).change.filter (fun x => x.effective == now)
    let holds (i : LaneId) (k : Nat) : Bool := match due i with
      | none => inRuns (s.tenancy.get i).runs k
      | some x => match x.kind with
        | .release => inRuns (s.tenancy.get i).runs k && !inRuns x.runs k
        | .claim => inRuns (s.tenancy.get i).runs k || inRuns x.runs k
    let bare (l : Lane) : Prop := ∀ k, holds (.svc l) k = false
    let closed (l : Lane) : Prop := match (s.units.get (.svc l)).state with
      | .closed => True
      | .closing => (due (.svc l)).isSome = true ∧ bare l
      | .opening | .onAir | .squeezed | .restoring => s.mode.mode = .active ∧ bare l
    let done (kind : ChangeKind) (event : EventKind) : List (EventKind × Nat × Option LaneId × Nat) :=
      [LaneId.alert, .svc .l0, .svc .l1, .svc .l2].filterMap (fun i => ((due i).filter (fun x => x.kind == kind)).map
        (fun x => (event, s.mode.node.val, some i, (x.runs.map (fun r => r.len)).sum)))
    let entries := s.alerts.scheduled.filter (fun x => x.boundary == now)
    let selfLed : Bool := (s.alerts.followed.toList ++ s.alerts.stack.filterMap (fun b => b.followed)).any
      (fun f => f.lead == s.mode.node)
    let brief (f : Followed) : Ident × Option Node × Cycle × Option Nat :=
      (f.ident, if selfLed then none else some f.lead, f.entry, f.hold)
    let saved (u : State) : List (Nat × Option (Ident × Option Node × Cycle × Option Nat) × Bool) :=
      u.alerts.stack.map (fun b => (b.level, b.followed.map brief, b.ended))
    let held : Prop := (∃ f, s.alerts.followed = some f ∧ f.hold ≠ none) ∨
      ∃ b ∈ s.alerts.stack, ∃ f, b.followed = some f ∧ f.hold ≠ none
    let ends : Prop := (∃ n ∈ s.alerts.ends, n.boundary = now) ∨ ∃ o ∈ s.alerts.own, o.endCycle = some now
    ∃ t es, exec c s = .next t ∧ Posted s t es ∧
      t.time = ⟨0, now, s.time.lock, s.time.misses, s.time.tolerance,
        s.time.lock == .locked || s.time.lock == .holdover, 0⟩ ∧
      (if s.mode.mode = .config ∨ s.mode.mode = .halted then t.mode = s.mode
       else
        t.mode = { s.mode with
          request := asked, mode := t.mode.mode
          listenCount := if s.mode.mode = .joining then s.mode.listenCount + 1 else s.mode.listenCount } ∧
        match s.mode.mode with
        | .standby => t.mode.mode = if asked = .run then .active else .standby
        | .active =>
          if asked = .run then t.mode.mode = .active
          else ((∀ l, closed l) → t.mode.mode = .standby) ∧ (¬ (∀ l, closed l) → t.mode.mode = .withdrawing)
        | .withdrawing =>
          ((∀ l, closed l) → t.mode.mode = .standby) ∧ (¬ (∀ l, closed l) → t.mode.mode = .withdrawing)
        | m => t.mode.mode = m) ∧
      (s.mode.mode = .standby → asked = .run → s.alerts.followed = none → ∀ l k, s.contracts.get l = some k →
        (s.units.get (.svc l)).state = .closed → (s.tenancy.get (.svc l)).fragments = [] →
        (s.tenancy.get (.svc l)).change = none →
        if k.autoOpen = true then (t.units.get (.svc l)).state = .opening ∧
          (t.tenancy.get (.svc l)).target = (10 * k.rnom + gradePayload k.grade - 1) / gradePayload k.grade
        else (t.units.get (.svc l)).state = .closed) ∧
      (s.onTrunk = true →
        (s.Room 4 → ∃ more, es = done .release .releaseDone ++ done .claim .claimTaken ++ more) ∧
        (∀ i, (∀ l, i = .svc l → s.yieldable l = false) ∨ (entries = [] ∧ s.alerts.pendingAlerts = []) →
          ∀ k, inRuns (t.tenancy.get i).runs k = holds i k) ∧
        (∀ x ∈ t.alerts.scheduled, x.boundary ≠ now) ∧
        (¬ ends → ¬ held →
          (entries = [] → t.alerts.level = s.alerts.level ∧ saved t = saved s ∧
            t.alerts.followed.map (fun f => f.ident) = s.alerts.followed.map (fun f => f.ident)) ∧
          (∀ x, entries = [x] → s.alerts.level < x.ident.level →
            t.alerts.level = x.ident.level ∧
            t.alerts.followed.map (fun f => (f.ident, f.entry, f.hold)) = some (x.ident, now, none) ∧
            saved t = (s.alerts.level, s.alerts.followed.map brief, false) :: saved s ∧
            (t.Room 1 → ∃ before after, es = before ++
              [(.alertFollowed, x.lead.val, none,
                  1024 * (match x.timing with | .onTime => 0 | .late => 1 | .outOfStep => 2)
                    + (256 * x.ident.level + x.ident.id.toNat)),
                (.takeoverEnter, s.mode.node.val, none, 256 * x.ident.level + (s.alerts.stack.length + 1))] ++ after) ∧
            (s.TenanciesSound → ∀ l,
              let n := ((List.range 776).filter (holds (.svc l))).length
              t.cells (.svc l) =
                n - (if s.yieldable l then (x.yield * (n - s.floorCells l) + 99) / 100 else 0)))) ∧
        (∀ f top rest, s.alerts.followed = some f → s.alerts.stack = top :: rest →
          (⟨f.ident, f.lead, now⟩ ∈ s.alerts.ends ∨
            f.lead = s.mode.node ∧ ∃ o ∈ s.alerts.own, o.ident = f.ident ∧ o.endCycle = some now) →
          (∀ n ∈ s.alerts.ends, n.boundary = now → n.ident = f.ident) →
          (∀ o ∈ s.alerts.own, o.endCycle = some now → o.ident = f.ident) → ¬ held →
          (∀ b ∈ top :: rest, b.ended = false ∧ ∀ g, b.followed = some g → g.ident ≠ f.ident) →
          entries = [] → s.alerts.pendingAlerts = [] →
          t.alerts.level = top.level ∧ saved t = (saved s).tail ∧
            t.alerts.followed.map (fun g => g.ident) = top.followed.map (fun g => g.ident) ∧
            (t.Room 1 → (.alertEnded, f.lead.val, none, 256 * f.ident.level + f.ident.id.toNat) ∈ es ∧
              (.takeoverExit, s.mode.node.val, none, 256 * top.level + 1) ∈ es)) ∧
        ∀ i, (t.tenancy.get i).backoff = (s.tenancy.get i).backoff - 1 ∧
          ((t.tenancy.get i).target < (t.tenancy.get i).cells → (t.tenancy.get i).change ≠ none) ∧
          (0 < (s.tenancy.get i).backoff → ∀ x, (t.tenancy.get i).change = some x → x.kind = .claim →
            (s.tenancy.get i).change = some x) ∧
          ((s.tenancy.get i).backoff = 0 → (t.tenancy.get i).change = none → (t.tenancy.get i).cells < (t.wants i).2 →
            i = .alert ∨ t.mode.mode = .active →
            (t.tenancy.get i).deferral =
              if (t.wants i).1 = .ordinary ∧ t.alerts.level ≠ 0 then .alert else .room)) ∧
      (s.onTrunk = false → (s.AlertsRest → t.alerts = s.alerts) ∧ ∀ i, (t.tenancy.get i).runs = (s.tenancy.get i).runs ∧
        (t.tenancy.get i).change = (s.tenancy.get i).change ∧ (t.tenancy.get i).backoff = (s.tenancy.get i).backoff) ∧
      (s.live = true →
        (∀ l, let line := s.returnLines.get l
          let record := t.laneStatus l
          if line.sending = none ∧ line.clockStopped = false ∧
              (t.units.get (.svc l)).intake = (s.units.get (.svc l)).intake then
            t.returnLines.get l = { line with sending := some record }
          else (t.returnLines.get l).waiting = some record ∧
            (line.sending ≠ none → (t.returnLines.get l).sending = line.sending)) ∧
        (s.store.Sound → ∀ o ∈ s.store.objects,
          let gone : Prop := ∀ x ∈ t.store.objects, ¬ (x.owner = o.owner ∧ x.id = o.id ∧ x.level = o.level)
          let event (kind : EventKind) : EventKind × Nat × Option LaneId × Nat :=
            (kind, s.mode.node.val, some o.owner, o.id.toNat)
          let older : Obj := { o with
            expiry := o.expiry.map (fun n => n - 1), timer := if o.state = .assembling then o.timer + 1 else o.timer }
          (o.owner ≠ .alert → o.state ≠ .onAir →
            if o.expiry = some 1 then gone ∧ (t.Room 1 → event .objectExpired ∈ es)
            else if o.state = .assembling ∧ 7 ≤ o.timer then gone ∧ (t.Room 1 → event .objectTimeout ∈ es)
            else older ∈ t.store.objects) ∧
          (∀ l, o.owner = .svc l → o.state = .onAir → (t.pictures.get l).cursor ≠ none →
            { older with expired := o.expired || o.expiry == some 1 } ∈ t.store.objects) ∧
          (o.owner = .alert → o.state = .assembling → s.trunk.relaySet = [] →
            let gap : Prop := t.alerts.relayKey ≠ s.alerts.relayKey ∧
              s.alerts.relayKey.map (fun k => k.2) = some o.ident ∧
              s.alerts.pictureCollector.map (fun p => p.allocated) = some true
            (gap → gone) ∧
            (¬ gap → if 7 ≤ o.timer then
                gone ∧ (t.Room 1 → s.onTrunk = false ∨ t.holds o.ident = true → event .objectTimeout ∈ es)
              else s.onTrunk = false ∨ t.holds o.ident = true → { o with timer := o.timer + 1 } ∈ t.store.objects)))) ∧
      t.peers = s.peers ∧ t.config = s.config ∧ t.contracts = s.contracts ∧ t.ports = s.ports ∧ t.pending = s.pending


/-- The end of the listen period, the cycle boundary that brings the listen count to 32, with no slot left in progress,
whether it comes as LISTEN_PERIOD_END, as CYCLE_BOUNDARY or as the sixteenth frame boundary (log 28): with the request as
the MODE lines leave it, RUN gives ACTIVE and the others STANDBY; count 0, the cycle number one more with a cycle source and
0 without one (R29, R30). JOINED, with 256 for STANDBY plus the source, or 255, is stamped with frame 0 of the cycle that
begins (R178), and it is posted before anything else: before what the Object Store and the Tenancy Unit post at that
boundary, an order R178 leaves open and the model's (DEDUCED, log 5 and log 6). In ACTIVE, an enabled CLOSED lane without cells or change becomes OPENING at
the target of Rnom if its contract says so; otherwise such a lane stays CLOSED (R29). Peer table, ports and contracts are as
before. -/
def Obligations.ListenPeriodEndsInMode : Prop :=
  ∀ c lines (s : State),
    c = .listenPeriodEnd lines ∨ c = .cycleBoundary lines ∨ c = .frameBoundary lines ∧ s.frameIndex = 15 →
    s.inReset = false → s.time.lock ≠ .unset → s.mode.mode = .joining → 31 ≤ s.mode.listenCount →
    s.trunk.inProgress = false →
    let asked := if lines = 0 then .run else if lines = 1 then .standby else if lines = 2 then .withdraw
      else s.mode.request
    let source := match s.mode.cycleSource with | some n => n.val | none => 255
    ∃ t, exec c s = .next t ∧
      t.mode = { s.mode with
        mode := if asked = .run then .active else .standby, request := asked, listenCount := 32 } ∧
      t.time = ⟨0, if s.mode.cycleSource = none then 0 else s.time.cycle + 1, s.time.lock, s.time.misses,
        s.time.tolerance, s.time.lock == .locked || s.time.lock == .holdover, 0⟩ ∧
      (s.Room 1 → PostedFirst s t
          [(.joined, s.mode.node.val, none, (if asked = .run then 0 else 256) + source)] ∧
        ∃ e, t.events.queue[s.events.queue.length]? = some e ∧ e.cycle = t.time.cycle ∧ e.frame = 0) ∧
      (∀ l k, s.contracts.get l = some k → (s.units.get (.svc l)).state = .closed →
        (s.tenancy.get (.svc l)).fragments = [] → (s.tenancy.get (.svc l)).change = none →
        if asked = .run ∧ k.autoOpen = true then (t.units.get (.svc l)).state = .opening ∧
          (t.tenancy.get (.svc l)).target = (10 * k.rnom + gradePayload k.grade - 1) / gradePayload k.grade
        else (t.units.get (.svc l)).state = .closed) ∧
      t.peers = s.peers ∧ t.config = s.config ∧ t.contracts = s.contracts ∧ t.ports = s.ports ∧ t.pending = s.pending

/-! ### Event line and return lines (chapters 11 and 5) -/

/-- What a posted event leaves (R178, R179). With fewer than 32 records held, the record stamped with the Timebase's cycle
and frame joins the tail with the next sequence number and the discard mark, the number rises, the mark is cleared, and an
idle line begins with it; with 32 held only the mark is set. -/
def Obligations.PostingAnEvent : Prop :=
  ∀ kind subject lane arg (s : State),
    post kind subject lane arg s = { s with events :=
      if s.events.queue.length < 32 then
        { queue := s.events.queue ++ [⟨s.events.nextSeq, s.time.cycle, s.time.localCount / 80000, kind, subject, lane,
            arg, s.events.discard⟩]
          nextSeq := s.events.nextSeq + 1
          discard := false
          line := if s.events.line = .idle then .sending 0 0 else s.events.line
          nfault := s.events.nfault }
      else { s.events with discard := true } }

/-- The serial lines that carry records. EVENT_RECORD_SENT (R179): the head record leaves the event queue and the next
begins at once, or the line rests; an empty queue changes nothing. EVO is at 1 while the line rests, and while it sends
at the level of the bit it has come to in the head record's 12 bytes of ten bits: a start bit 0, the eight data bits,
least significant first, and a stop bit 1 (R179). The return line of a lane (R98): when the record on it has been sent,
the waiting one begins, or waits on a clock that has stopped (log 23); a clock that stops on an idle line has the
records made later wait; when a stopped clock resumes, the waiting one begins; else a line that sends nothing, or whose
clock runs, stays as it is. Nothing else changes. While RESET is asserted, in CONFIG, in HALTED, and while it sends
nothing, a return line is at 1 (R20, R34, R98), and while it sends, at the bit to which the contributor's clock has come
in the record's 30 bytes, each in the port's bit order, a disabled lane's most significant bit first, and at 1 behind
the last (R85, R98; logs 8, 59): sync, kind 0x41, length 24, the 24 bytes of body in which R184 lays out its fields, and
the CRC-16 over kind, length and body (R182). -/
def Obligations.RecordsLeaveTheLines : Prop :=
  (∀ (s : State) l n, s.inReset = true ∨ s.mode.mode = .config ∨ s.mode.mode = .halted ∨
      (s.returnLines.get l).sending = none → s.returnLevel l n = true) ∧
  (∀ (s : State) l x, s.live = true → (s.returnLines.get l).sending = some x → x.name.length = 8 →
    let high (n : Nat) : Byte := BitVec.ofNat 8 (n / 256)
    let low (n : Nat) : Byte := BitVec.ofNat 8 n
    let state : Byte := match x.state with
      | .closed => 0 | .opening => 1 | .onAir => 2 | .squeezed => 3 | .restoring => 4 | .closing => 5
    let checked : List Byte := [0x41, 0, 24, (match x.lane with | .l0 => 0 | .l1 => 1 | .l2 => 2),
        high x.serviceId.toNat, low x.serviceId.toNat] ++ x.name ++
      [state, low x.cells, high x.audio, low x.audio, high x.rate, low x.rate, high x.annex, low x.annex,
        high x.fill, low x.fill, if x.intake = .held then 1 else 0, low x.level, if x.squeezed then 1 else 0]
    let sent : List Byte := 0xB5 :: checked ++ [high (crc16 checked).toNat, low (crc16 checked).toNat]
    let order : BitOrder := match s.contracts.get l with | some c => c.framing.order | none => .msbFirst
    sent.length = 30 ∧
      (∀ byte bit, byte < 30 → bit < 8 → s.returnLevel l (8 * byte + bit) =
        (sent.getD byte 0).getLsbD (match order with | .msbFirst => 7 - bit | .lsbFirst => bit)) ∧
      ∀ n, 240 ≤ n → s.returnLevel l n = true) ∧
  ∀ (s : State), s.inReset = false →
    (s.events.Sound → exec .eventRecordSent s = .next (match s.events.queue with
      | [] => s
      | _ :: rest => { s with events := { s.events with
          queue := rest, line := if rest = [] then .idle else .sending 0 0 } })) ∧
    (s.events.line = .idle → s.events.evo = true) ∧
    (∀ r rest byte bit phase, s.events.queue = r :: rest → s.events.line = .sending (10 * byte + bit) phase → byte < 12 →
      bit < 10 → r.bytes.length = 12 ∧
        s.events.evo = (if bit = 0 then false else if bit = 9 then true else (r.bytes.getD byte 0).getLsbD (bit - 1))) ∧
    ∀ l, s.live = true →
      let r := s.returnLines.get l
      let sent (stops : Bool) : ReturnLine :=
        if stops then ⟨none, r.waiting, true⟩
        else if r.sending = none then r else ⟨r.waiting, none, r.clockStopped⟩
      let resumed : ReturnLine :=
        if r.clockStopped = false then r
        else if r.sending = none then ⟨r.waiting, none, false⟩ else ⟨r.sending, r.waiting, false⟩
      (∀ stops, exec (.laneStatusRecordDone l stops) s =
        .next { s with returnLines := s.returnLines.set l (sent stops) }) ∧
      exec (.portClockResume l) s = .next { s with returnLines := s.returnLines.set l resumed }

/-! ### Trunk (sections 1.3 and 1.4) -/

/-- SLOT_START of a slot of the frame, no slot being in progress (R13, R14, R4). The count stands at the slot's start and
the slot is in progress. Outside ACTIVE, STANDBY and WITHDRAWING nothing is driven; in them the node drives its own three
directory slots, and a payload cell for a lane that holds it in a current fragment, whenever there is one. A driven slot
carries its driver's tag; slot 3n takes a copy of the outgoing manifest and carries its first 36 bytes, and slots 3n + 1 and
3n + 2 carry the second and the third 36 of that copy (R4). A payload cell driven for a lane that is the cell of place j
among those of the lane's assembled frame carries the assembled bytes from j times the payload on, one payload of them, with
their protection bytes (R3, R95). As slot 24 begins on the trunk each lane is assembled (R94): AssemblyFillsBudget says
with what; that the lanes come in the order 0, 1, 2, alert is the model's (DESIGN CHOICE, log 5). Else only the Timebase and
the Trunk Interface change. -/
def Obligations.SlotStartDecidesDriver : Prop :=
  ∀ k (s : State), s.inReset = false → s.time.lock ≠ .unset → k < 800 → s.trunk.inProgress = false →
    ∃ t, exec (.slotStart k) s = .next t ∧
      t.time = { s.time with localCount := s.frameIndex * 80000 + k * 100, hold := 0 } ∧
      t.trunk.inProgress = true ∧ t.trunk.slotsBegun = k + 1 ∧
      (t.trunk.slotState = if t.trunk.driver.isSome then .driving else .listening) ∧
      (s.mode.mode.onTrunk = false → t.trunk.driver = none) ∧
      (s.mode.mode.onTrunk = true → k < 24 →
        t.trunk.driver = if k / 3 = s.mode.node.val then some .manifest else none) ∧
      (s.mode.mode.onTrunk = true → 24 ≤ k →
        (t.trunk.driver = none ↔ ∀ i, inRuns (s.tenancy.get i).runs (k - 24) = false) ∧
        (∀ d, t.trunk.driver = some d → ∃ i, d = .lane i ∧ inRuns (s.tenancy.get i).runs (k - 24) = true)) ∧
      t.trunk.tag = (match t.trunk.driver with | some d => tagOf s.mode.node d | none => 0xFF) ∧
      (s.mode.mode.onTrunk = true → k = 3 * s.mode.node.val →
        ∃ m, s.outgoing = some m ∧ t.trunk.copy = some m.bytes ∧ t.trunk.content = m.bytes.take 36) ∧
      (∀ j copy, s.mode.mode.onTrunk = true → k = 3 * s.mode.node.val + j → j = 1 ∨ j = 2 → s.trunk.copy = some copy →
        t.trunk.copy = some copy ∧ t.trunk.content = (copy.drop (36 * j)).take 36) ∧
      (∀ i a (j : Nat), t.trunk.driver = some (.lane i) → (t.units.get i).assembled = some a →
        a.cells[j]? = some (k - 24) → (k - 24) ∉ a.cells.take j →
        t.trunk.content = cellContent ((a.bytes.drop (j * a.payload)).take a.payload)) ∧
      t = { (if k = 24 ∧ s.mode.mode.onTrunk = true then
          assembleLane .alert (assembleLane (.svc .l2) (assembleLane (.svc .l1) (assembleLane (.svc .l0)
            { s with time := t.time })))
          else s) with time := t.time, trunk := t.trunk } ∧
      (t.config = s.config ∧ t.contracts = s.contracts ∧ t.mode = s.mode ∧ t.peers = s.peers ∧
        t.tenancy = s.tenancy ∧ t.alerts = s.alerts ∧ t.ports = s.ports ∧ t.pending = s.pending)

/-- How a slot ends. SLOT_END of a slot the node drove or listened to (R15, R16, R18). The tag and content read back as sent: WON. Another
tag: YIELDED. Its own tag and other content: MISMATCH, a DUPLICATE event naming the slot, HALTED, and NFAULT asserted,
and nothing else changes. A payload cell outside the relay cell set changes only the Trunk Interface, where it was won or
listened to, or lost by a lane that holds it no more. A first or second directory slot of a node is read (R17). A slot of a
cell of the relay cell set is handed over: its record joins those of the frame, with the payload at the set's grade, whether
the tag was the source's alert lane's, and the protection check; before the set's last cell, and off the trunk, nothing but
the Trunk Interface changes, and with the last one the annex is read as RelayEnded says (R18, R160; log 40). A cell that a
lane holds and loses is LostCellMarksThenDrops. A slot still in progress when the next slot or a frame boundary comes, or a
pulse that sets the phase, is cut first, in the cycle and frame in which it stood, for an early pulse at its arrival, and the
command then acts as on no slot in progress (R8, R11, R16; the order is log 6's, DEDUCED). A slot that is cut has the state
CUT and no result, and no loss is reported of it, where its tag had been lost before the pulse neither (DEDUCED, log 6). A
directory slot's reading is CUT (R17): a node's third one makes an unheard report, but for the node's own number and in
CONFIG and HALTED. A relay cell is handed over as bad, a gap (R18); any other changes only the Trunk Interface. -/
def Obligations.SlotEndSettles : Prop :=
  (∀ tag content (s : State), s.inReset = false → s.time.lock ≠ .unset → s.trunk.inProgress = true →
    (s.trunk.slotState = .driving ∨ s.trunk.slotState = .listening) →
    let result : SlotState :=
      if s.trunk.slotState = .listening then .listening
      else if tag ≠ s.trunk.tag then .yielded
      else if content ≠ s.trunk.content then .mismatch
      else .won
    let slot := s.trunk.slotsBegun - 1
    let read : Trunk := { s.trunk with inProgress := false, slotState := result, driver := none }
    let got : List RelayCell := s.trunk.relayGot ++ [⟨slot - 24, content.take (gradePayload s.trunk.relayGrade),
      decide (∃ n, s.trunk.relaySource = some n ∧ tag.toNat = n.val), protectionGood s.trunk.relayGrade content⟩]
    let unlost : Prop := result = .won ∨ result = .listening ∨
      result = .yielded ∧ ∀ i, s.trunk.driver = some (.lane i) → inRuns (s.tenancy.get i).runs (slot - 24) = false
    ∃ t, exec (.slotEnd tag content) s = .next t ∧
      t.trunk.inProgress = false ∧ t.trunk.slotState = result ∧ t.trunk.driver = none ∧
      (result = .mismatch →
        t.mode = { s.mode with mode := .halted } ∧ t.events.nfault = true ∧
          (s.Room 1 → Posted s t [(.duplicate, s.mode.node.val, none, slot)]) ∧
          t = { s with mode := t.mode, trunk := t.trunk, events := t.events }) ∧
      (unlost → 24 ≤ slot → (slot - 24) ∉ s.trunk.relaySet → t = { s with trunk := read }) ∧
      (unlost → 24 ≤ slot → (slot - 24) ∈ s.trunk.relaySet →
        t = { s with trunk := { read with relayGot := got }, alerts := t.alerts, store := t.store } ∧
          (s.mode.mode.onTrunk = false ∨ got.length ≠ s.trunk.relaySet.length →
            t = { s with trunk := { read with relayGot := got } }) ∧
          (s.mode.mode.onTrunk = true → got.length = s.trunk.relaySet.length →
            RelayEnded { s with trunk := { read with relayGot := got } } t)) ∧
      (slot < 24 → slot % 3 ≠ 2 → result ≠ .mismatch → (∀ i, s.trunk.driver ≠ some (.lane i)) →
        t = { s with trunk := { read with
          directory := if slot % 3 = 0 then (.read tag content, .unread, .unread)
            else (s.trunk.directory.1, .read tag content, .unread) } }) ∧
      t.config = s.config ∧ t.contracts = s.contracts ∧ t.ports = s.ports ∧ t.pending = s.pending) ∧
  (∀ (s : State), s.trunk.inProgress = false → cutSlot s = s) ∧
  (∀ (s : State), s.inReset = false → s.trunk.inProgress = true →
    let k := s.trunk.slotsBegun - 1
    let m : Node := Fin.ofNat 8 (k / 3)
    let d := s.trunk.directory
    let cut : Trunk := { s.trunk with inProgress := false, slotState := .cut, driver := none }
    let read : State := { s with trunk := { cut with
      directory := if k % 3 = 0 then (.cut, .unread, .unread)
        else if k % 3 = 1 then (d.1, .cut, .unread) else (d.1, d.2.1, .cut) } }
    let handed : State := { s with trunk := { cut with relayGot := s.trunk.relayGot ++ [⟨k - 24, [], false, false⟩] } }
    let t := cutSlot s
    (k < 24 → k % 3 ≠ 2 ∨ m = s.mode.node ∨ s.mode.mode = .config ∨ s.mode.mode = .halted → t = read) ∧
    (k < 24 → k % 3 = 2 → m ≠ s.mode.node → s.mode.mode ≠ .config → s.mode.mode ≠ .halted → t = unheardReport m read) ∧
    (24 ≤ k → (k - 24) ∉ s.trunk.relaySet → t = { s with trunk := cut }) ∧
    (24 ≤ k → (k - 24) ∈ s.trunk.relaySet →
      t = { handed with alerts := t.alerts, store := t.store } ∧
        if s.mode.mode.onTrunk = true ∧ handed.trunk.relayGot.length = s.trunk.relaySet.length then RelayEnded handed t
        else t = handed)) ∧
  ∀ lines (s : State), s.inReset = false →
    (s.time.lock ≠ .unset →
      (∀ k, k < 800 → exec (.slotStart k) s = exec (.slotStart k) (cutSlot s)) ∧
      exec (.frameBoundary lines) s = exec (.frameBoundary lines) (cutSlot s) ∧
      exec (.cycleBoundary lines) s = exec (.cycleBoundary lines) (cutSlot s) ∧
      (s.mode.mode = .joining → 31 ≤ s.mode.listenCount →
        exec (.listenPeriodEnd lines) s = exec (.listenPeriodEnd lines) (cutSlot s))) ∧
    ∀ arrival,
      (s.time.lock = .unset ∧ s.mode.mode = .joining ∨ s.time.lock = .lost ∧ s.mode.mode = .quiet →
        exec (.refpulse arrival lines) s = exec (.refpulse arrival lines) (cutSlot s)) ∧
      (s.time.lock = .locked ∨ s.time.lock = .holdover → 1280000 - s.time.tolerance ≤ arrival →
        exec (.refpulse arrival lines) s = exec (.refpulse arrival lines)
          (cutSlot { s with time := { s.time with localCount := min arrival 1279999 } }))

/-- A payload cell driven for a lane and lost in arbitration (R15, R77, R78). A fragment not marked in the frame before
is marked with this frame and posts nothing; one marked in the frame before leaves the lane: CELL_LOST names its first
cell, before what another block posts of it (the model's order: DEDUCED, log 6), the deferral ends, and a backoff of 2
plus the node number is set, 1 for a lane RESTORING and none for the alert lane. The other lanes' tenancies stay. The
slot has read YIELDED, and a cell of the relay cell set is handed over all the same: its record, as read, joins those of
the frame (R18). A pending claim of the lane stays when a fragment leaves it, and a pending release keeps the cells that do
not lie in the fragment, and goes where none are left (R78). The lane state follows the cells left and the change still
pending (R82, R96, R171, R175): with neither, a service lane ON-AIR or SQUEEZED is OPENING and one CLOSING is CLOSED; SQUEEZED
with cells below its floor it is ON-AIR; OPENING with cells it is ON-AIR; RESTORING it is judged anew; and the alert lane
ON-AIR is OPENING where it has a target, and CLOSING it is CLOSED, or OPENING where it has one. No other Lane Unit changes. -/
def Obligations.LostCellMarksThenDrops : Prop :=
  ∀ tag content i f (s : State), s.inReset = false → s.time.lock ≠ .unset → s.mode.mode.onTrunk = true →
    s.trunk.inProgress = true → s.trunk.slotState = .driving → s.trunk.driver = some (.lane i) → tag ≠ s.trunk.tag →
    25 ≤ s.trunk.slotsBegun → (s.tenancy.get i).fragments.find? (fun g =>
      decide (g.start ≤ s.trunk.slotsBegun - 25 ∧ s.trunk.slotsBegun - 25 < g.start + g.len)) = some f →
    let now : FramePos := BitVec.ofNat 16 (s.time.cycle.toNat * 16 + s.time.localCount / 80000)
    let cell := s.trunk.slotsBegun - 25
    let record : RelayCell := ⟨cell, content.take (gradePayload s.trunk.relayGrade),
      decide (∃ n, s.trunk.relaySource = some n ∧ tag.toNat = n.val), protectionGood s.trunk.relayGrade content⟩
    ∃ t, exec (.slotEnd tag content) s = .next t ∧
      t.trunk = { s.trunk with
        inProgress := false, slotState := .yielded, driver := none
        relayGot := if cell ∈ s.trunk.relaySet then s.trunk.relayGot ++ [record] else s.trunk.relayGot } ∧
      (f.mark ≠ some (now - 1) →
        (t.tenancy.get i).runs = (s.tenancy.get i).runs ∧
          (∀ g ∈ (t.tenancy.get i).fragments, g.start = f.start → g.mark = some now) ∧
          t.events = s.events ∧ t.units = s.units) ∧
      (f.mark = some (now - 1) →
        (t.tenancy.get i).fragments = (s.tenancy.get i).fragments.filter (fun g => g.start != f.start) ∧
          (t.tenancy.get i).deferral = .none ∧
          (t.tenancy.get i).backoff = (match i with
            | .alert => 0
            | .svc _ => if (s.units.get i).state = .restoring then 1 else 2 + s.mode.node.val) ∧
          (match (s.tenancy.get i).change, (t.tenancy.get i).change with
            | none, r => r = none
            | some c, some r => if c.kind = .claim then r = c
              else r = { c with runs := r.runs } ∧
                ∀ k, inRuns r.runs k = (inRuns c.runs k && !inRuns [⟨f.start, f.len⟩] k)
            | some c, none => c.kind = .release ∧ ∀ k, inRuns c.runs k = true → inRuns [⟨f.start, f.len⟩] k = true) ∧
          (let n := (t.tenancy.get i).cells
           let target := (s.tenancy.get i).target
           let bare : Bool := decide (n = 0 ∧ (t.tenancy.get i).change = none)
           (t.units.get i).state = match i, (s.units.get i).state with
            | _, .closed => .closed
            | _, .opening => if 0 < n then .onAir else .opening
            | .svc _, .onAir => if bare then .opening else .onAir
            | .svc l, .squeezed => if bare then .opening else if 0 < n ∧ n < s.floorCells l then .onAir else .squeezed
            | .svc l, .restoring =>
              match (s.tenancy.get i).restoreTarget with
              | some r =>
                let bottom := match s.alerts.stack.getLast? with | some b => (b.restore.get l).getD 0 | none => 0
                if n < min r target then .restoring
                else if s.alerts.level ≠ 0 ∧ n < bottom ∧ s.floorCells l ≤ n then .squeezed else .onAir
              | none => .restoring
            | .svc _, .closing => if bare then .closed else .closing
            | .alert, .onAir => if bare ∧ 0 < target then .opening else .onAir
            | .alert, .closing => if bare then (if 0 < target then .opening else .closed) else .closing
            | .alert, x => x) ∧
          (∀ j, j ≠ i → t.units.get j = s.units.get j) ∧
          (s.Room 1 → PostedFirst s t [(.cellLost, s.mode.node.val, some i, f.start)])) ∧
      (∀ j, j ≠ i → t.tenancy.get j = s.tenancy.get j) ∧
      t.time = s.time ∧ t.mode = s.mode ∧ t.peers = s.peers ∧ t.config = s.config ∧ t.contracts = s.contracts

/-- Of drivers that send their tags at once on the wired line, bit by bit and most significant bit first, each stopping at
the first bit that reads back otherwise, those left after eight bits are the ones of the lowest tag (R2, R15). -/
def Obligations.LowestTagWinsArbitration : Prop :=
  ∀ (tags : List Byte) (t : Byte),
    t ∈ arbitrationWinners tags ↔ t ∈ tags ∧ ∀ u ∈ tags, t.toNat ≤ u.toNat

/-- The tag values (R14, R188): n for node n's alert lane, 64 + 4n + l for its service lane l, 128 + n for its manifest,
0xFF undriven; no two drivers share one, and values of 0x40 to 0x5F that would be lane 3's are no driver's. -/
def Obligations.TagsTellDriversApart : Prop :=
  Config.undrivenTag = 0xFF ∧
  (∀ n : Node, (tagOf n (.lane .alert)).toNat = n.val ∧ (tagOf n .manifest).toNat = 128 + n.val ∧
    ∀ l : Lane, (tagOf n (.lane (.svc l))).toNat = 64 + 4 * n.val + l.num) ∧
  (∀ (n m : Node) (d e : Driver), tagOf n d = tagOf m e → n = m ∧ d = e) ∧
  (∀ (n : Node) (d : Driver), tagOf n d ≠ 0xFF ∧
    ((tagOf n d).toNat < 64 ∨ 96 ≤ (tagOf n d).toNat ∨ (tagOf n d).toNat % 4 ≠ 3))

/-- A cell of a grade carries its payload, then protection bytes to 36: byte j is the exclusive-or of the payload bytes
whose position leaves j by their number; it passes the check at its grade, and fails it when one byte of the 36 is changed
(R3). -/
def Obligations.CellProtectionCatchesOneByte : Prop :=
  ∀ grade (payload : List Byte), 1 ≤ grade → grade ≤ 4 → payload.length = gradePayload grade →
    let content := cellContent payload
    let p := 36 - gradePayload grade
    content.length = 36 ∧ content.take (gradePayload grade) = payload ∧
      (∀ j, j < p → content.getD (gradePayload grade + j) 0 =
        ((List.range payload.length).filter (fun k => k % p == j)).foldl (fun x k => x ^^^ payload.getD k 0) 0) ∧
      protectionGood grade content = true ∧
      ∀ k b, k < 36 → b ≠ content.getD k 0 → protectionGood grade (content.set k b) = false

/-! ### Formats (chapter 12) -/

/-- A well-formed record command has the effect of its record arriving bit by bit (R85, R86, R184; log 7): the bits of
sync, kind, length, body and CRC, in the port's bit order, read by the port behind the bits it holds, do what the command
does. -/
def Obligations.RecordCommandIsItsBits : Prop :=
  ∀ c p r (s : State), c.wellFormed = true → c.record = some (p, r) → s.live = true →
    let kind : Byte := BitVec.ofNat 8 r.code
    let length : BitVec 16 := BitVec.ofNat 16 r.body.length
    let crc := crc16 (recordChecked kind length r.body)
    exec c s = .next (readBits p (recordBits (s.portOrder p) kind length r.body crc) s)

/-- What relay reassembly makes of an alert's segments. A segment of an alert kind as written in an annex reads back as
it was, at the head of what remains of that annex: its id the wanted one, its variant below 16, its payload 1 to 60 bytes
on a Last segment and as many as fit on another (R101, R160, R186, R189), none where the header takes the last 4 bytes
(R189; log 19). Reading stops at a gap, a header of another kind or id, or of end field 0, 61 or 62, and one that does
not fit, or whose payload does not. Each segment of an annex goes to its collector (R160). A judging keys the collectors
to R160's source and wanted alert, and a change of them resets both as a gap does. A segment without payload adds no byte
to a picture begun (DEDUCED, log 19). The caption collector: a First segment begins a text, one in order with the same
toggle goes on with it, and any other ends the collecting; a text of at most 192 bytes is stored for the identity when
its Last segment comes, unless an own alert has a text, and a longer one is given up (R161); it keeps the variant of its
segments, any number from 0 to 15, as its toggle, which is the model's choice (DESIGN CHOICE, log 47). The picture
collector: a First segment that brings the three size bytes begins a RELAY entry of the identity, of that size and the
segment's transfer number, in the blocks it needs, where the identity has none; its bytes after those three, and those of
each segment in order with the same transfer number, stand in the entry's blocks in their order, no other byte of the
store changes, and the one that brings the last byte makes the entry READY and the collector idle; a First with fewer
than three bytes begins the collecting alone; number 1 is expected after a First of any number (DESIGN CHOICE, log 53). A
segment out of order ends the collecting, and the RELAY entry begun for it is discarded; without a picture begun, a
segment that is not First changes nothing (R143, R145, R162). -/
def Obligations.SegmentsReadBack : Prop :=
  (∀ (g : Segment) r rest, g.kind = .alertCaption ∨ g.kind = .alertPicture → g.variant < 16 → 4 ≤ r →
    g.payload.length ≤ min 60 (r - 4) → (g.last = true → 1 ≤ g.payload.length) →
    (g.last = false → g.payload.length = min 60 (r - 4)) →
    readSegment g.id r (g.bytes.map some ++ rest) = some g) ∧
  (∀ wanted r (bytes : List (Option Byte)), r < 4 ∨ bytes.length < 4 ∨ none ∈ bytes.take 4 →
    readSegment wanted r bytes = none) ∧
  (∀ (b0 b1 b2 b3 wanted : Byte) r (rest : List (Option Byte)),
    let field := b0.toNat / 4
    let len := if field = 63 then min 60 (r - 4) else field
    b0.toNat % 4 < 2 ∨ b1 ≠ wanted ∨ field = 0 ∨ field = 61 ∨ field = 62 ∨ r < 4 + len ∨ rest.length < len ∨
        none ∈ rest.take len →
    readSegment wanted r (some b0 :: some b1 :: some b2 :: some b3 :: rest) = none) ∧
  (∀ i lead r bytes (s : State), readAnnex i lead r r bytes s = match readSegment i.id r bytes with
    | none => s
    | some g =>
      let n := 4 + g.payload.length
      readAnnex i lead (r - n) (r - n) (bytes.drop n)
        (if g.kind = .alertCaption then captionSegment g i lead s else pictureSegment g i lead s)) ∧
  (∀ s : State, let t := syncRelay s
    t.RelayKeyed ∧ (t.alerts.relayKey = s.alerts.relayKey → t = s) ∧
      (t.alerts.relayKey ≠ s.alerts.relayKey →
        t.alerts.captionCollector = none ∧ t.alerts.pictureCollector = none ∧
          ∀ n i c, s.alerts.relayKey = some (n, i) → s.alerts.pictureCollector = some c →
            t.store = (if c.allocated then { s.store with
              objects := s.store.objects.filter (fun x => !(x.owner == .alert && x.ident == i)) } else s.store))) ∧
  (∀ (g : Segment) i lead c (s : State), g.first = false → g.last = false → g.payload = [] →
    s.alerts.pictureCollector = some c → g.seq = c.expected → g.variant = c.transfer →
    c.sizeBytes.length < 3 ∨ c.allocated = true ∧ c.sizeBytes.length = 3 ∧ c.count < get24 c.sizeBytes 0 →
    pictureSegment g i lead s =
      { s with alerts := { s.alerts with pictureCollector := some { c with expected := c.expected + 1 } } }) ∧
  (∀ (g : Segment) i lead (s : State), (∀ o ∈ s.alerts.own, o.ident = i → o.text = none) →
    let t := captionSegment g i lead s
    let text : Option (Nat × List Byte × BitVec 11) :=
      if g.first then some (g.variant, g.payload, 1)
      else match s.alerts.captionCollector with
        | some c => if g.seq = c.expected ∧ g.variant = c.toggle then some (c.toggle, c.text ++ g.payload, c.expected + 1)
          else none
        | none => none
    t = { s with alerts := t.alerts } ∧
    match text with
    | none => t.alerts = { s.alerts with captionCollector := none }
    | some (toggle, bytes, next) =>
      if 192 < bytes.length then t.alerts = { s.alerts with captionCollector := none }
      else if g.last then t.alerts.captionCollector = none ∧
        (∀ x ∈ t.alerts.relayTexts, x.ident = i → x = ⟨i, lead, toggle, bytes⟩) ∧
        (⟨i, lead, toggle, bytes⟩ : RelayText) ∈ t.alerts.relayTexts
      else t.alerts = { s.alerts with captionCollector := some ⟨toggle, bytes, next⟩ }) ∧
  (∀ (g : Segment) i lead (s : State), g.first = false →
    let t := pictureSegment g i lead s
    (s.alerts.pictureCollector = none → t = s) ∧
    ∀ c, s.alerts.pictureCollector = some c → g.seq ≠ c.expected ∨ g.variant ≠ c.transfer →
      t.alerts.pictureCollector = none ∧ t.store = (if c.allocated then { s.store with
        objects := s.store.objects.filter (fun x => !(x.owner == .alert && x.ident == i)) } else s.store)) ∧
  ∀ (g : Segment) i lead (s : State), g.variant < 16 → s.store.Sound → s.StoreCanonical →
    let t := pictureSegment g i lead s
    let size := get24 g.payload 0
    let bytes := g.payload.drop 3
    (g.first = true → s.alerts.pictureCollector = none → g.last = false → g.payload.length < 3 →
      t = { s with alerts := { s.alerts with pictureCollector := some ⟨g.variant, 1, g.payload, 0, false⟩ } }) ∧
    (g.first = true → s.alerts.pictureCollector = none → s.store.reserve i = none → 3 ≤ g.payload.length →
      1 ≤ size → size ≤ 65536 → bytes.length ≤ size → (g.last = true → bytes.length = size) →
      ∃ o, t.store.reserve i = some o ∧ o.source = .relay lead ∧ o.size = size ∧ o.transfer.toNat = g.variant ∧
        o.blocks.length = (size + 1023) / 1024 ∧ o.received = bytes.length ∧
        o.state = (if bytes.length = size then .ready else .assembling) ∧
        t.alerts.pictureCollector = (if bytes.length = size then none
          else some ⟨g.variant, 1, g.payload.take 3, bytes.length, true⟩) ∧
        (∀ j, j < bytes.length → readCell (o.address j) t.store.cells = bytes.getD j 0) ∧
        ∀ a, (∀ j, j < bytes.length → a ≠ o.address j) → readCell a t.store.cells = readCell a s.store.cells) ∧
    ∀ c o, g.first = false → s.alerts.pictureCollector = some c → c.allocated = true → c.sizeBytes.length = 3 →
      g.seq = c.expected → g.variant = c.transfer → s.store.reserve i = some o → o.state = .assembling →
      o.received = c.count → o.size = get24 c.sizeBytes 0 → g.payload ≠ [] → c.count + g.payload.length ≤ o.size →
      (g.last = true → c.count + g.payload.length = o.size) →
      let whole : Bool := decide (c.count + g.payload.length = o.size)
      t.store.reserve i = some { o with
        received := c.count + g.payload.length, timer := 0, state := if whole then .ready else .assembling } ∧
      t.alerts.pictureCollector = (if whole then none
        else some { c with expected := c.expected + 1, count := c.count + g.payload.length }) ∧
      (∀ j, j < g.payload.length → readCell (o.address (c.count + j)) t.store.cells = g.payload.getD j 0) ∧
      ∀ a, (∀ j, j < g.payload.length → a ≠ o.address (c.count + j)) →
        readCell a t.store.cells = readCell a s.store.cells

/-- The outgoing manifest (R35 to R38). Off the trunk there is none. On the trunk its header gives node, cycle, frame
index, mode, level and followed alert as they stand, and an entry for each own alert in the order held, which is that of
rising level in every state that StepKeepsTakeoverStack allows (R35): a LEAD with its
own entry cycle, yield and redirect cycle; a SHADOW with entry cycle and yield as the lowest peer that leads the identity
announces them, or else the lowest that shadows it, and no redirect cycle; a HELD one, and a SHADOW without such a peer,
with the cycle of its raise and yield 0; each with its end cycle (R150; what R35 says of the redirect cycle: log 36). Its
two sheets are those of lanes 0 and 1 in an even frame and of lane 2 and the alert lane in an odd one, each with the
lane's state, cells and pending change, its contract's service id, class, grade and floor, its annex and redirect origin;
a lane of a claim's fifth fragment apart (log 44). Any manifest the node could send is judged valid when heard whole, and
reads back as it was, with every field of header, own-alert list, sheets, fragment lists and pending changes at every
value its place admits (R39, R185, R189). -/
def Obligations.ManifestsReadBack : Prop :=
  (∀ s : State, s.onTrunk = false → s.outgoing = none) ∧
  (∀ s : State, s.onTrunk = true →
    let heard : List OwnEntry := ([0, 1, 2, 3, 4, 5, 6, 7] : List Node).flatMap (fun m =>
      let e := s.peers.get m
      if m ≠ s.mode.node ∧ (e.state = .present ∨ e.state = .silent ∨ e.state = .outOfStep) then
        match e.header with | some h => h.own | none => []
      else [])
    let said (i : Ident) (r : Role) : Option OwnEntry := heard.find? (fun e => e.ident == i && e.role == r)
    let entry (o : OwnAlert) : OwnEntry := match o.role, (said o.ident .lead).or (said o.ident .shadow) with
      | .lead, _ => ⟨o.ident, .lead, o.entry, o.yield, o.redirect, o.endCycle⟩
      | .shadow, some e => ⟨o.ident, .shadow, e.entry, e.yield, none, o.endCycle⟩
      | role, _ => ⟨o.ident, role, o.raised, 0, none, o.endCycle⟩
    let sheet (i : LaneId) : Sheet :=
      let bare : Sheet := ⟨i, (s.units.get i).state, 0, .kept, 1, 0, (s.units.get i).split.annex,
        (s.tenancy.get i).fragments.map (fun f => ⟨f.start, f.len⟩), (s.tenancy.get i).change, none⟩
      match i with
      | .alert => { bare with grade := s.config.alertGrade.getD 1 }
      | .svc l => match s.contracts.get l with
        | none => { bare with redirect := s.alerts.redirect }
        | some c => { bare with
          redirect := s.alerts.redirect, serviceId := c.serviceId, laneClass := c.laneClass, grade := c.grade
          floor := (10 * c.rmin + gradePayload c.grade - 1) / gradePayload c.grade }
    let lanes : LaneId × LaneId := if s.frameIndex % 2 = 0 then (.svc .l0, .svc .l1) else (.svc .l2, .alert)
    ∃ m, s.outgoing = some m ∧
      m.header = ⟨s.mode.node.val, s.time.cycle, s.time.localCount / 80000, s.mode.mode, s.alerts.level,
        s.alerts.followed.map (fun f => (f.lead.val, f.ident)), s.alerts.own.map entry⟩ ∧
      (s.alerts.ListsSound → (m.header.own.map (fun e => e.ident.level)).Pairwise (· < ·)) ∧
      ((s.tenancy.get lanes.1).fragments.length ≤ 4 → m.first = sheet lanes.1) ∧
      ((s.tenancy.get lanes.2).fragments.length ≤ 4 → m.second = sheet lanes.2)) ∧
  ∀ m : Manifest, m.Sendable → m.bytes.length = 108 ∧ judgeManifest m.bytes = some m

/-- A manifest heard for a peer and stored (R43, R44): PRESENT when its cycle number and frame index are the node's own
and OUT-OF-STEP when they are not, count 0, header replaced, and the two sheets carried stored; the other two are kept,
or gone if the entry was SILENT or LOST; PEER_BACK or PEER_OUT_OF_STEP by the rules, before another block's events (the
model's order: DEDUCED, log 6); the other entries stay. On the trunk each of the node's pending claims is held against
the two sheets as CollidingClaimWithdrawn says, the first sheet first (log 43), with its CLAIM_WITHDRAWN (R43 step 7,
R62, R63); no other tenancy changes. It is stored as the third directory slot ends, its tag read in all three and its
header naming the peer (R17, R39, R40), a JOINING node without a cycle source taking over its cycle number first, if its
frame index is the node's (R27); a header naming another node counts as unheard. One in a JOINING node's own slots is a
duplicate: DUPLICATE names the first of the three, and the node is HALTED (R28). On the trunk the header reaches the
Alert Controller (R151). An alert of level 1 to 3 it leads, the only active one but the followed and nowhere held, is
scheduled above the level, in its level's place, at its entry cycle if in step and one or two cycles ahead, else at the
next boundary (R153), with the yield announced; at the level or below it is offered to the pending list, which takes it
with ALERT_HELD unless one of its level has a lead as low (R157). One listed SHADOW or HELD has lost its lead (R163). An
end is learned of an alert it leads that is followed, saved, scheduled, pending or an own SHADOW copy: with an end cycle,
for that cycle if in step and one or two cycles ahead (DEDUCED, log 11) and else for the next boundary; of one listed no
more, for the next, or from frame 12 on the one after; and a scheduled entry of it goes (R155). A followed alert in its
orphan hold takes the peer that leads it again, its end with it (R163; DEDUCED, log 17). -/
def Obligations.StoredManifestUpdatesEntry : Prop :=
  (∀ m (x : Manifest) (s : State),
    let inStep : Bool := decide (x.header.cycle = s.time.cycle ∧ x.header.frame = s.frameIndex)
    let t := storeManifest m x s
    let checked (i : LaneId) : State := conflictCheck m inStep x.second i (conflictCheck m inStep x.first i s)
    if s.onTrunk = true then
      t.RelayKeyed ∧ (∀ i, t.tenancy.get i = (checked i).tenancy.get i ∧ t.units.get i = (checked i).units.get i) ∧
        ∃ es, Posted s t es ∧ (t.Room 1 → ∀ i e, Posted s (checked i) [e] → e ∈ es)
    else t.tenancy = s.tenancy ∧ t.units = s.units ∧ t.alerts = s.alerts) ∧
  (∀ m (x : Manifest) (s : State), x.first.lane ≠ x.second.lane →
    let before := s.peers.get m
    let inStep := x.header.cycle = s.time.cycle ∧ x.header.frame = s.frameIndex
    let gone := before.state = .silent ∨ before.state = .lost
    let t := storeManifest m x s
    let after := t.peers.get m
    (after.state = if inStep then .present else .outOfStep) ∧ after.unheard = 0 ∧ after.header = some x.header ∧
      after.sheets.get x.first.lane = some x.first ∧ after.sheets.get x.second.lane = some x.second ∧
      (∀ i, i ≠ x.first.lane → i ≠ x.second.lane →
        after.sheets.get i = if gone then none else before.sheets.get i) ∧
      (s.Room 1 → PostedFirst s t (if inStep then
          match before.state with
          | .silent => [(.peerBack, m.val, none, 1)]
          | .lost => [(.peerBack, m.val, none, 2)]
          | .outOfStep => [(.peerBack, m.val, none, 3)]
          | .unheard | .present => []
        else if before.state = .outOfStep then []
        else [(.peerOutOfStep, m.val, none, x.header.cycle.toNat * 16 + x.header.frame)])) ∧
      (∀ n, n ≠ m → t.peers.get n = s.peers.get n) ∧ t.time = s.time ∧ t.mode = s.mode ∧ t.trunk = s.trunk) ∧
  (∀ (m : Node) (x : Manifest) (e : OwnEntry) (s : State), s.onTrunk = true → s.alerts.Sound → m ≠ s.mode.node →
    x.header.own = [e] → e.role = .lead → e.endCycle = none → s.followsOrScheduled e.ident = false →
    s.saved e.ident = false →
    1 ≤ e.ident.level → e.ident.level ≤ 3 →
    (∀ y ∈ s.announced, y.1 ≠ m → y.2.role = .lead → y.2.endCycle = none →
      s.alerts.followed.map (fun f => f.ident) = some y.2.ident) →
    (∀ p ∈ s.alerts.pendingAlerts, p.lead = s.mode.node → ∀ o ∈ s.alerts.own, o.ident = p.ident → o.role = .lead) →
    s.Room 24 →
    let inStep := x.header.cycle = s.time.cycle ∧ x.header.frame = s.frameIndex
    let ahead := (e.entry - s.time.cycle).toNat = 1 ∨ (e.entry - s.time.cycle).toNat = 2
    let entry : Scheduled := ⟨e.ident, m, if inStep ∧ ahead then e.entry else s.time.cycle + 1,
      if ¬ inStep then .outOfStep else if ahead then .onTime else .late, e.yield⟩
    let held : EventKind × Nat × Option LaneId × Nat := (.alertHeld, m.val, none, 256 * e.ident.level + e.ident.id.toNat)
    let t := storeManifest m x s
    ∃ es, Posted s t es ∧ t.alerts.level = s.alerts.level ∧
      t.alerts.followed.map (fun f => f.ident) = s.alerts.followed.map (fun f => f.ident) ∧
      if s.alerts.level < e.ident.level then
        entry ∈ t.alerts.scheduled ∧ (∀ y ∈ t.alerts.scheduled, y.ident.level = e.ident.level → y = entry) ∧
          held ∉ es
      else match s.alerts.pendingAlerts.find? (fun p => p.ident.level == e.ident.level) with
        | some p =>
          if m < p.lead then
            (∀ y ∈ t.alerts.pendingAlerts, y.ident.level = e.ident.level → y = ⟨e.ident, m, e.yield⟩) ∧
              (⟨e.ident, m, e.yield⟩ : HeldAlert) ∈ t.alerts.pendingAlerts ∧ held ∈ es
          else (∃ y ∈ t.alerts.pendingAlerts, y.ident = p.ident ∧ y.lead = p.lead) ∧ held ∉ es
        | none => (⟨e.ident, m, e.yield⟩ : HeldAlert) ∈ t.alerts.pendingAlerts ∧ held ∈ es) ∧
  (∀ (m : Node) (x : Manifest) (e : OwnEntry) (s : State), s.onTrunk = true → m ≠ s.mode.node →
    x.header.own.filter (fun y => y.ident.level == e.ident.level) = [e] → e.role ≠ .lead →
    (∀ y ∈ s.announced, y.1 ≠ m → y.2.role = .lead → y.2.ident.level = e.ident.level →
      y.2.ident = e.ident ∧ y.2.endCycle = none) →
    LeadLost m e.ident s (storeManifest m x s)) ∧
  (∀ (m : Node) (x : Manifest) (i : Ident) (s : State), s.onTrunk = true → m ≠ s.mode.node →
    ((∃ f, s.alerts.followed = some f ∧ f.ident = i ∧ f.lead = m) ∨
      (∃ b ∈ s.alerts.stack, b.ended = false ∧ ∃ f, b.followed = some f ∧ f.ident = i ∧ f.lead = m) ∨
      (∃ y ∈ s.alerts.scheduled, y.ident = i ∧ y.lead = m) ∨
      (∃ y ∈ s.alerts.pendingAlerts, y.ident = i ∧ y.lead = m) ∨
      ∃ o ∈ s.alerts.own, o.ident = i ∧ o.role = .shadow ∧
        (∃ h, (s.peers.get m).header = some h ∧ ∃ e ∈ h.own, e.ident = i ∧ e.role = .lead) ∧
        ∀ y ∈ s.announced, y.2.ident = i → y.2.role = .lead → y.1 = m) →
    (∀ n ∈ s.alerts.ends, n.ident = i → n.lead ≠ m) →
    let inStep := x.header.cycle = s.time.cycle ∧ x.header.frame = s.frameIndex
    let ahead (c : Cycle) := (c - s.time.cycle).toNat = 1 ∨ (c - s.time.cycle).toNat = 2
    let t := storeManifest m x s
    let ends (boundary : Cycle) : Prop :=
      (⟨i, m, boundary⟩ : EndNote) ∈ t.alerts.ends ∧ ∀ y ∈ t.alerts.scheduled, y.ident = i → y.lead ≠ m
    match x.header.own.filter (fun e => e.ident == i) with
    | [] => ends (if x.header.frame ≤ 11 then s.time.cycle + 1 else s.time.cycle + 2)
    | [e] => ∀ c, e.role = .lead → e.endCycle = some c → ends (if inStep ∧ ahead c then c else s.time.cycle + 1)
    | _ => True) ∧
  (∀ (m : Node) (x : Manifest) (e : OwnEntry) f (s : State), s.onTrunk = true → m ≠ s.mode.node →
    s.alerts.followed = some f → f.hold ≠ none → x.header.own.filter (fun y => y.ident == f.ident) = [e] → e.role = .lead →
    (∀ y ∈ s.announced, y.1 ≠ m → y.2.ident = f.ident → y.2.role ≠ .lead) →
    let t := storeManifest m x s
    t.alerts.followed = some { f with lead := m, hold := none } ∧
      (e.endCycle ≠ none → ∃ n ∈ t.alerts.ends, n.ident = f.ident ∧ n.lead = m)) ∧
  ∀ (m : Node) c0 c1 content last x (s : State), s.inReset = false → s.time.lock ≠ .unset →
    s.mode.mode ∈ [.joining, .active, .standby, .withdrawing] → s.trunk.inProgress = true →
    s.trunk.slotState = .listening → s.trunk.slotsBegun = 3 * m.val + 3 →
    let tag := tagOf m .manifest
    s.trunk.directory = (.read tag c0, .read tag c1, last) → judgeManifest (c0 ++ c1 ++ content) = some x →
    let heard : State := { s with trunk := { s.trunk with
      inProgress := false, driver := none, directory := (.read tag c0, .read tag c1, .read tag content) } }
    let adopted : State :=
      if s.mode.mode = .joining ∧ s.mode.cycleSource = none ∧ x.header.frame = s.frameIndex then
        { heard with time := { s.time with cycle := x.header.cycle }, mode := { s.mode with cycleSource := some m } }
      else heard
    (m ≠ s.mode.node → exec (.slotEnd tag content) s =
      .next (if x.header.node = m.val then storeManifest m x adopted else unheardReport m heard)) ∧
    (m = s.mode.node → s.mode.mode = .joining → s.Room 1 → ∃ t, exec (.slotEnd tag content) s = .next t ∧
      t.mode = { s.mode with mode := .halted } ∧ t.events.nfault = true ∧
      Posted s t [(.duplicate, m.val, none, 3 * m.val)] ∧
      t = { heard with mode := t.mode, events := t.events, trunk := t.trunk })

/-- Unheard reports in a row for a peer. Any but the sixteenth for a PRESENT or OUT-OF-STEP peer and the forty-eighth for a
SILENT one raises its count, to 48 at most, and changes nothing else (R45); for the own number none changes anything (R42). As
the third directory slot of another node ends with anything but three readings of its tag whose bytes are judged valid (R17,
R39, R40), and in QUIET whatever was read, its number gets such a report; in CONFIG and HALTED, and for the own number on the
trunk and in QUIET, nothing is handed over. PEER_SILENT, at the sixteenth for a PRESENT or OUT-OF-STEP peer (R45): SILENT, its
header and sheets kept, and PEER_SILENT with the number of cells its sheets cover, each counted once: the current ones but
for those that a reached release takes off them, and those of a pending claim (R49 to R51); nothing else changes. PEER_LOST,
at the forty-eighth for a SILENT peer (R45, R46): LOST, its header and sheets gone, PEER_LOST with the cells they covered,
before the Alert Controller's events (the model's order: DEDUCED, log 6), and no covering of the map is that peer's any
more, from this hand-over on, where R46 frees the cells at the frame's end (DEDUCED, log 45); tenancies, Lane Units, carousels and the other entries stay. On the trunk each alert that the peer led has lost its
lead (R163), as LeadLost says; where no other node leads another alert of its level, or has given it an end cycle. -/
def Obligations.UnheardPeerSilentThenLost : Prop :=
  (∀ m (s : State),
    let e := s.peers.get m
    (m = s.mode.node → unheardReport m s = s) ∧
    (m ≠ s.mode.node → (e.state = .present ∨ e.state = .outOfStep → e.unheard ≠ 15) → (e.state = .silent → e.unheard < 47) →
      unheardReport m s = { s with peers := s.peers.set m { e with unheard := min 48 (e.unheard + 1) } }) ∧
    (s.live = true → m ≠ s.mode.node →
      ((e.state = .present ∨ e.state = .outOfStep) ∧ e.unheard = 15 → exec (.peerSilent m) s = .next (unheardReport m s)) ∧
      (e.state = .silent ∧ e.unheard = 47 → exec (.peerLost m) s = .next (unheardReport m s)))) ∧
  (∀ (m : Node) tag content (s : State), s.inReset = false → s.time.lock ≠ .unset → s.trunk.inProgress = true →
    s.trunk.slotState = .listening → s.trunk.slotsBegun = 3 * m.val + 3 →
    let d := s.trunk.directory
    let mine := tagOf m .manifest
    let read : State := { s with trunk := { s.trunk with
      inProgress := false, driver := none, directory := (d.1, d.2.1, .read tag content) } }
    let unheard : Prop := ∀ c0 c1, d.1 = .read mine c0 → d.2.1 = .read mine c1 → tag = mine →
      judgeManifest (c0 ++ c1 ++ content) = none
    (m ≠ s.mode.node → s.mode.mode = .quiet ∨ s.mode.mode ∈ [.joining, .active, .standby, .withdrawing] ∧ unheard →
      exec (.slotEnd tag content) s = .next (unheardReport m read)) ∧
    (s.mode.mode = .config ∨ s.mode.mode = .halted ∨
        m = s.mode.node ∧ (s.mode.mode ∈ [.quiet, .active, .standby, .withdrawing] ∨ unheard) →
      exec (.slotEnd tag content) s = .next read)) ∧
  ∀ m (s : State), s.live = true → m ≠ s.mode.node → s.Room 1 →
    let e := s.peers.get m
    let reached (c : PendingChange) : Bool := decide (e.state = .present ∨ e.state = .silent ∧ e.silentOutOfStep = false) &&
      decide ((s.time.cycle - c.effective).toNat < 2048)
    let covers (sh : Sheet) (k : Nat) : Bool := match sh.change with
      | none => inRuns sh.current k
      | some c => match c.kind with
        | .claim => inRuns sh.current k || inRuns c.runs k
        | .release => inRuns sh.current k && !(reached c && inRuns c.runs k)
    let covered : Nat := ((List.range 776).filter (fun k =>
      ([e.sheets.l0, e.sheets.l1, e.sheets.l2, e.sheets.alert].filterMap id).any (fun sh => covers sh k))).length
    (e.state = .present ∨ e.state = .outOfStep → e.unheard = 15 →
      ∃ t, exec (.peerSilent m) s = .next t ∧
        t.peers.get m = { e with state := .silent, unheard := 16, silentOutOfStep := e.state == .outOfStep } ∧
        (∀ n, n ≠ m → t.peers.get n = s.peers.get n) ∧
        Posted s t [(.peerSilent, m.val, none, covered)] ∧
        t = { s with peers := t.peers, events := t.events }) ∧
    (e.state = .silent → e.unheard = 47 →
      ∃ t, exec (.peerLost m) s = .next t ∧
        t.peers.get m = ⟨.lost, 48, false, none, Quad.const none⟩ ∧
        (∀ n, n ≠ m → t.peers.get n = s.peers.get n) ∧
        PostedFirst s t [(.peerLost, m.val, none, covered)] ∧
        (s.onTrunk = true → ∀ i, (∀ y ∈ s.announced, y.1 ≠ m → y.2.role = .lead → y.2.ident.level = i.level →
          y.2.ident = i ∧ y.2.endCycle = none) → LeadLost m i s t) ∧
        (∀ c ∈ t.coverings, c.node ≠ m) ∧
        t.tenancy = s.tenancy ∧ t.units = s.units ∧ t.time = s.time ∧ t.trunk = s.trunk ∧ t.mode = s.mode ∧
        t.config = s.config ∧ t.contracts = s.contracts ∧ t.ports = s.ports ∧ t.captions = s.captions ∧
        t.pictures = s.pictures ∧ t.pending = s.pending)

/-! ### Tenancy (chapter 4) -/

/-- RELEASE_DONE and CLAIM_TAKEN, for a change of that kind that takes effect in the cycle in progress (R72). The lane's
cells are those it had less the released ones, or with the claimed ones; no change is pending; target, backoff and deferral
stay; RELEASE_DONE or CLAIM_TAKEN names the number of cells before anything else, the lane's LANE_CLOSED too (an order
of the model: DEDUCED, log 6). As commands of their own they act where the change is due in the cycle in progress (log 2).
The lane state follows the cells (R81, R82, R96): an OPENING lane with cells is ON-AIR, an ON-AIR or SQUEEZED lane without
any OPENING, a CLOSING one without any CLOSED (the alert lane OPENING again where it has a target), a SQUEEZED one below its
floor ON-AIR (R171 names cell loss alone as the cause; for any change it is DEDUCED, log 52), and a RESTORING one
at its restore target or its target ON-AIR, or SQUEEZED at its floor or above but below the bottom context's restore value
(R175). No other lane, no alert and no byte of the store changes. -/
def Obligations.DueChangeTakesEffect : Prop :=
  ∀ i c (s : State), s.onTrunk = true → (s.tenancy.get i).change = some c → c.effective = s.time.cycle → s.Room 1 →
    let command : Instr := match c.kind with | .release => .releaseDone i | .claim => .claimTaken i
    ∃ t, exec command s = .next t ∧
      (∀ k, inRuns (t.tenancy.get i).runs k = match c.kind with
        | .release => inRuns (s.tenancy.get i).runs k && !inRuns c.runs k
        | .claim => inRuns (s.tenancy.get i).runs k || inRuns c.runs k) ∧
      (t.tenancy.get i).change = none ∧ (t.tenancy.get i).target = (s.tenancy.get i).target ∧
      (t.tenancy.get i).backoff = (s.tenancy.get i).backoff ∧ (t.tenancy.get i).deferral = (s.tenancy.get i).deferral ∧
      (let n := (t.tenancy.get i).cells
       let target := (s.tenancy.get i).target
       (t.units.get i).state = match i, (s.units.get i).state with
        | _, .closed => .closed
        | _, .opening => if 0 < n then .onAir else .opening
        | .svc _, .onAir => if n = 0 then .opening else .onAir
        | .svc l, .squeezed => if n = 0 then .opening else if n < s.floorCells l then .onAir else .squeezed
        | .svc l, .restoring =>
          match (s.tenancy.get i).restoreTarget with
          | some r =>
            let bottom := match s.alerts.stack.getLast? with | some b => (b.restore.get l).getD 0 | none => 0
            if n < min r target then .restoring
            else if s.alerts.level ≠ 0 ∧ n < bottom ∧ s.floorCells l ≤ n then .squeezed else .onAir
          | none => .restoring
        | .svc _, .closing => if n = 0 then .closed else .closing
        | .alert, .onAir => if n = 0 ∧ 0 < target then .opening else .onAir
        | .alert, .closing => if 0 < n then .closing else if 0 < target then .opening else .closed
        | .alert, x => x) ∧
      PostedFirst s t [(match c.kind with | .release => .releaseDone | .claim => .claimTaken, s.mode.node.val, some i,
        (c.runs.map (fun r => r.len)).sum)] ∧
      OnlyLane i s t ∧ t.alerts = s.alerts ∧ t.store.cells = s.store.cells

/-- BACKOFF_END (log 2) for a lane whose backoff is over and which has no pending change: the planning attempt of R58. A lane with
more cells than its target plans the release of exactly the excess, all of it cells it holds, for the cycle after its
announcing frame's (R61, R67). A lane that wants no cells changes nothing, nor does a service lane that wants some outside
ACTIVE. One that does ORDINARY above level 0 is deferred with 1,024 more (R58). Otherwise its cells are those that R59 takes
from the free runs, first fit: ORDINARY it claims them if they are all it wants, a RESTORE or ALERT claim if there are any
(R60), for two cycles after the announcing frame's, an ALERT claim for one (R61); and else it is deferred for want of room.
A deferral posts CLAIM_DEFERRED with the cells wanted, unless it stood already. No other lane changes. First fit (R59): of
the free runs in ascending order each gives what is still wanted, from its start, if claim and lane then have four fragments
at most, and is passed over otherwise. The cells released are the lane's highest (R66, R67). The announcing frame is the first
that carries the lane's sheet and whose slot 3n has not begun (R61). The map (R52, R53): a cell that no lane in view holds or
asks for is free; it is HELD by the lane of lowest tag that holds it, and PENDING for the one of lowest tag that asks for it
where none holds it. The free runs are the longest ones of free cells, in ascending order, and the free count is the number
of free cells. -/
def Obligations.BackoffEndPlans : Prop :=
  (∀ i (s : State), s.onTrunk = true → (s.tenancy.get i).backoff = 0 → (s.tenancy.get i).change = none →
    let before := s.tenancy.get i
    let (rank, upTo) : Rank × Nat := match i with
      | .alert => (.alert, before.target)
      | .svc _ => match (s.units.get i).state, before.restoreTarget with
        | .restoring, some r => (.restore, min r before.target)
        | _, _ => (.ordinary, before.target)
    let want := upTo - before.cells
    let taken := takeRuns before.fragments s.freeRuns want []
    let total := (taken.map (fun r => r.len)).sum
    ∃ t, exec (.backoffEnd i) s = .next t ∧ OnlyLane i s t ∧
      (t.tenancy.get i).fragments = before.fragments ∧ (t.tenancy.get i).target = before.target ∧
      (before.target < before.cells → ∃ runs, (t.tenancy.get i).change =
          some ⟨.release, if i = .alert then .alert else .ordinary, s.announceCycle i + 1, runs⟩ ∧
        (runs.map (fun r => r.len)).sum = before.cells - before.target ∧
        runCells runs = (runCells before.runs).drop before.target ∧
        ∀ k, inRuns runs k = true → inRuns before.runs k = true) ∧
      (before.cells ≤ before.target →
        if want = 0 ∨ i ≠ .alert ∧ s.mode.mode ≠ .active then t = s
        else if rank = .ordinary ∧ s.alerts.level ≠ 0 then
          (t.tenancy.get i).change = none ∧ (t.tenancy.get i).deferral = .alert ∧
            (s.Room 1 → Posted s t
              (if before.deferral = .alert then [] else [(.claimDeferred, s.mode.node.val, some i, 1024 + want)]))
        else if (rank = .ordinary ∧ total = want) ∨ (rank ≠ .ordinary ∧ 0 < total) then
          (t.tenancy.get i).change =
              some ⟨.claim, rank, s.announceCycle i + (if rank = .alert then 1 else 2), taken⟩ ∧
            (∀ k, inRuns taken k = true → s.cellValue k = .free) ∧ (t.tenancy.get i).deferral = .none
        else
          (t.tenancy.get i).change = none ∧ (t.tenancy.get i).deferral = .room ∧
            (s.Room 1 → Posted s t
              (if before.deferral = .room then [] else [(.claimDeferred, s.mode.node.val, some i, want)])))) ∧
  (∀ i (s : State),
    let frame := s.time.localCount / 80000
    let begun : Prop := 3 * s.mode.node.val < s.trunk.slotsBegun
    let carries (f : Nat) : Prop := f % 2 = (match i with | .svc .l0 => 0 | .svc .l1 => 0 | .svc .l2 => 1 | .alert => 1)
    ∃ ahead, carries (frame + ahead) ∧ (ahead = 0 → ¬ begun) ∧
      (∀ less, less < ahead → carries (frame + less) → less = 0 ∧ begun) ∧
      s.announceCycle i = s.time.cycle + (if frame + ahead < 16 then 0 else 1)) ∧
  (∀ (s : State),
    let lanes := s.laneViews
    let now := s.time.cycle
    (∀ k, s.cellValue k = .free ↔ ∀ v ∈ lanes, v.holds now k = false ∧ v.asks now k = false) ∧
    (∀ k m i, s.cellValue k = .held m i ↔
      ∃ v ∈ lanes, v.node = m ∧ v.lane = i ∧ v.holds now k = true ∧ ∀ u ∈ lanes, u.holds now k = true → v.tag ≤ u.tag) ∧
    (∀ k m i e, s.cellValue k = .pending m i e → (∀ u ∈ lanes, u.holds now k = false) ∧
      ∃ v ∈ lanes, v.node = m ∧ v.lane = i ∧ v.asks now k = true ∧ v.change.map (fun c => c.effective) = some e ∧
        ∀ u ∈ lanes, u.asks now k = true → v.tag ≤ u.tag) ∧
    (∀ k, inRuns s.freeRuns k = true ↔ k < 776 ∧ s.cellValue k = .free) ∧
    s.freeRuns.Pairwise (fun a b => a.start + a.len < b.start) ∧ (∀ r ∈ s.freeRuns, 0 < r.len) ∧
    s.freeCount = ((List.range 776).filter (fun k => decide (s.cellValue k = .free))).length) ∧
  ∀ fragments (free : List Run) want, free.Pairwise (fun a b => a.start < b.start) → (∀ r ∈ free, 0 < r.len) →
    let taken := takeRuns fragments free want []
    let earlier (r : Run) : List Run := taken.filter (fun p => decide (p.start < r.start))
    let lacking (r : Run) : Nat := want - ((earlier r).map (fun p => p.len)).sum
    let piece (r : Run) : Run := ⟨r.start, min r.len (lacking r)⟩
    let fits (r : Run) : Bool :=
      decide ((addRuns fragments (earlier r ++ [piece r])).length ≤ 4 ∧ (earlier r ++ [piece r]).length ≤ 4)
    taken = (free.filter (fun r => decide (0 < lacking r) && fits r)).map piece ∧ (taken.map (fun r => r.len)).sum ≤ want

/-- Trimming k cells from fragments in ascending order (R66): the cells removed are the k highest, in ascending order,
those left are the rest, and every cell removed lies above every cell left; each fragment left keeps its start and its
loss mark and is no longer than it was; one whose cells are all removed leaves the list; and none is added. -/
def Obligations.TrimTakesHighestCells : Prop :=
  ∀ k (fs : List Fragment), fs.Pairwise (fun f g => f.start + f.len ≤ g.start) →
    let runs (gs : List Fragment) : List Run := gs.map (fun f => ⟨f.start, f.len⟩)
    let all := runCells (runs fs)
    let left := (trim k fs).1
    let gone := (trim k fs).2
    k ≤ all.length →
    runCells gone = all.drop (all.length - k) ∧ runCells (runs left) = all.take (all.length - k) ∧
      (∀ a ∈ runCells gone, ∀ b ∈ runCells (runs left), b < a) ∧
      (∀ f ∈ left, ∃ g ∈ fs, f.start = g.start ∧ f.mark = g.mark ∧ f.len ≤ g.len) ∧
      ((∀ f ∈ fs, 0 < f.len) → ∀ f ∈ left, 0 < f.len) ∧ left.length ≤ fs.length

/-- What a stored sheet of a peer does to the pending claim of one of the node's lanes (R62 to R64). A change of the sheet
is reached when the entry is in step and its effective cycle lies 0 to 2,047 cycles back (R50, R51). The claim is outranked
if it shares a cell with the peer's claim, that is not yet reached, and the peer's rank is higher, or equal with a lower node
number: it is withdrawn with cause 1. If it is not, but asks for a cell the peer holds, a current one that no reached
release takes or one of a reached claim, it is withdrawn with cause 2, whatever the ranks. Either way no change is pending,
the deferral is NONE, the backoff 2 plus the node number for an ORDINARY claim, 1 for a RESTORE and 0 for an ALERT claim,
and CLAIM_WITHDRAWN has 256 times the cause plus the peer's number; the lane's cells and every other lane stay. If neither,
nothing changes. Where both hold the spec names no cause, and cause 1 is the model's (DESIGN CHOICE, log 43). -/
def Obligations.CollidingClaimWithdrawn : Prop :=
  ∀ m inStep sh i c (s : State), (s.tenancy.get i).change = some c → c.kind = .claim → s.Room 1 →
    let rank : Rank → Nat := fun r => match r with | .ordinary => 0 | .restore => 1 | .alert => 2
    let reached (p : PendingChange) : Prop := inStep = true ∧ (s.time.cycle - p.effective).toNat < 2048
    let outranked := ∃ p, sh.change = some p ∧ p.kind = .claim ∧ ¬ reached p ∧
      (∃ k ∈ runCells c.runs, inRuns p.runs k = true) ∧
      (rank c.rank < rank p.rank ∨ c.rank = p.rank ∧ m < s.mode.node)
    let holds (k : Nat) : Prop :=
      (inRuns sh.current k = true ∧
          ¬ ∃ p, sh.change = some p ∧ p.kind = .release ∧ reached p ∧ inRuns p.runs k = true) ∨
        ∃ p, sh.change = some p ∧ p.kind = .claim ∧ reached p ∧ inRuns p.runs k = true
    let t := conflictCheck m inStep sh i s
    let withdrawn (cause : Nat) : Prop :=
      (t.tenancy.get i).change = none ∧ (t.tenancy.get i).deferral = .none ∧
        (t.tenancy.get i).backoff =
          (match c.rank with | .ordinary => 2 + s.mode.node.val | .restore => 1 | .alert => 0) ∧
        (t.tenancy.get i).runs = (s.tenancy.get i).runs ∧
        PostedFirst s t [(.claimWithdrawn, s.mode.node.val, some i, 256 * cause + m.val)] ∧ OnlyLane i s t
    (outranked → withdrawn 1) ∧
      (¬ outranked → (∃ k ∈ runCells c.runs, holds k) → withdrawn 2) ∧
      (¬ outranked → (∀ k ∈ runCells c.runs, ¬ holds k) → t = s)

/-- The yield figure covers the need (R166, R168). Where the lanes that give have spare cells enough, the cells they give
under the figure, each its share of its own spare cells rounded up, are together at least the need, and none gives more
than its spare cells. The yieldable total of R166 is the sum, over the lanes of class YIELDABLE in the node's view, of the
cells each holds above its floor. -/
def Obligations.YieldCoversNeed : Prop :=
  (∀ s : State, s.yieldableTotal = ((s.laneViews.filter (fun v => v.laneClass == .yieldable)).map (fun v =>
    ((List.range 776).filter (v.holds s.time.cycle)).length - v.floor)).sum) ∧
  ∀ need (lanes : List (Nat × Nat)),
    let total := (lanes.map (fun x => x.1 - x.2)).sum
    need ≤ total →
    need ≤ (lanes.map (fun x => giveFor (yieldFor need total) x.1 x.2)).sum ∧
      ∀ x ∈ lanes, giveFor (yieldFor need total) x.1 x.2 ≤ x.1 - x.2

/-! ### Lanes (chapter 5) -/

/-- No record of one lane's contribution port, taken or rejected, changes another service lane, the alert lane, the
Timebase, the Trunk Interface, the mode, the peer table, the configuration, or of the alerts anything but the restore value
and the kept rate that the saved contexts hold for the lane. -/
def Obligations.LaneRecordsStayOnTheirLane : Prop :=
  ∀ c l (s : State), (∃ r, c.record = some (.svc l, r)) ∨
      (∃ kind length body crc, c = .recordRejected (.svc l) kind length body crc) →
    ∃ t, exec c s = .next t ∧ OnlyLane (.svc l) s t ∧ t.alerts = { s.alerts with stack := t.alerts.stack } ∧
      t.alerts.stack.length = s.alerts.stack.length ∧
      ∀ (n : Nat) (x y : Context), s.alerts.stack[n]? = some x → t.alerts.stack[n]? = some y →
        y = { x with restore := x.restore.set l (y.restore.get l), kept := x.kept.set l (y.kept.get l) }

/-- AUDIO_UNIT on an enabled lane's port (R87, R92). OPENING, ON-AIR, SQUEEZED or RESTORING: an ACCEPTING intake with room
for the unit appends it, and nothing else changes but the port; with no room for it the FIFO stays, the intake is HELD with
one unit dropped, INTAKE_HELD names the FIFO's fill, and the lane makes a status record; a HELD intake counts one more, to
65,535 at most. CLOSED or CLOSING: it is discarded. -/
def Obligations.AudioUnitByIntake : Prop :=
  ∀ l c unit (s : State), s.live = true → s.contracts.get l = some c → 1 ≤ unit.length → unit.length ≤ 1024 →
    s.Hunting (.svc l) → s.Room 1 →
    let u := s.units.get (.svc l)
    let heard : State := { s with ports := s.ports.set (.svc l) ⟨.hunt, []⟩ }
    let with' (v : LaneUnit) : State := { heard with units := s.units.set (.svc l) v }
    if u.state = .closed ∨ u.state = .closing then exec (.audioUnit l unit) s = .next heard
    else match u.intake with
      | .held => exec (.audioUnit l unit) s = .next (with' { u with dropped := min 65535 (u.dropped + 1) })
      | .accepting =>
        if u.fifo.length + unit.length ≤ 16384 then
          exec (.audioUnit l unit) s = .next (with' { u with fifo := u.fifo ++ unit })
        else ∃ t, exec (.audioUnit l unit) s = .next t ∧
          t = { with' { u with intake := .held, dropped := 1 } with
            events := t.events, returnLines := t.returnLines } ∧
          Posted s t [(.intakeHeld, s.mode.node.val, some (.svc l), u.fifo.length)] ∧
          (∀ j, j ≠ l → t.returnLines.get j = s.returnLines.get j) ∧
          ∃ record : LaneStatus, record.intake = .held ∧ record.lane = l ∧ record.fill = u.fifo.length ∧
            ((t.returnLines.get l).sending = some record ∨ (t.returnLines.get l).waiting = some record)

/-- LANE_OPEN and LANE_RATE on an enabled lane's port (R88, R89, R68, R69). The rate used is the rate given, rounded down
to a multiple of 8 and brought between Rmin and Rmax, with RATE_CLAMPED before anything else if it differs; an empty
LANE_OPEN uses Rnom. A CLOSED lane without cells becomes OPENING in ACTIVE, with LANE_OPENED and the target of the rate,
and otherwise stays as it is. An open lane takes the rate: as its target, or, while contexts are saved, as the kept rate
of the bottom one with its tenancy and state untouched. With none saved, a pending claim is withdrawn, CLAIM_WITHDRAWN with
cause 3 naming the node itself, the deferral then NONE and the backoff as it was; a pending release stays (R64, R69). A
planning attempt follows (R58): with more cells than the target, the release of the highest of them is pending, unless one is
already (R67); with fewer than wanted, in ACTIVE, without backoff and pending release, a claim of what R59 takes from the map
without the claim withdrawn, ORDINARY for the whole want, RESTORE, while the restore is not complete, for any part, for two
cycles after the announcing frame's (R60, R61), or CLAIM_DEFERRED, unless that deferral stands, with the cells wanted for want
of room, and 1,024 more above level 0; in any other case nothing new is pending, and no more is posted. Its lane state does not
change on the record (R89), but where a restore is complete by it (R175), cells below the floor apart. A CLOSING lane, a
LANE_RATE on a CLOSED one and an empty LANE_OPEN on an open one change nothing but the port. -/
def Obligations.LaneOpenAndRate : Prop :=
  ∀ l c (rate : Option (BitVec 16)) command (s : State), s.live = true → s.contracts.get l = some c →
    s.Hunting (.svc l) → s.Room 2 →
    command = .laneOpen l rate ∨ (∃ r, rate = some r ∧ command = .laneRate l r) →
    let heard : State := { s with ports := s.ports.set (.svc l) ⟨.hunt, []⟩ }
    let used := match rate with | none => c.rnom | some r => max c.rmin (min c.rmax (r.toNat / 8 * 8))
    let clamped : List (EventKind × Nat × Option LaneId × Nat) := match rate with
      | none => []
      | some r => if used = r.toNat then [] else [(.rateClamped, s.mode.node.val, some (.svc l), used)]
    let target := (10 * used + gradePayload c.grade - 1) / gradePayload c.grade
    let state := (s.units.get (.svc l)).state
    if state = .closing ∨
        state = .closed ∧ (s.mode.mode ≠ .active ∨ command ≠ .laneOpen l rate) ∨
        state ≠ .closed ∧ rate = none then
      exec command s = .next heard
    else ∃ t, exec command s = .next t ∧ OnlyLane (.svc l) heard t ∧
      (state = .closed → (s.tenancy.get (.svc l)).cells = 0 →
        (t.units.get (.svc l)).state = .opening ∧ (t.tenancy.get (.svc l)).target = target ∧
          PostedFirst s t (clamped ++ [(.laneOpened, s.mode.node.val, some (.svc l), used)]) ∧ t.alerts = s.alerts) ∧
      (state ≠ .closed → s.alerts.stack = [] →
        let before := s.tenancy.get (.svc l)
        let after := t.tenancy.get (.svc l)
        let change := if before.claiming then none else before.change
        let stood := if before.claiming then .none else before.deferral
        let told := clamped ++ if before.claiming then
          [(.claimWithdrawn, s.mode.node.val, some (.svc l), 256 * 3 + s.mode.node.val)] else []
        let restore : Bool := state == .restoring &&
          before.restoreTarget.any (fun r => decide (before.cells < min r target))
        let rank : Rank := if restore then .restore else .ordinary
        let want := (if restore then min (before.restoreTarget.getD 0) target else target) - before.cells
        let freed : State := { s with tenancy := s.tenancy.set (.svc l) { before with change := change } }
        let taken := takeRuns before.fragments freed.freeRuns want []
        let total := (taken.map (fun r => r.len)).sum
        let deferred (d : Deferral) (more : Nat) : Prop := after.change = none ∧ after.deferral = d ∧ (s.Room 3 → Posted s t
          (told ++ if stood = d then [] else [(.claimDeferred, s.mode.node.val, some (.svc l), more + want)]))
        after.target = target ∧ after.fragments = before.fragments ∧ after.backoff = before.backoff ∧
          PostedFirst s t told ∧ t.alerts = s.alerts ∧
          (if target < before.cells then
              after.deferral = stood ∧ Posted s t told ∧ (change.isSome = true → after.change = change) ∧
                (change = none → ∃ runs, after.change = some ⟨.release, .ordinary, s.announceCycle (.svc l) + 1, runs⟩ ∧
                  runCells runs = (runCells before.runs).drop target)
            else if want = 0 ∨ s.mode.mode ≠ .active ∨ change.isSome = true ∨ 0 < before.backoff then
              after.change = change ∧ after.deferral = stood ∧ Posted s t told
            else if restore = false ∧ s.alerts.level ≠ 0 then deferred .alert 1024
            else if (if restore then 0 < total else total = want) then
              after.change = some ⟨.claim, rank, s.announceCycle (.svc l) + 2, taken⟩ ∧ after.deferral = .none ∧
                Posted s t told
            else deferred .room 0) ∧
          (state = .onAir ∨ state = .opening ∧ (s.tenancy.get (.svc l)).cells = 0 ∨
              state = .squeezed ∧ s.floorCells l ≤ (s.tenancy.get (.svc l)).cells ∨
              state = .restoring ∧
                (∀ r, (s.tenancy.get (.svc l)).restoreTarget = some r → (s.tenancy.get (.svc l)).cells < min r target) →
            (t.units.get (.svc l)).state = state)) ∧
      (state ≠ .closed → s.alerts.stack ≠ [] →
        t = { heard with events := t.events, alerts := { s.alerts with stack := t.alerts.stack } } ∧
          Posted s t clamped ∧
          t.alerts.stack.dropLast = s.alerts.stack.dropLast ∧
          ∃ b, s.alerts.stack.getLast? = some b ∧
            t.alerts.stack.getLast? = some { b with kept := b.kept.set l (some used) })

/-- LANE_CLOSE on an enabled lane's port (R90, R70, R64, R81, R172). A pending claim of an open lane is withdrawn with cause 4,
CLAIM_WITHDRAWN naming the node itself, the deferral then NONE and the backoff as it was. The lane without cells is CLOSED at
once, its FIFO empty and its intake ACCEPTING, and LANE_CLOSED names the bytes discarded, after the withdrawal (R90), and
alone with it where no object has expired; where one has, its OBJECT_EXPIRED can be posted too (R99, R140), in an order of
the two that is left open here. One with cells becomes CLOSING, its FIFO kept, with the release of all its cells pending,
unless a release was pending already, and no event but that of the withdrawal. Its target is 0, no restore is wanted, and
the contexts saved keep no rate for it. A CLOSED or CLOSING lane changes nothing but the port. -/
def Obligations.LaneCloseReleases : Prop :=
  ∀ l c (s : State), s.live = true → s.contracts.get l = some c → s.Hunting (.svc l) → s.Room 3 →
    let heard : State := { s with ports := s.ports.set (.svc l) ⟨.hunt, []⟩ }
    let u := s.units.get (.svc l)
    let before := s.tenancy.get (.svc l)
    let withdrawn : List (EventKind × Nat × Option LaneId × Nat) :=
      if before.claiming then [(.claimWithdrawn, s.mode.node.val, some (.svc l), 256 * 4 + s.mode.node.val)] else []
    let closed : EventKind × Nat × Option LaneId × Nat := (.laneClosed, s.mode.node.val, some (.svc l), u.fifo.length)
    if u.state = .closed ∨ u.state = .closing then exec (.laneClose l) s = .next heard
    else ∃ t, exec (.laneClose l) s = .next t ∧ OnlyLane (.svc l) heard t ∧
      (t.tenancy.get (.svc l)).target = 0 ∧ (t.tenancy.get (.svc l)).restoreTarget = none ∧
      (t.tenancy.get (.svc l)).fragments = before.fragments ∧ (t.tenancy.get (.svc l)).backoff = before.backoff ∧
      (t.tenancy.get (.svc l)).deferral = (if before.claiming then .none else before.deferral) ∧
      (∀ x ∈ t.alerts.stack, x.kept.get l = none ∧ (x.restore.get l = none ∨ x.restore.get l = some 0)) ∧
      (before.cells = 0 →
        (t.units.get (.svc l)).state = .closed ∧ (t.units.get (.svc l)).fifo = [] ∧
          (t.units.get (.svc l)).intake = .accepting ∧
          (t.tenancy.get (.svc l)).change = (if before.claiming then none else before.change) ∧
          ∃ es, Posted s t (withdrawn ++ es) ∧ closed ∈ es ∧
            ((∀ o ∈ s.store.objects, o.expired = false) → es = [closed])) ∧
      (0 < before.cells →
        t.units.get (.svc l) = { u with state := .closing } ∧ Posted s t withdrawn ∧
          ∃ r, (t.tenancy.get (.svc l)).change = some r ∧ r.kind = .release ∧
            (if before.releasing then some r = before.change
             else (r.runs.map (fun x => x.len)).sum = before.cells ∧ r.effective = s.announceCycle (.svc l) + 1))

/-- LANE_RESET on an enabled lane's port (R91, R109, R127, R142): the FIFO is empty, the intake ACCEPTING and nothing
counted as dropped, the lane's state, split and assembled frame staying; the caption carousel is empty but for its toggle
memory, the picture carousel empty, the lane's objects gone and its transfer memory kept; alert cursors return to their
first byte and the pointers stay; LANE_RESET names the bytes discarded; the tenancy, the alerts and the store's bytes
stay, and no other lane changes. If the intake was HELD, a lane status record of the lane, with intake ACCEPTING and fill 0,
begins on an idle return line whose clock runs, and otherwise waits there in the place of any that waited (R98); if it was
ACCEPTING, the return line stays. -/
def Obligations.LaneResetEmptiesLane : Prop :=
  ∀ l c (s : State), s.live = true → s.contracts.get l = some c → s.Hunting (.svc l) → s.Room 1 →
    let u := s.units.get (.svc l)
    let k := s.scheds.get (.svc l)
    let first (x : Cursor) : Cursor := ⟨x.content, 0, 0⟩
    let line := s.returnLines.get l
    let record : LaneStatus := { s.laneStatus l with intake := .accepting, fill := 0 }
    ∃ t, exec (.laneReset l) s = .next t ∧
      t.returnLines.get l = (if u.intake = .accepting then line
        else if line.sending = none ∧ line.clockStopped = false then { line with sending := some record }
        else { line with waiting := some record }) ∧
      t.units.get (.svc l) = { u with fifo := [], intake := .accepting, dropped := 0 } ∧
      t.captions.get l = ⟨[], 0, none, none, none, (s.captions.get l).toggles⟩ ∧ t.pictures.get l = ⟨[], 0, none⟩ ∧
      t.store.objects = s.store.objects.filter (fun o => o.owner != .svc l) ∧ t.store.cells = s.store.cells ∧
      t.store.transfers = s.store.transfers ∧
      t.scheds.get (.svc l) = ⟨k.high, k.low, k.caption.map first, k.picture.map first⟩ ∧
      Posted s t [(.laneReset, s.mode.node.val, some (.svc l), u.fifo.length)] ∧
      t.tenancy = s.tenancy ∧ t.alerts = s.alerts ∧ OnlyLane (.svc l) s t

/-- The lane bytes assembled as slot 24 begins (R94, R95, R100, R101): as many as the split's annex and audio budget. The
annex holds the segments of one placement after another, each with its header and payload (R186, R189), and zeros after
them. With r bytes of it left a placement is made with the limit min(60, r - 4), from the state the one before has left;
each takes 4 bytes and its payload off r; they end with fewer than 5 bytes left or with no member ready, and but for the
Lane Unit, the event queue and the return line the state is that of the last one. The audio part is the head of the FIFO,
filled up with zeros, and the FIFO is without it; a lane without cells assembles none. The intake resumes (R93): HELD
with 8,192 bytes or fewer left it becomes ACCEPTING with nothing counted as dropped, INTAKE_RESUMED names the units
dropped, which comes alone where no object has expired, and a service lane's status record is made, with intake ACCEPTING
and the new fill, to begin on an idle return line whose clock runs and else to wait there (R98). Otherwise, and without
cells, intake, count and return line stay. -/
def Obligations.AssemblyFillsBudget : Prop :=
  ∀ i (s : State),
    let u := s.units.get i
    let t := assembleLane i s
    let v := t.units.get i
    let fill := (u.fifo.drop u.split.audio).length
    let resumes : Bool := decide (runCells (s.tenancy.get i).runs ≠ [] ∧ u.intake = .held ∧ fill ≤ 8192)
    let written (g : Segment) : List Byte :=
      let kind := match g.kind with | .caption => 0 | .picture => 1 | .alertCaption => 2 | .alertPicture => 3
      let word := (if g.first then 32768 else 0) + g.variant % 16 * 2048 + g.seq.toNat
      [BitVec.ofNat 8 (4 * (if g.last then g.payload.length else 63) + kind), g.id, BitVec.ofNat 8 (word / 256),
        BitVec.ofNat 8 word] ++ g.payload
    (v.intake = (if resumes then .accepting else u.intake) ∧ v.dropped = (if resumes then 0 else u.dropped)) ∧
    ((∀ o ∈ s.store.objects, o.expired = false) → s.Room 1 → Posted s t
      (if resumes then [(.intakeResumed, s.mode.node.val, some i, u.dropped)] else [])) ∧
    (∀ l, i = .svc l → s.live = true →
      let line := s.returnLines.get l
      let record : LaneStatus := { s.laneStatus l with intake := .accepting, fill := fill }
      t.returnLines.get l = if resumes = false then line
        else if line.sending = none ∧ line.clockStopped = false then { line with sending := some record }
        else { line with waiting := some record }) ∧
    (runCells (s.tenancy.get i).runs = [] → v.assembled = none ∧ v.fifo = u.fifo) ∧
    (runCells (s.tenancy.get i).runs ≠ [] → ∃ a, v.assembled = some a ∧ a.cells = runCells (s.tenancy.get i).runs ∧
      a.payload = gradePayload (s.laneGrade i) ∧ a.bytes.length = u.split.annex + u.split.audio ∧
      a.bytes.drop u.split.annex = u.fifo.take u.split.audio ++ List.replicate (u.split.audio - u.fifo.length) 0 ∧
      v.fifo = u.fifo.drop u.split.audio ∧
      ∃ (placed : List Segment) (after : Nat → State),
        let left (j : Nat) : Nat := u.split.annex - ((placed.take j).map (fun g => 4 + g.payload.length)).sum
        let n := placed.length
        after 0 = s ∧
        (∀ (j : Nat) g, placed[j]? = some g →
          5 ≤ left j ∧ placeSegment i (min 60 (left j - 4)) (after j) = some (g, after (j + 1))) ∧
        (left n < 5 ∨ placeSegment i (min 60 (left n - 4)) (after n) = none) ∧
        a.bytes.take u.split.annex = (placed.map written).flatten ++ List.replicate (left n) 0 ∧
        t = { after n with units := t.units, events := t.events, returnLines := t.returnLines } ∧
        ∀ j, j ≠ i → t.units.get j = s.units.get j)

/-- One placement of a lane's scheduler (R104, R105, R111). The members of the composition for the lane and the alert
level are asked in turn, from the one the high pointer names, or from the first when it names none of them; the first
that is ready supplies the segment, and its turn is all that changes but for the pointer, which goes on to the member
after it; with none ready nothing is placed. The low group's turn (R105): the member its low pointer names is asked
first, and if it supplies the segment the pointer goes on to the other; if only the other does, the pointer stays;
nothing else changes but what that member's own turn does. An alert member's turn (R104, R107, R111) is for the followed
alert, of its lead as it stands (log 41), and on the alert lane for the lane alert, of the node itself. ALERT CAPTION is
ready with the alert's text: the own alert's, or one kept of it (log 13), or a relayed one, with its toggle (on the alert lane
and with variants above 1 too: logs 47 and 48); ALERT PICTURE with a READY reserve entry: three size bytes and its own, with
its transfer number. A member that is not ready supplies nothing and its cursor stays. One that is ready goes on from the
bytes its cursor has sent of that very origin, identity and number, if fewer than there are (else, log 42), and else
begins at the first byte with sequence number 0; it supplies as many bytes as the limit lets it, First where the cursor has
sent nothing (a sequence number that wraps to 0 in a long picture does not set it, which is log 33's reading of R102:
DEDUCED) and Last with the last one, and the cursor stands behind them, or after Last at the first byte again. Nothing but that
cursor changes. -/
def Obligations.PlacementTakesFirstReadyMember : Prop :=
  (∀ lane limit (s : State),
    let comp : List HighMember := match lane with
      | .alert => [.alertCaption, .alertPicture]
      | .svc _ => if s.alerts.level = 0 then [.lowGroup]
        else if s.alerts.level = 1 then [.alertCaption, .lowGroup] else [.alertCaption, .alertPicture]
    let pointer := (s.scheds.get lane).high
    let order := if pointer ∈ comp then comp.dropWhile (· != pointer) ++ comp.takeWhile (· != pointer) else comp
    match placeSegment lane limit s with
    | none => ∀ m ∈ order, highTurn lane m limit s = none
    | some (g, t) => ∃ before m after u, order = before ++ m :: after ∧
        (∀ x ∈ before, highTurn lane x limit s = none) ∧ highTurn lane m limit s = some (g, u) ∧
        t = { u with scheds := u.scheds.set lane { u.scheds.get lane with high := (after ++ before).headD m } }) ∧
  (∀ l limit (s : State),
    let first := (s.scheds.get (.svc l)).low
    let second : LowMember := match first with | .caption => .picture | .picture => .caption
    match lowMemberTurn l first limit s, lowMemberTurn l second limit s with
    | none, none => highTurn (.svc l) .lowGroup limit s = none
    | some (g, u), _ => highTurn (.svc l) .lowGroup limit s =
        some (g, { u with scheds := u.scheds.set (.svc l) { u.scheds.get (.svc l) with low := second } })
    | none, some (g, u) => highTurn (.svc l) .lowGroup limit s = some (g, u) ∧ (u.scheds.get (.svc l)).low = first) ∧
  ∀ lane limit (s : State), 1 ≤ limit →
    let alert : Option (Node × Ident) := match lane with
      | .svc _ => s.alerts.followed.map (fun f => (f.lead, f.ident))
      | .alert => s.alerts.laneAlert.map (fun i => (s.mode.node, i))
    let text (i : Ident) : Option (Nat × List Byte) :=
      ((s.alerts.own.find? (fun o => o.ident == i)).bind (fun o => o.text.map (fun b => (o.toggle.toNat, b)))).or
        (((s.alerts.keptTexts.find? (fun x => x.ident == i)).map (fun x => (x.toggle.toNat, x.text))).or
          ((s.alerts.relayTexts.find? (fun x => x.ident == i)).map (fun x => (x.toggle, x.text))))
    let picture (i : Ident) : Option (Nat × List Byte) :=
      (s.store.objects.find? (fun o => o.owner == .alert && o.id == i.id && o.level == i.level)).bind (fun o =>
        if o.state = .ready then some (o.transfer.toNat,
          put24 o.size ++ (List.range o.size).map (fun j => readCell (o.address j) s.store.cells))
        else none)
    let k := s.scheds.get lane
    let turn (m : HighMember) (kind : SegKind) (cursor : Option Cursor) (content : Ident → Option (Nat × List Byte))
        (put : Cursor → Scheduler) : Prop :=
      match alert with
      | none => highTurn lane m limit s = none
      | some (origin, i) => match content i with
        | none => highTurn lane m limit s = none
        | some (variant, stream) =>
          let whole : ContentId := ⟨origin, i, variant⟩
          let start : Cursor := match cursor with
            | some x => if x.content = whole ∧ x.sent < stream.length then x else ⟨whole, 0, 0⟩
            | none => ⟨whole, 0, 0⟩
          let last : Bool := decide (stream.length ≤ start.sent + limit)
          let behind : Cursor := if last then ⟨whole, 0, 0⟩ else ⟨whole, start.sent + limit, start.seq + 1⟩
          highTurn lane m limit s = some
            (⟨kind, i.id, start.seq, start.sent == 0, last, variant, (stream.drop start.sent).take limit⟩,
              { s with scheds := s.scheds.set lane (put behind) })
    turn .alertCaption .alertCaption k.caption text (fun x => { k with caption := some x }) ∧
      turn .alertPicture .alertPicture k.picture picture (fun x => { k with picture := some x })

/-! ### Caption carousels (chapter 7) -/

/-- CAPTION_PUT on an enabled lane's port (R115 to R118). The clamps are posted in the order text, priority, repeats, and
the values used are the first 128 bytes, 3, 15, and the contract's dwell for 0. An id that an entry holds has that entry's
text, dwell, repeats, sends remaining and toggle replaced in its place, a send of it starting again, with no event. A new
id in a carousel of fewer than 16 entries takes its place behind every entry of its priority or a higher one and before
every lower one, WAITING, with the toggle opposite to the memory's, with no event; the toggle memory follows in both cases.
In a full carousel the first admitted of the lowest priority is the candidate: one of higher priority than the put, or
SENDING, refuses it with CAPTION_REFUSED and the carousel stays; any other leaves with CAPTION_EVICTED. Only the port, the
carousel and the event queue change. -/
def Obligations.CaptionPutByCarousel : Prop :=
  ∀ l c id (priority dwell repeats : Byte) text (s : State), s.live = true → s.contracts.get l = some c →
    1 ≤ text.length → text.length ≤ 1096 → (s.captions.get l).Sound → s.Hunting (.svc l) → s.Room 4 →
    let k := s.captions.get l
    let subject (kind : EventKind) (arg : Nat) : EventKind × Nat × Option LaneId × Nat :=
      (kind, s.mode.node.val, some (.svc l), arg)
    let clamps := (if 128 < text.length then [subject .recordClamped (256 * 1 + id.toNat)] else []) ++
      (if 3 < priority.toNat then [subject .recordClamped (256 * 2 + id.toNat)] else []) ++
      (if 15 < repeats.toNat then [subject .recordClamped (256 * 3 + id.toNat)] else [])
    let p := min 3 priority.toNat
    let r := min 15 repeats.toNat
    let d := if dwell = 0 then c.dwell else dwell.toNat
    let toggle := !k.toggles.get id.toFin
    let fresh : CaptionEntry := ⟨id, p, text.take 128, d, r, r, toggle, .waiting⟩
    let held := k.entries.filter (fun e => e.id == id)
    ∃ t, exec (.captionPut l id priority dwell repeats text) s = .next t ∧
      t = { s with
        ports := s.ports.set (.svc l) ⟨.hunt, []⟩, captions := s.captions.set l (t.captions.get l), events := t.events } ∧
      (∀ e ∈ held, Posted s t clamps ∧
        (t.captions.get l).entries = k.entries.map (fun x => if x.id = id then
          { x with text := text.take 128, dwell := d, repeats := r, remaining := r, toggle := !x.toggle } else x) ∧
        (t.captions.get l).toggles.get id.toFin = !e.toggle ∧
        (t.captions.get l).cursor = (if e.state = .sending then some ⟨0, 0⟩ else k.cursor) ∧
        (t.captions.get l).mark = k.mark ∧ (t.captions.get l).dwellEnd = k.dwellEnd) ∧
      (held = [] → k.entries.length < 16 → Posted s t clamps ∧
        (t.captions.get l).entries = k.entries.takeWhile (fun e => decide (p ≤ e.priority)) ++
          fresh :: k.entries.dropWhile (fun e => decide (p ≤ e.priority)) ∧
        (t.captions.get l).toggles = k.toggles.set id.toFin toggle ∧ (t.captions.get l).cursor = k.cursor ∧
        (t.captions.get l).dwellEnd = k.dwellEnd) ∧
      (∀ low give, held = [] → k.entries.length = 16 → k.entries.getLast? = some low →
        k.entries.find? (fun e => e.priority == low.priority) = some give →
        if p < give.priority then
          t.captions.get l = k ∧ Posted s t (clamps ++ [subject .captionRefused (256 * 1 + id.toNat)])
        else if give.state = .sending then
          t.captions.get l = k ∧ Posted s t (clamps ++ [subject .captionRefused (256 * 2 + id.toNat)])
        else
          Posted s t (clamps ++ [subject .captionEvicted (256 * give.id.toNat + id.toNat)]) ∧
          (t.captions.get l).entries.length = 16 ∧ (∀ e ∈ (t.captions.get l).entries, e.id ≠ give.id) ∧
          fresh ∈ (t.captions.get l).entries ∧
          ∀ e ∈ k.entries, e.id ≠ give.id → e ∈ (t.captions.get l).entries)

/-- CAPTION_DROP on an enabled lane's port (R119). The entry of the id, in any state, leaves and the others keep their
order; the send cursor is cleared if it was SENDING; the dwell end and the toggle memory stay, and the mark stays between
the same neighbours. An id that no entry holds changes nothing. No event is posted, and only the port and the carousel
change. -/
def Obligations.CaptionDropRemovesEntry : Prop :=
  ∀ l c id (s : State), s.live = true → s.contracts.get l = some c → (s.captions.get l).Sound → s.Hunting (.svc l) →
    let k := s.captions.get l
    let heard : State := { s with ports := s.ports.set (.svc l) ⟨.hunt, []⟩ }
    let without (i : Nat) (e : CaptionEntry) : CaptionCarousel :=
      ⟨k.entries.eraseIdx i, if i < k.mark then k.mark - 1 else k.mark, k.follows, k.dwellEnd,
        if e.state = .sending then none else k.cursor, k.toggles⟩
    ((∀ e ∈ k.entries, e.id ≠ id) → exec (.captionDrop l id) s = .next heard) ∧
    ∀ i e, k.entries[i]? = some e → e.id = id →
      exec (.captionDrop l id) s = .next { heard with captions := s.captions.set l (without i e) }

/-- A caption's turn and its dwell end. DWELL_END of a lane's caption carousel (R120, R123; log 2): once the frame position has
reached the dwell end, by the half-range test, the end is gone and a DWELLING entry waits again; before that, or with no
dwell end, nothing changes. The carousel's turn in an annex (R120 to R122): with nothing SENDING it supplies nothing while
it is empty or its dwell end lies ahead; otherwise the next entry, from its first byte, or the SENDING one from the byte
after those sent, supplies as many bytes as the limit lets it, First at sequence number 0, Last with the text's last byte,
the entry's toggle as variant. Before the Last segment the entry is SENDING with the cursor after the bytes sent; at it the
cursor goes, a send remaining is used up, and the entry leaves after its last one, or else DWELLS while the dwell end lies
ahead and waits after it. The first segment of a text sets the dwell end to the entry's dwell from this frame; at a later
one it stays while it lies ahead, and is gone once it is reached (R120). Only the carousel changes. -/
def Obligations.DwellEndFreesCarousel : Prop :=
  (∀ l (s : State), s.live = true →
    let k := s.captions.get l
    let now : FramePos := BitVec.ofNat 16 (s.time.cycle.toNat * 16 + s.time.localCount / 80000)
    exec (.dwellEnd l) s = .next (match k.dwellEnd with
      | none => s
      | some e =>
        if (now - e).toNat < 32768 then { s with captions := s.captions.set l { k with
          dwellEnd := none
          entries := k.entries.map (fun x => if x.state = .dwelling then { x with state := .waiting } else x) } }
        else s)) ∧
  ∀ l limit (s : State), 1 ≤ limit → (s.captions.get l).Sound →
    let k := s.captions.get l
    let now : FramePos := BitVec.ofNat 16 (s.time.cycle.toNat * 16 + s.time.localCount / 80000)
    let ahead : Prop := ∃ d, k.dwellEnd = some d ∧ 32768 ≤ (now - d).toNat
    let entries := k.entries.map (fun x => if x.state = .dwelling then { x with state := .waiting } else x)
    (k.cursor = none → k.entries = [] ∨ ahead → lowMemberTurn l .caption limit s = none) ∧
    ∀ i e sent seq, entries[i]? = some e → 1 ≤ e.dwell → e.dwell ≤ 255 →
      (k.cursor = none ∧ ¬ ahead ∧ sent = 0 ∧ seq = 0 ∧ i = (if k.mark < k.entries.length then k.mark else 0)) ∨
        (k.cursor = some ⟨sent, seq⟩ ∧ e.state = .sending) →
      let last : Bool := decide (e.text.length ≤ sent + limit)
      ∃ t, lowMemberTurn l .caption limit s = some
          (⟨.caption, e.id, seq, seq == 0, last, if e.toggle then 1 else 0, (e.text.drop sent).take limit⟩, t) ∧
        t = { s with captions := s.captions.set l (t.captions.get l) } ∧
        let c := t.captions.get l
        c.toggles = k.toggles ∧ (sent = 0 → c.dwellEnd = some (now + BitVec.ofNat 16 e.dwell)) ∧
        (0 < sent → (ahead → c.dwellEnd = k.dwellEnd) ∧ (¬ ahead → c.dwellEnd = none)) ∧
        (last = false →
          c.entries = entries.set i { e with state := .sending } ∧
            c.cursor = some ⟨sent + (min limit (e.text.length - sent)), seq + 1⟩ ∧ (k.cursor = none → c.mark = i + 1)) ∧
        (last = true → c.cursor = none ∧
          if e.repeats ≠ 0 ∧ e.remaining ≤ 1 then c.entries = entries.eraseIdx i
          else c.entries = entries.set i { e with
            remaining := if e.repeats = 0 then e.remaining else e.remaining - 1
            state := if c.dwellEnd.isSome then .dwelling else .waiting })

/-! ### Object Store and picture carousels (chapter 8) -/

/-- PICTURE_BEGIN on an enabled lane's port (R129 to R133). Clamps of repeats and lifetime come first. It is refused, in
this order, for a size of 0 or above 65,536 (reason 1), eight other objects of the lane (2), or too few free ordinary
blocks, an object of its id counting as gone (4): OBJECT_REFUSED, and the store stays (the rule speaks of four checks, and
these three are the model's reading: DEDUCED, log 24). Otherwise an object of its id goes, and a new one ASSEMBLING holds exactly the blocks its size needs, each ordinary and no other object's, with no byte received,
the repeats and lifetime used, timer 0, and the transfer number after the last of its id. The store's bytes, the tenancy,
the alerts and the other lanes stay. -/
def Obligations.PictureBeginAdmitsOrRefuses : Prop :=
  ∀ l c id (size : BitVec 24) (repeats : Byte) (lifetime : BitVec 16) (s : State), s.live = true →
    s.contracts.get l = some c → s.Hunting (.svc l) → s.Room 3 →
    (s.store.objects.flatMap (fun o => o.blocks)).Nodup →
    (∀ o ∈ s.store.objects, ∀ b ∈ o.blocks, (o.owner ≠ .alert ↔ b < 384)) →
    let other (o : Obj) : Bool := o.owner != .svc l || o.id != id
    let rest := s.store.objects.filter other
    let subject (kind : EventKind) (arg : Nat) : EventKind × Nat × Option LaneId × Nat :=
      (kind, s.mode.node.val, some (.svc l), arg)
    let clamps := (if 15 < repeats.toNat then [subject .recordClamped (256 * 3 + id.toNat)] else []) ++
      (if 4095 < lifetime.toNat then [subject .recordClamped (256 * 4 + id.toNat)] else [])
    let blocks := (size.toNat + 1023) / 1024
    let taken := ((rest.filter (fun o => o.owner != .alert)).map (fun o => o.blocks.length)).sum
    let refusal : Option Nat := if size.toNat = 0 ∨ 65536 < size.toNat then some 1
      else if 8 ≤ (rest.filter (fun o => o.owner == .svc l)).length then some 2
      else if 384 < taken + blocks then some 4
      else none
    ∃ t, exec (.pictureBegin l id size repeats lifetime) s = .next t ∧ OnlyLane (.svc l) s t ∧
      t.store.cells = s.store.cells ∧ t.tenancy = s.tenancy ∧ t.alerts = s.alerts ∧ t.units = s.units ∧
      match refusal with
      | some r => t.store = s.store ∧ Posted s t (clamps ++ [subject .objectRefused (256 * r + id.toNat)])
      | none => Posted s t clamps ∧
        ∃ o : Obj, t.store.objects = rest ++ [o] ∧ o.owner = .svc l ∧ o.id = id ∧ o.size = size.toNat ∧
          o.received = 0 ∧ o.state = .assembling ∧ o.repeats = min 15 repeats.toNat ∧
          o.remaining = min 15 repeats.toNat ∧
          o.expiry = (if lifetime.toNat = 0 then none else some (min 4095 lifetime.toNat)) ∧ o.expired = false ∧
          o.timer = 0 ∧ o.transfer = (s.store.transfers.get l).get id.toFin + 1 ∧
          (t.store.transfers.get l).get id.toFin = o.transfer ∧ o.blocks.length = blocks ∧ o.blocks.Nodup ∧
          ∀ b ∈ o.blocks, b < 384 ∧ ∀ x ∈ rest, b ∉ x.blocks

/-- PICTURE_CHUNK on an enabled lane's port (R134). For no object of the id, or one that is not ASSEMBLING: OBJECT_BAD with
reason 3, and the store stays. For a chunk that does not begin where the object ends, or does not fit it: OBJECT_BAD with
reason 1 or 2, and the object goes. Otherwise the bytes stand in the object's blocks at their offsets and every other byte
of the store is as it was, the object holds that many more with its timer 0, and when whole it is READY at the end of the
carousel's order; no event. -/
def Obligations.PictureChunkFillsObject : Prop :=
  ∀ l c id (offset : BitVec 24) bytes (s : State), s.live = true → s.contracts.get l = some c → 1 ≤ bytes.length →
    bytes.length ≤ 1096 → s.StoreCanonical → s.Hunting (.svc l) → s.Room 1 →
    let subject (arg : Nat) : EventKind × Nat × Option LaneId × Nat :=
      (.objectBad, s.mode.node.val, some (.svc l), arg)
    let others := s.store.objects.filter (fun o => !(o.owner == .svc l && o.id == id))
    ∃ t, exec (.pictureChunk l id offset bytes) s = .next t ∧ OnlyLane (.svc l) s t ∧
      t.tenancy = s.tenancy ∧ t.alerts = s.alerts ∧ t.units = s.units ∧ t.captions = s.captions ∧
      match s.store.objects.find? (fun o => o.owner == .svc l && o.id == id) with
      | none => t.store = s.store ∧ Posted s t [subject (256 * 3 + id.toNat)]
      | some o =>
        if o.state ≠ .assembling then t.store = s.store ∧ Posted s t [subject (256 * 3 + id.toNat)]
        else if offset.toNat ≠ o.received ∨ o.size < offset.toNat + bytes.length then
          t.store = { s.store with objects := others } ∧
            Posted s t [subject (256 * (if offset.toNat ≠ o.received then 1 else 2) + id.toNat)]
        else
          t.events = s.events ∧
          t.store.objects.find? (fun x => x.owner == .svc l && x.id == id) = some { o with
            received := o.received + bytes.length, timer := 0
            state := if o.received + bytes.length = o.size then .ready else .assembling } ∧
          (t.pictures.get l).order = (if o.received + bytes.length = o.size then (s.pictures.get l).order ++ [id]
            else (s.pictures.get l).order) ∧
          ((∀ i j, i < o.size → j < o.size → o.address i = o.address j → i = j) →
            ∀ j, j < bytes.length → readCell (o.address (o.received + j)) t.store.cells = bytes.getD j 0) ∧
          ∀ a, (∀ j, j < bytes.length → a ≠ o.address (o.received + j)) →
            readCell a t.store.cells = readCell a s.store.cells

/-- How a lane's object leaves otherwise than by its chunks, and its passes. PICTURE_DROP on an enabled lane's port removes it in any state, with no event, and an id the lane does not hold changes nothing but the port
(R136). At OBJECT_EXPIRED (log 2), in the last cycle of its lifetime, it goes with OBJECT_EXPIRED, or, while ON-AIR, stays, marked
as expired (R135). At OBJECT_TIMEOUT, the eighth cycle without a chunk and not the last of its lifetime, an ASSEMBLING one
goes with OBJECT_TIMEOUT, and so does an alert's picture in the reserve (R135, R145). An object that goes is in the carousel's order no more; the other
objects and all bytes of the store stay. The picture carousel's turn (R103, R138, R139): the ON-AIR object from the byte
after those sent, or with none ON-AIR the next one, supplies as many bytes of its stream, three size bytes and its own, as
the limit lets it, First at the stream's start alone (a sequence number that wraps to 0 does not set it, log 33's reading,
DEDUCED), Last at its end; before the Last segment it is ON-AIR with the cursor after
the bytes sent; at it the cursor goes, a send remaining is used up, and the object leaves after its last one, or with
OBJECT_EXPIRED once it has expired, and is READY otherwise. -/
def Obligations.ObjectsLeave : Prop :=
  (∀ l c id o (s : State), s.live = true → s.contracts.get l = some c → s.Room 1 →
    s.store.objects.find? (fun x => x.owner == .svc l && x.id == id) = some o → (s.pictures.get l).order.Nodup →
    let rest := s.store.objects.filter (fun x => !(x.owner == .svc l && x.id == id))
    let gone (t : State) : Prop := t.store = { s.store with objects := rest } ∧ id ∉ (t.pictures.get l).order ∧
      t.tenancy = s.tenancy ∧ t.alerts = s.alerts ∧ OnlyLane (.svc l) s t
    (s.Hunting (.svc l) → ∃ t, exec (.pictureDrop l id) s = .next t ∧ gone t ∧ t.events = s.events) ∧
    (o.expiry = some 1 → o.state ≠ .onAir →
      ∃ t, exec (.objectExpired l id) s = .next t ∧ gone t ∧
        Posted s t [(.objectExpired, s.mode.node.val, some (.svc l), id.toNat)]) ∧
    (o.expiry = some 1 → o.state = .onAir →
      ∃ t, exec (.objectExpired l id) s = .next t ∧ t.events = s.events ∧ t.pictures = s.pictures ∧
        t.store.objects.find? (fun x => x.owner == .svc l && x.id == id) =
          some { o with expiry := some 0, expired := true } ∧ OnlyLane (.svc l) s t) ∧
    (o.state = .assembling → o.timer = 7 → o.expiry ≠ some 1 →
      ∃ t, exec (.objectTimeout (.svc l) id) s = .next t ∧ gone t ∧
        Posted s t [(.objectTimeout, s.mode.node.val, some (.svc l), id.toNat)])) ∧
  (∀ l c id (s : State), s.live = true → s.contracts.get l = some c → s.Hunting (.svc l) →
    (∀ x ∈ s.store.objects, x.owner = .svc l → x.id ≠ id) → id ∉ (s.pictures.get l).order →
    exec (.pictureDrop l id) s = .next { s with ports := s.ports.set (.svc l) ⟨.hunt, []⟩ }) ∧
  (∀ id x (s : State), s.live = true → s.Room 1 →
    s.store.objects.filter (fun y => y.owner == .alert && y.id == id) = [x] → x.state = .assembling → x.timer = 7 →
    let rest := s.store.objects.filter (fun y => !(y.owner == .alert && y.id == id))
    ∃ t, exec (.objectTimeout .alert id) s = .next t ∧ t.store = { s.store with objects := rest } ∧
      Posted s t [(.objectTimeout, s.mode.node.val, some .alert, id.toNat)] ∧ OnlyLane .alert s t ∧
      t.tenancy = s.tenancy ∧ t.units = s.units) ∧
  ∀ l limit o sent seq (s : State), 1 ≤ limit → s.store.Sound → s.Room 1 →
    s.store.objects.find? (fun x => x.owner == .svc l && x.id == o.id) = some o →
    (o.state = .ready ∧ sent = 0 ∧ seq = 0 ∧ (∀ x ∈ s.store.objects, x.owner = .svc l → x.state ≠ .onAir) ∧
        (s.pictures.get l).order[if (s.pictures.get l).mark < (s.pictures.get l).order.length
          then (s.pictures.get l).mark else 0]? = some o.id) ∨
      (o.state = .onAir ∧ (s.pictures.get l).cursor = some ⟨sent, seq⟩ ∧
        ∀ x ∈ s.store.objects, x.owner = .svc l → x.state = .onAir → x = o) →
    let stream := put24 o.size ++ (List.range o.size).map (fun j => readCell (o.address j) s.store.cells)
    let last : Bool := decide (stream.length ≤ sent + limit)
    let used : Obj := { o with remaining := if o.repeats = 0 then o.remaining else o.remaining - 1 }
    let become (x : Obj) : List Obj := s.store.objects.map (fun y => if y.owner = .svc l ∧ y.id = o.id then x else y)
    let rest := s.store.objects.filter (fun x => !(x.owner == .svc l && x.id == o.id))
    ∃ t, lowMemberTurn l .picture limit s = some
        (⟨.picture, o.id, seq, sent == 0, last, o.transfer.toNat, (stream.drop sent).take limit⟩, t) ∧
      t = { s with
        store := { s.store with objects := t.store.objects }, pictures := s.pictures.set l (t.pictures.get l)
        events := t.events } ∧
      (last = false → t.store.objects = become { o with state := .onAir } ∧ t.events = s.events ∧
        (t.pictures.get l).cursor = some ⟨sent + limit, seq + 1⟩) ∧
      (last = true → (t.pictures.get l).cursor = none ∧
        if o.repeats ≠ 0 ∧ o.remaining ≤ 1 then t.store.objects = rest ∧ t.events = s.events
        else if o.expired then t.store.objects = rest ∧
          Posted s t [(.objectExpired, s.mode.node.val, some (.svc l), o.id.toNat)]
        else t.store.objects = become { used with state := .ready } ∧ t.events = s.events)

/-! ### Alerts and takeover (chapters 9 and 10) -/

/-- ALERT_RAISE on the alert port (R147, R150). The first check it fails refuses it, ALERT_REFUSED naming the reason, and
nothing but the port changes: the alert lane disabled (1), a mode other than ACTIVE and STANDBY (2), a level outside 1 to 3
(3), its id held at another level (4). Otherwise ALERT_RAISED comes first, after a clamp's RECORD_CLAMPED, and the node
holds an own alert of its id and level whose limit is the level's configured duration for 0, or the duration given brought
into 16 to 4,095. For an identity held already nothing but the limit changes; a new one is without text, picture of its own or
end and takes the place of any other of its level. Its role (R150) is HELD where the node follows, or has scheduled, an
alert of its level with another id whose lead has a lower number, that lead LOST in an orphan hold too (DEDUCED, log 54),
announced with the cycle in progress as entry, yield 0 and
no redirect cycle; else SHADOW where a lower-numbered peer announces it as LEAD, or as SHADOW with mode ACTIVE or STANDBY,
announced with the entry cycle and yield of the lowest lead announced; else LEAD. A LEAD alert that another node leads keeps
the entry cycle, yield and redirect cycle announced (R152). One that no other node leads, and that is neither followed nor
scheduled, has the entry cycle of the margin; for the highest own LEAD alert the alert lane's target becomes D at level 3
and B below (R158), and its yield is R166's figure of the need left and the yieldable total; at level 3 its redirect cycle is
the entry cycle where the alert lane, its planned claim with it, has all of D, and else the one after (R159, log 30). The service lanes, the Timebase, the mode and the peer table stay. That ALERT_RAISED comes
before what another block posts of the raise is the model's order (DEDUCED, log 6). -/
def Obligations.AlertRaiseTakenOrRefused : Prop :=
  ∀ id level duration (s : State), s.live = true → s.Hunting .alert → s.Room 2 →
    (s.alerts.own.map (fun o => o.ident.level)).Nodup →
    let heard : State := { s with ports := s.ports.set .alert ⟨.hunt, []⟩ }
    let subject (kind : EventKind) (arg : Nat) : EventKind × Nat × Option LaneId × Nat :=
      (kind, s.mode.node.val, some .alert, arg)
    let refusal : Option Nat := if s.config.alertGrade = none then some 1
      else if s.mode.mode ≠ .active ∧ s.mode.mode ≠ .standby then some 2
      else if level.toNat = 0 ∨ 3 < level.toNat then some 3
      else if ∃ o ∈ s.alerts.own, o.ident.id = id ∧ o.ident.level ≠ level.toNat then some 4
      else none
    let i : Ident := ⟨id, level.toNat⟩
    let full := if level.toNat = 1 then s.config.duration1
      else if level.toNat = 2 then s.config.duration2 else s.config.duration3
    let limit := if duration.toNat = 0 then full else max 16 (min 4095 duration.toNat)
    let clamp := if duration.toNat = 0 ∨ limit = duration.toNat then []
      else [subject .recordClamped (256 * 6 + id.toNat)]
    let outled := (∃ f, s.alerts.followed = some f ∧ f.ident.level = level.toNat ∧ f.ident.id ≠ id ∧ f.lead < s.mode.node) ∨
      ∃ x ∈ s.alerts.scheduled, x.ident.level = level.toNat ∧ x.ident.id ≠ id ∧ x.lead < s.mode.node
    let shadowed := ∃ x ∈ s.peerAnnounced, x.1 < s.mode.node ∧ x.2.ident = i ∧
      (x.2.role = .lead ∨ x.2.role = .shadow ∧
        ∃ h, (s.peers.get x.1).header = some h ∧ (h.mode = .active ∨ h.mode = .standby))
    let payload := gradePayload s.alertGrade
    let takeover := max s.config.bulletin ((10 * s.config.takeoverRate + payload - 1) / payload)
    let held (u : State) : Nat := match (u.tenancy.get .alert).change with
      | none => (u.tenancy.get .alert).cells
      | some c => match c.kind with
        | .claim => (u.tenancy.get .alert).cells + (c.runs.map (fun r => r.len)).sum
        | .release => (u.tenancy.get .alert).cells - (c.runs.map (fun r => r.len)).sum
    ∃ t, exec (.alertRaise id level duration) s = .next t ∧
      match refusal with
      | some r => t = { heard with events := t.events } ∧
          Posted s t [subject .alertRefused (256 * r + id.toNat)]
      | none =>
        PostedFirst s t (clamp ++ [subject .alertRaised (256 * level.toNat + id.toNat)]) ∧
        SameNode s t ∧ (∀ l, SameLane l s t) ∧ (∃ o ∈ t.alerts.own, o.ident = i ∧ o.limit = limit) ∧
        ((∃ o ∈ s.alerts.own, o.ident = i) →
          t = { heard with events := t.events, alerts := { s.alerts with
            own := s.alerts.own.map (fun o => if o.ident = i then { o with limit := limit } else o) } }) ∧
        ((∀ o ∈ s.alerts.own, o.ident ≠ i) →
          (∀ o ∈ t.alerts.own, o.ident.level = level.toNat → o.ident = i) ∧
          (∀ x ∈ t.store.objects, x.owner = .alert → x.ident = i → x.source ≠ .origin) ∧
          ∃ o ∈ t.alerts.own, o.ident = i ∧ o.limit = limit ∧ o.text = none ∧ o.endCycle = none ∧
            (if outled then o.role = .held ∧ t.announce o = ⟨i, .held, s.time.cycle, 0, none, none⟩
            else if shadowed then o.role = .shadow ∧ ∀ p e, s.peerEntryOf i .lead = some (p, e) →
              (t.announce o).entry = e.entry ∧ (t.announce o).yield = e.yield
            else o.role = .lead ∧
              (∀ p e, s.peerEntryOf i .lead = some (p, e) →
                o.entry = e.entry ∧ o.yield = e.yield ∧ o.redirect = e.redirect) ∧
              (s.peerEntryOf i .lead = none → s.followsOrScheduled i = false →
                o.entry = s.margin ∧
                (s.alerts.laneAlert ≠ some i → (∀ x ∈ s.alerts.own, x.role = .lead → x.ident.level ≤ level.toNat) →
                  let target := if level.toNat = 3 then takeover else s.config.bulletin
                  let need := target - held t - t.freeCount
                  (t.tenancy.get .alert).target = target ∧
                    o.yield = (if need = 0 ∨ t.yieldableTotal = 0 then 0
                      else min 100 ((100 * need + t.yieldableTotal - 1) / t.yieldableTotal)) ∧
                    o.redirect = (if level.toNat ≠ 3 then none
                      else if takeover ≤ held t then some s.margin else some (s.margin + 1))))))

/-- ALERT_TEXT and ALERT_AUDIO on the alert port (R148, R96). A text for an own alert's id replaces its text, with the
first 192 bytes and the toggle the other way round, RECORD_CLAMPED telling of a longer one; for an id no own alert has it
is refused with reason 5. Audio reaches the alert lane's FIFO for an own LEAD alert of level 3 while that lane is ON-AIR
with an audio budget, and is otherwise discarded without an event (log 21). A unit that reaches it and does not fit leaves
the FIFO as it is, and the intake is HELD with one unit dropped and INTAKE_HELD of the FIFO's fill, with no status record
(R92, R96); while HELD each counts as one more dropped, to 65,535 at most. Nothing else changes. -/
def Obligations.AlertTextAndAudio : Prop :=
  ∀ id bytes (s : State), s.live = true → 1 ≤ bytes.length → s.Hunting .alert → s.Room 1 →
    let heard : State := { s with ports := s.ports.set .alert ⟨.hunt, []⟩ }
    let u := s.units.get .alert
    let leads := ∃ o, s.ownById id = some o ∧ o.ident.level = 3 ∧ o.role = .lead
    (bytes.length ≤ 1099 → ∃ t, exec (.alertText id bytes) s = .next t ∧
      match s.ownById id with
      | none => t = { heard with events := t.events } ∧
          Posted s t [(.alertRefused, s.mode.node.val, some .alert, 256 * 5 + id.toNat)]
      | some o =>
        t = { heard with events := t.events, alerts := { s.alerts with own := s.alerts.own.map (fun x =>
          if x.ident = o.ident then { x with text := some (bytes.take 192), toggle := !x.toggle } else x) } } ∧
        Posted s t (if 192 < bytes.length then [(.recordClamped, s.mode.node.val, some .alert, 256 * 1 + id.toNat)]
          else [])) ∧
    (bytes.length ≤ 1024 →
      (leads ∧ u.state = .onAir ∧ 0 < u.split.audio → u.intake = .accepting → u.fifo.length + bytes.length ≤ 16384 →
        exec (.alertAudio id bytes) s =
        .next { heard with units := s.units.set .alert { u with fifo := u.fifo ++ bytes } }) ∧
      (leads ∧ u.state = .onAir ∧ 0 < u.split.audio → u.intake = .accepting → 16384 < u.fifo.length + bytes.length →
        ∃ t, exec (.alertAudio id bytes) s = .next t ∧
          t = { heard with events := t.events, units := s.units.set .alert { u with intake := .held, dropped := 1 } } ∧
          Posted s t [(.intakeHeld, s.mode.node.val, some .alert, u.fifo.length)]) ∧
      (leads ∧ u.state = .onAir ∧ 0 < u.split.audio → u.intake = .held → exec (.alertAudio id bytes) s =
        .next { heard with units := s.units.set .alert { u with dropped := min 65535 (u.dropped + 1) } }) ∧
      (¬ (leads ∧ u.state = .onAir ∧ 0 < u.split.audio) → exec (.alertAudio id bytes) s = .next heard))

/-- ALERT_PICTURE_BEGIN and ALERT_PICTURE_CHUNK on the alert port (R143 to R145, R148). For an id no own alert has, both
are refused with reason 5. A begin of size 0 or above 65,536 is refused with OBJECT_REFUSED, reason 1, the store staying;
any other gives the alert's identity one reserve entry, of source ORIGIN, ASSEMBLING with nothing received, of exactly the
blocks its size needs, among at most two entries, and posts nothing. Its transfer number is one above that of an entry of the
identity and of source ORIGIN that it replaces, and else 0 (R143). Of two other entries held, the one that is not of the
followed alert goes, the earlier where neither is, and the other stays; fewer stay all (R144). A picture collector whose entry
goes is idle (R144; DEDUCED, log 20). A chunk is judged as a lane's chunk is: reason 3
without an ASSEMBLING entry of source ORIGIN, so also where relay gathers the alert's picture (DEDUCED, log 56), reason 1 or 2 with the entry gone, or else received: its bytes stand in the
entry's blocks at their offsets, every other byte of the store is as it was, and the entry is READY when whole. Service
lanes, tenancies and Lane Units stay. -/
def Obligations.AlertPictureRecords : Prop :=
  ∀ id (size offset : BitVec 24) bytes (s : State), s.live = true → 1 ≤ bytes.length → bytes.length ≤ 1096 →
    s.Hunting .alert → s.Room 1 → s.StoreCanonical → s.reserveIdents.Nodup → s.reserveIdents.length ≤ 2 →
    (s.store.objects.flatMap (fun o => o.blocks)).Nodup →
    (∀ o ∈ s.store.objects, (∀ b ∈ o.blocks, b < 512 ∧ (o.owner = .alert ↔ 384 ≤ b)) ∧
      (o.owner = .alert → o.blocks.length ≤ 64)) →
    let subject (kind : EventKind) (arg : Nat) : EventKind × Nat × Option LaneId × Nat :=
      (kind, s.mode.node.val, some .alert, arg)
    let same (t : State) : Prop := SameNode s t ∧ (∀ l, SameLane l s t) ∧ t.tenancy = s.tenancy ∧ t.units = s.units
    (∃ t, exec (.alertPictureBegin id size) s = .next t ∧ same t ∧
      match s.ownById id with
      | none => t.store = s.store ∧ Posted s t [subject .alertRefused (256 * 5 + id.toNat)]
      | some a =>
        if size.toNat = 0 ∨ 65536 < size.toNat then
          t.store = s.store ∧ Posted s t [subject .objectRefused (256 * 1 + id.toNat)]
        else t.events = s.events ∧ t.store.cells = s.store.cells ∧ t.reserveIdents.length ≤ 2 ∧
          ∃ o, t.store.objects.filter (fun x => x.owner == .alert && x.ident == a.ident) = [o] ∧ o.source = .origin ∧
            o.size = size.toNat ∧ o.received = 0 ∧ o.state = .assembling ∧
            o.blocks.length = (size.toNat + 1023) / 1024 ∧
            o.transfer = (match s.store.reserve a.ident with
              | some p => if p.source = .origin then p.transfer + 1 else 0
              | none => 0) ∧
            (let others := s.store.objects.filter (fun x => x.owner == .alert && x.ident != a.ident)
             let isFollowed (x : Obj) : Prop := s.alerts.followed.map (fun f => f.ident) = some x.ident
             let stay : List Obj := match others with
               | [p, q] => if isFollowed p then [p] else [q]
               | xs => xs
             t.store.objects.filter (fun x => x.owner == .alert && x.ident != a.ident) = stay ∧
               t.alerts = { s.alerts with pictureCollector := t.alerts.pictureCollector } ∧
               ∀ c k, s.alerts.pictureCollector = some c → s.alerts.relayKey = some k →
                 t.alerts.pictureCollector =
                   if c.allocated = true ∧ (k.2 = a.ident ∨ ∃ x ∈ others, x ∉ stay ∧ x.ident = k.2) then none
                   else some c)) ∧
    (∃ t, exec (.alertPictureChunk id offset bytes) s = .next t ∧ same t ∧
      match s.ownById id with
      | none => t.store = s.store ∧ Posted s t [subject .alertRefused (256 * 5 + id.toNat)]
      | some a =>
        match s.store.reserve a.ident with
        | none => t.store = s.store ∧ Posted s t [subject .objectBad (256 * 3 + id.toNat)]
        | some o =>
          if o.state ≠ .assembling ∨ o.source ≠ .origin then
            t.store = s.store ∧ Posted s t [subject .objectBad (256 * 3 + id.toNat)]
          else if offset.toNat ≠ o.received ∨ o.size < offset.toNat + bytes.length then
            t.store.reserve a.ident = none ∧
              Posted s t [subject .objectBad (256 * (if offset.toNat ≠ o.received then 1 else 2) + id.toNat)]
          else t.events = s.events ∧
            t.store.reserve a.ident = some { o with
              received := o.received + bytes.length, timer := 0
              state := if o.received + bytes.length = o.size then .ready else .assembling } ∧
            ((∀ i j, i < o.size → j < o.size → o.address i = o.address j → i = j) →
              ∀ j, j < bytes.length → readCell (o.address (o.received + j)) t.store.cells = bytes.getD j 0) ∧
            ∀ a, (∀ j, j < bytes.length → a ≠ o.address (o.received + j)) →
              readCell a t.store.cells = readCell a s.store.cells)

/-- ALERT_END on the alert port (R148, R149, R152). Refused with reason 5 for an id no own alert has. A LEAD alert is given
the end cycle of the margin, and one that has an end cycle keeps it; a SHADOW or HELD alert is dropped, ALERT_ENDED coming
first. Service lanes, tenancies and Lane Units stay. The margin is one cycle after that of the announcing frame, the
first whose slot 3n has yet to begin, where its index is 0 to 11, and two where it is 12 to 15 (R152). -/
def Obligations.AlertEndByRole : Prop :=
  (∀ s : State, s.time.localCount < 1280000 →
    let announcing := s.time.localCount / 80000 + (if 3 * s.mode.node.val < s.trunk.slotsBegun then 1 else 0)
    s.margin = if announcing < 16 then s.time.cycle + (if announcing ≤ 11 then 1 else 2) else (s.time.cycle + 1) + 1) ∧
  ∀ id (s : State), s.live = true → s.Hunting .alert → s.Room 1 →
    ∃ t, exec (.alertEnd id) s = .next t ∧ SameNode s t ∧ (∀ l, SameLane l s t) ∧ t.tenancy = s.tenancy ∧
      t.units = s.units ∧
      match s.ownById id with
      | none => t.alerts = s.alerts ∧ t.store = s.store ∧
          Posted s t [(.alertRefused, s.mode.node.val, some .alert, 256 * 5 + id.toNat)]
      | some o =>
        if o.role = .lead then
          t.alerts.own = s.alerts.own.map (fun x => if x.ident = o.ident ∧ o.endCycle = none then
            { x with endCycle := some s.margin } else x)
        else t.alerts.own = s.alerts.own.filter (fun x => x.ident != o.ident) ∧
          PostedFirst s t
            [(.alertEnded, s.mode.node.val, some .alert, 256 * o.ident.level + o.ident.id.toNat)]

/-- ALERT_ENTRY with one entry due in the cycle in progress (log 2), above the level (R154, R168). The context is saved
on top of the stack; the alert is followed and the level its own; the entry leaves the schedule; ALERT_FOLLOWED of the
lead, with 1,024 times the timing, and then TAKEOVER_ENTER, with 256 times the level plus the depth, come before other
blocks' events, an order section 11.3 allows and the model's (DEDUCED, log 6). The context saved holds the level and the
followed alert left, not ended; of each lane the caption SENDING, or else the next one (R125), and the picture ON-AIR,
or else the next one (R141); as restore value a yieldable lane's cells, none for a kept one; and no kept rate (R172).
Every yieldable lane gives the share of the entry's yield (R167) of its cells above its floor, the highest ones (R66,
R73), with YIELD_APPLIED, in lane order, where that is some; a kept lane gives none. With cells, one ON-AIR is SQUEEZED
if it gave some and else ON-AIR, one SQUEEZED, no lower than its floor, stays so, and one RESTORING, short of its
restore, is SQUEEZED if it gave some or has its floor, and else ON-AIR, its restore target gone; one CLOSING with cells
left, one CLOSED, and one OPENING without cells stay (R169). A pending RESTORE claim is withdrawn with cause 6 (R76). A
pending ORDINARY claim stays above level 0; at the rise from 0 it is withdrawn with cause 5, and its lane, in ACTIVE and
with no backoff, deferred, CLAIM_DEFERRED naming 1,024 and the cells wanted (R71, R58): those before the shrink, the
model's choice like the order of lanes (DESIGN CHOICE, log 5). No backoff changes. A rise from 0 or 1 to 2 or 3 suspends
the low group (R108): the caption SENDING waits, the picture ON-AIR is READY, or goes with OBJECT_EXPIRED where it has
expired, each with the mark before it and the cursor gone (R124, R140), and the others stay. At any other entry
carousels and objects of a lane stay, one CLOSING apart. -/
def Obligations.AlertEntryTakesOver : Prop :=
  ∀ x (s : State), s.onTrunk = true → s.dueEntries = [x] → s.alerts.level < x.ident.level → s.Room 2 →
    ∃ t, exec .alertEntry s = .next t ∧
      t.alerts.level = x.ident.level ∧ t.alerts.followed = some ⟨x.ident, x.lead, s.time.cycle, none⟩ ∧
      (∃ saved, t.alerts.stack = saved :: s.alerts.stack ∧ saved.level = s.alerts.level ∧
        saved.followed = s.alerts.followed ∧ saved.ended = false ∧
        ∀ l, saved.kept.get l = none ∧ saved.restore.get l = (if s.yieldable l then some (s.cells (.svc l)) else none) ∧
          (let k := s.captions.get l
           saved.captions.get l = ((k.entries.find? (fun e => decide (e.state = .sending))).or
             (if k.mark < k.entries.length then k.entries[k.mark]? else k.entries.head?)).map (fun e => e.id)) ∧
          (let k := s.pictures.get l
           saved.pictures.get l =
             ((s.store.objects.find? (fun o => decide (o.owner = .svc l ∧ o.state = .onAir))).map (fun o => o.id)).or
               (if k.mark < k.order.length then k.order[k.mark]? else k.order.head?))) ∧
      (∀ e ∈ t.alerts.scheduled, e ∈ s.alerts.scheduled ∧ e.boundary ≠ s.time.cycle) ∧
      PostedFirst s t
        [(.alertFollowed, x.lead.val, none, 1024 * (match x.timing with | .onTime => 0 | .late => 1 | .outOfStep => 2)
            + (256 * x.ident.level + x.ident.id.toNat)),
         (.takeoverEnter, s.mode.node.val, none, 256 * x.ident.level + (s.alerts.stack.length + 1))] ∧
      (∀ l, s.cells (.svc l) - (if s.yieldable l then (x.yield * (s.cells (.svc l) - s.floorCells l) + 99) / 100 else 0) =
        t.cells (.svc l) ∧
        runCells (t.tenancy.get (.svc l)).runs = (runCells (s.tenancy.get (.svc l)).runs).take (t.cells (.svc l)) ∧
        (t.tenancy.get (.svc l)).backoff = (s.tenancy.get (.svc l)).backoff) ∧
      (∃ es, Posted s t es ∧
        (t.Room 1 → es.filter (fun e => e.1 == .yieldApplied) = ([.l0, .l1, .l2] : List Lane).filterMap (fun l =>
          let given := if s.yieldable l then (x.yield * (s.cells (.svc l) - s.floorCells l) + 99) / 100 else 0
          if given = 0 then none else some (.yieldApplied, s.mode.node.val, some (.svc l), given))) ∧
        (∀ l c, (s.tenancy.get (.svc l)).change = some c → c.kind = .claim →
          let before := s.tenancy.get (.svc l)
          let after := t.tenancy.get (.svc l)
          let withdrawn (cause : Nat) : Prop :=
            after.change = none ∧
              (t.Room 1 → (.claimWithdrawn, s.mode.node.val, some (.svc l), 256 * cause + s.mode.node.val) ∈ es)
          (c.rank = .restore → withdrawn 6) ∧
          (c.rank = .ordinary → s.alerts.level ≠ 0 → after.change = some c) ∧
          (c.rank = .ordinary → s.alerts.level = 0 → before.cells ≤ before.target →
            (s.units.get (.svc l)).state ≠ .restoring →
            withdrawn 5 ∧ (before.cells < before.target → before.backoff = 0 → s.mode.mode = .active →
              after.deferral = .alert ∧ (t.Room 1 →
                (.claimDeferred, s.mode.node.val, some (.svc l), 1024 + (before.target - before.cells)) ∈ es)))) ∧
        (∀ l, (s.captions.get l).Sound → s.ObjectsSound →
          let k := s.captions.get l
          let mine (u : State) : List Obj := u.store.objects.filter (fun o => o.owner == .svc l)
          if s.alerts.level ≤ 1 ∧ 2 ≤ x.ident.level then
            (k.cursor = none → t.captions.get l = k) ∧
            (∀ (n : Nat) e, k.entries[n]? = some e → e.state = .sending →
              (t.captions.get l).entries = k.entries.set n { e with state := .waiting } ∧ (t.captions.get l).mark = n ∧
                (t.captions.get l).cursor = none ∧ (t.captions.get l).dwellEnd = k.dwellEnd ∧
                (t.captions.get l).toggles = k.toggles) ∧
            ((s.pictures.get l).cursor = none → t.pictures.get l = s.pictures.get l ∧ mine t = mine s) ∧
            ∀ o ∈ s.store.objects, o.owner = .svc l → o.state = .onAir → (t.pictures.get l).cursor = none ∧
              if o.expired = true then
                mine t = (mine s).filter (fun y => y.id != o.id) ∧
                  (t.Room 1 → (.objectExpired, s.mode.node.val, some (.svc l), o.id.toNat) ∈ es)
              else mine t = (mine s).map (fun y => if y.id = o.id then { y with state := .ready } else y) ∧
                (t.pictures.get l).order = (s.pictures.get l).order ∧
                (t.pictures.get l).order[(t.pictures.get l).mark]? = some o.id
          else (s.units.get (.svc l)).state ≠ .closing →
            t.captions.get l = k ∧ t.pictures.get l = s.pictures.get l ∧ mine t = mine s)) ∧
      (∀ l, s.yieldable l = true →
        let before := s.tenancy.get (.svc l)
        let state := (s.units.get (.svc l)).state
        let after := (t.units.get (.svc l)).state
        let gave := t.cells (.svc l) < before.cells
        (state = .onAir → 0 < before.cells → after = if gave then .squeezed else .onAir) ∧
        (state = .squeezed → 0 < before.cells → s.floorCells l ≤ before.cells → after = .squeezed) ∧
        (state = .restoring → (∀ r, before.restoreTarget = some r → before.cells < min r before.target) →
          (after = if gave ∨ s.floorCells l ≤ before.cells then .squeezed else .onAir) ∧
            (t.tenancy.get (.svc l)).restoreTarget = none) ∧
        (state = .closing → 0 < t.cells (.svc l) → after = .closing) ∧
        (state = .closed → after = .closed) ∧
        (state = .opening → before.cells = 0 → after = .opening)) ∧
      SameNode s t

/-- ALERT_EXIT and ALERT_ORPHANED (log 2) of the followed alert, no other entry due or pending, and for the orphan hold
no change due at the coming boundary (R156, R164). At the end that falls due ALERT_ENDED comes first; at the fourth cycle
of an orphan hold with no node announcing the identity as LEAD, ALERT_ORPHANED of the lost lead: first of what the exit
posts, an order R178 leaves open and the model's (DEDUCED, log 5 and log 6). Either way the contexts of ended alerts on
top of the stack are popped, and the one below them is taken back: its level and followed alert are the node's, the
contexts left are those below it, no redirect stands, and TAKEOVER_EXIT tells of the level and of the number of contexts
popped. The carousels take their positions back, an entry SENDING or DWELLING waits, and the mark stands at the head for
no position (R126, R141), at a fall from 3 to 2 too (DEDUCED, log 57). At level 0 every scheduler's alert cursors are empty;
the pointers stay (R107). A kept rate of the bottom context gives the lane its target (R174, step 1). An open YIELDABLE
lane below its restore value and its target is RESTORING up to that value, and one with cells at it or above is ON-AIR,
or SQUEEZED above level 0 from its floor to below the bottom context's restore value (R174, R175). ALERT_ORPHANED of an
alert held in a saved context, at the fourth cycle of its hold, marks that context ended, with ALERT_ORPHANED of the lost
lead, and changes nothing else (R164). -/
def Obligations.AlertExitTakesContextBack : Prop :=
  (∀ c f ended top rest (s : State), s.onTrunk = true → s.time.lock ≠ .unset → s.alerts.followed = some f →
    s.alerts.stack = ended ++ top :: rest → (∀ x ∈ ended, x.ended = true) → top.ended = false →
    (∀ x ∈ top :: rest, ∀ g, x.followed = some g → g.ident ≠ f.ident) →
    s.alerts.pendingAlerts = [] → s.Room 1 →
    (c = .alertExit ∧ s.dueEntries = [] ∧ s.dueEnds = [⟨f.ident, f.lead, s.time.cycle⟩]) ∨
      (c = .alertOrphaned f.ident.id f.ident.level ∧ (∃ n, f.hold = some n ∧ 3 ≤ n) ∧ s.leadsOf f.ident = [] ∧
        (∀ x ∈ s.alerts.scheduled, x.boundary ≠ s.time.cycle + 1) ∧
        ∀ i x, (s.tenancy.get i).change = some x → x.effective ≠ s.time.cycle + 1) →
    let ending : EventKind × Nat × Option LaneId × Nat :=
      (if c = .alertExit then .alertEnded else .alertOrphaned, f.lead.val, none, 256 * f.ident.level + f.ident.id.toNat)
    ∃ t, exec c s = .next t ∧
      t.alerts.level = top.level ∧ t.alerts.followed = top.followed ∧ t.alerts.redirect = none ∧ t.alerts.stack = rest ∧
      PostedFirst s t [ending] ∧
      (s.Room 28 → ∃ before after,
        Posted s t (ending :: before ++ (.takeoverExit, s.mode.node.val, none, 256 * top.level + (ended.length + 1)) :: after)) ∧
      (∀ l, (s.captions.get l).Sound →
        (t.captions.get l).entries = (s.captions.get l).entries.map (fun e => { e with state := .waiting }) ∧
          (t.captions.get l).cursor = none ∧ (t.captions.get l).dwellEnd = none ∧
          (top.captions.get l = none → (t.captions.get l).mark = 0) ∧
          ∀ n e, (s.captions.get l).entries[n]? = some e → top.captions.get l = some e.id →
            (t.captions.get l).mark = n) ∧
      ((∀ o ∈ s.store.objects, o.expired = false) → ∀ l, (t.pictures.get l).order = (s.pictures.get l).order ∧
        (top.pictures.get l = none → (t.pictures.get l).mark = 0) ∧
        ∀ id, top.pictures.get l = some id → id ∈ (s.pictures.get l).order →
          (s.pictures.get l).order[(t.pictures.get l).mark]? = some id) ∧
      (∀ i, (t.scheds.get i).high = (s.scheds.get i).high ∧ (t.scheds.get i).low = (s.scheds.get i).low ∧
        (top.level = 0 → (t.scheds.get i).caption = none ∧ (t.scheds.get i).picture = none)) ∧
      (rest = [] → ∀ l r, top.kept.get l = some r → (t.tenancy.get (.svc l)).target =
        (10 * r + gradePayload (s.laneGrade (.svc l)) - 1) / gradePayload (s.laneGrade (.svc l))) ∧
      (∀ l v, s.yieldable l = true → top.restore.get l = some v → rest ≠ [] ∨ top.kept.get l = none →
        (s.units.get (.svc l)).state ≠ .closed → (s.units.get (.svc l)).state ≠ .closing →
        let n := s.cells (.svc l)
        let bottom := match rest.getLast? with | some b => (b.restore.get l).getD 0 | none => 0
        (n < v → n < (s.tenancy.get (.svc l)).target →
          (t.units.get (.svc l)).state = .restoring ∧ (t.tenancy.get (.svc l)).restoreTarget = some v) ∧
        (v ≤ n → 0 < n → (t.tenancy.get (.svc l)).restoreTarget = none ∧
          (t.units.get (.svc l)).state =
            if top.level ≠ 0 ∧ n < bottom ∧ s.floorCells l ≤ n then .squeezed else .onAir)) ∧
      (∀ i, (t.tenancy.get i).fragments = (s.tenancy.get i).fragments) ∧ SameNode s t) ∧
  ∀ f above b below g n (s : State), s.onTrunk = true → s.time.lock ≠ .unset → s.alerts.followed = some f →
    s.alerts.stack = above ++ b :: below → b.ended = false → b.followed = some g → g.hold = some n → 3 ≤ n →
    (f.ident ≠ g.ident ∧ ∀ x ∈ above ++ below, ∀ h, x.followed = some h → h.ident ≠ g.ident) →
    s.leadsOf g.ident = [] → s.Room 1 →
    ∃ t, exec (.alertOrphaned g.ident.id g.ident.level) s = .next t ∧
      Posted s t [(.alertOrphaned, g.lead.val, none, 256 * g.ident.level + g.ident.id.toNat)] ∧
      t = { s with events := t.events, alerts := { s.alerts with
        stack := above ++ { b with ended := true, followed := some { g with hold := some 4 } } :: below } }

/-- ALERT_EXPIRED of the own LEAD alert of a level, without an end cycle, whose next cycle on air reaches its limit, or
passes it (R149; equal or above is log 22's reading, DEDUCED): at the coming boundary it has one more cycle on air, an end
cycle by the margin of R152, two cycles after the one in progress, and ALERT_EXPIRED comes before anything else, stamped
with frame 0 of the cycle that the boundary begins (log 2). It counts cycles on air once it has one, or once its entry cycle
lies 1 to 2,047 cycles back. REDIRECT_START for a followed alert of level 3 (R159): where the redirect cycle last announced
has come, or, with the lead a peer out of step, the alert was entered at an earlier boundary (log 30, DEDUCED), the
redirect origin that every service lane's sheet carries is its lead, and nothing else changes. -/
def Obligations.AlertExpiresAndRedirects : Prop :=
  (∀ o (s : State), s.onTrunk = true → s.time.lock ≠ .unset → o ∈ s.alerts.own →
    (s.alerts.own.map (fun x => x.ident.level)).Nodup → o.role = .lead → o.endCycle = none →
    o.limit ≤ min 4095 (o.onAir + 1) →
    0 < o.onAir ∨ (1 ≤ (s.time.cycle + 1 - o.entry).toNat ∧ (s.time.cycle + 1 - o.entry).toNat ≤ 2047) → s.Room 1 →
    ∃ t, exec (.alertExpired o.ident.level) s = .next t ∧ SameNode s t ∧ (∀ l, SameLane l s t) ∧
      t.alerts.own = s.alerts.own.map (fun x => if x.ident = o.ident then
        { x with onAir := min 4095 (o.onAir + 1), endCycle := some (s.time.cycle + 2) } else x) ∧
      PostedFirst s t [(.alertExpired, s.mode.node.val, some .alert, 256 * o.ident.level + o.ident.id.toNat)] ∧
      ∃ e, t.events.queue[s.events.queue.length]? = some e ∧ e.cycle = s.time.cycle + 1 ∧ e.frame = 0) ∧
  ∀ f (s : State), s.onTrunk = true → s.alerts.redirect = none → s.alerts.followed = some f → f.ident.level = 3 →
    (let lead := s.peers.get f.lead
     if f.lead ≠ s.mode.node ∧ lead.counts = true ∧ lead.inStep = false then f.entry ≠ s.time.cycle
     else ∃ r, s.alerts.redirectCycle = some r ∧
       ((r - s.time.cycle).toNat = 0 ∨ 3 < (r - s.time.cycle).toNat)) →
    ∃ t, exec .redirectStart s = .next t ∧ t = { s with alerts := { s.alerts with redirect := some f.lead } } ∧
      ∀ l, (t.sheet (.svc l)).redirect = some f.lead

/-- RECORD_REJECTED: a record that fails a check of R86 on the alert port or an enabled lane's port posts RECORD_BAD before
anything else, with 256 times the reason plus the kind byte as read; the checks are taken in the order length, CRC-16, kind,
body length. On the alert port every service lane stays. -/
def Obligations.RejectedRecordIsBad : Prop :=
  ∀ port kind (length : BitVec 16) body crc reason (s : State), s.live = true → s.Hunting port → s.Room 1 →
    (∀ l, port = .svc l → s.contracts.get l ≠ none) →
    (length.toNat ≤ 1100 → body.length = length.toNat) →
    (if 1100 < length.toNat then some 3
      else if crc16 (kind :: put16 length.toNat ++ body) ≠ crc then some 1
      else if kindOnPort port kind.toNat = false then some 2
      else if bodyLengthAllowed kind.toNat length.toNat = false then some 4
      else none) = some reason →
    ∃ t, exec (.recordRejected port kind length body crc) s = .next t ∧ SameNode s t ∧
      PostedFirst s t [(.recordBad, s.mode.node.val, some port, 256 * reason + kind.toNat)] ∧
      (port = .alert → ∀ l, SameLane l s t)

/-! ### What every step keeps -/

/-- Every step keeps the Timebase within R5: the count in its cycle, T in 4 to 250, the miss count that the lock state
gives, and an UNSET Timebase at count and cycle 0. -/
def Obligations.StepKeepsTimebase : Prop :=
  ∀ s t : State, s.time.Sound → step s = .next t → t.time.Sound

/-- Every step keeps the Event Output within R177 to R179 and NFAULT asserted exactly in QUIET and HALTED (R181). -/
def Obligations.StepKeepsEventOutput : Prop :=
  ∀ s t : State, s.events.Sound → s.NfaultSound → step s = .next t → t.events.Sound ∧ t.NfaultSound

/-- Every step keeps the caption carousels: 16 entries at most, no two of one id, in falling order of priority, one SENDING
exactly while the send cursor stands, SENDING and DWELLING together at most one (R112 to R114, R117). -/
def Obligations.StepKeepsCaptions : Prop := ∀ s t : State, s.CaptionsSound → step s = .next t → t.CaptionsSound

/-- Every step keeps the takeover stack: the level is the followed alert's and rises strictly with every context saved
(R154). Every step keeps the alert lists: own alerts of levels 1 to 3 in rising order of level, one of a level (R35, R147),
and scheduled entries and pending alerts one of a level (R146, R151, R157). Every step keeps the Alert Controller at rest off
the trunk: in CONFIG, JOINING and QUIET it holds what it holds after pin reset and QUIET entry, and the Object Store no reserve
entry (R145, R146). -/
def Obligations.StepKeepsTakeoverStack : Prop :=
  (∀ s t : State, s.alerts.Sound → step s = .next t → t.alerts.Sound) ∧
  (∀ s t : State, s.alerts.ListsSound → step s = .next t → t.alerts.ListsSound) ∧
  ∀ s t : State, s.AlertsRest → step s = .next t → t.AlertsRest

/-- What every step keeps of the trunk. A slot is driven in ACTIVE, STANDBY and WITHDRAWING only (R13). The listen count is
32 at most (R19). Of the tenancies: each lane's fragments ascend within the 776 cells without overlap, no two lanes hold or
claim one cell, a pending claim lies outside the lane's cells and a release inside, one to four cycles ahead, and off the
trunk no lane has cells but in HALTED (R36, R55, R56, R61, R72). Left out: that a lane has at most four fragments, since a
fifth can stand in the model (log 44); that no two of them abut (R55); and that a lane's cells stay within its maximum, N for
Rmax or D for the alert lane (R56). R61 puts a change one to three cycles ahead; the fourth is room for a change planned
where ALERT_ORPHANED carries out its part of the coming boundary before the Timebase moves (log 2). And with them every
budget split is the one the lane's cells give: annex and audio budget together are the cells times the payload, and the
annex is at most a quarter of them for a service lane and R110's for the alert lane (R83, R84). -/
def Obligations.StepKeepsTrunkSilence : Prop :=
  (∀ s t : State, s.DrivesOnlyOnTrunk → s.ListenBounded → step s = .next t → t.DrivesOnlyOnTrunk ∧ t.ListenBounded) ∧
  (∀ s t : State, s.TenanciesSound → step s = .next t → t.TenanciesSound) ∧
  ∀ s t : State, s.TenanciesSound → s.SplitsSound → step s = .next t → t.SplitsSound

/-- Every step keeps each lane's FIFO at 16,384 bytes at most, with units counted as dropped exactly while its intake is
HELD (R79, R92, R93); the store's bytes in their canonical form (the model's, log 9); and the Object Store's laws (R129,
R130, R143): no block in two objects, every object in the blocks its size needs and in its part of the store, one object of
an id in a lane and one entry of an identity in the reserve, at most eight objects a lane and two entries; with them the
picture carousels' (R137): each lists once the ids of its lane's whole objects, one of them ON-AIR while the cursor
stands. -/
def Obligations.StepKeepsStores : Prop :=
  (∀ s t : State, s.FifosSound → s.StoreCanonical → step s = .next t → t.FifosSound ∧ t.StoreCanonical) ∧
  ∀ s t : State, s.ObjectsSound → step s = .next t → t.ObjectsSound

end
end

