-- ==== Sys2Proof/Laws/Caption.lean ====
section
/-! SUPPORT. Every operation of a caption carousel keeps it sound (R112 to R114, R117). -/

namespace Sys2Proof.Machine

/-! ### Lists -/

theorem map_modify_eq {α β : Type} (l : List α) (i : Nat) (f : α → α) (g : α → β) (h : ∀ x, g (f x) = g x) :
    (l.modify i f).map g = l.map g := by
  induction l generalizing i with
  | nil => cases i <;> rfl
  | cons a l ih => cases i <;> simp_all [List.modify_succ_cons]

theorem countP_modify {α : Type} (l : List α) (i : Nat) (f : α → α) (p : α → Bool) {a : α} (h : l[i]? = some a) :
    (l.modify i f).countP p + (p a).toNat = l.countP p + (p (f a)).toNat := by
  induction l generalizing i with
  | nil => simp at h
  | cons b l ih =>
    cases i with
    | zero =>
      simp only [List.getElem?_cons_zero, Option.some.injEq] at h
      subst h
      cases hb : p b <;> cases hf : p (f b) <;> simp [hb, hf]
    | succ i =>
      have := ih i (by simpa using h)
      simp only [List.modify_succ_cons, List.countP_cons]
      omega

theorem modify_of_none {α : Type} (l : List α) (i : Nat) (f : α → α) (h : l[i]? = none) : l.modify i f = l := by
  induction l generalizing i with
  | nil => cases i <;> rfl
  | cons b l ih =>
    cases i with
    | zero => simp at h
    | succ i => simp only [List.modify_succ_cons, ih i (by simpa using h)]

theorem removeAt_eq {α : Type} (l : List α) (i : Nat) : removeAt l i = l.eraseIdx i := by
  rw [removeAt, List.eraseIdx_eq_take_drop_succ]

theorem countP_eraseIdx {α : Type} (l : List α) (i : Nat) (p : α → Bool) {a : α} (h : l[i]? = some a) :
    (l.eraseIdx i).countP p + (p a).toNat = l.countP p := by
  induction l generalizing i with
  | nil => simp at h
  | cons b l ih =>
    cases i with
    | zero =>
      simp only [List.getElem?_cons_zero, Option.some.injEq] at h
      subst h
      cases hb : p b <;> simp [hb]
    | succ i =>
      have := ih i (by simpa using h)
      simp only [List.eraseIdx_cons_succ, List.countP_cons]
      omega

theorem findIdx?_getElem? {α : Type} (l : List α) (p : α → Bool) {i : Nat} (h : l.findIdx? p = some i) :
    ∃ a, l[i]? = some a ∧ p a = true := by
  obtain ⟨hi, hp, -⟩ := List.findIdx?_eq_some_iff_getElem.mp h
  exact ⟨l[i], List.getElem?_eq_getElem hi, hp⟩

theorem countP_insertIdx {α : Type} (l : List α) (i : Nat) (a : α) (p : α → Bool) (h : i ≤ l.length) :
    (l.insertIdx i a).countP p = l.countP p + (p a).toNat := by
  induction l generalizing i with
  | nil =>
    obtain rfl : i = 0 := by simpa using h
    cases ha : p a <;> simp [ha]
  | cons b l ih =>
    cases i with
    | zero => cases ha : p a <;> simp [List.countP_cons, ha]
    | succ i =>
      have := ih i (by simpa using h)
      simp only [List.insertIdx_succ_cons, List.countP_cons]
      omega

theorem insertIdx_takeWhile {α : Type} (l : List α) (p : α → Bool) (a : α) :
    l.insertIdx (l.takeWhile p).length a = l.takeWhile p ++ a :: l.dropWhile p := by
  induction l with
  | nil => rfl
  | cons b l ih => by_cases hb : p b = true <;> simp [hb, ih]

/-! ### Operations -/

namespace CaptionCarousel

variable {c : CaptionCarousel}

theorem Sound.reset : resetCaptions.Sound := by
  constructor <;> simp [resetCaptions]

/-- The entry at `i` changed in nothing a law speaks of but its state, the cursor and the rest as the new state asks. -/
theorem Sound.change (h : c.Sound) {i : Nat} {e : CaptionEntry} (he : c.entries[i]? = some e)
    (f : CaptionEntry → CaptionEntry) (hid : ∀ x, (f x).id = x.id) (hp : ∀ x, (f x).priority = x.priority)
    {mark : Nat} {follows : Option Nat} {dwellEnd : Option FramePos} {cursor : Option SendCursor} {toggles : Vector Bool 256}
    (hs : (f e).state = .sending ↔ (cursor.isSome = true))
    (hc : c.cursor.isSome = true → e.state = .sending)
    (hb : (f e).state = .waiting ∨ e.state ≠ .waiting ∨ c.entries.countP (fun x => x.state != .waiting) = 0)
    (hd : dwellEnd.isSome = true ∨
      ((f e).state ≠ .dwelling ∧ (c.dwellEnd.isSome = true → dwellEnd.isSome = true))) :
    Sound ⟨c.entries.modify i f, mark, follows, dwellEnd, cursor, toggles⟩ := by
  have hS := countP_modify c.entries i f (fun x => x.state == .sending) he
  have hB := countP_modify c.entries i f (fun x => x.state != .waiting) he
  have hD := countP_modify c.entries i f (fun x => x.state == .dwelling) he
  have h4 := h.sends
  have h5 := h.busy
  refine ⟨by simpa using h.bound, ?_, ?_, ?_, ?_, ?_⟩
  · simpa only [map_modify_eq _ _ _ _ hid] using h.ids
  · simpa only [map_modify_eq _ _ _ _ hp] using h.order
  · have hpos : e.state = .sending → c.cursor.isSome = true := fun he' => by
      have : 1 ≤ c.entries.countP (fun x => x.state == .sending) :=
        List.countP_pos_iff.mpr ⟨e, List.mem_of_getElem? he, by simp [he']⟩
      split at h4
      · assumption
      · omega
    show (c.entries.modify i f).countP _ = _
    have h1 : (e.state == .sending) = c.cursor.isSome := by
      rw [Bool.eq_iff_iff, beq_iff_eq]; exact ⟨hpos, hc⟩
    have h2 : ((f e).state == .sending) = cursor.isSome := by
      rw [Bool.eq_iff_iff, beq_iff_eq]; exact hs
    simp only [h1, h2] at hS
    rw [h4] at hS
    cases h3 : c.cursor.isSome <;> cases h4 : cursor.isSome <;>
      simp only [h3, h4, Bool.toNat_true, Bool.toNat_false, if_true, Bool.false_eq_true, if_false] at hS ⊢ <;> omega
  · show (c.entries.modify i f).countP _ ≤ 1
    rcases hb with hb | hb | hb
    · simp [hb] at hB; omega
    · have h1 : (e.state != .waiting) = true := by simpa using hb
      rw [h1] at hB
      have := Bool.toNat_le ((f e).state != .waiting)
      simp only [Bool.toNat_true] at hB
      omega
    · have := Bool.toNat_le ((f e).state != .waiting)
      omega
  · rcases hd with hd | ⟨hd, hk⟩
    · exact .inr hd
    · rcases h.dwells with h6 | h6
      · left
        show (c.entries.modify i f).countP _ = 0
        have : ((f e).state == .dwelling) = false := by simpa using hd
        rw [this] at hD
        simp only [Bool.toNat_false] at hD
        omega
      · exact .inr (hk h6)

theorem sending_some (h : c.Sound) {i : Nat} (hi : c.sending = some i) :
    ∃ e, c.entries[i]? = some e ∧ e.state = .sending ∧ c.cursor.isSome = true := by
  obtain ⟨e, he, hs⟩ := findIdx?_getElem? _ _ hi
  refine ⟨e, he, by simpa using hs, ?_⟩
  have : 1 ≤ c.entries.countP (fun x => x.state == .sending) :=
    List.countP_pos_iff.mpr ⟨e, List.mem_of_getElem? he, hs⟩
  have h4 := h.sends
  split at h4
  · assumption
  · omega

theorem sending_none (h : c.Sound) (hi : c.sending = none) : c.cursor.isSome = false := by
  have h0 : c.entries.countP (fun x => x.state == .sending) = 0 := by
    rw [List.countP_eq_zero]
    intro a ha
    have := List.findIdx?_eq_none_iff.mp hi a ha
    simpa using this
  have h4 := h.sends
  cases hc : c.cursor.isSome <;> simp_all

theorem Sound.remove (h : c.Sound) (i : Nat) : (c.remove i).Sound := by
  cases he : c.entries[i]? with
  | none =>
    have hi : c.entries.length ≤ i := by simpa using he
    have h1 : removeAt c.entries i = c.entries := by rw [removeAt_eq, List.eraseIdx_of_length_le hi]
    have h2 : c.sending ≠ some i := by
      intro hs
      obtain ⟨e, he', -⟩ := sending_some h hs
      simp [he] at he'
    simp only [CaptionCarousel.remove, h1, h2, if_false]
    exact ⟨h.bound, h.ids, h.order, h.sends, h.busy, h.dwells⟩
  | some e =>
    have hS := countP_eraseIdx c.entries i (fun x => x.state == .sending) he
    have hB := countP_eraseIdx c.entries i (fun x => x.state != .waiting) he
    have hD := countP_eraseIdx c.entries i (fun x => x.state == .dwelling) he
    have hsub := List.eraseIdx_sublist c.entries i
    have h4 := h.sends
    have h5 := h.busy
    refine ⟨?_, ?_, ?_, ?_, ?_, ?_⟩ <;> simp only [CaptionCarousel.remove, removeAt_eq]
    · exact hsub.length_le.trans h.bound
    · exact h.ids.sublist (hsub.map _)
    · exact h.order.sublist (hsub.map _)
    · by_cases hs : c.sending = some i
      · obtain ⟨e', he', hse, hc⟩ := sending_some h hs
        rw [he] at he'; cases he'
        simp_all
      · simp only [if_neg hs]
        have : e.state ≠ .sending := by
          intro hse
          have : c.sending.isSome := by
            simp only [CaptionCarousel.sending, List.findIdx?_isSome, List.any_eq_true]
            exact ⟨e, List.mem_of_getElem? he, by simp [hse]⟩
          obtain ⟨j, hj⟩ := Option.isSome_iff_exists.mp this
          obtain ⟨e', he', hse', hc⟩ := sending_some h hj
          rw [hc, if_pos rfl] at h4
          -- two places SENDING
          have hij : i ≠ j := fun hij => hs (hij ▸ hj)
          have := countP_eraseIdx c.entries i (fun x => x.state == .sending) he
          simp only [hse, beq_self_eq_true, Bool.toNat_true, h4] at this
          have h0 : (c.entries.eraseIdx i).countP (fun x => x.state == .sending) = 0 := by omega
          rw [List.countP_eq_zero] at h0
          have hmem : e' ∈ c.entries.eraseIdx i := by
            rw [List.mem_eraseIdx_iff_getElem?]
            exact ⟨j, fun h => hij h.symm, he'⟩
          exact h0 e' hmem (by simp [hse'])
        have h1 : (e.state == .sending) = false := by simpa using this
        rw [h1] at hS
        simp only [Bool.toNat_false] at hS
        omega
    · omega
    · rcases h.dwells with h6 | h6
      · left; omega
      · exact .inr h6

theorem Sound.addEntry (h : c.Sound) (id : Byte) (priority dwell repeats : Nat) (text : List Byte)
    (hid : c.find id = none) (hroom : c.entries.length < Config.captionEntries) :
    (c.addEntry id priority dwell repeats text).Sound := by
  have hle : c.placeFor priority ≤ c.entries.length := (List.takeWhile_sublist _).length_le
  have hnew : ∀ e ∈ c.entries, e.id ≠ id := by
    intro e he
    have := List.findIdx?_eq_none_iff.mp hid e he
    simpa using this
  have hplace : (c.flip id).2.placeFor priority = c.placeFor priority := rfl
  refine ⟨?_, ?_, ?_, ?_, ?_, ?_⟩ <;>
    simp only [CaptionCarousel.addEntry, CaptionCarousel.flip] <;>
    simp only [CaptionCarousel.placeFor] at hle ⊢
  · rw [List.length_insertIdx_of_le_length hle]
    omega
  · rw [insertIdx_takeWhile]
    have hperm : (List.takeWhile (fun e => decide (priority ≤ e.priority)) c.entries ++
        (⟨id, priority, text, dwell, repeats, repeats, !c.toggles.get id.toFin, .waiting⟩ : CaptionEntry) ::
        List.dropWhile (fun e => decide (priority ≤ e.priority)) c.entries).Perm
        (⟨id, priority, text, dwell, repeats, repeats, !c.toggles.get id.toFin, .waiting⟩ :: c.entries) := by
      refine (List.perm_middle).trans ?_
      rw [List.takeWhile_append_dropWhile]
    rw [(hperm.map _).nodup_iff]
    simp only [List.map_cons, List.nodup_cons, h.ids, and_true]
    intro hm
    obtain ⟨e, he, hei⟩ := List.mem_map.mp hm
    exact hnew e he hei
  · rw [insertIdx_takeWhile, List.map_append, List.map_cons]
    have ho := h.order
    rw [← List.takeWhile_append_dropWhile (p := fun e => decide (priority ≤ e.priority)) (l := c.entries),
      List.map_append, List.pairwise_append] at ho
    rw [List.pairwise_append]
    refine ⟨ho.1, ?_, ?_⟩
    · rw [List.pairwise_cons]
      refine ⟨?_, ho.2.1⟩
      intro q hq
      obtain ⟨e, he, rfl⟩ := List.mem_map.mp hq
      cases hd : List.dropWhile (fun e => decide (priority ≤ e.priority)) c.entries with
      | nil => rw [hd] at he; simp at he
      | cons x xs =>
        have hx : ¬ (priority ≤ x.priority) := by
          have := List.head_dropWhile_not (p := fun e : CaptionEntry => decide (priority ≤ e.priority)) (l := c.entries)
            (by rw [hd]; simp)
          simpa [hd] using this
        rw [hd] at he ho
        have h2 := ho.2.1
        rw [List.map_cons, List.pairwise_cons] at h2
        rcases List.mem_cons.mp he with rfl | he
        · show e.priority ≤ priority; omega
        · have := h2.1 _ (List.mem_map.mpr ⟨e, he, rfl⟩)
          show e.priority ≤ priority
          omega
    · intro a ha b hb
      rcases List.mem_cons.mp hb with rfl | hb
      · obtain ⟨e, he, rfl⟩ := List.mem_map.mp ha
        have := List.mem_takeWhile_imp he
        simpa using this
      · exact ho.2.2 a ha b hb
  · rw [countP_insertIdx _ _ _ _ hle]; exact h.sends
  · rw [countP_insertIdx _ _ _ _ hle]; exact h.busy
  · rw [countP_insertIdx _ _ _ _ hle]; exact h.dwells

theorem Sound.ofEntries (h : c.Sound) (mark : Nat) (follows : Option Nat)
    (dwellEnd : Option FramePos) (toggles : Vector Bool 256) (f : CaptionEntry → CaptionEntry)
    (hf : ∀ x, (f x).id = x.id ∧ (f x).priority = x.priority ∧ (f x).state ≠ .sending ∧
      ((f x).state ≠ .waiting → x.state ≠ .waiting) ∧ ((f x).state = .dwelling → dwellEnd.isSome = true)) :
    Sound ⟨c.entries.map f, mark, follows, dwellEnd, none, toggles⟩ := by
  refine ⟨by simpa using h.bound, ?_, ?_, ?_, ?_, ?_⟩
  · simpa [Function.comp_def, hf] using h.ids
  · simpa [Function.comp_def, hf] using h.order
  · simp [List.countP_map, Function.comp_def, hf]
  · refine le_trans ?_ h.busy
    rw [List.countP_map]
    exact List.countP_mono_left (fun x _ hx => by simpa using (hf x).2.2.2.1 (by simpa using hx))
  · by_cases hd : dwellEnd.isSome = true
    · exact .inr hd
    · left
      rw [List.countP_eq_zero]
      intro a ha
      obtain ⟨x, -, rfl⟩ := List.mem_map.mp ha
      simpa using fun h => hd ((hf x).2.2.2.2 h)

theorem Sound.testDwell (h : c.Sound) (p : FramePos) : (c.testDwell p).Sound := by
  unfold CaptionCarousel.testDwell
  split
  · exact h
  · split
    · refine ⟨by simpa using h.bound, ?_, ?_, ?_, ?_, ?_⟩
      · rw [List.map_map]
        convert h.ids using 2
        funext x; simp only [Function.comp]; split <;> rfl
      · rw [List.map_map]
        convert h.order using 2
        funext x; simp only [Function.comp]; split <;> rfl
      · rw [List.countP_map]
        refine Eq.trans ?_ h.sends
        congr 1
        funext x
        simp only [Function.comp]
        split <;> simp_all
      · refine le_trans ?_ h.busy
        rw [List.countP_map]
        refine List.countP_mono_left (fun x _ hx => ?_)
        simp only [Function.comp] at hx
        split at hx <;> simp_all
      · left
        rw [List.countP_eq_zero]
        intro a ha
        obtain ⟨x, -, rfl⟩ := List.mem_map.mp ha
        split <;> simp_all
    · exact h

theorem Sound.interrupt (h : c.Sound) : c.interrupt.Sound := by
  unfold CaptionCarousel.interrupt
  split
  · exact h
  · rename_i i hi
    obtain ⟨e, he, hs, hc⟩ := sending_some h hi
    exact h.change he (fun e => { e with state := .waiting }) (fun _ => rfl) (fun _ => rfl) (by simp) (fun _ => hs)
      (.inl rfl) (.inr ⟨by simp, id⟩)

theorem interrupt_sending (h : c.Sound) : ∀ e ∈ c.interrupt.entries, e.state ≠ .sending := by
  have h1 := h.interrupt.sends
  have hc : c.interrupt.cursor.isSome = false := by
    unfold CaptionCarousel.interrupt
    split
    · exact sending_none h (by assumption)
    · rfl
  rw [hc] at h1
  intro e he hs
  have := List.countP_eq_zero.mp h1 e he
  simp [hs] at this

theorem Sound.restore (h : c.Sound) (position : Option Byte) : (c.restore position).Sound := by
  have hcur : c.interrupt.cursor = none := by
    have h1 := h.interrupt.sends
    rw [List.countP_eq_zero.mpr (fun e he => by simpa using interrupt_sending h e he)] at h1
    cases hc : c.interrupt.cursor <;> simp_all
  have h2 := fun mark follows => h.interrupt.ofEntries mark follows none c.interrupt.toggles
    (fun x => if x.state = .sending ∨ x.state = .dwelling then { x with state := .waiting } else x)
    (fun x => by split <;> simp_all)
  have h3 : c.interrupt.entries.map (fun x => if x.state = .dwelling then { x with state := .waiting } else x) =
      c.interrupt.entries.map (fun x =>
        if x.state = .sending ∨ x.state = .dwelling then { x with state := .waiting } else x) := by
    apply List.map_congr_left
    intro x hx
    have := interrupt_sending h x hx
    simp [this]
  unfold CaptionCarousel.restore
  cases position with
  | none => simpa only [CaptionCarousel.markAt, hcur, h3] using h2 _ _
  | some id =>
    simp only
    split <;> simpa only [CaptionCarousel.markAt, hcur, h3] using h2 _ _

theorem Sound.discardAll (_ : c.Sound) : c.discardAll.Sound := by
  constructor <;> simp [CaptionCarousel.discardAll]

theorem Sound.replace (h : c.Sound) (i : Nat) (id : Byte) (dwell repeats : Nat) (text : List Byte) :
    (c.replace i id dwell repeats text).Sound := by
  have key : ∀ (t : Bool), ({ (c.update i (fun e =>
      { e with text := text, dwell := dwell, repeats := repeats, remaining := repeats, toggle := t })) with
      toggles := c.toggles.set id.toFin t }).Sound := by
    intro t
    have hst : ∀ (p : CaptionEntry → Bool), (∀ x : CaptionEntry, p { x with
        text := text, dwell := dwell, repeats := repeats, remaining := repeats, toggle := t } = p x) →
        (c.entries.modify i (fun e => { e with
          text := text, dwell := dwell, repeats := repeats, remaining := repeats, toggle := t })).countP p =
          c.entries.countP p := by
      intro p hp
      cases he : c.entries[i]? with
      | none => rw [modify_of_none _ _ _ he]
      | some e =>
        have := countP_modify c.entries i (fun e => { e with
          text := text, dwell := dwell, repeats := repeats, remaining := repeats, toggle := t }) p he
        rw [hp] at this
        omega
    refine ⟨by simpa [CaptionCarousel.update] using h.bound, ?_, ?_, ?_, ?_, ?_⟩
    · have := map_modify_eq c.entries i (fun e => { e with
        text := text, dwell := dwell, repeats := repeats, remaining := repeats, toggle := t })
        (fun e => e.id) (fun _ => rfl)
      simpa only [CaptionCarousel.update, this] using h.ids
    · have := map_modify_eq c.entries i (fun e => { e with
        text := text, dwell := dwell, repeats := repeats, remaining := repeats, toggle := t })
        (fun e => e.priority) (fun _ => rfl)
      simpa only [CaptionCarousel.update, this] using h.order
    · exact (hst (fun x => x.state == .sending) (fun _ => rfl)).trans h.sends
    · exact (hst (fun x => x.state != .waiting) (fun _ => rfl)).le.trans h.busy
    · rcases h.dwells with h6 | h6
      · exact .inl ((hst (fun x => x.state == .dwelling) (fun _ => rfl)).trans h6)
      · exact .inr h6
  have hsend : ∀ (f : CaptionEntry → CaptionEntry), (∀ x, (f x).state = x.state) → (c.update i f).sending = c.sending := by
    intro f hf
    have hm : (c.entries.modify i f).map (fun e => e.state) = c.entries.map (fun e => e.state) :=
      map_modify_eq _ _ _ _ hf
    have hg : ∀ (l : List CaptionEntry), l.findIdx? (fun e => e.state == .sending) =
        (l.map (fun e => e.state)).findIdx? (fun x => x == .sending) := by
      intro l; rw [List.findIdx?_map]; rfl
    simp only [CaptionCarousel.sending, CaptionCarousel.update, hg, hm]
  have main : ∀ (t : Bool), Sound
      { entries := c.entries.modify i (fun e =>
          { e with text := text, dwell := dwell, repeats := repeats, remaining := repeats, toggle := t })
        mark := c.mark, follows := c.follows, dwellEnd := c.dwellEnd
        cursor := if (c.update i (fun e =>
          { e with text := text, dwell := dwell, repeats := repeats, remaining := repeats, toggle := t })).sending = some i
          then some ⟨0, 0⟩ else c.cursor
        toggles := c.toggles.set id.toFin t } := by
    intro t
    have hk := key t
    refine ⟨hk.bound, hk.ids, hk.order, ?_, hk.busy, hk.dwells⟩
    refine hk.sends.trans ?_
    simp only
    rw [hsend (fun e => { e with
      text := text, dwell := dwell, repeats := repeats, remaining := repeats, toggle := t }) (fun _ => rfl)]
    by_cases hs : c.sending = some i
    · obtain ⟨-, -, -, hc⟩ := sending_some h hs
      rw [if_pos hs]
      simp only [CaptionCarousel.update, hc]
      rfl
    · rw [if_neg hs]
      rfl
  unfold CaptionCarousel.replace
  exact main _

theorem Sound.endSend (h : c.Sound) (p : FramePos) (i : Nat) (hi : c.sending = some i) : (c.endSend p i).Sound := by
  obtain ⟨e, he, hs, hc⟩ := sending_some h hi
  have hb0 : c.entries.countP (fun x => x.state != .waiting) ≤ 1 := h.busy
  -- the carousel with the sends remaining counted, the cursor still held
  have h1 : (c.update i (fun e => { e with remaining := if e.repeats = 0 then e.remaining else e.remaining - 1 })).Sound :=
    h.change he (fun e => { e with remaining := if e.repeats = 0 then e.remaining else e.remaining - 1 })
      (fun _ => rfl) (fun _ => rfl) (by simp [hs, hc]) (fun _ => hs) (.inr (.inl (by simp [hs])))
      (.inr ⟨by simp [hs], id⟩)
  have he1 : (c.update i (fun e => { e with
      remaining := if e.repeats = 0 then e.remaining else e.remaining - 1 })).entries[i]? =
      some { e with remaining := if e.repeats = 0 then e.remaining else e.remaining - 1 } := by
    simp [CaptionCarousel.update, he]
  have hs1 : (c.update i (fun e => { e with
      remaining := if e.repeats = 0 then e.remaining else e.remaining - 1 })).sending = some i := by
    have hm : ((c.entries.modify i (fun e => { e with
        remaining := if e.repeats = 0 then e.remaining else e.remaining - 1 })).map (fun e => e.state)) =
        c.entries.map (fun e => e.state) := map_modify_eq _ _ _ _ (fun _ => rfl)
    have hg : ∀ (l : List CaptionEntry), l.findIdx? (fun e => e.state == .sending) =
        (l.map (fun e => e.state)).findIdx? (fun x => x == .sending) := by
      intro l; rw [List.findIdx?_map]; rfl
    rw [← hi]
    simp only [CaptionCarousel.sending, CaptionCarousel.update, hg, hm]
  unfold CaptionCarousel.endSend
  simp only [CaptionCarousel.update] at he1 h1 hs1 ⊢
  rw [he1]
  dsimp only
  by_cases hq : e.repeats ≠ 0 ∧ (if e.repeats = 0 then e.remaining else e.remaining - 1) = 0
  · rw [if_pos hq]
    have h2 := h1.remove i
    convert h2 using 1
    simp only [CaptionCarousel.remove, hs1, if_true, ite_self]
  · rw [if_neg hq]
    have hlast : ∀ (x : CaptionState), x ≠ .sending → (x = .waiting ∨ c.dwellEnd.isSome = true) →
        Sound ⟨(c.entries.modify i (fun e =>
            { e with remaining := if e.repeats = 0 then e.remaining else e.remaining - 1 })).modify i
              (fun e => { e with state := x }), c.mark, c.follows, c.dwellEnd, none, c.toggles⟩ := by
      intro x hx hw
      refine h1.change he1 (fun e => { e with state := x }) (fun _ => rfl) (fun _ => rfl) (by simpa using hx)
        (fun _ => hs) (.inr (.inl (by simp [hs]))) ?_
      rcases hw with rfl | hw
      · exact .inr ⟨by simp, id⟩
      · exact .inl hw
    cases hd : c.dwellEnd with
    | none => rw [hd] at hlast; exact hlast .waiting (by simp) (.inl rfl)
    | some d =>
      rw [hd] at hlast
      cases hr : dwellReached p d with
      | false => simpa [hr] using hlast .dwelling (by simp) (.inr rfl)
      | true => simpa [hr] using hlast .waiting (by simp) (.inl rfl)

theorem Sound.beginSend (h : c.Sound) (p : FramePos) (hr : c.sending.isSome = true ∨ c.dwellEnd = none) :
    (c.beginSend p).Sound := by
  unfold CaptionCarousel.beginSend
  split
  · rename_i i hn hi
    have hdw : c.dwellEnd = none := by simpa [hn] using hr
    cases he : c.entries[i]? with
    | none =>
      exfalso
      unfold CaptionCarousel.next at hi
      split at hi
      · simp at hi
      · rename_i hne
        have hlen : 0 < c.entries.length := List.length_pos_iff.mpr (by simpa using hne)
        simp only [Option.some.injEq] at hi
        have : c.entries.length ≤ i := by simpa using he
        split at hi <;> omega
    | some e =>
      have hcur := sending_none h hn
      have hns : c.entries.countP (fun x => x.state == .sending) = 0 := by simpa [hcur] using h.sends
      have hnd : c.entries.countP (fun x => x.state == .dwelling) = 0 := by simpa [hdw] using h.dwells
      have hz : c.entries.countP (fun x => x.state != .waiting) = 0 := by
        rw [List.countP_eq_zero] at *
        intro a ha
        have := hns a ha
        have := hnd a ha
        cases hst : a.state <;> simp_all
      exact h.change he (fun e => { e with state := .sending }) (fun _ => rfl) (fun _ => rfl) (by simp)
        (by simp [hcur]) (.inr (.inr hz)) (.inl rfl)
  · exact h

theorem Sound.supply (h : c.Sound) (p : FramePos) (limit : Nat) (hr : c.sending.isSome = true ∨ c.dwellEnd = none)
    {g : Segment} {d : CaptionCarousel} (hs : c.supply p limit = some (g, d)) : d.Sound := by
  have hb := h.beginSend p hr
  unfold CaptionCarousel.supply at hs
  simp only at hs
  generalize c.beginSend p = b at hb hs
  split at hs
  · rename_i i k hi hk
    split at hs
    · simp at hs
    · rename_i e he
      simp only [Option.some.injEq, Prod.mk.injEq] at hs
      obtain ⟨-, rfl⟩ := hs
      have h1 : ∀ (x : Option FramePos), (b.dwellEnd.isSome = true → x.isSome = true) →
          ({ b with dwellEnd := x, cursor := some ⟨k.sent + min limit (e.text.length - k.sent), k.seq + 1⟩ }).Sound := by
        intro x hx
        exact ⟨hb.bound, hb.ids, hb.order, by simpa [hk] using hb.sends, hb.busy, hb.dwells.imp id hx⟩
      split
      · split
        · exact (h1 (some _) (fun _ => rfl)).endSend p i hi
        · exact (h1 b.dwellEnd id).endSend p i hi
      · split
        · exact h1 (some _) (fun _ => rfl)
        · exact h1 b.dwellEnd id
  · simp at hs

end CaptionCarousel

end Sys2Proof.Machine
end

