-- ==== Sys2Proof/Laws/State.lean ====
section
/-! SUPPORT. One lemma per field per update of State, each true by unfolding, so that no proof unfolds a record update;
what the per-lane containers read after a write; the level of EVO and of a return line; and the end of
a return line's record. -/

namespace Sys2Proof

variable {α : Type}

@[simp] theorem Trio.get_set_self (t : Trio α) (l : Lane) (a : α) : (t.set l a).get l = a := by cases l <;> rfl
@[simp] theorem Trio.get_set_of_ne (t : Trio α) (l k : Lane) (a : α) (h : k ≠ l) : (t.set l a).get k = t.get k := by
  cases l <;> cases k <;> first | rfl | exact absurd rfl h
@[simp] theorem Quad.get_set_self (q : Quad α) (i : LaneId) (a : α) : (q.set i a).get i = a := by
  rcases i with (_ | _ | _) | _ <;> rfl
@[simp] theorem Quad.get_set_of_ne (q : Quad α) (i k : LaneId) (a : α) (h : k ≠ i) :
    (q.set i a).get k = q.get k := by
  rcases i with (_ | _ | _) | _ <;> rcases k with (_ | _ | _) | _ <;> first | rfl | exact absurd rfl h
@[simp] theorem Trio.set_get (t : Trio α) (l : Lane) : t.set l (t.get l) = t := by cases l <;> rfl
@[simp] theorem Quad.set_get (q : Quad α) (i : LaneId) : q.set i (q.get i) = q := by
  rcases i with (_ | _ | _) | _ <;> rfl
@[simp] theorem Trio.set_set (t : Trio α) (l : Lane) (a b : α) : (t.set l a).set l b = t.set l b := by
  cases l <;> rfl
@[simp] theorem Quad.set_set (q : Quad α) (i : LaneId) (a b : α) : (q.set i a).set i b = q.set i b := by
  rcases i with (_ | _ | _) | _ <;> rfl
@[simp] theorem Trio.get_const (l : Lane) (a : α) : (Trio.const a).get l = a := by cases l <;> rfl
@[simp] theorem Quad.get_const (i : LaneId) (a : α) : (Quad.const a).get i = a := by
  rcases i with (_ | _ | _) | _ <;> rfl
theorem Trio.ext_get {t u : Trio α} (h : ∀ l, t.get l = u.get l) : t = u := by
  have h0 := h .l0; have h1 := h .l1; have h2 := h .l2
  cases t; cases u; simp_all [Trio.get]
theorem Quad.ext_get {t u : Quad α} (h : ∀ i, t.get i = u.get i) : t = u := by
  have h0 := h (.svc .l0); have h1 := h (.svc .l1); have h2 := h (.svc .l2); have h3 := h .alert
  cases t; cases u; simp_all [Quad.get]

namespace Machine


@[simp] theorem State.setPins_inReset (s : State) (a b : Bool) : (s.setPins a b).inReset = a := rfl
@[simp] theorem State.setPins_loading (s : State) (a b : Bool) : (s.setPins a b).loading = b := rfl
@[simp] theorem State.setPins_config (s : State) (a b : Bool) : (s.setPins a b).config = s.config := rfl
@[simp] theorem State.setPins_contracts (s : State) (a b : Bool) : (s.setPins a b).contracts = s.contracts := rfl
@[simp] theorem State.setPins_time (s : State) (a b : Bool) : (s.setPins a b).time = s.time := rfl
@[simp] theorem State.setPins_trunk (s : State) (a b : Bool) : (s.setPins a b).trunk = s.trunk := rfl
@[simp] theorem State.setPins_mode (s : State) (a b : Bool) : (s.setPins a b).mode = s.mode := rfl
@[simp] theorem State.setPins_peers (s : State) (a b : Bool) : (s.setPins a b).peers = s.peers := rfl
@[simp] theorem State.setPins_tenancy (s : State) (a b : Bool) : (s.setPins a b).tenancy = s.tenancy := rfl
@[simp] theorem State.setPins_units (s : State) (a b : Bool) : (s.setPins a b).units = s.units := rfl
@[simp] theorem State.setPins_ports (s : State) (a b : Bool) : (s.setPins a b).ports = s.ports := rfl
@[simp] theorem State.setPins_returnLines (s : State) (a b : Bool) : (s.setPins a b).returnLines = s.returnLines := rfl
@[simp] theorem State.setPins_scheds (s : State) (a b : Bool) : (s.setPins a b).scheds = s.scheds := rfl
@[simp] theorem State.setPins_captions (s : State) (a b : Bool) : (s.setPins a b).captions = s.captions := rfl
@[simp] theorem State.setPins_pictures (s : State) (a b : Bool) : (s.setPins a b).pictures = s.pictures := rfl
@[simp] theorem State.setPins_store (s : State) (a b : Bool) : (s.setPins a b).store = s.store := rfl
@[simp] theorem State.setPins_alerts (s : State) (a b : Bool) : (s.setPins a b).alerts = s.alerts := rfl
@[simp] theorem State.setPins_events (s : State) (a b : Bool) : (s.setPins a b).events = s.events := rfl
@[simp] theorem State.setPins_pending (s : State) (a b : Bool) : (s.setPins a b).pending = s.pending := rfl

@[simp] theorem State.setConfig_inReset (s : State) (a : NodeConfig) : (s.setConfig a).inReset = s.inReset := rfl
@[simp] theorem State.setConfig_loading (s : State) (a : NodeConfig) : (s.setConfig a).loading = s.loading := rfl
@[simp] theorem State.setConfig_config (s : State) (a : NodeConfig) : (s.setConfig a).config = a := rfl
@[simp] theorem State.setConfig_contracts (s : State) (a : NodeConfig) : (s.setConfig a).contracts = s.contracts := rfl
@[simp] theorem State.setConfig_time (s : State) (a : NodeConfig) : (s.setConfig a).time = s.time := rfl
@[simp] theorem State.setConfig_trunk (s : State) (a : NodeConfig) : (s.setConfig a).trunk = s.trunk := rfl
@[simp] theorem State.setConfig_mode (s : State) (a : NodeConfig) : (s.setConfig a).mode = s.mode := rfl
@[simp] theorem State.setConfig_peers (s : State) (a : NodeConfig) : (s.setConfig a).peers = s.peers := rfl
@[simp] theorem State.setConfig_tenancy (s : State) (a : NodeConfig) : (s.setConfig a).tenancy = s.tenancy := rfl
@[simp] theorem State.setConfig_units (s : State) (a : NodeConfig) : (s.setConfig a).units = s.units := rfl
@[simp] theorem State.setConfig_ports (s : State) (a : NodeConfig) : (s.setConfig a).ports = s.ports := rfl
@[simp] theorem State.setConfig_returnLines (s : State) (a : NodeConfig) : (s.setConfig a).returnLines = s.returnLines := rfl
@[simp] theorem State.setConfig_scheds (s : State) (a : NodeConfig) : (s.setConfig a).scheds = s.scheds := rfl
@[simp] theorem State.setConfig_captions (s : State) (a : NodeConfig) : (s.setConfig a).captions = s.captions := rfl
@[simp] theorem State.setConfig_pictures (s : State) (a : NodeConfig) : (s.setConfig a).pictures = s.pictures := rfl
@[simp] theorem State.setConfig_store (s : State) (a : NodeConfig) : (s.setConfig a).store = s.store := rfl
@[simp] theorem State.setConfig_alerts (s : State) (a : NodeConfig) : (s.setConfig a).alerts = s.alerts := rfl
@[simp] theorem State.setConfig_events (s : State) (a : NodeConfig) : (s.setConfig a).events = s.events := rfl
@[simp] theorem State.setConfig_pending (s : State) (a : NodeConfig) : (s.setConfig a).pending = s.pending := rfl

@[simp] theorem State.setContract_inReset (s : State) (l : Lane) (a : Option Contract) : (s.setContract l a).inReset = s.inReset := rfl
@[simp] theorem State.setContract_loading (s : State) (l : Lane) (a : Option Contract) : (s.setContract l a).loading = s.loading := rfl
@[simp] theorem State.setContract_config (s : State) (l : Lane) (a : Option Contract) : (s.setContract l a).config = s.config := rfl
@[simp] theorem State.setContract_contracts (s : State) (l : Lane) (a : Option Contract) : (s.setContract l a).contracts = s.contracts.set l a := rfl
@[simp] theorem State.setContract_time (s : State) (l : Lane) (a : Option Contract) : (s.setContract l a).time = s.time := rfl
@[simp] theorem State.setContract_trunk (s : State) (l : Lane) (a : Option Contract) : (s.setContract l a).trunk = s.trunk := rfl
@[simp] theorem State.setContract_mode (s : State) (l : Lane) (a : Option Contract) : (s.setContract l a).mode = s.mode := rfl
@[simp] theorem State.setContract_peers (s : State) (l : Lane) (a : Option Contract) : (s.setContract l a).peers = s.peers := rfl
@[simp] theorem State.setContract_tenancy (s : State) (l : Lane) (a : Option Contract) : (s.setContract l a).tenancy = s.tenancy := rfl
@[simp] theorem State.setContract_units (s : State) (l : Lane) (a : Option Contract) : (s.setContract l a).units = s.units := rfl
@[simp] theorem State.setContract_ports (s : State) (l : Lane) (a : Option Contract) : (s.setContract l a).ports = s.ports := rfl
@[simp] theorem State.setContract_returnLines (s : State) (l : Lane) (a : Option Contract) : (s.setContract l a).returnLines = s.returnLines := rfl
@[simp] theorem State.setContract_scheds (s : State) (l : Lane) (a : Option Contract) : (s.setContract l a).scheds = s.scheds := rfl
@[simp] theorem State.setContract_captions (s : State) (l : Lane) (a : Option Contract) : (s.setContract l a).captions = s.captions := rfl
@[simp] theorem State.setContract_pictures (s : State) (l : Lane) (a : Option Contract) : (s.setContract l a).pictures = s.pictures := rfl
@[simp] theorem State.setContract_store (s : State) (l : Lane) (a : Option Contract) : (s.setContract l a).store = s.store := rfl
@[simp] theorem State.setContract_alerts (s : State) (l : Lane) (a : Option Contract) : (s.setContract l a).alerts = s.alerts := rfl
@[simp] theorem State.setContract_events (s : State) (l : Lane) (a : Option Contract) : (s.setContract l a).events = s.events := rfl
@[simp] theorem State.setContract_pending (s : State) (l : Lane) (a : Option Contract) : (s.setContract l a).pending = s.pending := rfl

@[simp] theorem State.setTime_inReset (s : State) (a : Timebase) : (s.setTime a).inReset = s.inReset := rfl
@[simp] theorem State.setTime_loading (s : State) (a : Timebase) : (s.setTime a).loading = s.loading := rfl
@[simp] theorem State.setTime_config (s : State) (a : Timebase) : (s.setTime a).config = s.config := rfl
@[simp] theorem State.setTime_contracts (s : State) (a : Timebase) : (s.setTime a).contracts = s.contracts := rfl
@[simp] theorem State.setTime_time (s : State) (a : Timebase) : (s.setTime a).time = a := rfl
@[simp] theorem State.setTime_trunk (s : State) (a : Timebase) : (s.setTime a).trunk = s.trunk := rfl
@[simp] theorem State.setTime_mode (s : State) (a : Timebase) : (s.setTime a).mode = s.mode := rfl
@[simp] theorem State.setTime_peers (s : State) (a : Timebase) : (s.setTime a).peers = s.peers := rfl
@[simp] theorem State.setTime_tenancy (s : State) (a : Timebase) : (s.setTime a).tenancy = s.tenancy := rfl
@[simp] theorem State.setTime_units (s : State) (a : Timebase) : (s.setTime a).units = s.units := rfl
@[simp] theorem State.setTime_ports (s : State) (a : Timebase) : (s.setTime a).ports = s.ports := rfl
@[simp] theorem State.setTime_returnLines (s : State) (a : Timebase) : (s.setTime a).returnLines = s.returnLines := rfl
@[simp] theorem State.setTime_scheds (s : State) (a : Timebase) : (s.setTime a).scheds = s.scheds := rfl
@[simp] theorem State.setTime_captions (s : State) (a : Timebase) : (s.setTime a).captions = s.captions := rfl
@[simp] theorem State.setTime_pictures (s : State) (a : Timebase) : (s.setTime a).pictures = s.pictures := rfl
@[simp] theorem State.setTime_store (s : State) (a : Timebase) : (s.setTime a).store = s.store := rfl
@[simp] theorem State.setTime_alerts (s : State) (a : Timebase) : (s.setTime a).alerts = s.alerts := rfl
@[simp] theorem State.setTime_events (s : State) (a : Timebase) : (s.setTime a).events = s.events := rfl
@[simp] theorem State.setTime_pending (s : State) (a : Timebase) : (s.setTime a).pending = s.pending := rfl

@[simp] theorem State.setTrunk_inReset (s : State) (a : Trunk) : (s.setTrunk a).inReset = s.inReset := rfl
@[simp] theorem State.setTrunk_loading (s : State) (a : Trunk) : (s.setTrunk a).loading = s.loading := rfl
@[simp] theorem State.setTrunk_config (s : State) (a : Trunk) : (s.setTrunk a).config = s.config := rfl
@[simp] theorem State.setTrunk_contracts (s : State) (a : Trunk) : (s.setTrunk a).contracts = s.contracts := rfl
@[simp] theorem State.setTrunk_time (s : State) (a : Trunk) : (s.setTrunk a).time = s.time := rfl
@[simp] theorem State.setTrunk_trunk (s : State) (a : Trunk) : (s.setTrunk a).trunk = a := rfl
@[simp] theorem State.setTrunk_mode (s : State) (a : Trunk) : (s.setTrunk a).mode = s.mode := rfl
@[simp] theorem State.setTrunk_peers (s : State) (a : Trunk) : (s.setTrunk a).peers = s.peers := rfl
@[simp] theorem State.setTrunk_tenancy (s : State) (a : Trunk) : (s.setTrunk a).tenancy = s.tenancy := rfl
@[simp] theorem State.setTrunk_units (s : State) (a : Trunk) : (s.setTrunk a).units = s.units := rfl
@[simp] theorem State.setTrunk_ports (s : State) (a : Trunk) : (s.setTrunk a).ports = s.ports := rfl
@[simp] theorem State.setTrunk_returnLines (s : State) (a : Trunk) : (s.setTrunk a).returnLines = s.returnLines := rfl
@[simp] theorem State.setTrunk_scheds (s : State) (a : Trunk) : (s.setTrunk a).scheds = s.scheds := rfl
@[simp] theorem State.setTrunk_captions (s : State) (a : Trunk) : (s.setTrunk a).captions = s.captions := rfl
@[simp] theorem State.setTrunk_pictures (s : State) (a : Trunk) : (s.setTrunk a).pictures = s.pictures := rfl
@[simp] theorem State.setTrunk_store (s : State) (a : Trunk) : (s.setTrunk a).store = s.store := rfl
@[simp] theorem State.setTrunk_alerts (s : State) (a : Trunk) : (s.setTrunk a).alerts = s.alerts := rfl
@[simp] theorem State.setTrunk_events (s : State) (a : Trunk) : (s.setTrunk a).events = s.events := rfl
@[simp] theorem State.setTrunk_pending (s : State) (a : Trunk) : (s.setTrunk a).pending = s.pending := rfl

@[simp] theorem State.setModeCtl_inReset (s : State) (a : ModeCtl) : (s.setModeCtl a).inReset = s.inReset := rfl
@[simp] theorem State.setModeCtl_loading (s : State) (a : ModeCtl) : (s.setModeCtl a).loading = s.loading := rfl
@[simp] theorem State.setModeCtl_config (s : State) (a : ModeCtl) : (s.setModeCtl a).config = s.config := rfl
@[simp] theorem State.setModeCtl_contracts (s : State) (a : ModeCtl) : (s.setModeCtl a).contracts = s.contracts := rfl
@[simp] theorem State.setModeCtl_time (s : State) (a : ModeCtl) : (s.setModeCtl a).time = s.time := rfl
@[simp] theorem State.setModeCtl_trunk (s : State) (a : ModeCtl) : (s.setModeCtl a).trunk = s.trunk := rfl
@[simp] theorem State.setModeCtl_mode (s : State) (a : ModeCtl) : (s.setModeCtl a).mode = a := rfl
@[simp] theorem State.setModeCtl_peers (s : State) (a : ModeCtl) : (s.setModeCtl a).peers = s.peers := rfl
@[simp] theorem State.setModeCtl_tenancy (s : State) (a : ModeCtl) : (s.setModeCtl a).tenancy = s.tenancy := rfl
@[simp] theorem State.setModeCtl_units (s : State) (a : ModeCtl) : (s.setModeCtl a).units = s.units := rfl
@[simp] theorem State.setModeCtl_ports (s : State) (a : ModeCtl) : (s.setModeCtl a).ports = s.ports := rfl
@[simp] theorem State.setModeCtl_returnLines (s : State) (a : ModeCtl) : (s.setModeCtl a).returnLines = s.returnLines := rfl
@[simp] theorem State.setModeCtl_scheds (s : State) (a : ModeCtl) : (s.setModeCtl a).scheds = s.scheds := rfl
@[simp] theorem State.setModeCtl_captions (s : State) (a : ModeCtl) : (s.setModeCtl a).captions = s.captions := rfl
@[simp] theorem State.setModeCtl_pictures (s : State) (a : ModeCtl) : (s.setModeCtl a).pictures = s.pictures := rfl
@[simp] theorem State.setModeCtl_store (s : State) (a : ModeCtl) : (s.setModeCtl a).store = s.store := rfl
@[simp] theorem State.setModeCtl_alerts (s : State) (a : ModeCtl) : (s.setModeCtl a).alerts = s.alerts := rfl
@[simp] theorem State.setModeCtl_events (s : State) (a : ModeCtl) : (s.setModeCtl a).events = s.events := rfl
@[simp] theorem State.setModeCtl_pending (s : State) (a : ModeCtl) : (s.setModeCtl a).pending = s.pending := rfl

@[simp] theorem State.setPeer_inReset (s : State) (m : Node) (a : PeerEntry) : (s.setPeer m a).inReset = s.inReset := rfl
@[simp] theorem State.setPeer_loading (s : State) (m : Node) (a : PeerEntry) : (s.setPeer m a).loading = s.loading := rfl
@[simp] theorem State.setPeer_config (s : State) (m : Node) (a : PeerEntry) : (s.setPeer m a).config = s.config := rfl
@[simp] theorem State.setPeer_contracts (s : State) (m : Node) (a : PeerEntry) : (s.setPeer m a).contracts = s.contracts := rfl
@[simp] theorem State.setPeer_time (s : State) (m : Node) (a : PeerEntry) : (s.setPeer m a).time = s.time := rfl
@[simp] theorem State.setPeer_trunk (s : State) (m : Node) (a : PeerEntry) : (s.setPeer m a).trunk = s.trunk := rfl
@[simp] theorem State.setPeer_mode (s : State) (m : Node) (a : PeerEntry) : (s.setPeer m a).mode = s.mode := rfl
@[simp] theorem State.setPeer_peers (s : State) (m : Node) (a : PeerEntry) : (s.setPeer m a).peers = s.peers.set m a := rfl
@[simp] theorem State.setPeer_tenancy (s : State) (m : Node) (a : PeerEntry) : (s.setPeer m a).tenancy = s.tenancy := rfl
@[simp] theorem State.setPeer_units (s : State) (m : Node) (a : PeerEntry) : (s.setPeer m a).units = s.units := rfl
@[simp] theorem State.setPeer_ports (s : State) (m : Node) (a : PeerEntry) : (s.setPeer m a).ports = s.ports := rfl
@[simp] theorem State.setPeer_returnLines (s : State) (m : Node) (a : PeerEntry) : (s.setPeer m a).returnLines = s.returnLines := rfl
@[simp] theorem State.setPeer_scheds (s : State) (m : Node) (a : PeerEntry) : (s.setPeer m a).scheds = s.scheds := rfl
@[simp] theorem State.setPeer_captions (s : State) (m : Node) (a : PeerEntry) : (s.setPeer m a).captions = s.captions := rfl
@[simp] theorem State.setPeer_pictures (s : State) (m : Node) (a : PeerEntry) : (s.setPeer m a).pictures = s.pictures := rfl
@[simp] theorem State.setPeer_store (s : State) (m : Node) (a : PeerEntry) : (s.setPeer m a).store = s.store := rfl
@[simp] theorem State.setPeer_alerts (s : State) (m : Node) (a : PeerEntry) : (s.setPeer m a).alerts = s.alerts := rfl
@[simp] theorem State.setPeer_events (s : State) (m : Node) (a : PeerEntry) : (s.setPeer m a).events = s.events := rfl
@[simp] theorem State.setPeer_pending (s : State) (m : Node) (a : PeerEntry) : (s.setPeer m a).pending = s.pending := rfl

@[simp] theorem State.setTenancy_inReset (s : State) (i : LaneId) (a : Tenancy) : (s.setTenancy i a).inReset = s.inReset := rfl
@[simp] theorem State.setTenancy_loading (s : State) (i : LaneId) (a : Tenancy) : (s.setTenancy i a).loading = s.loading := rfl
@[simp] theorem State.setTenancy_config (s : State) (i : LaneId) (a : Tenancy) : (s.setTenancy i a).config = s.config := rfl
@[simp] theorem State.setTenancy_contracts (s : State) (i : LaneId) (a : Tenancy) : (s.setTenancy i a).contracts = s.contracts := rfl
@[simp] theorem State.setTenancy_time (s : State) (i : LaneId) (a : Tenancy) : (s.setTenancy i a).time = s.time := rfl
@[simp] theorem State.setTenancy_trunk (s : State) (i : LaneId) (a : Tenancy) : (s.setTenancy i a).trunk = s.trunk := rfl
@[simp] theorem State.setTenancy_mode (s : State) (i : LaneId) (a : Tenancy) : (s.setTenancy i a).mode = s.mode := rfl
@[simp] theorem State.setTenancy_peers (s : State) (i : LaneId) (a : Tenancy) : (s.setTenancy i a).peers = s.peers := rfl
@[simp] theorem State.setTenancy_tenancy (s : State) (i : LaneId) (a : Tenancy) : (s.setTenancy i a).tenancy = s.tenancy.set i a := rfl
@[simp] theorem State.setTenancy_units (s : State) (i : LaneId) (a : Tenancy) : (s.setTenancy i a).units = s.units := rfl
@[simp] theorem State.setTenancy_ports (s : State) (i : LaneId) (a : Tenancy) : (s.setTenancy i a).ports = s.ports := rfl
@[simp] theorem State.setTenancy_returnLines (s : State) (i : LaneId) (a : Tenancy) : (s.setTenancy i a).returnLines = s.returnLines := rfl
@[simp] theorem State.setTenancy_scheds (s : State) (i : LaneId) (a : Tenancy) : (s.setTenancy i a).scheds = s.scheds := rfl
@[simp] theorem State.setTenancy_captions (s : State) (i : LaneId) (a : Tenancy) : (s.setTenancy i a).captions = s.captions := rfl
@[simp] theorem State.setTenancy_pictures (s : State) (i : LaneId) (a : Tenancy) : (s.setTenancy i a).pictures = s.pictures := rfl
@[simp] theorem State.setTenancy_store (s : State) (i : LaneId) (a : Tenancy) : (s.setTenancy i a).store = s.store := rfl
@[simp] theorem State.setTenancy_alerts (s : State) (i : LaneId) (a : Tenancy) : (s.setTenancy i a).alerts = s.alerts := rfl
@[simp] theorem State.setTenancy_events (s : State) (i : LaneId) (a : Tenancy) : (s.setTenancy i a).events = s.events := rfl
@[simp] theorem State.setTenancy_pending (s : State) (i : LaneId) (a : Tenancy) : (s.setTenancy i a).pending = s.pending := rfl

@[simp] theorem State.setUnit_inReset (s : State) (i : LaneId) (a : LaneUnit) : (s.setUnit i a).inReset = s.inReset := rfl
@[simp] theorem State.setUnit_loading (s : State) (i : LaneId) (a : LaneUnit) : (s.setUnit i a).loading = s.loading := rfl
@[simp] theorem State.setUnit_config (s : State) (i : LaneId) (a : LaneUnit) : (s.setUnit i a).config = s.config := rfl
@[simp] theorem State.setUnit_contracts (s : State) (i : LaneId) (a : LaneUnit) : (s.setUnit i a).contracts = s.contracts := rfl
@[simp] theorem State.setUnit_time (s : State) (i : LaneId) (a : LaneUnit) : (s.setUnit i a).time = s.time := rfl
@[simp] theorem State.setUnit_trunk (s : State) (i : LaneId) (a : LaneUnit) : (s.setUnit i a).trunk = s.trunk := rfl
@[simp] theorem State.setUnit_mode (s : State) (i : LaneId) (a : LaneUnit) : (s.setUnit i a).mode = s.mode := rfl
@[simp] theorem State.setUnit_peers (s : State) (i : LaneId) (a : LaneUnit) : (s.setUnit i a).peers = s.peers := rfl
@[simp] theorem State.setUnit_tenancy (s : State) (i : LaneId) (a : LaneUnit) : (s.setUnit i a).tenancy = s.tenancy := rfl
@[simp] theorem State.setUnit_units (s : State) (i : LaneId) (a : LaneUnit) : (s.setUnit i a).units = s.units.set i a := rfl
@[simp] theorem State.setUnit_ports (s : State) (i : LaneId) (a : LaneUnit) : (s.setUnit i a).ports = s.ports := rfl
@[simp] theorem State.setUnit_returnLines (s : State) (i : LaneId) (a : LaneUnit) : (s.setUnit i a).returnLines = s.returnLines := rfl
@[simp] theorem State.setUnit_scheds (s : State) (i : LaneId) (a : LaneUnit) : (s.setUnit i a).scheds = s.scheds := rfl
@[simp] theorem State.setUnit_captions (s : State) (i : LaneId) (a : LaneUnit) : (s.setUnit i a).captions = s.captions := rfl
@[simp] theorem State.setUnit_pictures (s : State) (i : LaneId) (a : LaneUnit) : (s.setUnit i a).pictures = s.pictures := rfl
@[simp] theorem State.setUnit_store (s : State) (i : LaneId) (a : LaneUnit) : (s.setUnit i a).store = s.store := rfl
@[simp] theorem State.setUnit_alerts (s : State) (i : LaneId) (a : LaneUnit) : (s.setUnit i a).alerts = s.alerts := rfl
@[simp] theorem State.setUnit_events (s : State) (i : LaneId) (a : LaneUnit) : (s.setUnit i a).events = s.events := rfl
@[simp] theorem State.setUnit_pending (s : State) (i : LaneId) (a : LaneUnit) : (s.setUnit i a).pending = s.pending := rfl

@[simp] theorem State.setPort_inReset (s : State) (i : LaneId) (a : Port) : (s.setPort i a).inReset = s.inReset := rfl
@[simp] theorem State.setPort_loading (s : State) (i : LaneId) (a : Port) : (s.setPort i a).loading = s.loading := rfl
@[simp] theorem State.setPort_config (s : State) (i : LaneId) (a : Port) : (s.setPort i a).config = s.config := rfl
@[simp] theorem State.setPort_contracts (s : State) (i : LaneId) (a : Port) : (s.setPort i a).contracts = s.contracts := rfl
@[simp] theorem State.setPort_time (s : State) (i : LaneId) (a : Port) : (s.setPort i a).time = s.time := rfl
@[simp] theorem State.setPort_trunk (s : State) (i : LaneId) (a : Port) : (s.setPort i a).trunk = s.trunk := rfl
@[simp] theorem State.setPort_mode (s : State) (i : LaneId) (a : Port) : (s.setPort i a).mode = s.mode := rfl
@[simp] theorem State.setPort_peers (s : State) (i : LaneId) (a : Port) : (s.setPort i a).peers = s.peers := rfl
@[simp] theorem State.setPort_tenancy (s : State) (i : LaneId) (a : Port) : (s.setPort i a).tenancy = s.tenancy := rfl
@[simp] theorem State.setPort_units (s : State) (i : LaneId) (a : Port) : (s.setPort i a).units = s.units := rfl
@[simp] theorem State.setPort_ports (s : State) (i : LaneId) (a : Port) : (s.setPort i a).ports = s.ports.set i a := rfl
@[simp] theorem State.setPort_returnLines (s : State) (i : LaneId) (a : Port) : (s.setPort i a).returnLines = s.returnLines := rfl
@[simp] theorem State.setPort_scheds (s : State) (i : LaneId) (a : Port) : (s.setPort i a).scheds = s.scheds := rfl
@[simp] theorem State.setPort_captions (s : State) (i : LaneId) (a : Port) : (s.setPort i a).captions = s.captions := rfl
@[simp] theorem State.setPort_pictures (s : State) (i : LaneId) (a : Port) : (s.setPort i a).pictures = s.pictures := rfl
@[simp] theorem State.setPort_store (s : State) (i : LaneId) (a : Port) : (s.setPort i a).store = s.store := rfl
@[simp] theorem State.setPort_alerts (s : State) (i : LaneId) (a : Port) : (s.setPort i a).alerts = s.alerts := rfl
@[simp] theorem State.setPort_events (s : State) (i : LaneId) (a : Port) : (s.setPort i a).events = s.events := rfl
@[simp] theorem State.setPort_pending (s : State) (i : LaneId) (a : Port) : (s.setPort i a).pending = s.pending := rfl

@[simp] theorem State.setReturn_inReset (s : State) (l : Lane) (a : ReturnLine) : (s.setReturn l a).inReset = s.inReset := rfl
@[simp] theorem State.setReturn_loading (s : State) (l : Lane) (a : ReturnLine) : (s.setReturn l a).loading = s.loading := rfl
@[simp] theorem State.setReturn_config (s : State) (l : Lane) (a : ReturnLine) : (s.setReturn l a).config = s.config := rfl
@[simp] theorem State.setReturn_contracts (s : State) (l : Lane) (a : ReturnLine) : (s.setReturn l a).contracts = s.contracts := rfl
@[simp] theorem State.setReturn_time (s : State) (l : Lane) (a : ReturnLine) : (s.setReturn l a).time = s.time := rfl
@[simp] theorem State.setReturn_trunk (s : State) (l : Lane) (a : ReturnLine) : (s.setReturn l a).trunk = s.trunk := rfl
@[simp] theorem State.setReturn_mode (s : State) (l : Lane) (a : ReturnLine) : (s.setReturn l a).mode = s.mode := rfl
@[simp] theorem State.setReturn_peers (s : State) (l : Lane) (a : ReturnLine) : (s.setReturn l a).peers = s.peers := rfl
@[simp] theorem State.setReturn_tenancy (s : State) (l : Lane) (a : ReturnLine) : (s.setReturn l a).tenancy = s.tenancy := rfl
@[simp] theorem State.setReturn_units (s : State) (l : Lane) (a : ReturnLine) : (s.setReturn l a).units = s.units := rfl
@[simp] theorem State.setReturn_ports (s : State) (l : Lane) (a : ReturnLine) : (s.setReturn l a).ports = s.ports := rfl
@[simp] theorem State.setReturn_returnLines (s : State) (l : Lane) (a : ReturnLine) : (s.setReturn l a).returnLines = s.returnLines.set l a := rfl
@[simp] theorem State.setReturn_scheds (s : State) (l : Lane) (a : ReturnLine) : (s.setReturn l a).scheds = s.scheds := rfl
@[simp] theorem State.setReturn_captions (s : State) (l : Lane) (a : ReturnLine) : (s.setReturn l a).captions = s.captions := rfl
@[simp] theorem State.setReturn_pictures (s : State) (l : Lane) (a : ReturnLine) : (s.setReturn l a).pictures = s.pictures := rfl
@[simp] theorem State.setReturn_store (s : State) (l : Lane) (a : ReturnLine) : (s.setReturn l a).store = s.store := rfl
@[simp] theorem State.setReturn_alerts (s : State) (l : Lane) (a : ReturnLine) : (s.setReturn l a).alerts = s.alerts := rfl
@[simp] theorem State.setReturn_events (s : State) (l : Lane) (a : ReturnLine) : (s.setReturn l a).events = s.events := rfl
@[simp] theorem State.setReturn_pending (s : State) (l : Lane) (a : ReturnLine) : (s.setReturn l a).pending = s.pending := rfl

@[simp] theorem State.setSched_inReset (s : State) (i : LaneId) (a : Scheduler) : (s.setSched i a).inReset = s.inReset := rfl
@[simp] theorem State.setSched_loading (s : State) (i : LaneId) (a : Scheduler) : (s.setSched i a).loading = s.loading := rfl
@[simp] theorem State.setSched_config (s : State) (i : LaneId) (a : Scheduler) : (s.setSched i a).config = s.config := rfl
@[simp] theorem State.setSched_contracts (s : State) (i : LaneId) (a : Scheduler) : (s.setSched i a).contracts = s.contracts := rfl
@[simp] theorem State.setSched_time (s : State) (i : LaneId) (a : Scheduler) : (s.setSched i a).time = s.time := rfl
@[simp] theorem State.setSched_trunk (s : State) (i : LaneId) (a : Scheduler) : (s.setSched i a).trunk = s.trunk := rfl
@[simp] theorem State.setSched_mode (s : State) (i : LaneId) (a : Scheduler) : (s.setSched i a).mode = s.mode := rfl
@[simp] theorem State.setSched_peers (s : State) (i : LaneId) (a : Scheduler) : (s.setSched i a).peers = s.peers := rfl
@[simp] theorem State.setSched_tenancy (s : State) (i : LaneId) (a : Scheduler) : (s.setSched i a).tenancy = s.tenancy := rfl
@[simp] theorem State.setSched_units (s : State) (i : LaneId) (a : Scheduler) : (s.setSched i a).units = s.units := rfl
@[simp] theorem State.setSched_ports (s : State) (i : LaneId) (a : Scheduler) : (s.setSched i a).ports = s.ports := rfl
@[simp] theorem State.setSched_returnLines (s : State) (i : LaneId) (a : Scheduler) : (s.setSched i a).returnLines = s.returnLines := rfl
@[simp] theorem State.setSched_scheds (s : State) (i : LaneId) (a : Scheduler) : (s.setSched i a).scheds = s.scheds.set i a := rfl
@[simp] theorem State.setSched_captions (s : State) (i : LaneId) (a : Scheduler) : (s.setSched i a).captions = s.captions := rfl
@[simp] theorem State.setSched_pictures (s : State) (i : LaneId) (a : Scheduler) : (s.setSched i a).pictures = s.pictures := rfl
@[simp] theorem State.setSched_store (s : State) (i : LaneId) (a : Scheduler) : (s.setSched i a).store = s.store := rfl
@[simp] theorem State.setSched_alerts (s : State) (i : LaneId) (a : Scheduler) : (s.setSched i a).alerts = s.alerts := rfl
@[simp] theorem State.setSched_events (s : State) (i : LaneId) (a : Scheduler) : (s.setSched i a).events = s.events := rfl
@[simp] theorem State.setSched_pending (s : State) (i : LaneId) (a : Scheduler) : (s.setSched i a).pending = s.pending := rfl

@[simp] theorem State.setCaptions_inReset (s : State) (l : Lane) (a : CaptionCarousel) : (s.setCaptions l a).inReset = s.inReset := rfl
@[simp] theorem State.setCaptions_loading (s : State) (l : Lane) (a : CaptionCarousel) : (s.setCaptions l a).loading = s.loading := rfl
@[simp] theorem State.setCaptions_config (s : State) (l : Lane) (a : CaptionCarousel) : (s.setCaptions l a).config = s.config := rfl
@[simp] theorem State.setCaptions_contracts (s : State) (l : Lane) (a : CaptionCarousel) : (s.setCaptions l a).contracts = s.contracts := rfl
@[simp] theorem State.setCaptions_time (s : State) (l : Lane) (a : CaptionCarousel) : (s.setCaptions l a).time = s.time := rfl
@[simp] theorem State.setCaptions_trunk (s : State) (l : Lane) (a : CaptionCarousel) : (s.setCaptions l a).trunk = s.trunk := rfl
@[simp] theorem State.setCaptions_mode (s : State) (l : Lane) (a : CaptionCarousel) : (s.setCaptions l a).mode = s.mode := rfl
@[simp] theorem State.setCaptions_peers (s : State) (l : Lane) (a : CaptionCarousel) : (s.setCaptions l a).peers = s.peers := rfl
@[simp] theorem State.setCaptions_tenancy (s : State) (l : Lane) (a : CaptionCarousel) : (s.setCaptions l a).tenancy = s.tenancy := rfl
@[simp] theorem State.setCaptions_units (s : State) (l : Lane) (a : CaptionCarousel) : (s.setCaptions l a).units = s.units := rfl
@[simp] theorem State.setCaptions_ports (s : State) (l : Lane) (a : CaptionCarousel) : (s.setCaptions l a).ports = s.ports := rfl
@[simp] theorem State.setCaptions_returnLines (s : State) (l : Lane) (a : CaptionCarousel) : (s.setCaptions l a).returnLines = s.returnLines := rfl
@[simp] theorem State.setCaptions_scheds (s : State) (l : Lane) (a : CaptionCarousel) : (s.setCaptions l a).scheds = s.scheds := rfl
@[simp] theorem State.setCaptions_captions (s : State) (l : Lane) (a : CaptionCarousel) : (s.setCaptions l a).captions = s.captions.set l a := rfl
@[simp] theorem State.setCaptions_pictures (s : State) (l : Lane) (a : CaptionCarousel) : (s.setCaptions l a).pictures = s.pictures := rfl
@[simp] theorem State.setCaptions_store (s : State) (l : Lane) (a : CaptionCarousel) : (s.setCaptions l a).store = s.store := rfl
@[simp] theorem State.setCaptions_alerts (s : State) (l : Lane) (a : CaptionCarousel) : (s.setCaptions l a).alerts = s.alerts := rfl
@[simp] theorem State.setCaptions_events (s : State) (l : Lane) (a : CaptionCarousel) : (s.setCaptions l a).events = s.events := rfl
@[simp] theorem State.setCaptions_pending (s : State) (l : Lane) (a : CaptionCarousel) : (s.setCaptions l a).pending = s.pending := rfl

@[simp] theorem State.setPictures_inReset (s : State) (l : Lane) (a : PictureCarousel) : (s.setPictures l a).inReset = s.inReset := rfl
@[simp] theorem State.setPictures_loading (s : State) (l : Lane) (a : PictureCarousel) : (s.setPictures l a).loading = s.loading := rfl
@[simp] theorem State.setPictures_config (s : State) (l : Lane) (a : PictureCarousel) : (s.setPictures l a).config = s.config := rfl
@[simp] theorem State.setPictures_contracts (s : State) (l : Lane) (a : PictureCarousel) : (s.setPictures l a).contracts = s.contracts := rfl
@[simp] theorem State.setPictures_time (s : State) (l : Lane) (a : PictureCarousel) : (s.setPictures l a).time = s.time := rfl
@[simp] theorem State.setPictures_trunk (s : State) (l : Lane) (a : PictureCarousel) : (s.setPictures l a).trunk = s.trunk := rfl
@[simp] theorem State.setPictures_mode (s : State) (l : Lane) (a : PictureCarousel) : (s.setPictures l a).mode = s.mode := rfl
@[simp] theorem State.setPictures_peers (s : State) (l : Lane) (a : PictureCarousel) : (s.setPictures l a).peers = s.peers := rfl
@[simp] theorem State.setPictures_tenancy (s : State) (l : Lane) (a : PictureCarousel) : (s.setPictures l a).tenancy = s.tenancy := rfl
@[simp] theorem State.setPictures_units (s : State) (l : Lane) (a : PictureCarousel) : (s.setPictures l a).units = s.units := rfl
@[simp] theorem State.setPictures_ports (s : State) (l : Lane) (a : PictureCarousel) : (s.setPictures l a).ports = s.ports := rfl
@[simp] theorem State.setPictures_returnLines (s : State) (l : Lane) (a : PictureCarousel) : (s.setPictures l a).returnLines = s.returnLines := rfl
@[simp] theorem State.setPictures_scheds (s : State) (l : Lane) (a : PictureCarousel) : (s.setPictures l a).scheds = s.scheds := rfl
@[simp] theorem State.setPictures_captions (s : State) (l : Lane) (a : PictureCarousel) : (s.setPictures l a).captions = s.captions := rfl
@[simp] theorem State.setPictures_pictures (s : State) (l : Lane) (a : PictureCarousel) : (s.setPictures l a).pictures = s.pictures.set l a := rfl
@[simp] theorem State.setPictures_store (s : State) (l : Lane) (a : PictureCarousel) : (s.setPictures l a).store = s.store := rfl
@[simp] theorem State.setPictures_alerts (s : State) (l : Lane) (a : PictureCarousel) : (s.setPictures l a).alerts = s.alerts := rfl
@[simp] theorem State.setPictures_events (s : State) (l : Lane) (a : PictureCarousel) : (s.setPictures l a).events = s.events := rfl
@[simp] theorem State.setPictures_pending (s : State) (l : Lane) (a : PictureCarousel) : (s.setPictures l a).pending = s.pending := rfl

@[simp] theorem State.setStore_inReset (s : State) (a : ObjectStore) : (s.setStore a).inReset = s.inReset := rfl
@[simp] theorem State.setStore_loading (s : State) (a : ObjectStore) : (s.setStore a).loading = s.loading := rfl
@[simp] theorem State.setStore_config (s : State) (a : ObjectStore) : (s.setStore a).config = s.config := rfl
@[simp] theorem State.setStore_contracts (s : State) (a : ObjectStore) : (s.setStore a).contracts = s.contracts := rfl
@[simp] theorem State.setStore_time (s : State) (a : ObjectStore) : (s.setStore a).time = s.time := rfl
@[simp] theorem State.setStore_trunk (s : State) (a : ObjectStore) : (s.setStore a).trunk = s.trunk := rfl
@[simp] theorem State.setStore_mode (s : State) (a : ObjectStore) : (s.setStore a).mode = s.mode := rfl
@[simp] theorem State.setStore_peers (s : State) (a : ObjectStore) : (s.setStore a).peers = s.peers := rfl
@[simp] theorem State.setStore_tenancy (s : State) (a : ObjectStore) : (s.setStore a).tenancy = s.tenancy := rfl
@[simp] theorem State.setStore_units (s : State) (a : ObjectStore) : (s.setStore a).units = s.units := rfl
@[simp] theorem State.setStore_ports (s : State) (a : ObjectStore) : (s.setStore a).ports = s.ports := rfl
@[simp] theorem State.setStore_returnLines (s : State) (a : ObjectStore) : (s.setStore a).returnLines = s.returnLines := rfl
@[simp] theorem State.setStore_scheds (s : State) (a : ObjectStore) : (s.setStore a).scheds = s.scheds := rfl
@[simp] theorem State.setStore_captions (s : State) (a : ObjectStore) : (s.setStore a).captions = s.captions := rfl
@[simp] theorem State.setStore_pictures (s : State) (a : ObjectStore) : (s.setStore a).pictures = s.pictures := rfl
@[simp] theorem State.setStore_store (s : State) (a : ObjectStore) : (s.setStore a).store = a := rfl
@[simp] theorem State.setStore_alerts (s : State) (a : ObjectStore) : (s.setStore a).alerts = s.alerts := rfl
@[simp] theorem State.setStore_events (s : State) (a : ObjectStore) : (s.setStore a).events = s.events := rfl
@[simp] theorem State.setStore_pending (s : State) (a : ObjectStore) : (s.setStore a).pending = s.pending := rfl

@[simp] theorem State.setAlerts_inReset (s : State) (a : AlertCtl) : (s.setAlerts a).inReset = s.inReset := rfl
@[simp] theorem State.setAlerts_loading (s : State) (a : AlertCtl) : (s.setAlerts a).loading = s.loading := rfl
@[simp] theorem State.setAlerts_config (s : State) (a : AlertCtl) : (s.setAlerts a).config = s.config := rfl
@[simp] theorem State.setAlerts_contracts (s : State) (a : AlertCtl) : (s.setAlerts a).contracts = s.contracts := rfl
@[simp] theorem State.setAlerts_time (s : State) (a : AlertCtl) : (s.setAlerts a).time = s.time := rfl
@[simp] theorem State.setAlerts_trunk (s : State) (a : AlertCtl) : (s.setAlerts a).trunk = s.trunk := rfl
@[simp] theorem State.setAlerts_mode (s : State) (a : AlertCtl) : (s.setAlerts a).mode = s.mode := rfl
@[simp] theorem State.setAlerts_peers (s : State) (a : AlertCtl) : (s.setAlerts a).peers = s.peers := rfl
@[simp] theorem State.setAlerts_tenancy (s : State) (a : AlertCtl) : (s.setAlerts a).tenancy = s.tenancy := rfl
@[simp] theorem State.setAlerts_units (s : State) (a : AlertCtl) : (s.setAlerts a).units = s.units := rfl
@[simp] theorem State.setAlerts_ports (s : State) (a : AlertCtl) : (s.setAlerts a).ports = s.ports := rfl
@[simp] theorem State.setAlerts_returnLines (s : State) (a : AlertCtl) : (s.setAlerts a).returnLines = s.returnLines := rfl
@[simp] theorem State.setAlerts_scheds (s : State) (a : AlertCtl) : (s.setAlerts a).scheds = s.scheds := rfl
@[simp] theorem State.setAlerts_captions (s : State) (a : AlertCtl) : (s.setAlerts a).captions = s.captions := rfl
@[simp] theorem State.setAlerts_pictures (s : State) (a : AlertCtl) : (s.setAlerts a).pictures = s.pictures := rfl
@[simp] theorem State.setAlerts_store (s : State) (a : AlertCtl) : (s.setAlerts a).store = s.store := rfl
@[simp] theorem State.setAlerts_alerts (s : State) (a : AlertCtl) : (s.setAlerts a).alerts = a := rfl
@[simp] theorem State.setAlerts_events (s : State) (a : AlertCtl) : (s.setAlerts a).events = s.events := rfl
@[simp] theorem State.setAlerts_pending (s : State) (a : AlertCtl) : (s.setAlerts a).pending = s.pending := rfl

@[simp] theorem State.setEvents_inReset (s : State) (a : EventOut) : (s.setEvents a).inReset = s.inReset := rfl
@[simp] theorem State.setEvents_loading (s : State) (a : EventOut) : (s.setEvents a).loading = s.loading := rfl
@[simp] theorem State.setEvents_config (s : State) (a : EventOut) : (s.setEvents a).config = s.config := rfl
@[simp] theorem State.setEvents_contracts (s : State) (a : EventOut) : (s.setEvents a).contracts = s.contracts := rfl
@[simp] theorem State.setEvents_time (s : State) (a : EventOut) : (s.setEvents a).time = s.time := rfl
@[simp] theorem State.setEvents_trunk (s : State) (a : EventOut) : (s.setEvents a).trunk = s.trunk := rfl
@[simp] theorem State.setEvents_mode (s : State) (a : EventOut) : (s.setEvents a).mode = s.mode := rfl
@[simp] theorem State.setEvents_peers (s : State) (a : EventOut) : (s.setEvents a).peers = s.peers := rfl
@[simp] theorem State.setEvents_tenancy (s : State) (a : EventOut) : (s.setEvents a).tenancy = s.tenancy := rfl
@[simp] theorem State.setEvents_units (s : State) (a : EventOut) : (s.setEvents a).units = s.units := rfl
@[simp] theorem State.setEvents_ports (s : State) (a : EventOut) : (s.setEvents a).ports = s.ports := rfl
@[simp] theorem State.setEvents_returnLines (s : State) (a : EventOut) : (s.setEvents a).returnLines = s.returnLines := rfl
@[simp] theorem State.setEvents_scheds (s : State) (a : EventOut) : (s.setEvents a).scheds = s.scheds := rfl
@[simp] theorem State.setEvents_captions (s : State) (a : EventOut) : (s.setEvents a).captions = s.captions := rfl
@[simp] theorem State.setEvents_pictures (s : State) (a : EventOut) : (s.setEvents a).pictures = s.pictures := rfl
@[simp] theorem State.setEvents_store (s : State) (a : EventOut) : (s.setEvents a).store = s.store := rfl
@[simp] theorem State.setEvents_alerts (s : State) (a : EventOut) : (s.setEvents a).alerts = s.alerts := rfl
@[simp] theorem State.setEvents_events (s : State) (a : EventOut) : (s.setEvents a).events = a := rfl
@[simp] theorem State.setEvents_pending (s : State) (a : EventOut) : (s.setEvents a).pending = s.pending := rfl

@[simp] theorem State.setQueue_inReset (s : State) (a : List Instr) : (s.setQueue a).inReset = s.inReset := rfl
@[simp] theorem State.setQueue_loading (s : State) (a : List Instr) : (s.setQueue a).loading = s.loading := rfl
@[simp] theorem State.setQueue_config (s : State) (a : List Instr) : (s.setQueue a).config = s.config := rfl
@[simp] theorem State.setQueue_contracts (s : State) (a : List Instr) : (s.setQueue a).contracts = s.contracts := rfl
@[simp] theorem State.setQueue_time (s : State) (a : List Instr) : (s.setQueue a).time = s.time := rfl
@[simp] theorem State.setQueue_trunk (s : State) (a : List Instr) : (s.setQueue a).trunk = s.trunk := rfl
@[simp] theorem State.setQueue_mode (s : State) (a : List Instr) : (s.setQueue a).mode = s.mode := rfl
@[simp] theorem State.setQueue_peers (s : State) (a : List Instr) : (s.setQueue a).peers = s.peers := rfl
@[simp] theorem State.setQueue_tenancy (s : State) (a : List Instr) : (s.setQueue a).tenancy = s.tenancy := rfl
@[simp] theorem State.setQueue_units (s : State) (a : List Instr) : (s.setQueue a).units = s.units := rfl
@[simp] theorem State.setQueue_ports (s : State) (a : List Instr) : (s.setQueue a).ports = s.ports := rfl
@[simp] theorem State.setQueue_returnLines (s : State) (a : List Instr) : (s.setQueue a).returnLines = s.returnLines := rfl
@[simp] theorem State.setQueue_scheds (s : State) (a : List Instr) : (s.setQueue a).scheds = s.scheds := rfl
@[simp] theorem State.setQueue_captions (s : State) (a : List Instr) : (s.setQueue a).captions = s.captions := rfl
@[simp] theorem State.setQueue_pictures (s : State) (a : List Instr) : (s.setQueue a).pictures = s.pictures := rfl
@[simp] theorem State.setQueue_store (s : State) (a : List Instr) : (s.setQueue a).store = s.store := rfl
@[simp] theorem State.setQueue_alerts (s : State) (a : List Instr) : (s.setQueue a).alerts = s.alerts := rfl
@[simp] theorem State.setQueue_events (s : State) (a : List Instr) : (s.setQueue a).events = s.events := rfl
@[simp] theorem State.setQueue_pending (s : State) (a : List Instr) : (s.setQueue a).pending = a := rfl

/-- EVO rests at 1 (R179). -/
@[simp] theorem EventOut.evo_idle {e : EventOut} (h : e.line = .idle) : e.evo = true := by simp [EventOut.evo, h]
/-- EVO is at the head record's bit while the line sends (R179). -/
@[simp] theorem EventOut.evo_sending {e : EventOut} {bit phase : Nat} {r : EventRecord} {rest : List EventRecord}
    (h : e.line = .sending bit phase) (q : e.queue = r :: rest) : e.evo = r.evoBit bit := by simp [EventOut.evo, h, q]

/-- A clock that stops leaves nothing on the line, and what waits there waiting (R98). -/
@[simp] theorem ReturnLine.done_stopped (r : ReturnLine) : r.done true = ⟨none, r.waiting, true⟩ := rfl
@[simp] theorem ReturnLine.done_idle {r : ReturnLine} (h : r.sending = none) : r.done false = r := by
  simp [ReturnLine.done, h]
@[simp] theorem ReturnLine.done_next {r : ReturnLine} (h : r.sending ≠ none) :
    r.done false = ⟨r.waiting, none, r.clockStopped⟩ := by
  simp [ReturnLine.done, h]

@[simp] theorem orderBits_length (order : BitOrder) (b : Byte) : (orderBits order b).length = 8 := by cases order <;> rfl
/-- A lane status record is sent as eight bits a byte (R98). -/
@[simp] theorem LaneStatus.bits_length (order : BitOrder) (r : LaneStatus) :
    (r.bits order).length = 8 * r.bytes.length := by
  unfold LaneStatus.bits
  induction r.bytes with
  | nil => rfl
  | cons b bs ih => simp only [List.flatMap_cons, List.length_append, orderBits_length, List.length_cons, ih]; omega
/-- A return line rests at 1 between records (R98). -/
@[simp] theorem ReturnLine.level_idle {r : ReturnLine} (h : r.sending = none) (order : BitOrder) (bit : Nat) :
    r.level order bit = true := by simp [ReturnLine.level, h]
/-- A return line is at the bits of the record it sends, in turn (R98). -/
@[simp] theorem ReturnLine.level_sending {r : ReturnLine} {record : LaneStatus} (h : r.sending = some record)
    (order : BitOrder) (bit : Nat) : r.level order bit = (record.bits order).getD bit true := by simp [ReturnLine.level, h]
/-- In reset, CONFIG and HALTED every return line rests at 1 (R20, R34, R98). -/
@[simp] theorem State.returnLevel_off {s : State} (h : s.live = false) (l : Lane) (bit : Nat) :
    s.returnLevel l bit = true := by simp [State.returnLevel, h]
@[simp] theorem State.returnLevel_live {s : State} (h : s.live = true) (l : Lane) (bit : Nat) :
    s.returnLevel l bit = (s.returnLines.get l).level (s.portOrder (.svc l)) bit := by simp [State.returnLevel, h]

end Machine
end Sys2Proof
end

