-- ==== Sys2Proof/Laws/Store.lean ====
section
/-! SUPPORT. The store's bytes: every write keeps the canonical form, and what a byte reads after a write. -/

namespace Sys2Proof.Machine

theorem Memory.wf_cons {a : Nat} {v : Byte} {rest : List Host.Cell} :
    Memory.wf ((a, v) :: rest) = true ↔
      v ≠ 0 ∧ (∀ x ∈ rest.head?, a < x.1) ∧ Memory.wf rest = true := by
  cases rest with
  | nil => simp [Memory.wf]
  | cons x xs => obtain ⟨b, w⟩ := x; simp [Memory.wf, and_assoc]

theorem writeCell_head {addr lo : Nat} {b : Byte} {cells : List Host.Cell} (hlo : lo < addr)
    (h : ∀ x ∈ cells.head?, lo < x.1) (hw : Memory.wf cells = true) :
    ∀ x ∈ (writeCell addr b cells).head?, lo < x.1 := by
  cases cells with
  | nil => unfold writeCell; split <;> simp [hlo]
  | cons c rest =>
    obtain ⟨a, v⟩ := c
    have ha : lo < a := by simpa using h
    unfold writeCell
    split
    · split <;> simp [ha, hlo]
    · split
      · split
        · subst_vars
          intro x hx
          have := (Memory.wf_cons.mp hw).2.1 x hx
          omega
        · simp [hlo]
      · simp [ha]

/-- A write keeps the canonical form. -/
theorem writeCell_wf {addr : Nat} {b : Byte} {cells : List Host.Cell} (h : Memory.wf cells = true) :
    Memory.wf (writeCell addr b cells) = true := by
  induction cells with
  | nil => unfold writeCell; split <;> simp_all [Memory.wf]
  | cons c rest ih =>
    obtain ⟨a, v⟩ := c
    obtain ⟨hv, hhead, hrest⟩ := Memory.wf_cons.mp h
    unfold writeCell
    split
    · split
      · exact h
      · exact Memory.wf_cons.mpr ⟨by assumption, by simpa, h⟩
    · split
      · split
        · exact hrest
        · subst_vars
          exact Memory.wf_cons.mpr ⟨by assumption, hhead, hrest⟩
      · refine Memory.wf_cons.mpr ⟨hv, ?_, ih hrest⟩
        exact writeCell_head (by omega) hhead hrest

theorem readCell_of_lt {addr : Nat} {cells : List Host.Cell} (hw : Memory.wf cells = true)
    (h : ∀ x ∈ cells.head?, addr < x.1) : readCell addr cells = 0 := by
  induction cells with
  | nil => rfl
  | cons c rest ih =>
    obtain ⟨a, v⟩ := c
    have ha : addr < a := by simpa using h
    obtain ⟨-, hhead, hrest⟩ := Memory.wf_cons.mp hw
    rw [readCell, if_neg (by omega)]
    exact ih hrest (fun x hx => lt_trans ha (hhead x hx))

/-- A read after a write: the byte written at its address, and the byte that was there at every other. -/
theorem readCell_writeCell {addr k : Nat} {b : Byte} {cells : List Host.Cell} (hw : Memory.wf cells = true) :
    readCell k (writeCell addr b cells) = if k = addr then b else readCell k cells := by
  induction cells with
  | nil =>
    unfold writeCell
    split
    · rename_i hb
      simp [readCell, hb]
    · by_cases hk : k = addr
      · simp [readCell, hk]
      · simp [readCell, hk, Ne.symm hk]
  | cons c rest ih =>
    obtain ⟨a, v⟩ := c
    obtain ⟨-, hhead, hrest⟩ := Memory.wf_cons.mp hw
    unfold writeCell
    split
    · split
      · by_cases hk : k = addr
        · subst hk
          rw [if_pos rfl, readCell_of_lt hw (by simpa)]; exact (by assumption : b = 0).symm
        · rw [if_neg hk]
      · by_cases hk : k = addr
        · subst hk; simp [readCell]
        · rw [if_neg hk, readCell, if_neg (Ne.symm hk)]
    · split
      · rename_i hlt heq
        subst heq
        split
        · by_cases hk : k = a
          · subst hk
            rw [if_pos rfl, readCell_of_lt hrest hhead]; exact (by assumption : b = 0).symm
          · rw [if_neg hk, readCell, if_neg (Ne.symm hk)]
        · by_cases hk : k = a
          · subst hk; simp [readCell]
          · rw [if_neg hk, readCell, readCell, if_neg (Ne.symm hk), if_neg (Ne.symm hk)]
      · rw [readCell, readCell]
        by_cases hka : a = k
        · subst hka; rw [if_pos rfl, if_neg (by assumption), if_pos rfl]
        · rw [if_neg hka, if_neg hka, ih hrest]

/-- Bytes written through an object keep the canonical form. -/
theorem Obj.write_wf (o : Obj) (i : Nat) (bs : List Byte) {cells : List Host.Cell} (h : Memory.wf cells = true) :
    Memory.wf (o.write i bs cells) = true := by
  induction bs generalizing i cells with
  | nil => exact h
  | cons b bs ih => exact ih (i + 1) (writeCell_wf h)

/-- A byte at an address no written byte goes to is unchanged. -/
theorem Obj.readCell_write_of_ne (o : Obj) (i : Nat) (bs : List Byte) {k : Nat} {cells : List Host.Cell}
    (hw : Memory.wf cells = true) (h : ∀ j, i ≤ j → j < i + bs.length → o.address j ≠ k) :
    readCell k (o.write i bs cells) = readCell k cells := by
  induction bs generalizing i cells with
  | nil => rfl
  | cons b bs ih =>
    rw [Obj.write, ih (i + 1) (writeCell_wf hw) (fun j h1 h2 => h j (by omega) (by simp; omega)),
      readCell_writeCell hw, if_neg]
    exact Ne.symm (h i le_rfl (by simp))

end Sys2Proof.Machine
end

