-- ==== Sys2Proof/Laws/Blocks.lean ====
section
/-! SUPPORT. What the operations of the blocks below the mode and the Timebase can do: they leave pins, configuration,
Timebase, trunk, mode, peer table, ports and queue as they are, add events only at the tail, and keep FIFOs, store
bytes, carousels and takeover stack sound. One lemma per operation says so. -/

namespace Sys2Proof.Machine

/-- `t` comes from `s` by operations of the Tenancy Unit, the Lane Units, the schedulers, the carousels, the Object Store
and the Alert Controller. -/
structure BlockStep (s t : State) : Prop where
  inReset : t.inReset = s.inReset
  loading : t.loading = s.loading
  config : t.config = s.config
  contracts : t.contracts = s.contracts
  time : t.time = s.time
  trunk : t.trunk = s.trunk
  mode : t.mode = s.mode
  peers : t.peers = s.peers
  ports : t.ports = s.ports
  pending : t.pending = s.pending
  nfault : t.events.nfault = s.events.nfault
  queue : s.events.queue <+: t.events.queue
  events : s.events.Sound → t.events.Sound
  fifos : s.FifosSound → t.FifosSound
  store : s.StoreCanonical → t.StoreCanonical
  captions : s.CaptionsSound → t.CaptionsSound
  stack : s.alerts.Sound → t.alerts.Sound

namespace BlockStep

variable {s t u : State}

theorem refl (s : State) : BlockStep s s :=
  ⟨rfl, rfl, rfl, rfl, rfl, rfl, rfl, rfl, rfl, rfl, rfl, List.prefix_refl _, id, id, id, id, id⟩

theorem trans (h : BlockStep s t) (k : BlockStep t u) : BlockStep s u where
  inReset := k.inReset.trans h.inReset
  loading := k.loading.trans h.loading
  config := k.config.trans h.config
  contracts := k.contracts.trans h.contracts
  time := k.time.trans h.time
  trunk := k.trunk.trans h.trunk
  mode := k.mode.trans h.mode
  peers := k.peers.trans h.peers
  ports := k.ports.trans h.ports
  pending := k.pending.trans h.pending
  nfault := k.nfault.trans h.nfault
  queue := h.queue.trans k.queue
  events := k.events ∘ h.events
  fifos := k.fifos ∘ h.fifos
  store := k.store ∘ h.store
  captions := k.captions ∘ h.captions
  stack := k.stack ∘ h.stack

theorem cond (c : Prop) [Decidable c] (h : BlockStep s t) (k : BlockStep s u) : BlockStep s (if c then t else u) := by
  split
  · exact h
  · exact k

/-! ### Setters -/

theorem setTenancy (s : State) (i : LaneId) (x : Tenancy) : BlockStep s (s.setTenancy i x) := { refl s with }
theorem setReturn (s : State) (l : Lane) (x : ReturnLine) : BlockStep s (s.setReturn l x) := { refl s with }
theorem setSched (s : State) (i : LaneId) (x : Scheduler) : BlockStep s (s.setSched i x) := { refl s with }
theorem setPictures (s : State) (l : Lane) (x : PictureCarousel) : BlockStep s (s.setPictures l x) := { refl s with }
theorem setObjects (s : State) (x : List Obj) : BlockStep s (s.setObjects x) := { refl s with }

theorem setStore (s : State) (x : ObjectStore) (h : Memory.wf s.store.cells = true → Memory.wf x.cells = true) :
    BlockStep s (s.setStore x) := { refl s with store := h }

theorem setUnit (s : State) (i : LaneId) (x : LaneUnit) (h : (s.units.get i).FifoSound → x.FifoSound) :
    BlockStep s (s.setUnit i x) :=
  { refl s with
    fifos := by
      intro hs k
      by_cases hk : k = i
      · subst hk; simpa using h (hs k)
      · simpa [Quad.get_set_of_ne _ _ _ _ hk] using hs k }

theorem setCaptions (s : State) (l : Lane) (x : CaptionCarousel) (h : (s.captions.get l).Sound → x.Sound) :
    BlockStep s (s.setCaptions l x) :=
  { refl s with
    captions := by
      intro hs k
      by_cases hk : k = l
      · subst hk; simpa using h (hs k)
      · simpa [Trio.get_set_of_ne _ _ _ _ hk] using hs k }

theorem setAlerts (s : State) (x : AlertCtl) (h : s.alerts.Sound → x.Sound) : BlockStep s (s.setAlerts x) :=
  { refl s with stack := h }

/-! ### Events -/

theorem offer_sound (e : EventOut) (r : EventRecord) (h : e.Sound) : (e.offer r).Sound := by
  unfold EventOut.offer
  split
  · refine ⟨by simp; omega, ?_, ?_⟩
    · simp only [List.append_eq_nil_iff, List.cons_ne_nil, and_false, iff_false]
      split <;> simp_all
    · have h3 := h.2.2
      cases hl : e.line with
      | idle => simp [Config.eventBits]
      | sending b p => simpa [hl] using h3
  · exact h

theorem offer_queue (e : EventOut) (r : EventRecord) : e.queue <+: (e.offer r).queue := by
  unfold EventOut.offer
  split
  · exact ⟨[r], rfl⟩
  · exact List.prefix_refl _

theorem offer_nfault (e : EventOut) (r : EventRecord) : (e.offer r).nfault = e.nfault := by
  unfold EventOut.offer; split <;> rfl

theorem post (k : EventKind) (n : Nat) (l : Option LaneId) (a : Nat) (s : State) : BlockStep s (post k n l a s) :=
  { refl s with
    nfault := offer_nfault _ _
    queue := offer_queue _ _
    events := offer_sound _ _ }

theorem postSelf (k : EventKind) (l : Option LaneId) (a : Nat) (s : State) : BlockStep s (postSelf k l a s) :=
  post ..

/-! ### Lists and lanes -/

theorem forEach {α : Type} {f : α → State → State} (h : ∀ x s, BlockStep s (f x s)) (xs : List α) (s : State) :
    BlockStep s (forEach xs f s) := by
  unfold Machine.forEach
  induction xs generalizing s with
  | nil => exact refl s
  | cons x xs ih => exact (h x s).trans (ih (f x s))

theorem forLanes {f : Lane → State → State} (h : ∀ l s, BlockStep s (f l s)) (s : State) :
    BlockStep s (forLanes f s) := ((h _ _).trans (h _ _)).trans (h _ _)

/-! ### Caption carousels -/

theorem onCaptions (l : Lane) (f : CaptionCarousel → CaptionCarousel) (s : State)
    (h : (s.captions.get l).Sound → (f (s.captions.get l)).Sound) : BlockStep s (onCaptions l f s) :=
  setCaptions _ _ _ h

theorem interruptCaptions (l : Lane) (s : State) : BlockStep s (Machine.onCaptions l CaptionCarousel.interrupt s) :=
  onCaptions _ _ _ (·.interrupt)

theorem onlyIf (b : Bool) (f : State → State) (s : State) (h : BlockStep s (f s)) : BlockStep s (onlyIf b f s) := by
  unfold Machine.onlyIf; split
  · exact h
  · exact refl s

theorem postClamp (i : LaneId) (f : Nat) (id : Byte) (s : State) : BlockStep s (postClamp i f id s) := postSelf ..

theorem postCaptionClamps (l : Lane) (id p r : Byte) (t : List Byte) (s : State) :
    BlockStep s (postCaptionClamps l id p r t s) := by
  unfold Machine.postCaptionClamps
  exact ((onlyIf _ _ _ (postClamp ..)).trans (onlyIf _ _ _ (postClamp ..))).trans (onlyIf _ _ _ (postClamp ..))

theorem remove_find_none {c : CaptionCarousel} {id : Byte} (i : Nat) (h : c.find id = none) :
    (c.remove i).find id = none := by
  unfold CaptionCarousel.find at *
  rw [List.findIdx?_eq_none_iff] at *
  intro e he
  refine h e ?_
  have : e ∈ removeAt c.entries i := he
  rw [removeAt_eq] at this
  exact List.mem_of_mem_eraseIdx this

theorem captionContend (l : Lane) (id : Byte) (p d r : Nat) (t : List Byte) (s : State)
    (hid : (s.captions.get l).find id = none) : BlockStep s (captionContend l id p d r t s) := by
  unfold Machine.captionContend
  dsimp only
  split
  · exact refl s
  · rename_i i e hc
    split
    · exact postSelf ..
    · split
      · exact postSelf ..
      · refine (onCaptions _ _ _ fun h => ?_).trans (postSelf ..)
        have hi : (s.captions.get l).entries[i]?.isSome := by
          cases hcand : (s.captions.get l).candidate with
          | none => simp [hcand] at hc
          | some j =>
            simp only [hcand, Option.bind_some, Option.map_eq_some_iff, Prod.mk.injEq] at hc
            obtain ⟨e', he', rfl, -⟩ := hc
            simp [he']
        have hlen : i < (s.captions.get l).entries.length := by
          by_contra hn
          rw [List.getElem?_eq_none (by omega)] at hi
          simp at hi
        refine (h.remove i).addEntry _ _ _ _ _ (remove_find_none i hid) ?_
        have := h.bound
        show (removeAt _ _).length < _
        rw [removeAt_eq, List.length_eraseIdx_of_lt hlen]
        omega

theorem captionPutOp (l : Lane) (id p d r : Byte) (t : List Byte) (s : State) :
    BlockStep s (captionPutOp l id p d r t s) := by
  unfold Machine.captionPutOp
  refine (postCaptionClamps l id p r t s).trans ?_
  dsimp only
  split
  · exact onCaptions _ _ _ (fun h => h.replace ..)
  · split
    · exact onCaptions _ _ _ (fun h => h.addEntry _ _ _ _ _ (by assumption) (by assumption))
    · exact captionContend _ _ _ _ _ _ _ (by assumption)

theorem captionDropOp (l : Lane) (id : Byte) (s : State) : BlockStep s (captionDropOp l id s) := by
  refine onCaptions _ _ _ fun h => ?_
  split
  · exact h.remove _
  · exact h

/-! ### Object Store and picture carousels -/

theorem updateObj (i : LaneId) (id : Byte) (f : Obj → Obj) (s : State) : BlockStep s (updateObj i id f s) :=
  setObjects ..

theorem onPictures (l : Lane) (f : PictureCarousel → PictureCarousel) (s : State) :
    BlockStep s (onPictures l f s) := setPictures ..

theorem removeObj (l : Lane) (id : Byte) (s : State) : BlockStep s (removeObj l id s) :=
  (onPictures ..).trans (setObjects ..)

theorem interruptPicture (l : Lane) (s : State) : BlockStep s (interruptPicture l s) := by
  unfold Machine.interruptPicture
  split
  · exact refl s
  · dsimp only
    split
    · exact (((updateObj ..).trans (onPictures ..)).trans (removeObj ..)).trans (postSelf ..)
    · exact (updateObj ..).trans (onPictures ..)

theorem restorePicture (l : Lane) (p : Option Byte) (s : State) : BlockStep s (restorePicture l p s) :=
  (interruptPicture ..).trans (onPictures ..)

theorem beginPass (l : Lane) (s : State) : BlockStep s (beginPass l s) := by
  unfold Machine.beginPass
  split
  · exact (updateObj ..).trans (onPictures ..)
  · exact refl s

theorem endPass (l : Lane) (id : Byte) (s : State) : BlockStep s (endPass l id s) := by
  unfold Machine.endPass
  dsimp only
  split
  · exact (onPictures ..).trans (updateObj ..)
  · split
    · exact ((onPictures ..).trans (updateObj ..)).trans (removeObj ..)
    · split
      · exact (((onPictures ..).trans (updateObj ..)).trans (removeObj ..)).trans (postSelf ..)
      · exact ((onPictures ..).trans (updateObj ..)).trans (updateObj ..)

theorem supplyPicture (l : Lane) (n : Nat) (s : State) {g : Segment} {t : State}
    (h : supplyPicture l n s = some (g, t)) : BlockStep s t := by
  unfold Machine.supplyPicture at h
  refine (beginPass l s).trans ?_
  dsimp only at h
  split at h
  · simp only [Option.some.injEq, Prod.mk.injEq] at h
    obtain ⟨-, rfl⟩ := h
    split
    · exact (onPictures ..).trans (endPass ..)
    · exact onPictures ..
  · simp at h

theorem postPictureClamps (l : Lane) (id r : Byte) (x : BitVec 16) (s : State) :
    BlockStep s (postPictureClamps l id r x s) :=
  (onlyIf _ _ _ (postClamp ..)).trans (onlyIf _ _ _ (postClamp ..))

theorem admitObj (l : Lane) (id : Byte) (a b c : Nat) (s : State) : BlockStep s (admitObj l id a b c s) :=
  setStore _ _ (fun h => h)

theorem pictureBeginOp (l : Lane) (id : Byte) (n : BitVec 24) (r : Byte) (x : BitVec 16) (s : State) :
    BlockStep s (pictureBeginOp l id n r x s) := by
  unfold Machine.pictureBeginOp
  refine (postPictureClamps l id r x s).trans ?_
  dsimp only
  split
  · exact postSelf ..
  · exact (removeObj ..).trans (admitObj ..)

theorem acceptBytes (same : Obj → Bool) (o : Obj) (bs : List Byte) (s : State) :
    BlockStep s (acceptBytes same o bs s) := setStore _ _ (o.write_wf _ _)

theorem pictureChunkOp (l : Lane) (id : Byte) (n : BitVec 24) (bs : List Byte) (s : State) :
    BlockStep s (pictureChunkOp l id n bs s) := by
  unfold Machine.pictureChunkOp
  dsimp only
  split
  · exact postSelf ..
  · split
    · exact postSelf ..
    · split
      · exact (removeObj ..).trans (postSelf ..)
      · split
        · exact (removeObj ..).trans (postSelf ..)
        · split
          · exact (acceptBytes ..).trans (onPictures ..)
          · exact acceptBytes ..

theorem pictureDropOp (l : Lane) (id : Byte) (s : State) : BlockStep s (pictureDropOp l id s) := removeObj ..

theorem discardPictures (l : Lane) (s : State) : BlockStep s (discardPictures l s) :=
  (setObjects ..).trans (setPictures ..)

theorem expireObj (l : Lane) (id : Byte) (s : State) : BlockStep s (expireObj l id s) := by
  unfold Machine.expireObj
  split
  · exact refl s
  · split
    · dsimp only
      split
      · exact ((updateObj ..).trans (removeObj ..)).trans (postSelf ..)
      · exact updateObj ..
    · exact refl s

theorem timeObj (l : Lane) (id : Byte) (s : State) : BlockStep s (timeObj l id s) := by
  unfold Machine.timeObj
  split
  · exact refl s
  · split
    · exact refl s
    · split
      · exact updateObj ..
      · exact (removeObj ..).trans (postSelf ..)

theorem discardReserve (i : Ident) (s : State) : BlockStep s (discardReserve i s) := by
  unfold Machine.discardReserve
  dsimp only
  split
  · split
    · exact (setObjects ..).trans (setAlerts _ _ (fun h => h))
    · exact setObjects ..
  · exact setObjects ..

theorem timeReserve (i : Ident) (s : State) : BlockStep s (timeReserve i s) := by
  unfold Machine.timeReserve
  split
  · exact refl s
  · split
    · exact refl s
    · split
      · exact setObjects ..
      · exact (discardReserve ..).trans (postSelf ..)

theorem storeBoundary (s : State) : BlockStep s (storeBoundary s) :=
  ((forLanes (fun _ _ => forEach (expireObj _) _ _) _).trans (forLanes (fun _ _ => forEach (timeObj _) _ _) _)).trans
    (forEach timeReserve _ _)

theorem evictReserve (s : State) : BlockStep s (evictReserve s) := by
  unfold Machine.evictReserve
  split
  · exact refl s
  · split
    · exact discardReserve ..
    · exact refl s

theorem allocateEntry (i : Ident) (x : Source) (n : Nat) (k : BitVec 4) (s : State) :
    BlockStep s (allocateEntry i x n k s) :=
  ((discardReserve ..).trans (evictReserve _)).trans (setObjects ..)

theorem allocateReserve (i : Ident) (x : Source) (n : Nat) (k : BitVec 4) (s : State) :
    BlockStep s (allocateReserve i x n k s).2 := by
  unfold Machine.allocateReserve
  split
  · dsimp only
    split
    · exact refl s
    · exact postSelf ..
  · split
    · split
      · exact refl s
      · split
        · exact refl s
        · exact allocateEntry ..
    · exact allocateEntry ..

theorem reserveChunk (i : Ident) (n : BitVec 24) (bs : List Byte) (s : State) :
    BlockStep s (reserveChunk i n bs s) := by
  unfold Machine.reserveChunk
  dsimp only
  split
  · exact postSelf ..
  · split
    · exact postSelf ..
    · split
      · exact (discardReserve ..).trans (postSelf ..)
      · split
        · exact (discardReserve ..).trans (postSelf ..)
        · exact acceptBytes ..

theorem reserveAppend (i : Ident) (bs : List Byte) (s : State) : BlockStep s (reserveAppend i bs s) := by
  unfold Machine.reserveAppend
  split
  · split
    · exact acceptBytes ..
    · exact refl s
  · exact refl s

theorem freeReserve (s : State) : BlockStep s (freeReserve s) := setObjects ..

/-! ### Lane Units -/

theorem onUnit (i : LaneId) (f : LaneUnit → LaneUnit) (s : State)
    (h : (s.units.get i).FifoSound → (f (s.units.get i)).FifoSound) : BlockStep s (onUnit i f s) := setUnit _ _ _ h

theorem resplit (i : LaneId) (s : State) : BlockStep s (resplit i s) := onUnit _ _ _ id

theorem setLaneState (i : LaneId) (x : LaneState) (s : State) : BlockStep s (setLaneState i x s) := onUnit _ _ _ id

theorem makeStatus (l : Lane) (s : State) : BlockStep s (makeStatus l s) := by
  unfold Machine.makeStatus
  split
  · exact setReturn ..
  · exact refl s

theorem discard_sound (u : LaneUnit) : u.discard.FifoSound := by
  simp [LaneUnit.FifoSound, LaneUnit.discard]

theorem statusIfHeld (i : LaneId) (x : Intake) (s : State) : BlockStep s (statusIfHeld i x s) := by
  unfold Machine.statusIfHeld
  split
  · exact makeStatus ..
  · exact refl s

theorem closeSched (i : LaneId) (s : State) : BlockStep s (closeSched i s) := by
  unfold Machine.closeSched
  split
  · exact refl s
  · exact ((setSched ..).trans (interruptCaptions ..)).trans (interruptPicture ..)

theorem closeLane (i : LaneId) (s : State) : BlockStep s (closeLane i s) :=
  (((onUnit i (fun u => { u.discard with state := .closed }) s (fun _ => discard_sound (s.units.get i))).trans (closeSched ..)).trans
    (postSelf ..)).trans (statusIfHeld ..)

theorem onTenancy (i : LaneId) (f : Tenancy → Tenancy) (s : State) : BlockStep s (onTenancy i f s) := setTenancy ..

theorem checkRestore (l : Lane) (s : State) : BlockStep s (checkRestore l s) := by
  unfold Machine.checkRestore
  dsimp only
  split
  · split
    · exact (onTenancy ..).trans (setLaneState ..)
    · exact refl s
  · exact refl s

theorem reportService (l : Lane) (s : State) : BlockStep s (reportService l s) := by
  unfold Machine.reportService
  dsimp only
  split
  · exact refl s
  · split
    · exact setLaneState ..
    · exact refl s
  · split
    · exact setLaneState ..
    · exact refl s
  · split
    · exact setLaneState ..
    · split
      · exact setLaneState ..
      · exact refl s
  · exact checkRestore ..
  · split
    · exact closeLane ..
    · exact refl s

theorem reportAlert (s : State) : BlockStep s (reportAlert s) := by
  unfold Machine.reportAlert
  dsimp only
  split
  · split
    · exact setLaneState ..
    · exact refl s
  · split
    · exact setLaneState ..
    · exact refl s
  · split
    · split
      · exact ((closeLane ..).trans (setLaneState ..)).trans (postSelf ..)
      · exact closeLane ..
    · exact refl s
  all_goals exact refl s

theorem reportLane (i : LaneId) (s : State) : BlockStep s (reportLane i s) := by
  unfold Machine.reportLane
  refine (resplit i s).trans ?_
  dsimp only
  split
  · exact reportService ..
  · exact reportAlert ..

end BlockStep

end Sys2Proof.Machine
end

