-- ==== Sys2Proof/Laws/Tenancy.lean ====
section
/-! SUPPORT. What the operations of the Tenancy Unit and the lane records can do: one `BlockStep` lemma each. -/

namespace Sys2Proof.Machine.BlockStep

theorem setChange (i : LaneId) (k : ChangeKind) (r : Rank) (rs : List Run) (s : State) :
    BlockStep s (setChange i k r rs s) := onTenancy ..

theorem setRelease (i : LaneId) (n : Nat) (s : State) : BlockStep s (setRelease i n s) := setChange ..

theorem defer (i : LaneId) (d : Deferral) (a : Nat) (s : State) : BlockStep s (defer i d a s) := by
  unfold Machine.defer
  dsimp only
  split
  · exact onTenancy ..
  · exact (onTenancy ..).trans (postSelf ..)

theorem makeClaim (i : LaneId) (r : Rank) (n : Nat) (s : State) : BlockStep s (makeClaim i r n s) := by
  unfold Machine.makeClaim
  exact cond _ (((setChange ..).trans (onTenancy ..)).trans (reportLane ..)) (defer ..)

theorem planAttempt (i : LaneId) (s : State) : BlockStep s (planAttempt i s) := by
  unfold Machine.planAttempt
  dsimp only
  split
  · split
    · exact (setRelease ..).trans (reportLane ..)
    · exact refl s
  · split
    · exact refl s
    · split
      · split
        · exact defer ..
        · exact makeClaim ..
      · exact refl s

theorem withdrawCore (i : LaneId) (c : Nat) (n : Node) (s : State) : BlockStep s (withdrawCore i c n s) := by
  unfold Machine.withdrawCore
  split
  · split
    · exact (onTenancy ..).trans (postSelf ..)
    · exact refl s
  · exact refl s

theorem withdraw (i : LaneId) (c : Nat) (n : Node) (s : State) : BlockStep s (withdraw i c n s) := by
  unfold Machine.withdraw
  split
  · exact (withdrawCore ..).trans (reportLane ..)
  · exact refl s

theorem withdrawRank (i : LaneId) (r : Rank) (c : Nat) (s : State) : BlockStep s (withdrawRank i r c s) := by
  unfold Machine.withdrawRank
  split
  · split
    · exact withdraw ..
    · exact refl s
  · exact refl s

theorem conflictCheck (m : Node) (b : Bool) (sh : Sheet) (i : LaneId) (s : State) :
    BlockStep s (conflictCheck m b sh i s) := by
  unfold Machine.conflictCheck
  split
  · exact refl s
  · exact cond _ (refl s) (cond _ (withdraw ..) (cond _ (withdraw ..) (refl s)))

theorem applyRelease (i : LaneId) (s : State) : BlockStep s (applyRelease i s) := by
  unfold Machine.applyRelease
  split
  · split
    · exact (onTenancy ..).trans (postSelf ..)
    · exact refl s
  · exact refl s

theorem applyClaim (i : LaneId) (s : State) : BlockStep s (applyClaim i s) := by
  unfold Machine.applyClaim
  split
  · split
    · exact (onTenancy ..).trans (postSelf ..)
    · exact refl s
  · exact refl s

theorem tenancySteps12 (s : State) : BlockStep s (tenancySteps12 s) :=
  ((forEach applyRelease _ _).trans (forEach applyClaim _ _)).trans (forEach reportLane _ _)

theorem stepFour (i : LaneId) (s : State) : BlockStep s (stepFour i s) := by
  unfold Machine.stepFour
  dsimp only
  split
  · split
    · exact (onTenancy ..).trans (planAttempt ..)
    · exact onTenancy ..
  · exact planAttempt ..

theorem tenancyStep4 (s : State) : BlockStep s (tenancyStep4 s) := forEach stepFour _ _

theorem shrinkLane (l : Lane) (k : Nat) (s : State) : BlockStep s (shrinkLane l k s) := by
  unfold Machine.shrinkLane
  split
  · exact refl s
  · exact ((onTenancy ..).trans (postSelf ..)).trans (reportLane ..)

theorem dropFragment (i : LaneId) (f : Fragment) (s : State) : BlockStep s (dropFragment i f s) :=
  ((onTenancy ..).trans (postSelf ..)).trans (reportLane ..)

theorem lostSlot (i : LaneId) (c : Nat) (p : FramePos) (s : State) : BlockStep s (lostSlot i c p s) := by
  unfold Machine.lostSlot
  split
  · exact refl s
  · split
    · exact dropFragment ..
    · exact onTenancy ..

theorem clearMarks (p : FramePos) (s : State) : BlockStep s (clearMarks p s) :=
  forEach (fun _ _ => onTenancy ..) _ _

theorem setTargetRate (l : Lane) (r : Nat) (s : State) : BlockStep s (setTargetRate l r s) := onTenancy ..

theorem openService (l : Lane) (r : Nat) (s : State) : BlockStep s (openService l r s) :=
  (((setLaneState ..).trans (postSelf ..)).trans (setTargetRate ..)).trans (planAttempt ..)

/-- The takeover stack's soundness does not speak of what a context keeps beside its level and alert. -/
theorem stackSound_map {f : Context → Context} (hl : ∀ c, (f c).level = c.level)
    (hf : ∀ c, (f c).followed.map (fun x => x.ident.level) = c.followed.map (fun x => x.ident.level))
    (hn : ∀ c, c.followed = none → (f c).followed = none) :
    ∀ {n : Nat} {a b : Option Followed} {cs : List Context},
      b.map (fun x => x.ident.level) = a.map (fun x => x.ident.level) → (a = none → b = none) →
      StackSound n a cs → StackSound n b (cs.map f)
  | _, _, _, [], _, hab, h => ⟨h.1, hab h.2⟩
  | _, _, _, c :: cs, hb, _, h => by
    refine ⟨by rw [hl]; exact h.1, by rw [hb]; exact h.2.1, ?_⟩
    rw [hl]
    exact stackSound_map hl hf hn (hf c) (hn c) h.2.2

theorem mapLast_stack (f : Context → Context) (hl : ∀ c, (f c).level = c.level)
    (hf : ∀ c, (f c).followed = c.followed) :
    ∀ {n : Nat} {a : Option Followed} {cs : List Context}, StackSound n a cs → StackSound n a (mapLast f cs)
  | _, _, [], h => h
  | _, _, [c], h => by
    refine ⟨by rw [hl]; exact h.1, h.2.1, ?_⟩
    rw [hl, hf]; exact h.2.2
  | _, _, c :: d :: cs, h => ⟨h.1, h.2.1, mapLast_stack f hl hf h.2.2⟩

theorem keepRate (l : Lane) (r : Nat) (s : State) : BlockStep s (keepRate l r s) :=
  setAlerts _ _ (fun h => mapLast_stack (fun c => { c with kept := c.kept.set l (some r) }) (fun _ => rfl) (fun _ => rfl) h)

theorem rateRequest (l : Lane) (r : Nat) (s : State) : BlockStep s (rateRequest l r s) := by
  unfold Machine.rateRequest
  split
  · exact keepRate ..
  · exact (((setTargetRate ..).trans (withdrawCore ..)).trans (checkRestore ..)).trans (planAttempt ..)

theorem closeContexts (l : Lane) (s : State) : BlockStep s (closeContexts l s) :=
  setAlerts _ _ (fun h => stackSound_map
    (f := fun c => { c with restore := c.restore.set l ((c.restore.get l).map (fun _ => 0)), kept := c.kept.set l none })
    (fun _ => rfl) (fun _ => rfl) (fun _ h => h) rfl id h)

theorem tenancyClose (l : Lane) (s : State) : BlockStep s (tenancyClose l s) := by
  unfold Machine.tenancyClose
  dsimp only
  split
  · exact ((onTenancy ..).trans (withdrawCore ..)).trans (setRelease ..)
  · exact (onTenancy ..).trans (withdrawCore ..)

theorem closeService (l : Lane) (s : State) : BlockStep s (closeService l s) := by
  unfold Machine.closeService
  dsimp only
  split
  · exact ((tenancyClose ..).trans (closeContexts ..)).trans (setLaneState ..)
  · exact ((tenancyClose ..).trans (closeContexts ..)).trans (closeLane ..)

theorem alertLaneTargetState (n : Nat) (s : State) : BlockStep s (alertLaneTargetState n s) := by
  unfold Machine.alertLaneTargetState
  dsimp only
  split
  · split
    · split
      · exact refl s
      · exact setLaneState ..
    · split
      · exact refl s
      · exact closeLane ..
  · split
    · exact (setLaneState ..).trans (postSelf ..)
    · exact refl s

theorem setAlertTarget (n : Nat) (s : State) : BlockStep s (setAlertTarget n s) := by
  unfold Machine.setAlertTarget
  dsimp only
  split
  · exact (((onTenancy ..).trans (withdrawCore ..)).trans (alertLaneTargetState ..)).trans (planAttempt ..)
  · exact ((onTenancy ..).trans (alertLaneTargetState ..)).trans (planAttempt ..)

/-! ### Lane records -/

theorem statusForIntake (i : LaneId) (s : State) : BlockStep s (statusForIntake i s) := by
  unfold Machine.statusForIntake
  split
  · exact makeStatus ..
  · exact refl s

theorem appendUnit (i : LaneId) (bs : List Byte) (s : State) : BlockStep s (appendUnit i bs s) := by
  unfold Machine.appendUnit
  dsimp only
  split
  · rename_i hu
    refine setUnit _ _ _ fun h => ⟨h.1, ?_⟩
    have h2 := h.2
    simp only [hu] at h2 ⊢
    simp only [Config.maxDropped] at *
    omega
  · rename_i hu
    split
    · refine setUnit _ _ _ fun h => ⟨?_, h.2⟩
      have h1 := h.1
      simp only [List.length_append]
      omega
    · refine ((setUnit s i { s.units.get i with intake := .held, dropped := 1 } fun h => ⟨h.1, ?_⟩).trans
        (postSelf ..)).trans (statusForIntake ..)
      simp [Config.maxDropped]

theorem audioUnitOp (l : Lane) (bs : List Byte) (s : State) : BlockStep s (audioUnitOp l bs s) := by
  unfold Machine.audioUnitOp
  split
  · exact appendUnit ..
  · exact refl s

theorem postRateClamped (l : Lane) (a b : Nat) (s : State) : BlockStep s (postRateClamped l a b s) := by
  unfold Machine.postRateClamped
  split
  · exact refl s
  · exact postSelf ..

theorem rateOp (l : Lane) (c : Contract) (a : Nat) (s : State) : BlockStep s (rateOp l c a s) :=
  (postRateClamped ..).trans (rateRequest ..)

theorem laneOpenOp (l : Lane) (c : Contract) (r : Option (BitVec 16)) (s : State) :
    BlockStep s (laneOpenOp l c r s) := by
  unfold Machine.laneOpenOp
  split
  · split
    · split
      · exact openService ..
      · exact (postRateClamped ..).trans (openService ..)
    · exact refl s
  iterate 4
    split
    · exact refl s
    · exact rateOp ..
  exact refl s

theorem laneRateOp (l : Lane) (c : Contract) (r : BitVec 16) (s : State) : BlockStep s (laneRateOp l c r s) := by
  unfold Machine.laneRateOp
  split <;> first | exact rateOp .. | exact refl s

theorem laneCloseOp (l : Lane) (s : State) : BlockStep s (laneCloseOp l s) := by
  unfold Machine.laneCloseOp
  split <;> first | exact closeService .. | exact refl s

theorem laneResetOp (l : Lane) (s : State) : BlockStep s (laneResetOp l s) :=
  (((((setUnit _ _ _ fun _ => discard_sound _).trans (onCaptions _ _ _ (fun h => h.discardAll))).trans
    (discardPictures ..)).trans (setSched ..)).trans (postSelf ..)).trans (statusIfHeld ..)

end Sys2Proof.Machine.BlockStep

namespace Sys2Proof.Machine

/-! ### Planning leaves the Alert Controller alone -/

@[simp] theorem onUnit_alerts (i : LaneId) (f : LaneUnit → LaneUnit) (s : State) : (onUnit i f s).alerts = s.alerts := rfl
@[simp] theorem onTenancy_alerts (i : LaneId) (f : Tenancy → Tenancy) (s : State) : (onTenancy i f s).alerts = s.alerts := rfl
@[simp] theorem postSelf_alerts (k : EventKind) (l : Option LaneId) (a : Nat) (s : State) :
    (postSelf k l a s).alerts = s.alerts := rfl

@[simp] theorem interruptPicture_alerts (l : Lane) (s : State) : (interruptPicture l s).alerts = s.alerts := by
  unfold interruptPicture; dsimp only; split <;> [rfl; split <;> rfl]

@[simp] theorem closeLane_alerts (i : LaneId) (s : State) : (closeLane i s).alerts = s.alerts := by
  have made : ∀ l (t : State), (makeStatus l t).alerts = t.alerts := by
    intro l t; unfold makeStatus; split <;> rfl
  have status : ∀ w (t : State), (statusIfHeld i w t).alerts = t.alerts := by
    intro w t; unfold statusIfHeld; split <;> simp [made]
  cases i <;> simp [closeLane, closeSched, status, onCaptions]

@[simp] theorem checkRestore_alerts (l : Lane) (s : State) : (checkRestore l s).alerts = s.alerts := by
  unfold checkRestore; dsimp only; split <;> [split <;> rfl; rfl]

@[simp] theorem reportLane_alerts (i : LaneId) (s : State) : (reportLane i s).alerts = s.alerts := by
  cases i with
  | svc l =>
    show (reportService l (resplit (.svc l) s)).alerts = _
    unfold reportService
    dsimp only
    repeat' split
    all_goals simp [setLaneState, resplit]
  | alert =>
    show (reportAlert (resplit .alert s)).alerts = _
    unfold reportAlert
    dsimp only
    repeat' split
    all_goals simp [setLaneState, resplit]

/-- A planning attempt changes nothing that the Alert Controller owns (R58). -/
@[simp] theorem planAttempt_alerts (i : LaneId) (s : State) : (planAttempt i s).alerts = s.alerts := by
  have deferred : ∀ d a (t : State), (defer i d a t).alerts = t.alerts := by
    intro d a t; unfold defer; dsimp only; split <;> simp
  unfold planAttempt makeClaim
  dsimp only
  repeat' split
  all_goals simp [setRelease, setChange, deferred]

end Sys2Proof.Machine
end

