-- ==== Sys2Proof/Laws/Alerts.lean ====
section
/-! SUPPORT. What the operations of the Alert Controller, relay reassembly and the Annex Schedulers can do: one `BlockStep`
lemma each; what an announced sheet and an alert segment carry; and the identity of highest level. -/

namespace Sys2Proof.Machine.BlockStep

/-- Alert fields other than level, followed alert and takeover stack changed. -/
theorem setAlertsSame (s : State) (x : AlertCtl) (h1 : x.level = s.alerts.level := by rfl)
    (h2 : x.followed = s.alerts.followed := by rfl) (h3 : x.stack = s.alerts.stack := by rfl) : BlockStep s (s.setAlerts x) :=
  setAlerts _ _ (fun h => by unfold AlertCtl.Sound at *; rw [h1, h2, h3]; exact h)

/-- Followed and saved alerts changed in nothing but lead, entry boundary and hold. -/
theorem setAlertsFollowed (s : State) (x : AlertCtl) (h1 : x.level = s.alerts.level)
    (h2 : x.followed.map (fun f => f.ident.level) = s.alerts.followed.map (fun f => f.ident.level))
    (f : Context → Context) (h3 : x.stack = s.alerts.stack.map f) (hl : ∀ c, (f c).level = c.level)
    (hf : ∀ c, (f c).followed.map (fun x => x.ident.level) = c.followed.map (fun x => x.ident.level)) :
    BlockStep s (s.setAlerts x) := by
  refine setAlerts _ _ (fun h => ?_)
  unfold AlertCtl.Sound at *
  rw [h1, h3]
  refine stackSound_map hl hf (fun c hc => ?_) h2 (fun ha => ?_) h
  · have := hf c; rw [hc] at this; simpa using this
  · rw [ha] at h2; simpa using h2

theorem updateOwn (i : Ident) (f : OwnAlert → OwnAlert) (s : State) : BlockStep s (s.updateOwn i f) :=
  setAlertsSame ..

theorem dropKeptText (i : Ident) (s : State) : BlockStep s (dropKeptText i s) := setAlertsSame ..

theorem dropRelayText (i : Ident) (s : State) : BlockStep s (dropRelayText i s) :=
  (dropKeptText ..).trans (setAlertsSame ..)

theorem sweepIdents (before : List Ident) (s : State) : BlockStep s (sweepIdents before s) :=
  forEach (fun _ _ => (discardReserve ..).trans (dropRelayText ..)) _ _

theorem keeping {f : State → State} (h : ∀ s, BlockStep s (f s)) (s : State) : BlockStep s (keeping f s) :=
  (h s).trans (sweepIdents ..)

theorem postAlert (k : EventKind) (n : Node) (i : Ident) (s : State) : BlockStep s (postAlert k n i s) := post ..

theorem updateLaneAlert (s : State) : BlockStep s (updateLaneAlert s) := by
  unfold Machine.updateLaneAlert
  have h1 : BlockStep s (s.setAlerts { s.alerts with laneAlert := s.laneAlertNow }) := setAlertsSame ..
  exact cond _ (refl s) (cond _ (h1.trans (setSched ..)) ((h1.trans (setSched ..)).trans (setAlertTarget ..)))

theorem originate (i : Ident) (s : State) : BlockStep s (originate i s) :=
  ((updateOwn ..).trans (updateLaneAlert _)).trans (updateOwn ..)

theorem takeOver (i : Ident) (s : State) : BlockStep s (takeOver i s) := (updateOwn ..).trans (updateLaneAlert _)

theorem copyShadow (i : Ident) (s : State) : BlockStep s (copyShadow i s) := by
  unfold Machine.copyShadow
  split
  · exact updateOwn ..
  · exact refl s

theorem copyShadows (s : State) : BlockStep s (copyShadows s) := forEach copyShadow _ _

theorem applyRole (i : Ident) (s : State) : BlockStep s (applyRole i s) := by
  unfold Machine.applyRole
  split
  · exact refl s
  · split
    · exact cond _ (refl s) (cond _ (originate ..) (takeOver ..))
    · exact ((updateOwn ..).trans (copyShadow ..)).trans (updateLaneAlert _)
    · exact (updateOwn ..).trans (updateLaneAlert _)

theorem applyRoles (s : State) : BlockStep s (applyRoles s) := forEach applyRole _ _

/-! ### The follower's side -/

theorem holdAlert (a : HeldAlert) (s : State) : BlockStep s (holdAlert a s) := by
  exact (setAlertsSame ..).trans (postAlert ..)

theorem offerAlert (a : HeldAlert) (s : State) : BlockStep s (offerAlert a s) := by
  unfold Machine.offerAlert
  split
  · exact holdAlert ..
  · exact cond _ (holdAlert ..) (refl s)

theorem scheduleAlert (a : HeldAlert) (s : State) : BlockStep s (scheduleAlert a s) := setAlertsSame ..

theorem pruneScheduled (s : State) : BlockStep s (pruneScheduled s) := setAlertsSame ..

theorem switchLead (s : State) : BlockStep s (switchLead s) := by
  unfold Machine.switchLead
  split
  · exact refl s
  · rename_i f hf
    dsimp only
    split
    · exact refl s
    · exact setAlertsFollowed _ _ rfl (by simp [hf]) id (by simp) (fun _ => rfl) (fun _ => rfl)

theorem switchSaved (s : State) : BlockStep s (switchSaved s) := by
  unfold Machine.switchSaved
  refine setAlertsFollowed _ _ rfl rfl _ rfl (fun c => ?_) (fun c => ?_)
  · split
    · split <;> rfl
    · rfl
  · split
    · rename_i f hf
      split <;> simp [hf]
    · rfl

theorem scheduleCandidate (s : State) : BlockStep s (scheduleCandidate s) := by
  unfold Machine.scheduleCandidate
  split
  · exact refl s
  · exact cond _ (scheduleAlert ..) (refl s)

theorem noteEnd (i : Ident) (n : Node) (b : Cycle) (s : State) : BlockStep s (noteEnd i n b s) := setAlertsSame ..

theorem noteLeadEnds (s : State) : BlockStep s (noteLeadEnds s) := setAlertsSame ..

theorem judgeAlerts (s : State) : BlockStep s (judgeAlerts s) :=
  (((((pruneScheduled _).trans (switchLead _)).trans (switchSaved _)).trans (noteLeadEnds _)).trans
    (scheduleCandidate _)).trans (forEach offerAlert _ _)

theorem updateRedirect (s : State) : BlockStep s (updateRedirect s) := setAlertsSame ..

theorem pictureGap (i : Ident) (s : State) : BlockStep s (pictureGap i s) := by
  unfold Machine.pictureGap
  split
  · exact refl s
  · dsimp only
    split
    · exact (discardReserve ..).trans (setAlertsSame ..)
    · exact setAlertsSame ..

theorem syncRelay (s : State) : BlockStep s (syncRelay s) := by
  unfold Machine.syncRelay
  refine cond _ (refl s) ?_
  dsimp only
  split
  · exact (pictureGap ..).trans (setAlertsSame ..)
  · exact setAlertsSame ..

theorem noteRedirect (s : State) : BlockStep s (noteRedirect s) := setAlertsSame ..

theorem noteYields (s : State) : BlockStep s (noteYields s) := setAlertsSame ..

theorem judged (s : State) : BlockStep s (judged s) :=
  (((judgeAlerts s).trans (noteRedirect _)).trans (noteYields _)).trans (syncRelay _)

theorem unschedule (i : Ident) (n : Node) (s : State) : BlockStep s (unschedule i n s) := setAlertsSame ..

theorem lose_ident (f : Followed) (o : Option Node) : (f.lose o).ident = f.ident := by
  unfold Followed.lose; split <;> rfl

theorem loseLead (m : Node) (i : Ident) (s : State) : BlockStep s (loseLead m i s) := by
  unfold Machine.loseLead
  refine setAlertsFollowed _ _ rfl ?_ _ rfl (fun c => rfl) (fun c => ?_)
  · cases s.alerts.followed with
    | none => rfl
    | some f => simp only [Option.map_some]; split <;> simp [lose_ident]
  · cases c.followed with
    | none => rfl
    | some f => simp only [Option.map_some]; split <;> simp [lose_ident]

theorem headerFor (m : Node) (h : Header) (i : Ident) (s : State) : BlockStep s (headerFor m h i s) := by
  unfold Machine.headerFor
  split
  · exact (unschedule ..).trans (noteEnd ..)
  · split
    · split
      · exact (unschedule ..).trans (noteEnd ..)
      · exact refl s
    · exact loseLead ..
    · exact loseLead ..

theorem headerStored (m : Node) (b : Option Header) (h : Header) (s : State) :
    BlockStep s (headerStored m b h s) := by
  unfold Machine.headerStored
  exact cond _ (keeping (fun s => ((copyShadows s).trans (forEach (headerFor m h) _ _)).trans (judged _)) s) (refl s)

theorem peerLossAlerts (m : Node) (s : State) : BlockStep s (peerLossAlerts m s) := by
  unfold Machine.peerLossAlerts
  exact cond _ (keeping (fun s => (forEach (loseLead m) _ _).trans (judged _)) s) (refl s)

/-! ### Entry and exit -/

theorem squeezeLane (y : Nat) (l : Lane) (s : State) : BlockStep s (squeezeLane y l s) := by
  unfold Machine.squeezeLane
  refine cond _ (refl s) ((shrinkLane l (giveFor y (s.cells (.svc l)) (s.floorCells l)) s).trans ?_)
  dsimp only
  split <;> first | exact refl _ | exact (onTenancy ..).trans (setLaneState ..)

theorem holdOrdinary (l : Lane) (s : State) : BlockStep s (holdOrdinary l s) := by
  unfold Machine.holdOrdinary
  split
  · exact cond _ ((withdraw ..).trans (planAttempt ..)) (refl s)
  · exact refl s

theorem suspendLow (s : State) : BlockStep s (suspendLow s) :=
  forLanes (fun _ _ => (interruptCaptions ..).trans (interruptPicture ..)) s

theorem withdrawRanks (r : Rank) (c : Nat) (s : State) :
    BlockStep s (Machine.forLanes (fun l => Machine.withdrawRank (.svc l) r c) s) := forLanes (fun _ _ => withdrawRank ..) s

theorem condSnd {s t u : State} (c : Prop) [Decidable c] {a b : Bool} (h : BlockStep s t) (k : BlockStep s u) :
    BlockStep s (if c then (a, t) else (b, u)).2 := by
  split
  · exact h
  · exact k

/-- The only push of the takeover stack (R154). -/
theorem pushAlert (a : HeldAlert) (s : State) (h : s.alerts.level < a.ident.level) : BlockStep s (pushAlert a s) :=
  (setAlerts s { s.alerts with
    stack := s.contextNow :: s.alerts.stack, level := a.ident.level
    followed := some ⟨a.ident, a.lead, s.time.cycle, none⟩, redirectCycle := none }
    (fun hs => ⟨h, rfl, hs⟩)).trans (noteRedirect _)

/-- Entry to an alert above the current level (R154). -/
theorem enterAlert (a : HeldAlert) (x : Timing) (s : State) (h : s.alerts.level < a.ident.level) :
    BlockStep s (enterAlert a x s) := by
  simp only [Machine.enterAlert]
  refine (pushAlert a s h).trans ?_
  generalize Machine.pushAlert a s = u
  refine (post .alertFollowed a.lead.val none (1024 * x.code + a.ident.arg) u).trans ?_
  generalize Machine.post .alertFollowed a.lead.val none (1024 * x.code + a.ident.arg) u = v
  refine (postSelf .takeoverEnter none (256 * a.ident.level + v.alerts.stack.length) v).trans ?_
  generalize Machine.postSelf .takeoverEnter none (256 * a.ident.level + v.alerts.stack.length) v = w
  have h1 : BlockStep w (if s.alerts.level = 0 then Machine.forLanes Machine.holdOrdinary w else w) :=
    cond _ (forLanes holdOrdinary _) (refl w)
  refine h1.trans ?_
  generalize (if s.alerts.level = 0 then Machine.forLanes Machine.holdOrdinary w else w) = p
  refine (withdrawRanks .restore 6 p).trans ?_
  generalize Machine.forLanes (fun l => Machine.withdrawRank (.svc l) .restore 6) p = q
  have h2 : BlockStep q (if s.alerts.level ≤ 1 ∧ 2 ≤ a.ident.level then Machine.suspendLow q else q) :=
    cond _ (suspendLow _) (refl q)
  refine h2.trans ?_
  generalize (if s.alerts.level ≤ 1 ∧ 2 ≤ a.ident.level then Machine.suspendLow q else q) = r
  exact (resplit .alert r).trans (forLanes (fun l t => squeezeLane _ l t) (Machine.resplit .alert r))

theorem applyKept (l : Lane) (r : Nat) (c : Context) (s : State) : BlockStep s (applyKept l r c s).2 :=
  setTargetRate ..

theorem applyKepts (c : Context) (s : State) : BlockStep s (applyKepts c s).2 := by
  have key : ∀ (ls : List Lane) (p : Context × State), BlockStep s p.2 → BlockStep s (ls.foldl
      (fun (p : Context × State) l => match c.kept.get l with | some r => Machine.applyKept l r p.1 p.2 | none => p) p).2 := by
    intro ls
    induction ls with
    | nil => exact fun _ h => h
    | cons l ls ih =>
      intro p h
      refine ih _ ?_
      dsimp only
      split
      · exact h.trans (applyKept ..)
      · exact h
  exact key Lane.all (c, s) (refl s)

theorem restoreLane (l : Lane) (n : Nat) (s : State) : BlockStep s (restoreLane l n s) := by
  unfold Machine.restoreLane
  dsimp only
  split
  iterate 2 exact refl s
  iterate 4
    refine cond _ (((onTenancy ..).trans (setLaneState ..)).trans (checkRestore ..)) ?_
    exact cond _ (onTenancy ..) ((onTenancy ..).trans (setLaneState ..))

theorem restoreLanes (c : Context) (s : State) : BlockStep s (restoreLanes c s) := by
  refine forLanes (fun l s => ?_) s
  split
  · split
    · exact restoreLane ..
    · exact refl s
  · exact refl s

theorem restorePositions (c : Context) (s : State) : BlockStep s (restorePositions c s) :=
  forLanes (fun _ _ => (onCaptions _ _ _ (fun h => h.restore _)).trans (restorePicture ..)) s

theorem emptyCursors (s : State) : BlockStep s (emptyCursors s) := forEach (fun _ _ => setSched ..) _ _

/-- What a pop gives is sound when the stack is (R156). -/
theorem popContexts_sound : ∀ {cs : List Context} {n : Nat} {a : Option Followed} {k : Nat} {c : Context}
    {left : List Context}, StackSound n a cs → popContexts cs = some (k, c, left) → StackSound c.level c.followed left
  | [], _, _, _, _, _, _, h => by simp [popContexts] at h
  | d :: rest, n, a, k, c, left, hs, h => by
    unfold popContexts at h
    split at h
    · split at h
      · rename_i k' c' left' hp
        simp only [Option.some.injEq, Prod.mk.injEq] at h
        obtain ⟨-, rfl, rfl⟩ := h
        exact popContexts_sound hs.2.2 hp
      · simp only [Option.some.injEq, Prod.mk.injEq] at h
        obtain ⟨-, rfl, rfl⟩ := h
        exact hs.2.2
    · simp only [Option.some.injEq, Prod.mk.injEq] at h
      obtain ⟨-, rfl, rfl⟩ := h
      exact hs.2.2

theorem exitAlert (s : State) : BlockStep s (exitAlert s) := by
  unfold Machine.exitAlert
  split
  · exact refl s
  · rename_i n c left hp
    have h1 : BlockStep s (s.setAlerts { s.alerts with
        stack := left, level := c.level, followed := c.followed, redirect := none, redirectCycle := none }) :=
      setAlerts _ _ (fun h => popContexts_sound h hp)
    refine (h1.trans (restorePositions c _)).trans ?_
    dsimp only
    generalize Machine.restorePositions c _ = u
    have h2 : BlockStep u (if c.level = 0 then Machine.emptyCursors u else u) := cond _ (emptyCursors u) (refl u)
    generalize (if c.level = 0 then Machine.emptyCursors u else u) = v at h2 ⊢
    refine h2.trans ((resplit .alert v).trans ?_)
    generalize Machine.resplit .alert v = w
    have h3 : BlockStep w (if left.isEmpty = true then Machine.applyKepts c w else (c, w)).2 := by
      split
      · exact applyKepts c w
      · exact refl w
    generalize (if left.isEmpty = true then Machine.applyKepts c w else (c, w)) = p at h3 ⊢
    exact h3.trans ((restoreLanes ..).trans (postSelf ..))

theorem exitAttempts (s : State) : BlockStep s (exitAttempts s) := forEach planAttempt _ _

/-- The planning attempts of an exit leave the Alert Controller as it is. -/
theorem exitAttempts_alerts (s : State) : (Machine.exitAttempts s).alerts = s.alerts := by
  unfold Machine.exitAttempts
  generalize LaneId.planningOrder.filter _ = is
  induction is generalizing s with
  | nil => rfl
  | cons i is ih => exact (ih (Machine.planAttempt i s)).trans (planAttempt_alerts i s)

theorem boundaryEntries (ex : Bool) (s : State) : BlockStep s (boundaryEntries ex s) := by
  unfold Machine.boundaryEntries
  dsimp only
  have h1 : BlockStep s (s.setAlerts { s.alerts with
      scheduled := s.alerts.scheduled.filter (fun x => x.boundary != s.time.cycle) }) := setAlertsSame ..
  refine BlockStep.trans h1 ?_
  generalize s.setAlerts { s.alerts with
    scheduled := s.alerts.scheduled.filter (fun x => x.boundary != s.time.cycle) } = u
  split
  · exact refl u
  · rename_i b hb
    by_cases hl : u.alerts.level < b.ident.level
    · rw [if_pos hl]
      have h2 : BlockStep u (u.setAlerts { u.alerts with
          pendingAlerts := u.alerts.pendingAlerts.filter (fun x => x.ident != b.ident) }) := setAlertsSame ..
      refine h2.trans ?_
      generalize hv : u.setAlerts { u.alerts with
          pendingAlerts := u.alerts.pendingAlerts.filter (fun x => x.ident != b.ident) } = v
      have hl : v.alerts.level < b.ident.level := hv ▸ hl
      have h3 : BlockStep v (if ex then Machine.exitAttempts v else v) := cond _ (exitAttempts v) (refl v)
      have hw : (if ex then Machine.exitAttempts v else v).alerts = v.alerts := by
        split
        · exact exitAttempts_alerts v
        · rfl
      generalize (if ex then Machine.exitAttempts v else v) = w at h3 hw
      exact h3.trans (BlockStep.trans (enterAlert b _ w (by rwa [hw])) (forEach offerAlert _ _))
    · rw [if_neg hl]
      exact forEach offerAlert _ _

/-! ### Boundaries -/

theorem stepOnAir (i : Ident) (s : State) : BlockStep s (stepOnAir i s) := by
  unfold Machine.stepOnAir
  split
  · exact refl s
  · refine cond _ ?_ (refl s)
    exact cond _ (((updateOwn ..).trans (updateOwn ..)).trans (postSelf ..)) (updateOwn ..)

theorem stepOnAirs (s : State) : BlockStep s (stepOnAirs s) := forEach stepOnAir _ _

theorem stepHolds (s : State) : BlockStep s (stepHolds s) := by
  refine setAlertsFollowed _ _ rfl ?_ _ rfl (fun c => ?_) (fun c => ?_)
  · cases s.alerts.followed <;> rfl
  · split <;> rfl
  · split
    · rfl
    · cases c.followed <;> rfl

theorem orphanSaved (s : State) : BlockStep s (orphanSaved s) := by
  unfold Machine.orphanSaved
  dsimp only
  refine BlockStep.trans ?_ (forEach (fun _ _ => postAlert ..) _ _)
  refine setAlertsFollowed _ _ rfl rfl _ rfl (fun c => ?_) (fun c => ?_)
  · show (ite _ _ _ : Context).level = _
    split <;> rfl
  · show (ite _ _ _ : Context).followed.map _ = _
    split <;> rfl

theorem applyEnd (n : EndNote) (s : State) : BlockStep s (applyEnd n s) := by
  unfold Machine.applyEnd
  dsimp only
  have h1 : ∀ (p : Context → Bool), BlockStep s (s.setAlerts { s.alerts with
      stack := s.alerts.stack.map (fun c => if p c then { c with ended := true } else c)
      scheduled := s.alerts.scheduled.filter (fun x => !(x.ident == n.ident && x.lead == n.lead))
      pendingAlerts := s.alerts.pendingAlerts.filter (fun x => !(x.ident == n.ident && x.lead == n.lead))
      own := s.alerts.own.filter (fun o => !o.endsWith n s.node (s.copyLead o.ident))
      ends := s.alerts.ends.filter (fun x => x != n) }) := by
    intro p
    refine setAlertsFollowed _ _ rfl rfl _ rfl (fun c => ?_) (fun c => ?_)
    · split <;> rfl
    · split <;> rfl
  exact cond _ ((h1 _).trans (postAlert ..)) (h1 _)

theorem postOrphan (o : Option Followed) (s : State) : BlockStep s (postOrphan o s) := by
  cases o with
  | none => exact refl s
  | some f => exact postAlert ..

theorem boundaryExits (s : State) : BlockStep s (boundaryExits s).2 := by
  have h : BlockStep s (Machine.updateLaneAlert (Machine.postOrphan (s.orphanNow (s.followedEnds s.dueEnds))
      (Machine.forEach s.dueEnds Machine.applyEnd s))) :=
    ((forEach applyEnd _ _).trans (postOrphan ..)).trans (updateLaneAlert _)
  exact condSnd _ (h.trans (exitAlert _)) h

theorem alertBoundary (s : State) : BlockStep s (alertBoundary s) := by
  unfold Machine.alertBoundary
  refine cond _ (keeping (fun s => ?_) s) (refl s)
  exact ((((((stepOnAirs s).trans (stepHolds _)).trans (orphanSaved _)).trans (boundaryExits _)).trans
    (boundaryEntries ..)).trans (updateRedirect _)).trans ((applyRoles _).trans (judged _))

/-! ### Relay reassembly -/

theorem storeRelayText (i : Ident) (n : Node) (t : Nat) (bs : List Byte) (s : State) :
    BlockStep s (storeRelayText i n t bs s) := by
  unfold Machine.storeRelayText
  exact cond _ (refl s) (cond _ ((dropKeptText ..).trans (setAlertsSame ..)) ((dropKeptText ..).trans (setAlertsSame ..)))

theorem captionAccept (c : CaptionCollect) (i : Ident) (n : Node) (b : Bool) (s : State) :
    BlockStep s (captionAccept c i n b s) := by
  unfold Machine.captionAccept
  exact cond _ (setAlertsSame ..)
    (cond _ ((setAlertsSame ..).trans (storeRelayText ..)) (setAlertsSame ..))

theorem captionSegment (g : Segment) (i : Ident) (n : Node) (s : State) : BlockStep s (captionSegment g i n s) := by
  unfold Machine.captionSegment
  refine cond _ (captionAccept ..) ?_
  split
  · exact refl s
  · exact cond _ (captionAccept ..) (setAlertsSame ..)

theorem pictureBytes (c : PictureCollect) (bs : List Byte) (b : Bool) (i : Ident) (s : State) :
    BlockStep s (pictureBytes c bs b i s) := by
  unfold Machine.pictureBytes
  exact cond _ (pictureGap ..) (cond _ ((reserveAppend ..).trans (setAlertsSame ..))
    ((reserveAppend ..).trans (setAlertsSame ..)))

theorem pictureAccept (c : PictureCollect) (g : Segment) (i : Ident) (n : Node) (s : State) :
    BlockStep s (pictureAccept c g i n s) := by
  unfold Machine.pictureAccept
  have h1 : BlockStep s (s.setAlerts { s.alerts with
      pictureCollector := some { c with sizeBytes := c.sizeBytes ++ g.payload.take (3 - c.sizeBytes.length) } }) :=
    setAlertsSame ..
  refine cond _ (cond _ (h1.trans (pictureGap ..)) h1) (cond _ (h1.trans (pictureBytes ..)) ?_)
  dsimp only
  split
  · exact (h1.trans (allocateReserve ..)).trans (setAlertsSame ..)
  · exact (h1.trans (allocateReserve ..)).trans (setAlertsSame ..)
  · exact ((h1.trans (allocateReserve ..)).trans (setAlertsSame ..)).trans (pictureBytes ..)

theorem pictureSegment (g : Segment) (i : Ident) (n : Node) (s : State) : BlockStep s (pictureSegment g i n s) := by
  unfold Machine.pictureSegment
  refine cond _ ((pictureGap ..).trans (pictureAccept ..)) ?_
  split
  · exact refl s
  · exact cond _ (pictureAccept ..) (pictureGap ..)

theorem readAnnex (i : Ident) (n : Node) (k r : Nat) (bs : List (Option Byte)) (s : State) :
    BlockStep s (readAnnex i n k r bs s) := by
  induction k generalizing r bs s with
  | zero => exact refl s
  | succ k ih =>
    unfold Machine.readAnnex
    split
    · exact refl s
    · dsimp only
      refine BlockStep.trans ?_ (ih _ _ _)
      split
      · exact captionSegment ..
      · exact pictureSegment ..

theorem relayEnd (s : State) : BlockStep s (relayEnd s) := by
  unfold Machine.relayEnd
  split
  · refine cond _ ?_ (refl s)
    split
    · exact readAnnex ..
    · exact refl s
  · exact refl s

theorem relayLeftover (s : State) : BlockStep s (relayLeftover s) := by
  unfold Machine.relayLeftover
  exact cond _ (keeping relayEnd s) (refl s)

/-! ### Annex Schedulers and assembly -/

theorem lowMemberTurn (l : Lane) (m : LowMember) (n : Nat) (s : State) {g : Segment} {t : State}
    (h : lowMemberTurn l m n s = some (g, t)) : BlockStep s t := by
  unfold Machine.lowMemberTurn at h
  split at h
  · dsimp only at h
    split at h
    · rename_i hr
      rw [Option.map_eq_some_iff] at h
      obtain ⟨⟨g', c⟩, hs, heq⟩ := h
      simp only [Prod.mk.injEq] at heq
      obtain ⟨-, rfl⟩ := heq
      refine setCaptions _ _ _ (fun hc => (hc.testDwell s.pos).supply s.pos n ?_ hs)
      unfold CaptionCarousel.ready at hr
      rw [Bool.or_eq_true, Bool.and_eq_true] at hr
      exact hr.imp id (fun h => by simpa using h.2)
    · simp at h
  · exact supplyPicture _ _ _ h

theorem setLow (i : LaneId) (m : LowMember) (s : State) : BlockStep s (setLow i m s) := setSched ..

theorem setHigh (i : LaneId) (m : HighMember) (s : State) : BlockStep s (setHigh i m s) := setSched ..

theorem lowTurn (l : Lane) (n : Nat) (s : State) {g : Segment} {t : State} (h : lowTurn l n s = some (g, t)) :
    BlockStep s t := by
  unfold Machine.lowTurn at h
  dsimp only at h
  split at h
  · rename_i g' u hm
    simp only [Option.some.injEq, Prod.mk.injEq] at h
    obtain ⟨-, rfl⟩ := h
    exact (lowMemberTurn _ _ _ _ hm).trans (setLow ..)
  · exact lowMemberTurn _ _ _ _ h

theorem highTurn (i : LaneId) (m : HighMember) (n : Nat) (s : State) {g : Segment} {t : State}
    (h : highTurn i m n s = some (g, t)) : BlockStep s t := by
  unfold Machine.highTurn at h
  dsimp only at h
  split at h
  · rw [Option.map_eq_some_iff] at h
    obtain ⟨c, -, heq⟩ := h
    simp only [Prod.mk.injEq] at heq
    obtain ⟨-, rfl⟩ := heq
    exact setSched ..
  · rw [Option.map_eq_some_iff] at h
    obtain ⟨c, -, heq⟩ := h
    simp only [Prod.mk.injEq] at heq
    obtain ⟨-, rfl⟩ := heq
    exact setSched ..
  · split at h
    · exact lowTurn _ _ _ h
    · simp at h

theorem tryMembers (i : LaneId) (comp : List HighMember) (n : Nat) (s : State) (ms : List HighMember) {g : Segment}
    {t : State} (h : tryMembers i comp n s ms = some (g, t)) : BlockStep s t := by
  induction ms with
  | nil => simp [Machine.tryMembers] at h
  | cons m ms ih =>
    unfold Machine.tryMembers at h
    split at h
    · rename_i g' u hm
      simp only [Option.some.injEq, Prod.mk.injEq] at h
      obtain ⟨-, rfl⟩ := h
      exact (highTurn _ _ _ _ hm).trans (setHigh ..)
    · exact ih h

theorem placeSegment (i : LaneId) (n : Nat) (s : State) {g : Segment} {t : State}
    (h : placeSegment i n s = some (g, t)) : BlockStep s t := tryMembers _ _ _ _ _ h

theorem fillAnnex (i : LaneId) (k r : Nat) (s : State) : BlockStep s (fillAnnex i k r s).2 := by
  induction k generalizing r s with
  | zero => exact refl s
  | succ k ih =>
    unfold Machine.fillAnnex
    split
    · exact refl s
    · split
      · exact refl s
      · rename_i g u hp
        exact (placeSegment _ _ _ hp).trans (ih _ u)

theorem resumeIntake (i : LaneId) (s : State) : BlockStep s (resumeIntake i s) := by
  unfold Machine.resumeIntake
  dsimp only
  split
  · exact cond _ (((setUnit s i { s.units.get i with intake := .accepting, dropped := 0 } (fun h => ⟨h.1, rfl⟩)).trans
      (postSelf ..)).trans (statusForIntake ..)) (refl s)
  · exact refl s

theorem assembleLane (i : LaneId) (s : State) : BlockStep s (assembleLane i s) := by
  unfold Machine.assembleLane
  refine cond _ (onUnit _ _ _ (fun h => h)) ?_
  refine (fillAnnex i (s.units.get i).split.annex (s.units.get i).split.annex s).trans ?_
  refine BlockStep.trans (setUnit _ i _ ?_) (resumeIntake i _)
  intro h
  refine ⟨?_, h.2⟩
  have := h.1
  simp only [List.length_drop]
  omega

theorem assembleFrame (s : State) : BlockStep s (assembleFrame s) := forEach assembleLane _ _

/-! ### The alert port -/

theorem postPort (k : EventKind) (a : Nat) (s : State) : BlockStep s (postPort k a s) := postSelf ..

theorem refuseAlert (r : Nat) (id : Byte) (s : State) : BlockStep s (refuseAlert r id s) := postPort ..

theorem keepText (o : OwnAlert) (s : State) : BlockStep s (keepText o s) := by
  unfold Machine.keepText
  split
  · exact refl s
  · exact setAlertsSame ..

theorem dropReplaced (i : Ident) (s : State) : BlockStep s (dropReplaced i s) := by
  unfold Machine.dropReplaced
  split
  · exact refl s
  · exact cond _ (((setAlertsSame ..).trans (keepText ..)).trans (noteEnd ..)) ((setAlertsSame ..).trans (keepText ..))

theorem dropOriginEntry (i : Ident) (s : State) : BlockStep s (dropOriginEntry i s) := setObjects ..

theorem dropTraces (i : Ident) (s : State) : BlockStep s (dropTraces i s) :=
  ((dropKeptText ..).trans (dropOriginEntry ..)).trans (setAlertsSame ..)

theorem raiseAlert (i : Ident) (n : Nat) (s : State) : BlockStep s (raiseAlert i n s) := by
  unfold Machine.raiseAlert
  split
  · exact updateOwn ..
  · exact (((((dropReplaced ..).trans (dropTraces ..)).trans (setAlertsSame ..)).trans (applyRole ..)).trans
      (updateLaneAlert _)).trans (judged _)

theorem alertRaiseOp (id x : Byte) (d : BitVec 16) (s : State) : BlockStep s (alertRaiseOp id x d s) := by
  unfold Machine.alertRaiseOp
  split
  · exact refuseAlert ..
  · dsimp only
    split
    · exact (postPort ..).trans (keeping (raiseAlert _ _) _)
    · exact ((postClamp ..).trans (postPort ..)).trans (keeping (raiseAlert _ _) _)

theorem alertTextOp (id : Byte) (bs : List Byte) (s : State) : BlockStep s (alertTextOp id bs s) := by
  unfold Machine.alertTextOp
  split
  · exact refuseAlert ..
  · dsimp only
    split
    · exact (postClamp ..).trans (updateOwn ..)
    · exact updateOwn ..

theorem alertPictureBeginOp (id : Byte) (n : BitVec 24) (s : State) : BlockStep s (alertPictureBeginOp id n s) := by
  unfold Machine.alertPictureBeginOp
  split
  · exact refuseAlert ..
  · exact allocateReserve ..

theorem alertPictureChunkOp (id : Byte) (n : BitVec 24) (bs : List Byte) (s : State) :
    BlockStep s (alertPictureChunkOp id n bs s) := by
  unfold Machine.alertPictureChunkOp
  split
  · exact refuseAlert ..
  · exact reserveChunk ..

theorem alertAudioOp (id : Byte) (bs : List Byte) (s : State) : BlockStep s (alertAudioOp id bs s) := by
  unfold Machine.alertAudioOp
  split
  · exact refl s
  · exact cond _ (appendUnit ..) (refl s)

theorem endOwn (i : Ident) (s : State) : BlockStep s (endOwn i s) := (updateOwn ..).trans (judged _)

theorem dropOwn (i : Ident) (s : State) : BlockStep s (dropOwn i s) :=
  ((setAlertsSame ..).trans (postPort ..)).trans (judged _)

theorem alertEndOp (id : Byte) (s : State) : BlockStep s (alertEndOp id s) := by
  unfold Machine.alertEndOp
  split
  · exact refuseAlert ..
  · split
    · exact cond _ (refl s) (keeping (endOwn _) s)
    · exact keeping (dropOwn _) s
    · exact keeping (dropOwn _) s

end Sys2Proof.Machine.BlockStep

namespace Sys2Proof.Machine

/-! ### What a manifest and an annex carry -/

/-- A sheet of at most four fragments is announced as it stands (R36). -/
theorem Sheet.announced_of_le {s : Sheet} (h : s.current.length ≤ Config.maxFragments) : s.announced = s := by
  simp [Sheet.announced, h]

/-- An announced sheet fits its four places (R36, R185). -/
theorem Sheet.announced_length_le (s : Sheet) : s.announced.current.length ≤ Config.maxFragments := by
  unfold Sheet.announced
  split
  · assumption
  · simp

/-- A cursor begun for a content has a byte of it still to send. -/
theorem cursorFor_sent_lt {c : AlertContent} (h : c.stream ≠ []) (k : Option Cursor) :
    (cursorFor c k).sent < c.stream.length := by
  have := List.length_pos_iff.mpr h
  unfold cursorFor
  split
  · split
    · rename_i hk; exact hk.2
    · exact this
  · exact this

/-- Every segment of an alert member carries at least one byte, and at most the limit (R101). -/
theorem alertSegment_payload {c : AlertContent} {limit : Nat} (h : c.stream ≠ []) (one : 1 ≤ limit) (k : Option Cursor) :
    1 ≤ (alertSegment c (cursorFor c k) limit).1.payload.length ∧
      (alertSegment c (cursorFor c k) limit).1.payload.length ≤ limit := by
  have := cursorFor_sent_lt h k
  simp only [alertSegment, List.length_take, List.length_drop]
  omega

/-- `topIdent` answers an identity of the list that none has a higher level than, and nothing only for no identities. -/
theorem topIdent_spec (is : List Ident) : match topIdent is with
    | some i => i ∈ is ∧ ∀ j ∈ is, j.level ≤ i.level
    | none => is = [] := by
  induction is with
  | nil => rfl
  | cons i rest ih =>
    unfold topIdent
    revert ih
    cases topIdent rest with
    | none => intro ih; subst ih; simp
    | some k =>
      intro ⟨mem, top⟩
      by_cases h : i.level < k.level
      · simp only [h, if_true, List.mem_cons]
        exact ⟨.inr mem, fun j hj => hj.elim (fun e => e ▸ h.le) (top j)⟩
      · simp only [h, if_false, List.mem_cons, true_or, true_and]
        exact fun j hj => hj.elim (fun e => e ▸ le_rfl) (fun m => (top j m).trans (not_lt.mp h))

/-- On the trunk, and in HALTED, `AlertsRest` asks nothing. -/
theorem State.AlertsRest.of_onTrunk {s : State} (h : s.mode.mode.onTrunk = true ∨ s.mode.mode = .halted) : s.AlertsRest :=
  fun off live => h.elim (fun on => absurd (on.symm.trans off) nofun) (fun x => absurd x live)

/-- A change that keeps the mode, leaves the alerts alone off the trunk and makes no reserve entry keeps `AlertsRest`. -/
theorem State.AlertsRest.keep {s t : State} (rest : s.AlertsRest) (mode : t.mode.mode = s.mode.mode)
    (alerts : s.mode.mode.onTrunk = false → s.alerts = resetAlerts → t.alerts = s.alerts)
    (objects : ∀ o ∈ t.store.objects, o.owner = .alert → ∃ p ∈ s.store.objects, p.owner = .alert) : t.AlertsRest := by
  intro off live
  rw [mode] at off live
  obtain ⟨same, none⟩ := rest off live
  exact ⟨(alerts off same).trans same, fun o mem own => (objects o mem own).elim fun p h => none p h.1 h.2⟩

end Sys2Proof.Machine
end

