-- ==== Sys2Proof/Laws/Boundary.lean ====
section
/-! SUPPORT. What the parts of a frame or cycle boundary can do: the relay set touches the Trunk Interface only, a part
carried out ahead of its boundary leaves the Timebase as it is, a slot that is cut is a `SlotStep`, and the rest are
`BlockStep`s. -/

namespace Sys2Proof.Machine

theorem takeRelaySet_eq (s : State) : takeRelaySet s = s.setTrunk { s.trunk with
    relaySource := s.relayCells.1, relayGrade := s.relayCells.2.1, relaySet := s.relayCells.2.2, relayGot := [] } := rfl

@[simp] theorem takeRelaySet_trunk (s : State) : (takeRelaySet s).trunk = { s.trunk with
    relaySource := s.relayCells.1, relayGrade := s.relayCells.2.1, relaySet := s.relayCells.2.2, relayGot := [] } := rfl
@[simp] theorem takeRelaySet_time (s : State) : (takeRelaySet s).time = s.time := rfl
@[simp] theorem takeRelaySet_mode (s : State) : (takeRelaySet s).mode = s.mode := rfl
@[simp] theorem takeRelaySet_events (s : State) : (takeRelaySet s).events = s.events := rfl

@[simp] theorem atBoundary_time (f : State → State) (s : State) : (atBoundary f s).time = s.time := rfl

/-- The coming cycle's number is one more unless the listen period ends without a source, or the Timebase is UNSET. -/
theorem comingCycle_running {s : State} (lock : s.time.lock ≠ .unset) (mode : s.mode.mode ≠ .joining) :
    s.comingCycle = s.time.cycle + 1 := by simp [State.comingCycle, lock, mode]

namespace BlockStep

variable {s : State}

theorem atBoundary {f : State → State} (h : ∀ s, BlockStep s (f s)) (s : State) : BlockStep s (atBoundary f s) :=
  let k := h (s.setTime (s.time.beginCycle s.comingCycle s.time.lateOpen))
  { inReset := k.inReset, loading := k.loading, config := k.config, contracts := k.contracts, time := rfl
    trunk := k.trunk, mode := k.mode, peers := k.peers, ports := k.ports, pending := k.pending, nfault := k.nfault
    queue := k.queue, events := k.events, fifos := k.fifos, store := k.store, captions := k.captions, stack := k.stack }

theorem statusRecords (s : State) : BlockStep s (statusRecords s) := forLanes makeStatus s

theorem autoOpenLanes (s : State) : BlockStep s (autoOpenLanes s) := by
  refine forLanes (fun l s => ?_) s
  split
  · exact cond _ (laneOpenOp ..) (refl s)
  · exact refl s

end BlockStep
/-! ### Cutting a slot (R8, R11, R16) -/

/-- `t` comes from `s` by what the end of a slot tells the Peer View, the Alert Controller and the store: pins, Timebase,
mode, configuration and the slot in progress are as they were. -/
structure SlotStep (s t : State) : Prop where
  inReset : t.inReset = s.inReset
  time : t.time = s.time
  mode : t.mode = s.mode
  inProgress : t.trunk.inProgress = s.trunk.inProgress

namespace SlotStep

variable {s t u : State}

theorem refl (s : State) : SlotStep s s := ⟨rfl, rfl, rfl, rfl⟩

theorem trans (h : SlotStep s t) (k : SlotStep t u) : SlotStep s u :=
  ⟨k.inReset.trans h.inReset, k.time.trans h.time, k.mode.trans h.mode, k.inProgress.trans h.inProgress⟩

theorem ofBlock (h : BlockStep s t) : SlotStep s t := ⟨h.inReset, h.time, h.mode, by rw [h.trunk]⟩

theorem setPeer (s : State) (m : Node) (e : PeerEntry) : SlotStep s (s.setPeer m e) := ⟨rfl, rfl, rfl, rfl⟩

theorem losePeer (m : Node) (s : State) : SlotStep s (losePeer m s) :=
  (setPeer ..).trans ((ofBlock (.post ..)).trans (ofBlock (.peerLossAlerts ..)))

theorem silencePeer (m : Node) (s : State) : SlotStep s (silencePeer m s) := (setPeer ..).trans (ofBlock (.post ..))

theorem unheardReport (m : Node) (s : State) : SlotStep s (unheardReport m s) := by
  unfold Machine.unheardReport
  split
  · exact refl s
  · dsimp only
    split
    · split
      · exact (setPeer ..).trans (silencePeer ..)
      · exact setPeer ..
    · split
      · exact (setPeer ..).trans (silencePeer ..)
      · exact setPeer ..
    · split
      · exact (setPeer ..).trans (losePeer ..)
      · exact setPeer ..
    · exact setPeer ..
    · exact setPeer ..

/-- With no manifest heard, a hand-over is at most an unheard report. -/
theorem handOver_unheard (m : Node) (s : State) : SlotStep s (handOver m none s) := by
  unfold Machine.handOver
  split
  · exact refl s
  · exact refl s
  · exact unheardReport m s
  · split
    · exact refl s
    · exact unheardReport m s
  all_goals
    split
    · exact refl s
    · exact unheardReport m s

theorem relayHandOver (r : RelayCell) (s : State) : SlotStep s (relayHandOver r s) := by
  unfold Machine.relayHandOver
  dsimp only
  split
  · refine .trans ?_ (ofBlock (.keeping .relayEnd _))
    exact ⟨rfl, rfl, rfl, rfl⟩
  · exact ⟨rfl, rfl, rfl, rfl⟩

end SlotStep

/-- A directory slot that was cut is not part of a heard manifest. -/
theorem heardManifest_cut (m : Node) (d : DirRead × DirRead × DirRead) : heardManifest m (setReading d 2 .cut) = none := by
  obtain ⟨a, b, c⟩ := d
  cases a <;> cases b <;> rfl

theorem cutSlot_idle {s : State} (h : s.trunk.inProgress = false) : cutSlot s = s := by simp [cutSlot, h]

/-- What a cut can do: the slot is in progress no more, and the rest is what `SlotStep` allows. -/
theorem cutSlot_slotStep (s : State) : SlotStep (s.setTrunk { s.trunk with inProgress := false }) (cutSlot s) := by
  unfold cutSlot
  split
  · dsimp only
    split
    · unfold directorySlot
      dsimp only
      split
      · rename_i h
        rw [h, heardManifest_cut]
        refine .trans ?_ (SlotStep.handOver_unheard _ _)
        exact ⟨rfl, rfl, rfl, rfl⟩
      · exact ⟨rfl, rfl, rfl, rfl⟩
    · split
      · refine .trans ?_ (SlotStep.relayHandOver _ _)
        exact ⟨rfl, rfl, rfl, rfl⟩
      · exact ⟨rfl, rfl, rfl, rfl⟩
  · rename_i h
    simp at h
    exact ⟨rfl, rfl, rfl, by simp [h]⟩

@[simp] theorem cutSlot_inReset (s : State) : (cutSlot s).inReset = s.inReset := (cutSlot_slotStep s).inReset
@[simp] theorem cutSlot_time (s : State) : (cutSlot s).time = s.time := (cutSlot_slotStep s).time
@[simp] theorem cutSlot_mode (s : State) : (cutSlot s).mode = s.mode := (cutSlot_slotStep s).mode
@[simp] theorem cutSlot_inProgress (s : State) : (cutSlot s).trunk.inProgress = false := (cutSlot_slotStep s).inProgress
@[simp] theorem cutSlot_cutSlot (s : State) : cutSlot (cutSlot s) = cutSlot s := cutSlot_idle (cutSlot_inProgress s)

end Sys2Proof.Machine
end

