-- ==== Sys2Proof/Laws/PerInstr.lean ====
section
/-! SUPPORT. A statement made of every command, one lemma for each: the record that a well-formed command carries is one
its port takes. -/

namespace Sys2Proof.Laws.Family

open Machine

/-- The record a well-formed command carries has a length that its kind allows, and its kind is one of its port's: checks
2, 3 and 4 of R86 pass. -/
def Statement (i : Instr) : Prop :=
  i.wellFormed = true → ∀ p r, i.record = some (p, r) →
    r.body.length ≤ Config.maxBody ∧ bodyLengthAllowed r.code r.body.length = true ∧ kindOnPort p r.code = true

/-- A length the table of R184 allows is at most 1,100. -/
theorem allowed_le {k n : Nat} (h : bodyLengthAllowed k n = true) : n ≤ Config.maxBody := by
  obtain ⟨r, hr, hn⟩ := List.any_eq_true.mp h
  have := of_decide_eq_true hn
  have : r.2 ≤ 1100 := by
    unfold bodyLengths at hr
    split at hr <;> simp at hr <;> first | omega | (rcases hr with rfl | rfl <;> decide)
  simp only [Config.maxBody]
  omega

/-- A length allowed, written in another way. -/
theorem allowed_of_eq {k n m : Nat} (h : bodyLengthAllowed k n = true) (e : m = n) : bodyLengthAllowed k m = true :=
  e ▸ h

/-- The statement for a command of one record. -/
theorem of_record {i : Instr} {p : LaneId} {r : PortRecord} (hr : i.record = some (p, r))
    (h : i.wellFormed = true → bodyLengthAllowed r.code r.body.length = true) (hk : kindOnPort p r.code = true) :
    Statement i := by
  intro w p' r' e
  rw [hr] at e
  cases e
  exact ⟨allowed_le (h w), h w, hk⟩

/-- The statement for a command that carries no record. -/
theorem of_none {i : Instr} (hr : i.record = none) : Statement i := by
  intro _ p r e
  rw [hr] at e
  cases e

theorem resetAssert : Statement .resetAssert := of_none rfl

theorem resetRelease : Statement .resetRelease := of_none rfl

theorem configReadDone : ∀ a, Statement (.configReadDone a) := fun _ => of_none rfl

theorem refpulse : ∀ a b, Statement (.refpulse a b) := fun _ _ => of_none rfl

theorem toleranceWindowClose : Statement .toleranceWindowClose := of_none rfl

theorem refLost : Statement .refLost := of_none rfl

theorem frameBoundary : ∀ a, Statement (.frameBoundary a) := fun _ => of_none rfl

theorem cycleBoundary : ∀ a, Statement (.cycleBoundary a) := fun _ => of_none rfl

theorem listenPeriodEnd : ∀ a, Statement (.listenPeriodEnd a) := fun _ => of_none rfl

theorem slotStart : ∀ a, Statement (.slotStart a) := fun _ => of_none rfl

theorem slotEnd : ∀ a b, Statement (.slotEnd a b) := fun _ _ => of_none rfl

theorem peerSilent : ∀ a, Statement (.peerSilent a) := fun _ => of_none rfl

theorem peerLost : ∀ a, Statement (.peerLost a) := fun _ => of_none rfl

theorem audioUnit : ∀ a b, Statement (.audioUnit a b) :=
  fun _ _ => of_record rfl id rfl

theorem laneOpen : ∀ a b, Statement (.laneOpen a b) := fun a b =>
  of_record rfl (fun _ => by cases b <;> rfl) rfl

theorem laneRate : ∀ a b, Statement (.laneRate a b) :=
  fun _ _ => of_record rfl (fun _ => rfl) rfl

theorem laneClose : ∀ a, Statement (.laneClose a) :=
  fun _ => of_record rfl (fun _ => rfl) rfl

theorem laneReset : ∀ a, Statement (.laneReset a) :=
  fun _ => of_record rfl (fun _ => rfl) rfl

theorem captionPut : ∀ a b c d e f, Statement (.captionPut a b c d e f) :=
  fun _ _ _ _ _ _ => of_record rfl (fun w => allowed_of_eq w (by simp [PortRecord.body]; omega)) rfl

theorem captionDrop : ∀ a b, Statement (.captionDrop a b) :=
  fun _ _ => of_record rfl (fun _ => rfl) rfl

theorem pictureBegin : ∀ a b c d e, Statement (.pictureBegin a b c d e) :=
  fun _ _ _ _ _ => of_record rfl (fun _ => rfl) rfl

theorem pictureChunk : ∀ a b c d, Statement (.pictureChunk a b c d) :=
  fun _ _ _ _ => of_record rfl (fun w => allowed_of_eq w (by simp [PortRecord.body, put24]; omega)) rfl

theorem pictureDrop : ∀ a b, Statement (.pictureDrop a b) :=
  fun _ _ => of_record rfl (fun _ => rfl) rfl

theorem alertRaise : ∀ a b c, Statement (.alertRaise a b c) :=
  fun _ _ _ => of_record rfl (fun _ => rfl) rfl

theorem alertText : ∀ a b, Statement (.alertText a b) :=
  fun _ _ => of_record rfl (fun w => allowed_of_eq w (by simp [PortRecord.body]; omega)) rfl

theorem alertPictureBegin : ∀ a b, Statement (.alertPictureBegin a b) :=
  fun _ _ => of_record rfl (fun _ => rfl) rfl

theorem alertPictureChunk : ∀ a b c, Statement (.alertPictureChunk a b c) :=
  fun _ _ _ => of_record rfl (fun w => allowed_of_eq w (by simp [PortRecord.body, put24]; omega)) rfl

theorem alertAudio : ∀ a b, Statement (.alertAudio a b) :=
  fun _ _ => of_record rfl (fun w => allowed_of_eq w (by simp [PortRecord.body]; omega)) rfl

theorem alertEnd : ∀ a, Statement (.alertEnd a) :=
  fun _ => of_record rfl (fun _ => rfl) rfl

theorem laneStatusRecordDone : ∀ a b, Statement (.laneStatusRecordDone a b) := fun _ _ => of_none rfl

theorem eventRecordSent : Statement .eventRecordSent := of_none rfl

theorem releaseDone : ∀ a, Statement (.releaseDone a) := fun _ => of_none rfl

theorem claimTaken : ∀ a, Statement (.claimTaken a) := fun _ => of_none rfl

theorem backoffEnd : ∀ a, Statement (.backoffEnd a) := fun _ => of_none rfl

theorem alertEntry : Statement .alertEntry := of_none rfl

theorem alertExit : Statement .alertExit := of_none rfl

theorem alertExpired : ∀ a, Statement (.alertExpired a) := fun _ => of_none rfl

theorem alertOrphaned : ∀ a b, Statement (.alertOrphaned a b) := fun _ _ => of_none rfl

theorem redirectStart : Statement .redirectStart := of_none rfl

theorem dwellEnd : ∀ a, Statement (.dwellEnd a) := fun _ => of_none rfl

theorem objectExpired : ∀ a b, Statement (.objectExpired a b) := fun _ _ => of_none rfl

theorem objectTimeout : ∀ a b, Statement (.objectTimeout a b) := fun _ _ => of_none rfl

theorem recordRejected : ∀ a b c d e, Statement (.recordRejected a b c d e) := fun _ _ _ _ _ => of_none rfl

theorem portClockResume : ∀ a, Statement (.portClockResume a) := fun _ => of_none rfl

end Sys2Proof.Laws.Family
end

