-- ==== Sys2Proof/Tests/Slice0.lean ====
section
/-! SUPPORT. The tests. Part 1: ill-formed commands are refused. Part 2: the spec's own worked examples. Part 3: single
commands on small states. Part 4: for each obligation with hypotheses, a state and operands that meet them. -/

namespace Sys2Proof.Tests

open Machine

/-! ### 1. Well-formedness -/

theorem test_wf_image : (Instr.configReadDone [0x1C]).wellFormed = false := by decide
theorem test_wf_arrival : (Instr.refpulse 1280000 0).wellFormed = false := by decide
theorem test_wf_slot : (Instr.slotStart 800).wellFormed = false := by decide
theorem test_wf_slot_content : (Instr.slotEnd 0 [1]).wellFormed = false := by decide
theorem test_wf_unit : (Instr.audioUnit .l0 []).wellFormed = false := by decide
theorem test_wf_caption : (Instr.captionPut .l0 1 0 0 0 []).wellFormed = false := by decide
theorem test_wf_chunk : (Instr.pictureChunk .l0 1 0 []).wellFormed = false := by decide
theorem test_wf_text : (Instr.alertText 1 []).wellFormed = false := by decide
theorem test_wf_alert_chunk : (Instr.alertPictureChunk 1 0 []).wellFormed = false := by decide
theorem test_wf_alert_audio : (Instr.alertAudio 1 []).wellFormed = false := by decide
theorem test_wf_expired : (Instr.alertExpired 4).wellFormed = false := by decide
theorem test_wf_orphaned : (Instr.alertOrphaned 1 0).wellFormed = false := by decide
theorem test_wf_rejected : (Instr.recordRejected .alert 0x31 4 [] 0).wellFormed = false := by decide
/-- The largest values the ranges allow. -/
theorem test_wf_bounds : (Instr.refpulse 1279999 0).wellFormed = true ∧ (Instr.slotStart 799).wellFormed = true ∧
    (Instr.alertExpired 3).wellFormed = true := by decide

/-! ### 2. Worked examples of the spec -/

/-- R182: the check over the nine ASCII bytes "123456789"; and that of kind 3 with length 0, a LANE_CLOSE, is not 0. -/
theorem test_crc_check : crc16 [0x31, 0x32, 0x33, 0x34, 0x35, 0x36, 0x37, 0x38, 0x39] = 0x29B1 ∧
    crc16 (3 :: put16 0) ≠ (0 : BitVec 16) := by decide +kernel
/-- R15: three drivers in cell 40, and the two that are left without node 2. -/
theorem test_arbitration : arbitrationWinners [2, 69, 78] = [2] ∧ arbitrationWinners [69, 78] = [69] := by decide
/-- R83, "the split at one rate": 64 kbit/s at grade 2, annexes 0, 100, 200 and 512. -/
theorem test_split : cellsForRate 64 2 = 27 ∧ serviceSplit 27 24 0 = ⟨648, 0, 648⟩ ∧
    serviceSplit 27 24 100 = ⟨648, 100, 548⟩ ∧ serviceSplit 27 24 200 = ⟨648, 162, 486⟩ ∧
    serviceSplit 27 24 512 = ⟨648, 162, 486⟩ := by decide
/-- Node 4's free runs of the example of R59. -/
def exampleFree : List Run := [⟨30, 4⟩, ⟨60, 3⟩, ⟨126, 2⟩, ⟨300, 2⟩, ⟨410, 40⟩]
/-- R59, "a first-fit plan": a need of 9 takes three runs, and the boundary leaves three fragments. -/
theorem test_plan_first_fit :
    takeRuns [⟨20, 10, none⟩, ⟨100, 26, none⟩] exampleFree 9 [] = [⟨30, 4⟩, ⟨60, 3⟩, ⟨126, 2⟩] ∧
      addRuns [⟨20, 10, none⟩, ⟨100, 26, none⟩] [⟨30, 4⟩, ⟨60, 3⟩, ⟨126, 2⟩] =
        [⟨20, 14, none⟩, ⟨60, 3, none⟩, ⟨100, 28, none⟩] := by decide
/-- R59, the same with a need of 12: 11 cells only, the last run being a fifth fragment. -/
theorem test_plan_four_fragments :
    runTotal (takeRuns [⟨20, 10, none⟩, ⟨100, 26, none⟩] exampleFree 12 []) = 11 := by decide
/-- R61: planned in frame 9 of cycle 2200, lane 0's ordinary claim takes effect in cycle 2202. -/
theorem test_effective_cycle : ({ State.reset with
    time := ⟨9 * 80000 + 5000, 2200, .locked, 0, 20, false, 0⟩ } : State).effectiveCycle (.svc .l0) .claim .ordinary
      = 2202 := by decide
/-- R166, R168, section 10.7: a need of 18 of 83 spare cells gives 22 per cent, and gives of 8, 5, 0 and 6. -/
theorem test_yield : yieldFor 18 83 = 22 ∧ giveFor 22 48 12 = 8 ∧ giveFor 22 36 15 = 5 ∧ giveFor 22 30 30 = 0 ∧
    giveFor 22 40 14 = 6 := by decide
/-- R84, section 10.7: node 2's alert lane of grade 2 at level 3 with B = 6 and 9, 15 and 27 cells. -/
theorem test_alert_split : alertSplit 9 24 6 3 = ⟨216, 108, 108⟩ ∧ alertSplit 15 24 6 3 = ⟨360, 144, 216⟩ ∧
    alertSplit 27 24 6 3 = ⟨648, 144, 504⟩ := by decide
/-- Section 6.2, "cutting one stream": a stream of 153 bytes in an annex of 200 is cut into 60, 60 and 33, the last with
Last set. -/
theorem test_cut_stream :
    let c : AlertContent := ⟨.alertPicture, ⟨0, ⟨1, 3⟩, 0⟩, List.replicate 153 7⟩
    let a := alertSegment c ⟨c.content, 0, 0⟩ (min 60 (200 - 4))
    let b := alertSegment c a.2 (min 60 (136 - 4))
    let d := alertSegment c b.2 (min 60 (72 - 4))
    (a.1.payload.length, b.1.payload.length, d.1.payload.length) = (60, 60, 33) ∧
      (a.1.first, b.1.first, d.1.last, b.1.last) = (true, false, true, false) ∧ (b.1.seq, d.1.seq) = (1, 2) := by decide +kernel
/-- Section 6.3, "two frames at level 1": the pointer goes round ALERT CAPTION and LOW GROUP. -/
theorem test_rotation : memberAfter (composition (.svc .l1) 1) .alertCaption = .lowGroup ∧
    memberAfter (composition (.svc .l1) 1) .lowGroup = .alertCaption := by decide

/-- R101: a picture of 3 bytes of which 5 are sent, the same by identity and transfer number, begins again. -/
theorem test_shorter_content : alertSegment ⟨.alertPicture, ⟨3, ⟨5, 1⟩, 0⟩, [1, 2, 3]⟩
    (cursorFor ⟨.alertPicture, ⟨3, ⟨5, 1⟩, 0⟩, [1, 2, 3]⟩ (some ⟨⟨3, ⟨5, 1⟩, 0⟩, 5, 1⟩)) 2 =
      (⟨.alertPicture, 5, 0, true, false, 0, [1, 2]⟩, ⟨⟨3, ⟨5, 1⟩, 0⟩, 2, 1⟩) := by decide

/-! ### 3. Single commands -/

/-- A contract of 64 kbit/s at grade 2, yieldable. -/
def contract : Contract :=
  ⟨7, List.replicate 8 65, .yieldable, 2, 8, 64, 128, 40, false, resetFraming, 5⟩

/-- Node 2, LOCKED in cycle 7, ACTIVE, with lane 0 enabled and CLOSED and the alert lane of grade 2. -/
def active : State := { State.reset with
  loading := false
  config := ⟨6, some 2, 48, 2812, 938, 469, resetFraming⟩
  contracts := ⟨some contract, none, none⟩
  time := ⟨5000, 7, .locked, 0, 20, false, 0⟩
  mode := ⟨.active, .run, 32, none, 2⟩
  ports := Quad.const ⟨.hunt, []⟩ }

/-- `active` with lane 0 ON-AIR in 27 cells from cell 20. -/
def onAir : State := (active.setUnit (.svc .l0)
  { resetUnit with state := .onAir, split := ⟨648, 40, 608⟩ }).setTenancy (.svc .l0)
  { resetTenancy with fragments := [⟨20, 27, none⟩], target := 27 }

/-- A field of the state a command answers. -/
def after {α : Type} (c : Instr) (s : State) (f : State → α) : Option α :=
  match exec c s with
  | .next t => some (f t)
  | .fault _ => none
  | .refused _ => none

/-- R8: a pulse 3 µs late holds the count for 3 µs. -/
theorem test_late_pulse : after (.refpulse 3 0) { active with time := ⟨3, 7, .holdover, 2, 20, true, 0⟩ }
    (fun t => t.time) = some ⟨3, 7, .locked, 0, 20, false, 3⟩ := by decide
/-- R6: the cycle number wraps at 4095. -/
theorem test_cycle_wraps : after (.cycleBoundary 0) { active with time := ⟨1279999, 4095, .locked, 0, 20, false, 0⟩ }
    (fun t => (t.time.localCount, t.time.cycle)) = some (0, 0) := by decide
/-- R13, R14: node 2 drives slot 6 with tag 130 and does not drive slot 9. -/
theorem test_slot_start : after (.slotStart 6) active (fun t => (t.trunk.driver, t.trunk.tag)) =
      some (some .manifest, 130) ∧
    after (.slotStart 9) active (fun t => (t.trunk.driver, t.trunk.tag)) = some (none, 0xFF) := by decide
/-- R88, R57, R59, R61: an empty LANE_OPEN opens at Rnom, 64 kbit/s, 27 cells at grade 2, from the lowest free run. -/
theorem test_lane_open : after (.laneOpen .l0 none) active (fun t => ((t.units.get (.svc .l0)).state,
    (t.tenancy.get (.svc .l0)).target, (t.tenancy.get (.svc .l0)).change.map (fun c => (c.runs, c.effective)))) =
      some (.opening, 27, some ([⟨0, 27⟩], 9)) := by decide +kernel
/-- R89: a rate of 47 is rounded down to 40, and 7 is brought up to Rmin. -/
theorem test_lane_rate : after (.laneRate .l0 47) onAir (fun t => t.events.queue.map EventRecord.says) =
      some [(.rateClamped, 2, some (.svc .l0), 40)] ∧ contract.rateUsed 7 = 8 := by decide
/-- R92: bytes are appended in order. -/
theorem test_audio_unit : after (.audioUnit .l0 [1, 2]) onAir (fun t => (t.units.get (.svc .l0)).fifo) =
    some [1, 2] := by decide
/-- R90, R67: LANE_CLOSE of a lane with cells releases them all in the cycle after its announcing frame's. -/
theorem test_lane_close : after (.laneClose .l0) onAir (fun t => ((t.units.get (.svc .l0)).state,
    (t.tenancy.get (.svc .l0)).change.map (fun c => (c.kind, c.runs, c.effective)))) =
      some (.closing, some (.release, [⟨20, 27⟩], 8)) := by decide
/-- R115, R116: an entry admitted with priority 9 has priority 3 and toggle set, and RECORD_CLAMPED tells of it. -/
theorem test_caption_put : after (.captionPut .l0 4 9 0 0 [65]) active (fun t => (t.captions.get .l0).entries) =
      some [⟨4, 3, [65], 5, 0, 0, true, .waiting⟩] ∧
    after (.captionPut .l0 4 9 0 0 [65]) active (fun t => t.events.queue.map EventRecord.says) =
      some [(.recordClamped, 2, some (.svc .l0), 516)] := by decide
/-- R132: a size of 0 is refused with reason 1. -/
theorem test_picture_begin : after (.pictureBegin .l0 3 0 0 0) active (fun t => t.events.queue.map EventRecord.says) =
    some [(.objectRefused, 2, some (.svc .l0), 259)] := by decide
/-- R147, R150, R152: a raise is LEAD with the entry cycle after the announcing frame's, and ALERT_RAISED tells of it. -/
theorem test_alert_raise : after (.alertRaise 5 1 0) active (fun t =>
    t.alerts.own.map (fun o => (o.role, o.entry, o.limit))) = some [(.lead, 8, 2812)] ∧
    after (.alertRaise 5 1 0) active (fun t => (t.events.queue.map EventRecord.says).head?) =
      some (some (.alertRaised, 2, some .alert, 261)) := by decide +kernel
/-- R158, R57: the alert lane's target is B, 6, and at level 3 D, the 20 cells of 48 kbit/s at grade 2. -/
theorem test_alert_target : active.laneAlertTarget (some ⟨5, 1⟩) = 6 ∧ active.laneAlertTarget (some ⟨5, 3⟩) = 20 ∧
    active.laneAlertTarget none = 0 ∧ topIdent [⟨5, 1⟩, ⟨6, 3⟩, ⟨7, 2⟩] = some ⟨6, 3⟩ := by decide
/-- R148: an ALERT_END for an id that no own alert has is refused with reason 5. -/
theorem test_alert_end : after (.alertEnd 9) active (fun t => t.events.queue.map EventRecord.says) =
    some [(.alertRefused, 2, some .alert, 1289)] := by decide
/-- R86: a record whose length field says 1,101 is rejected with reason 3. -/
theorem test_record_rejected : after (.recordRejected (.svc .l0) 3 1101 [] 0) active
    (fun t => t.events.queue.map EventRecord.says) = some [(.recordBad, 2, some (.svc .l0), 771)] := by decide

/-! ### 4. The hypotheses of the obligations can be met -/

/-- HALTED, with NFAULT asserted. -/
def halted : State := { active with mode := ⟨.halted, .run, 32, none, 2⟩, events := ⟨[], 0, false, .idle, true⟩ }

/-- An image that passes every check, in parts: node 2, defaults, alert grade 2, lane 0 as `contract`, lanes 1 and 2 absent. -/
def imageParts : List (List Byte) :=
  [[28, 58, 94, 114, 0, 93, 2, 0, 6, 2, 0],
   [48, 0, 0, 0, 0, 0, 0, 0, 1, 0, 7],
   [65, 65, 65, 65, 65, 65, 65, 65, 1, 2, 0],
   [8, 0, 64, 0, 128, 0, 40, 0, 0, 5],
   [0, 0, 0, 0, 0, 0, 0, 0, 0, 0, 0, 0],
   [0, 0, 0, 0, 0, 0, 0, 0, 0, 0, 0, 0],
   [0, 0, 0, 0, 0, 0, 0, 0, 0, 0, 0, 0],
   [0, 0, 0, 0, 0, 0, 0, 0, 0, 0, 0, 0],
   [186, 193]]
/-- The image of the parts. -/
def image : List Byte := imageParts.flatten

theorem witness_reset_held : State.inReset (State.pinReset true false []) = true ∧
    (Instr.alertEntry ≠ .resetAssert ∧ Instr.alertEntry ≠ .resetRelease) := by decide
theorem witness_halted : halted.mode.mode = .halted ∧ halted.NfaultSound ∧
    Instr.frameBoundary 0 ≠ .resetAssert ∧ Instr.frameBoundary 0 ≠ .resetRelease := ⟨rfl, rfl, by decide, by decide⟩
theorem witness_bad_image : State.reset.inReset = false ∧ State.reset.loading = true ∧
    State.reset.mode.mode = .config ∧ imageReason [] = some 1 ∧ State.reset.Room 1 ∧
    State.reset.trunk.slotState ≠ .driving := by decide
/-- The CRC-16 of a part of the image, from what the parts before it left. -/
def partCrc (k : Nat) (reg : BitVec 16) : BitVec 16 := (imageParts.getD k []).foldl crcByte reg
theorem image_crc_parts : partCrc 0 65535 = 42445 ∧ partCrc 1 42445 = 3163 ∧ partCrc 2 3163 = 53893 ∧ partCrc 3 53893 = 40671 ∧
    partCrc 4 40671 = 40470 ∧ partCrc 5 40470 = 10670 ∧ partCrc 6 10670 = 1751 ∧ partCrc 7 1751 = 47809 := by
  refine ⟨?_, ?_, ?_, ?_, ?_, ?_, ?_, ?_⟩ <;> decide +kernel
theorem image_crc : crc16 (image.take 91) = 47809 := by
  have p : image.take 91 = (((((((imageParts.getD 0 [] ++ imageParts.getD 1 []) ++ imageParts.getD 2 []) ++
      imageParts.getD 3 []) ++ imageParts.getD 4 []) ++ imageParts.getD 5 []) ++ imageParts.getD 6 []) ++
      imageParts.getD 7 []) := by decide
  rw [p, crc16]
  simp only [List.foldl_append]
  change partCrc 7 (partCrc 6 (partCrc 5 (partCrc 4 (partCrc 3 (partCrc 2 (partCrc 1 (partCrc 0 65535))))))) = _
  obtain ⟨h0, h1, h2, h3, h4, h5, h6, h7⟩ := image_crc_parts
  rw [h0, h1, h2, h3, h4, h5, h6, h7]
theorem witness_good_image : State.reset.loading = true ∧ imageReason image = none := by
  refine ⟨rfl, ?_⟩
  rw [imageReason, image_crc]
  decide

/-- Node 2 with an open window, three misses held. -/
def holdover : State := { active with time := ⟨3, 7, .holdover, 3, 20, true, 0⟩ }
theorem witness_stray : active.inReset = false ∧ active.time.lock = .locked ∧ 21 < 1280000 - active.time.tolerance ∧
    active.time.tolerance < 21 := by decide
theorem witness_stray_closed : active.time.lock = .locked ∧ 20 < 1280000 - active.time.tolerance ∧
    active.time.lateOpen = false := by decide
theorem witness_stray_halted : ({ halted with time := ⟨0, 0, .lost, 8, 20, false, 0⟩ } : State).time.lock = .lost ∧
    halted.mode.mode = .halted := by decide
theorem witness_stray_unset : State.reset.time.lock = .unset ∧ State.reset.mode.mode = .config := by decide
theorem witness_late : holdover.inReset = false ∧ holdover.time.lock = .holdover ∧ holdover.time.Sound ∧
    holdover.time.lateOpen = true ∧ 20 ≤ holdover.time.tolerance ∧ holdover.time.misses < 7 :=
  ⟨rfl, rfl, ⟨by decide, by decide, by decide, by simp [holdover]⟩, rfl, by decide, by decide⟩
theorem witness_early : active.inReset = false ∧ active.time.lock = .locked ∧
    1280000 - active.time.tolerance ≤ 1279980 := by decide
theorem witness_early_holdover : holdover.inReset = false ∧ holdover.time.lock = .holdover ∧ holdover.Room 1 ∧
    holdover.trunk.inProgress = false ∧ 1280000 - holdover.time.tolerance ≤ 1279999 := by decide

/-- JOINING, UNSET, after a good image. -/
def joining : State := { active with mode := ⟨.joining, .run, 0, none, 2⟩, time := resetTime }
/-- QUIET, LOST, NFAULT asserted. -/
def quiet : State := { active with
  mode := ⟨.quiet, .run, 0, none, 2⟩, time := ⟨900, 7, .lost, 8, 20, false, 0⟩, events := ⟨[], 0, false, .idle, true⟩ }
theorem witness_first_pulse : joining.inReset = false ∧ joining.time.Sound ∧ joining.trunk.inProgress = false ∧
    joining.time.lock = .unset ∧ joining.mode.mode = .joining :=
  ⟨rfl, ⟨by decide, by decide, by decide, by simp [joining, resetTime]⟩, rfl, rfl, rfl⟩
theorem witness_realign : quiet.inReset = false ∧ quiet.time.Sound ∧ quiet.trunk.inProgress = false ∧
    quiet.time.lock = .lost ∧ quiet.mode.mode = .quiet ∧ quiet.Room 1 :=
  ⟨rfl, ⟨by decide, by decide, by decide, rfl⟩, rfl, rfl, rfl, by decide⟩
/-- Seven misses, the window open. -/
def sevenMisses : State := { onAir with time := ⟨20, 7, .holdover, 7, 20, true, 0⟩ }
theorem witness_eighth_miss : sevenMisses.inReset = false ∧ sevenMisses.time.lock = .holdover ∧
    sevenMisses.time.lateOpen = true ∧ sevenMisses.time.misses = 7 ∧
    sevenMisses.mode.mode ∈ [.joining, .active, .standby, .withdrawing] ∧ sevenMisses.Room 2 := by decide
theorem witness_frame_boundary : ({ active with time := ⟨1199999, 7, .locked, 0, 20, false, 0⟩ } : State).frameIndex < 15 ∧
    active.time.lock ≠ .unset ∧ active.trunk.inProgress = false := by decide
theorem witness_cycle_boundary : ({ active with time := ⟨1279999, 7, .locked, 0, 20, false, 0⟩ } : State).frameIndex = 15 ∧
    active.inReset = false ∧ active.time.lock ≠ .unset ∧ active.mode.mode ≠ .joining ∧
    active.trunk.inProgress = false := by decide
/-- `onAir` with a claim of cells 47 to 49 due at the coming boundary, backoff 3 counted, and an alert entry due there. -/
def boundary (entered : Bool) : State := (onAir.setTenancy (.svc .l0) { onAir.tenancy.get (.svc .l0) with
  target := 30, change := some ⟨.claim, .ordinary, 8, [⟨47, 3⟩]⟩, backoff := 3 }).setAlerts { resetAlerts with
    scheduled := if entered then [⟨⟨5, 1⟩, 3, 8, .onTime, 22⟩] else [] }
/-- R72, R65, R98: the claim takes effect, a backoff of 3 is 2, and the status record that begins shows the 30 cells. -/
theorem test_boundary_claim : after (.cycleBoundary 0) (boundary false) (fun t => (t.cells (.svc .l0),
      (t.tenancy.get (.svc .l0)).backoff, (t.returnLines.get .l0).sending.map (fun r => r.cells))) = some (30, 2, some 30) ∧
    after (.cycleBoundary 0) (boundary false) (fun t => t.events.queue.map EventRecord.says) =
      some [(.claimTaken, 2, some (.svc .l0), 3)] := by decide
theorem witness_boundary (entered : Bool) : (boundary entered).onTrunk = true ∧ (boundary entered).Room 4 ∧
    (boundary entered).alerts.ends = [] ∧ (boundary entered).alerts.own = [] ∧
    (boundary entered).alerts.followed = none ∧ (boundary entered).alerts.stack = [] ∧
    (boundary entered).alerts.pendingAlerts = [] ∧ (boundary entered).yieldable .l0 = true ∧
    (boundary entered).trunk.inProgress = false ∧ (boundary entered).live = true ∧
    (boundary true).alerts.level < 1 ∧
    ((boundary true).alerts.scheduled.filter (fun x => x.boundary == (boundary true).time.cycle + 1)).length = 1 ∧
    (boundary false).alerts.scheduled = [] := by cases entered <;> decide
theorem boundary_tenancies (entered : Bool) : (boundary entered).TenanciesSound where
  fragments i := by cases entered <;> cases i with | alert => rfl | svc l => cases l <;> decide
  changes i c h := by
    cases i with
    | alert => cases h
    | svc l =>
      cases l with
      | l0 =>
        cases h
        refine ⟨by decide, by decide, fun k hk => ?_⟩
        have lane : ((boundary entered).tenancy.get (.svc .l0)).runs = [⟨20, 27⟩] := by cases entered <;> rfl
        rw [lane]
        have far : ¬ k < 47 := by simp [inRuns] at hk; omega
        simp [inRuns, far]
      | l1 => cases h
      | l2 => cases h
  apart i j k ne h g := by
    have other : ∀ i : LaneId, i ≠ .svc .l0 → ¬ (boundary entered).occupies i k := by
      intro i ne
      cases i with
      | alert => rintro (h | ⟨c, h, _⟩) <;> cases h
      | svc l => cases l with
        | l0 => exact absurd rfl ne
        | l1 => rintro (h | ⟨c, h, _⟩) <;> cases h
        | l2 => rintro (h | ⟨c, h, _⟩) <;> cases h
    by_cases e : i = .svc .l0
    · exact other j (fun f => ne (e.trans f.symm)) g
    · exact other i e h
  ahead _ i c h := by
    cases i with
    | alert => cases h
    | svc l => cases l with | l0 => cases h; cases entered <;> decide | l1 => cases h | l2 => cases h
  off h := by cases h
/-- WITHDRAWING, lane 0 CLOSING with the release of all its cells due at the coming boundary. -/
def withdrawing : State := ({ onAir with mode := ⟨.withdrawing, .standby, 32, none, 2⟩ }.setUnit (.svc .l0)
  { onAir.units.get (.svc .l0) with state := .closing }).setTenancy (.svc .l0)
  { resetTenancy with fragments := [⟨20, 27, none⟩], change := some ⟨.release, .ordinary, 8, [⟨20, 27⟩]⟩ }
/-- R31: that node is in STANDBY after the boundary, and one with lane 0 ON-AIR stays WITHDRAWING. -/
theorem test_withdrawn : after (.cycleBoundary 1) withdrawing (fun t => t.mode.mode) = some .standby ∧
    after (.cycleBoundary 1) { onAir with mode := ⟨.withdrawing, .standby, 32, none, 2⟩ } (fun t => t.mode.mode) =
      some .withdrawing := by decide
/-- STANDBY with lane 0 CLOSED and its contract asking for auto-open. -/
def standby : State := { active with
  mode := ⟨.standby, .run, 32, none, 2⟩, contracts := ⟨some { contract with autoOpen := true }, none, none⟩ }
theorem witness_auto_open : standby.mode.mode = .standby ∧ standby.alerts.followed = none ∧
    standby.contracts.get .l0 = some { contract with autoOpen := true } ∧
    (standby.units.get (.svc .l0)).state = .closed ∧ (standby.tenancy.get (.svc .l0)).fragments = [] ∧
    (standby.tenancy.get (.svc .l0)).change = none := by decide
/-- A listen count, with or without a cycle source. -/
def listening (count : Nat) (source : Option Node) : State := { active with
  mode := ⟨.joining, .standby, count, source, 2⟩ }
theorem witness_joining_boundary : (listening 30 none).mode.mode = .joining ∧ (listening 30 none).mode.listenCount < 31 ∧
    (listening 30 none).trunk.inProgress = false := by decide
theorem witness_alerts_rest : State.reset.AlertsRest ∧ (listening 30 none).AlertsRest ∧ (listening 30 none).onTrunk = false ∧
    ({ onAir with mode := ⟨.quiet, .standby, 0, none, 2⟩ } : State).AlertsRest :=
  ⟨fun _ _ => ⟨rfl, nofun⟩, fun _ _ => ⟨rfl, nofun⟩, rfl, fun _ _ => ⟨rfl, nofun⟩⟩
theorem witness_listen_end : (listening 31 (some 5)).inReset = false ∧ (listening 31 (some 5)).time.lock ≠ .unset ∧
    (listening 31 (some 5)).mode.mode = .joining ∧ 31 ≤ (listening 31 (some 5)).mode.listenCount ∧
    (listening 31 (some 5)).trunk.inProgress = false ∧ (listening 31 (some 5)).Room 1 := by decide
/-- R29: at an early pulse that ends the listen period the cycle number is 0 without a source and one more with one. -/
theorem test_early_ends_listening : after (.refpulse 1279990 0) (listening 31 none) (fun t => t.time.cycle) = some 0 ∧
    after (.refpulse 1279990 0) (listening 31 (some 5)) (fun t => t.time.cycle) = some 8 := by decide
/-- R120: a dwell end of frame position 100, not reached at position 0, outlives the boundary that loads cycle 0. -/
theorem test_dwell_at_cycle_zero : after (.cycleBoundary 0) ((listening 31 none).setCaptions .l0
    { resetCaptions with dwellEnd := some 100 }) (fun t => (t.captions.get .l0).dwellEnd) = some (some 100) := by decide
/-- R178: LISTEN_PERIOD_END is a cycle boundary, and JOINED carries frame 0 of the cycle it begins. -/
theorem test_joined_stamp : after (.listenPeriodEnd 1) (listening 31 (some 5))
    (fun t => t.events.queue.map (fun e => (e.kind, e.cycle, e.frame))) = some [(.joined, 8, 0)] := by decide

/-- An Event Output with one record on the line. -/
def oneEvent : EventOut := ⟨[⟨0, 7, 0, .joined, 2, none, 255, false⟩], 1, false, .sending 119 0, false⟩
theorem witness_event_sent : ({ active with events := oneEvent } : State).inReset = false ∧ oneEvent.Sound :=
  ⟨rfl, by decide, by simp [oneEvent], by simp [oneEvent, Config.eventBits]⟩
theorem witness_event_none : active.events.Sound :=
  ⟨by decide, by simp [active, State.reset, State.pinReset, resetEvents], trivial⟩
theorem witness_return_line : active.live = true := by decide
/-- R179, R187: the sync byte 0xE7 on EVO, between its start and stop bits, least significant bit first; a resting line. -/
theorem test_evo : (List.range 10).map (fun b => ({ oneEvent with line := .sending b 0 } : EventOut).evo) =
      [false, true, true, true, false, false, true, true, true, true] ∧
    ({ oneEvent with line := .idle } : EventOut).evo = true := by decide
theorem witness_evo : oneEvent.line = .sending (10 * 11 + 9) 0 ∧ oneEvent.queue ≠ [] ∧ resetEvents.line = .idle := by decide
/-- Lane 0's return line at work on its status record, in a mode, its port of a bit order. -/
def sendingStatus (mode : Mode) (order : BitOrder) : State := { active with
  mode := ⟨mode, .run, 32, none, 2⟩
  contracts := ⟨some { contract with framing := ⟨order, .rising⟩ }, none, none⟩
  returnLines := ⟨⟨some (active.laneStatus .l0), none, false⟩, ⟨none, none, false⟩, ⟨some (active.laneStatus .l2), none, false⟩⟩ }
/-- R98, R184: sync 0xB5 and kind 0x41 in either bit order, service id 7 in bytes 5 and 6; 1 behind the 240 bits, in HALTED,
and on lane 1's idle line. -/
theorem test_return_level : (List.range 16).map ((sendingStatus .active .msbFirst).returnLevel .l0) =
      [true, false, true, true, false, true, false, true, false, true, false, false, false, false, false, true] ∧
    (List.range 16).map ((sendingStatus .active .lsbFirst).returnLevel .l0) =
      [true, false, true, false, true, true, false, true, true, false, false, false, false, false, true, false] ∧
    (List.range 8).map (fun n => (sendingStatus .active .msbFirst).returnLevel .l0 (48 + n)) =
      [false, false, false, false, false, true, true, true] ∧
    ((sendingStatus .active .msbFirst).returnLevel .l0 239, (sendingStatus .active .msbFirst).returnLevel .l0 240) =
      ((((active.laneStatus .l0).bytes.getD 29 0).getLsbD 0), true) ∧
    (List.range 16).all ((sendingStatus .halted .msbFirst).returnLevel .l0) = true ∧
    (List.range 16).all ((sendingStatus .active .msbFirst).returnLevel .l1) = true := by decide +kernel
theorem witness_return_level : (sendingStatus .active .lsbFirst).live = true ∧
    ((sendingStatus .active .lsbFirst).returnLines.get .l0).sending = some (active.laneStatus .l0) ∧
    (active.laneStatus .l0).name.length = 8 ∧ (active.laneStatus .l2).name.length = 8 ∧
    (sendingStatus .active .lsbFirst).contracts.get .l2 = none ∧ (sendingStatus .halted .msbFirst).mode.mode = .halted := by
  decide
/-- R98: a record made while the clock stands still on an idle line waits, and begins as the clock resumes. -/
theorem test_clock_stops_idle (r : LaneStatus) :
    let stopped := (ReturnLine.done ⟨none, none, false⟩ true).make r
    stopped.sending = none ∧ stopped.resume.sending = some r := ⟨rfl, rfl⟩

theorem witness_slot_start : onAir.inReset = false ∧ onAir.time.lock ≠ .unset ∧ onAir.trunk.inProgress = false ∧
    onAir.mode.mode.onTrunk = true ∧ 6 = 3 * onAir.mode.node.val ∧ inRuns (onAir.tenancy.get (.svc .l0)).runs (44 - 24) = true := by
  decide
/-- `onAir`, its two cells from 20 assembled with 1s and 2s, the manifest's copy taken. -/
def assembled : State := (onAir.setUnit (.svc .l0) { onAir.units.get (.svc .l0) with
  assembled := some ⟨[20, 21], 24, List.replicate 24 1 ++ List.replicate 24 2⟩ }).setTrunk
    { onAir.trunk with copy := some (List.replicate 36 1 ++ List.replicate 36 2 ++ List.replicate 36 3) }
/-- R95, R4: cell 21 carries the second payload, and slots 7 and 8 the second and the third part of node 2's copy. -/
theorem test_slot_content : after (.slotStart 45) assembled (fun t => t.trunk.content.take 24) =
      some (List.replicate 24 2) ∧
    after (.slotStart 7) assembled (fun t => t.trunk.content) = some (List.replicate 36 2) ∧
    after (.slotStart 8) assembled (fun t => t.trunk.content) = some (List.replicate 36 3) := by decide
theorem witness_slot_content : after (.slotStart 45) assembled (fun t => t.trunk.driver) = some (some (.lane (.svc .l0))) ∧
    ((assembled.units.get (.svc .l0)).assembled.map (fun a => (a.cells[1]?, a.cells.take 1))) = some (some (45 - 24), [20]) ∧
    assembled.trunk.copy ≠ none ∧ assembled.trunk.inProgress = false ∧ 8 = 3 * assembled.mode.node.val + 2 ∧
    assembled.mode.mode.onTrunk = true := by decide
theorem witness_slot_start_silent : joining.mode.mode.onTrunk = false ∧
    inRuns (active.tenancy.get (.svc .l0)).runs (799 - 24) = false := by decide

/-- Slot 44, cell 20, in progress and driven for lane 0. -/
def driving : State := onAir.setTrunk { onAir.trunk with
  inProgress := true, slotsBegun := 45, slotState := .driving, driver := some (.lane (.svc .l0)), tag := 72
  content := List.replicate 36 0 }
/-- The same slot listened to. -/
def listeningSlot : State := onAir.setTrunk { onAir.trunk with inProgress := true, slotsBegun := 45 }
theorem witness_slot_end : driving.inReset = false ∧ driving.time.lock ≠ .unset ∧ driving.trunk.inProgress = true ∧
    driving.trunk.slotState = .driving ∧ 24 ≤ driving.trunk.slotsBegun - 1 ∧
    (driving.trunk.slotsBegun - 1 - 24) ∉ driving.trunk.relaySet ∧ driving.Room 1 := by decide
theorem witness_slot_end_listening : listeningSlot.trunk.inProgress = true ∧
    listeningSlot.trunk.slotState = .listening := by decide
/-- The same slot, its cell the first of two in the relay cell set. -/
def relaying : State := listeningSlot.setTrunk { listeningSlot.trunk with relaySource := some 3, relaySet := [20, 21] }
theorem witness_slot_end_relay : relaying.trunk.slotState = .listening ∧ 24 ≤ relaying.trunk.slotsBegun - 1 ∧
    (relaying.trunk.slotsBegun - 1 - 24) ∈ relaying.trunk.relaySet ∧
    relaying.trunk.relayGot.length + 1 ≠ relaying.trunk.relaySet.length := by decide
theorem witness_lost_cell : driving.inReset = false ∧ driving.time.lock ≠ .unset ∧
    driving.mode.mode.onTrunk = true ∧ driving.trunk.inProgress = true ∧ driving.trunk.slotState = .driving ∧
    driving.trunk.driver = some (.lane (.svc .l0)) ∧ (2 : Byte) ≠ driving.trunk.tag ∧ 25 ≤ driving.trunk.slotsBegun ∧
    (driving.tenancy.get (.svc .l0)).fragments.find? (fun g => decide (g.start ≤ driving.trunk.slotsBegun - 25 ∧
      driving.trunk.slotsBegun - 25 < g.start + g.len)) = some ⟨20, 27, none⟩ := by decide
/-- The fragment marked in the frame before: frame position 7 times 16, less one. -/
theorem witness_lost_cell_again :
    ((driving.setTenancy (.svc .l0) { resetTenancy with fragments := [⟨20, 27, some 111⟩] }).tenancy.get
      (.svc .l0)).fragments.find? (fun g => decide (g.start ≤ 20 ∧ 20 < g.start + g.len)) = some ⟨20, 27, some 111⟩ ∧
    (111 : FramePos) = BitVec.ofNat 16 (active.time.cycle.toNat * 16 + active.time.localCount / 80000) - 1 := by decide
/-- `driving`, its cell the first of two in the relay cell set of node 3. -/
def drivingRelay : State := driving.setTrunk { driving.trunk with relaySource := some 3, relaySet := [20, 21] }
/-- R15, R18: the cell is lost to node 3's alert lane: its record is handed over, and the fragment is marked. -/
theorem test_lost_relay_cell : after (.slotEnd 3 (List.replicate 36 1)) drivingRelay (fun t =>
      (t.trunk.relayGot.map (fun r => (r.cell, r.tagGood)), (t.tenancy.get (.svc .l0)).fragments.map (fun f => f.mark))) =
    some ([(20, true)], [some 112]) := by decide
theorem witness_lost_relay_cell : (drivingRelay.trunk.slotsBegun - 25) ∈ drivingRelay.trunk.relaySet ∧
    (3 : Byte) ≠ drivingRelay.trunk.tag ∧ drivingRelay.trunk.driver = some (.lane (.svc .l0)) := by decide
/-- R15: a cell that the lane holds no more. -/
theorem witness_slot_end_yielded : (driving.setTenancy (.svc .l0) resetTenancy).trunk.slotState = .driving ∧
    (2 : Byte) ≠ driving.trunk.tag ∧
    inRuns ((driving.setTenancy (.svc .l0) resetTenancy).tenancy.get (.svc .l0)).runs 20 = false := by decide
theorem witness_cell : (List.replicate 18 (7 : Byte)).length = gradePayload 1 ∧
    (List.replicate 30 (7 : Byte)).length = gradePayload 4 := by decide
theorem witness_record_bits : (Instr.laneRate .l0 64).wellFormed = true ∧
    (Instr.laneRate .l0 64).record = some (.svc .l0, .laneRate 64) ∧ active.live = true := by decide
theorem witness_segment : (⟨.alertCaption, 5, 0, true, true, 1, [65]⟩ : Segment).payload.length ≤ min 60 (5 - 4) ∧
    (⟨.alertPicture, 5, 0, true, false, 15, List.replicate 60 0⟩ : Segment).payload.length = min 60 (64 - 4) := by decide
/-- A text begun with toggle 1, the second segment awaited. -/
def collecting : State := active.setAlerts { resetAlerts with
  captionCollector := some ⟨1, [65], 1⟩, pictureCollector := some ⟨2, 1, [0, 0, 4], 2, true⟩ }
/-- R161: a Last segment in order completes the text, and one out of order ends the collecting. -/
theorem test_collect : (captionSegment ⟨.alertCaption, 5, 1, false, true, 1, [66]⟩ ⟨5, 1⟩ 3 collecting).alerts.relayTexts =
      [⟨⟨5, 1⟩, 3, 1, [65, 66]⟩] ∧
    (captionSegment ⟨.alertCaption, 5, 2, false, true, 1, [66]⟩ ⟨5, 1⟩ 3 collecting).alerts.relayTexts = [] := by decide
theorem witness_collect : (∀ o ∈ collecting.alerts.own, o.ident = ⟨5, 1⟩ → o.text = none) ∧
    collecting.alerts.pictureCollector = some ⟨2, 1, [0, 0, 4], 2, true⟩ ∧
    (⟨.alertPicture, 5, 7, false, false, 2, [1]⟩ : Segment).first = false ∧ (7 : BitVec 11) ≠ 1 := by decide

/-- A relayed picture of 4 bytes, of which one has come. -/
def relayEntry : Obj := ⟨.alert, 5, 4, [384], 1, .assembling, 0, 0, none, false, 3, 2, 1, .relay 3⟩
/-- The picture collector at work on it. -/
def gathering : State := (active.setAlerts { resetAlerts with pictureCollector := some ⟨2, 1, [0, 0, 4], 1, true⟩ }).setStore
  ⟨[relayEntry], [(393216, 9)], active.store.transfers⟩
/-- Its next segment, the last. -/
def lastPart : Segment := ⟨.alertPicture, 5, 1, false, true, 2, [8, 7, 6]⟩
/-- R162: the last three bytes make the entry READY and the collector idle. -/
theorem test_relay_picture : (pictureSegment lastPart ⟨5, 1⟩ 3 gathering).store.objects =
      [{ relayEntry with received := 4, timer := 0, state := .ready }] ∧
    (pictureSegment lastPart ⟨5, 1⟩ 3 gathering).store.cells = [(393216, 9), (393217, 8), (393218, 7), (393219, 6)] ∧
    (pictureSegment lastPart ⟨5, 1⟩ 3 gathering).alerts.pictureCollector = none := by decide
theorem gathering_store_sound : gathering.store.Sound :=
  ⟨by simp [gathering, relayEntry, State.setStore, State.setAlerts],
    by simp [gathering, relayEntry, State.setStore, State.setAlerts, Config.allBlocks, Config.ordinaryBlocks],
    by simp [gathering, relayEntry, State.setStore, State.setAlerts, Config.maxObject],
    by simp [gathering, relayEntry, State.setStore, State.setAlerts],
    by simp [gathering, relayEntry, State.setStore, State.setAlerts],
    by simp [gathering, relayEntry, State.setStore, State.setAlerts],
    by intro l; cases l <;> simp [gathering, relayEntry, State.setStore, State.setAlerts, Config.laneObjects],
    by simp [gathering, relayEntry, State.setStore, State.setAlerts]⟩
theorem witness_relay_picture : lastPart.variant < 16 ∧ gathering.StoreCanonical ∧
    gathering.store.reserve ⟨5, 1⟩ = some relayEntry ∧ relayEntry.received = 1 ∧ relayEntry.size = get24 [0, 0, 4] 0 ∧
    1 + lastPart.payload.length = relayEntry.size := ⟨by decide, rfl, by decide, rfl, rfl, rfl⟩
/-- The First segment of such a picture for an identity that has no entry: three size bytes and one byte, or one byte alone. -/
theorem witness_relay_first : gathering.store.reserve ⟨6, 1⟩ = none ∧ active.alerts.pictureCollector = none ∧
    active.store.reserve ⟨5, 1⟩ = none ∧ 1 ≤ get24 [0, 0, 4, 9] 0 ∧ get24 [0, 0, 4, 9] 0 ≤ 65536 ∧
    get24 [1, 0, 0] 0 = 65536 ∧ ([0] : List Byte).length < 3 := by decide

/-- A sheet of a lane in 27 cells with a claim of one cell more. -/
def sheet (l : LaneId) : Sheet :=
  ⟨l, .onAir, 7, .yieldable, 2, 4, 40, [⟨20, 27⟩], some ⟨.claim, .ordinary, 9, [⟨47, 1⟩]⟩, some 3⟩
/-- A manifest of node 3 in frame 0 of cycle 7. -/
def manifest : Manifest :=
  ⟨⟨3, 7, 0, .active, 1, some (3, ⟨5, 1⟩), [⟨⟨5, 1⟩, .lead, 6, 22, none, some 4095⟩]⟩, sheet (.svc .l0), sheet (.svc .l1)⟩
theorem sheet_sendable (l : LaneId) : (sheet l).Sendable :=
  ⟨by simp [sheet], by simp [sheet], by simp [sheet], ⟨by simp [sheet], rfl⟩,
    by intro c h; cases h; exact ⟨by decide, by decide, rfl⟩⟩
theorem witness_manifest : manifest.Sendable :=
  ⟨⟨by decide, by decide, by decide, by decide, by simp [manifest], by decide, by decide⟩, by decide, sheet_sendable _,
    sheet_sendable _⟩
theorem witness_stored : manifest.first.lane ≠ manifest.second.lane ∧ active.Room 1 := by decide
/-- `onAir` in frame 0 holding a HELD alert raised in cycle 3. -/
def announcer : State := onAir.setAlerts { resetAlerts with
  own := [⟨⟨5, 1⟩, .held, 6, 40, none, none, 21, 0, none, false, 3⟩] }
/-- R150, R37: what its manifest gives of the alert, and the lanes of the two sheets. -/
theorem test_outgoing : announcer.outgoing.map (fun m => m.header.own) = some [⟨⟨5, 1⟩, .held, 3, 0, none, none⟩] ∧
    announcer.outgoing.map (fun m => (m.first.lane, m.first.current)) = some (.svc .l0, [⟨20, 27⟩]) := by decide
theorem witness_outgoing : announcer.onTrunk = true ∧ joining.onTrunk = false ∧ announcer.frameIndex % 2 = 0 ∧
    (announcer.tenancy.get (.svc .l0)).fragments.length ≤ 4 ∧ announcer.alerts.own ≠ [] := by decide
/-- R36, R185: a lane of five fragments announces four, and of a release that takes the fifth the rest. -/
theorem test_announced : ({ sheet (.svc .l0) with
      current := [⟨0, 1⟩, ⟨9, 1⟩, ⟨20, 1⟩, ⟨30, 5⟩, ⟨40, 2⟩]
      change := some ⟨.release, .ordinary, 9, [⟨33, 2⟩, ⟨40, 2⟩]⟩ } : Sheet).announced =
    { sheet (.svc .l0) with
      current := [⟨0, 1⟩, ⟨9, 1⟩, ⟨20, 1⟩, ⟨30, 5⟩], change := some ⟨.release, .ordinary, 9, [⟨33, 2⟩]⟩ } := by decide
/-- The bytes of `manifest` in parts of 13, and those after what its check covers. -/
def heardParts : List (List Byte) :=
  [[3, 1, 0, 112, 3, 5, 1, 33, 5, 22, 0, 96, 0], [15, 255, 0, 0, 0, 0, 0, 0, 0, 0, 0, 0, 0],
   [0, 0, 0, 0, 0, 0, 32, 130, 0, 7, 4, 0, 40], [137, 49, 0, 9, 1, 64, 27, 0, 0, 0, 0, 0, 0],
   [0, 0, 0, 2, 240, 1, 0, 0, 0, 0, 0, 0, 0], [0, 0, 0, 33, 130, 0, 7, 4, 0, 40, 137, 49, 0],
   [9, 1, 64, 27, 0, 0, 0, 0, 0, 0, 0, 0, 0], [2, 240, 1, 0, 0, 0, 0, 0, 0, 0, 0, 0, 0], [186, 147, 0, 112]]
/-- The bytes of `manifest` as they are heard. -/
def heard : List Byte := heardParts.flatten
/-- The CRC-16 of a part, from what the parts before it left. -/
def heardCrc (k : Nat) (reg : BitVec 16) : BitVec 16 := (heardParts.getD k []).foldl crcByte reg
theorem heard_crc_parts : heardCrc 0 65535 = 33325 ∧ heardCrc 1 33325 = 47215 ∧ heardCrc 2 47215 = 15412 ∧
    heardCrc 3 15412 = 33978 ∧ heardCrc 4 33978 = 54062 ∧ heardCrc 5 54062 = 22989 ∧ heardCrc 6 22989 = 1598 ∧
    heardCrc 7 1598 = 47763 := by
  refine ⟨?_, ?_, ?_, ?_, ?_, ?_, ?_, ?_⟩ <;> decide +kernel
theorem heard_checked : heard.take 104 = (heardParts.take 8).flatten := by decide
theorem heard_crc : crc16 (heard.take 104) = 47763 := by
  have e : heardParts.take 8 = [heardParts.getD 0 [], heardParts.getD 1 [], heardParts.getD 2 [], heardParts.getD 3 [],
    heardParts.getD 4 [], heardParts.getD 5 [], heardParts.getD 6 [], heardParts.getD 7 []] := rfl
  have h := heard_crc_parts
  simp only [heardCrc] at h
  rw [heard_checked, crc16, List.foldl_flatten, e]
  revert h
  generalize heardParts.getD 0 [] = a0
  generalize heardParts.getD 1 [] = a1
  generalize heardParts.getD 2 [] = a2
  generalize heardParts.getD 3 [] = a3
  generalize heardParts.getD 4 [] = a4
  generalize heardParts.getD 5 [] = a5
  generalize heardParts.getD 6 [] = a6
  generalize heardParts.getD 7 [] = a7
  rintro ⟨h0, h1, h2, h3, h4, h5, h6, h7⟩
  simp only [List.foldl_cons, List.foldl_nil, h0, h1, h2, h3, h4, h5, h6, h7]
/-- The third directory slot of the node whose manifest it is, in progress, the first two read. -/
def hearing (m : Node) (s : State) : State := s.setTrunk { s.trunk with
  inProgress := true, slotsBegun := 3 * m.val + 3
  directory := (.read (tagOf m .manifest) (heard.take 36),
    .read (tagOf m .manifest) ((heard.drop 36).take 36), .unread) }
theorem witness_heard : (hearing 3 active).mode.mode ∈ [.joining, .active, .standby, .withdrawing] ∧
    (hearing 3 active).trunk.inProgress = true ∧ (hearing 3 active).trunk.slotState = .listening ∧
    (hearing 3 active).trunk.slotsBegun = 3 * (3 : Node).val + 3 ∧ (3 : Node) ≠ (hearing 3 active).mode.node ∧
    manifest.header.node = (3 : Node).val ∧ (hearing 2 (listening 5 none)).mode.mode = .joining ∧
    (2 : Node) = (hearing 2 (listening 5 none)).mode.node ∧ (hearing 2 (listening 5 none)).Room 1 := by decide
theorem witness_heard_bytes : judgeManifest (heard.take 36 ++ (heard.drop 36).take 36 ++ heard.drop 72) =
    some manifest := by
  rw [show heard.take 36 ++ (heard.drop 36).take 36 ++ heard.drop 72 = heard from rfl, judgeManifest, heard_crc]
  decide
/-- `active` following alert 5 led by node 3, whose stored alert sheet, without a change, holds cells 40 and 41. -/
def following : State := (active.setPeer 3 ⟨.present, 0, false, some manifest.header,
  ⟨none, none, none, some { sheet .alert with current := [⟨40, 2⟩], change := none }⟩⟩).setAlerts { resetAlerts with
  level := 1, followed := some ⟨⟨5, 1⟩, 3, 6, none⟩ }
/-- R18: the relay cell set is those cells, at the sheet's grade. -/
theorem test_relay_set : after (.frameBoundary 0) following (fun t =>
    (t.trunk.relaySource, t.trunk.relayGrade, t.trunk.relaySet)) = some (some 3, 2, [40, 41]) := by decide +kernel
theorem witness_relay_set : following.alerts.scheduled = [] ∧ following.frameIndex < 15 ∧
    following.alerts.followed = some ⟨⟨5, 1⟩, 3, 6, none⟩ ∧ (3 : Node) ≠ following.mode.node := by decide
/-- `following` with an entry of level 2 led by node 4, whose alert-lane sheet has a change pending. -/
def relayScheduled (kind : ChangeKind) (effective : Cycle) : State := (following.setPeer 4 ⟨.present, 0, false, none,
  ⟨none, none, none, some { sheet .alert with
    current := [⟨40, 2⟩], change := some ⟨kind, .alert, effective, [⟨if kind = .claim then 50 else 41, 1⟩]⟩ }⟩⟩).setAlerts
  { following.alerts with scheduled := [⟨⟨6, 2⟩, 4, 8, .onTime, 0⟩] }
/-- The cells 40, 41 and 50 held by that sheet: a change of the cycle in progress is reached, one of the next is not. -/
def relayHeld (kind : ChangeKind) (effective : Cycle) : List Bool :=
  match ((relayScheduled kind effective).peers.get 4).sheets.alert with
  | none => []
  | some sh => [40, 41, 50].map (fun k =>
      ((sheetCoverings 7 0 true sh).filter (fun c => c.pendingFor.isNone)).any (fun c => c.covers k))
theorem test_relay_changes : relayHeld .claim 7 = [true, true, true] ∧ relayHeld .claim 8 = [true, true, false] ∧
    relayHeld .release 7 = [true, false, false] ∧ relayHeld .release 8 = [true, true, false] := by decide
theorem witness_relay_scheduled : (relayScheduled .claim 7).relaySource = some 4 ∧ (relayScheduled .claim 7).frameIndex < 15 ∧
    (relayScheduled .claim 7).trunk.inProgress = false ∧ (relayScheduled .claim 7).alerts.scheduled ≠ [] ∧
    (7 - 7 : Cycle).toNat < 2048 ∧ (7 - 2056 : Cycle).toNat < 2048 ∧ ¬ (7 - 8 : Cycle).toNat < 2048 := by decide
/-- A manifest of node 3 that lists one alert. -/
def announcing (e : OwnEntry) : Manifest := { manifest with header := { manifest.header with own := [e] } }
/-- `onAir` at level 1, one context saved. -/
def saved : State := onAir.setAlerts { resetAlerts with
  level := 1, followed := some ⟨⟨5, 1⟩, 3, 6, none⟩, stack := [⟨0, none, false, Trio.const none, Trio.const none,
    ⟨some 27, none, none⟩, Trio.const none⟩] }
/-- R151, R153, R157: a level 2 alert heard at level 1 is scheduled for its entry cycle, and one of level 1 is pending. -/
theorem test_alert_heard : (storeManifest 3 (announcing ⟨⟨6, 2⟩, .lead, 9, 22, none, none⟩) saved).alerts.scheduled =
      [⟨⟨6, 2⟩, 3, 9, .onTime, 22⟩] ∧
    (storeManifest 3 (announcing ⟨⟨6, 1⟩, .lead, 9, 22, none, none⟩) saved).alerts.pendingAlerts = [⟨⟨6, 1⟩, 3, 22⟩] := by
  decide
theorem witness_alert_heard : saved.onTrunk = true ∧ saved.alerts.Sound ∧ (3 : Node) ≠ saved.mode.node ∧
    saved.followsOrScheduled ⟨6, 2⟩ = false ∧ saved.saved ⟨6, 2⟩ = false ∧ saved.followsOrScheduled ⟨6, 1⟩ = false ∧
    saved.saved ⟨6, 1⟩ = false ∧ saved.announced = [] ∧ saved.Room 24 ∧ (9 - 7 : Cycle).toNat = 2 ∧
    (7 - 7 : Cycle).toNat = 0 ∧ (10 - 7 : Cycle).toNat = 3 :=
  ⟨by decide, ⟨by decide, rfl, rfl, rfl⟩, by decide, by decide, by decide, by decide, by decide,
    by decide, by decide, by decide, by decide, by decide⟩
/-- R155: an end cycle of 9 heard of the followed alert, and the alert listed no more in frame 0. -/
theorem test_end_heard : (storeManifest 3 (announcing ⟨⟨5, 1⟩, .lead, 6, 22, none, some 9⟩) saved).alerts.ends =
      [⟨⟨5, 1⟩, 3, 9⟩] ∧
    (storeManifest 3 (announcing ⟨⟨6, 2⟩, .held, 6, 22, none, none⟩) saved).alerts.ends = [⟨⟨5, 1⟩, 3, 8⟩] := by decide
/-- Alert 5 of level 1 with lead 3 saved, scheduled, pending, or held as a SHADOW copy of what node 3 announces. -/
def heldBy3 (place : Fin 4) : State := match place with
  | 0 => saved.setAlerts { saved.alerts with
      level := 2
      followed := some ⟨⟨6, 2⟩, 4, 7, none⟩
      stack := [⟨1, some ⟨⟨5, 1⟩, 3, 6, none⟩, false, Trio.const none, Trio.const none, Trio.const none, Trio.const none⟩] }
  | 1 => active.setAlerts { resetAlerts with scheduled := [⟨⟨5, 1⟩, 3, 8, .onTime, 22⟩] }
  | 2 => saved.setAlerts { saved.alerts with followed := some ⟨⟨6, 1⟩, 4, 7, none⟩, pendingAlerts := [⟨⟨5, 1⟩, 3, 22⟩] }
  | 3 => (active.setPeer 3 ⟨.present, 0, false, some (announcing ⟨⟨5, 1⟩, .lead, 6, 22, none, none⟩).header,
      Quad.const none⟩).setAlerts { resetAlerts with own := [⟨⟨5, 1⟩, .shadow, 6, 22, none, none, 21, 0, none, false, 6⟩] }
theorem witness_end_heard (place : Fin 4) : (heldBy3 place).onTrunk = true ∧ (3 : Node) ≠ (heldBy3 place).mode.node ∧
    (heldBy3 place).alerts.ends = [] ∧ saved.alerts.followed = some ⟨⟨5, 1⟩, 3, 6, none⟩ ∧ saved.alerts.ends = [] ∧
    ((heldBy3 0).alerts.stack.map (fun c => c.followed) = [some ⟨⟨5, 1⟩, 3, 6, none⟩] ∧
      (heldBy3 1).alerts.scheduled.map (fun x => x.lead) = [3] ∧
      (heldBy3 2).alerts.pendingAlerts.map (fun x => x.lead) = [3] ∧
      (heldBy3 3).announced.map (fun y => (y.1, y.2.role)) = [(2, .shadow), (3, .lead)]) := by
  revert place; decide
/-- R163, R155: a node that leads the orphaned alert again is its lead, and the end cycle it gives is noted. -/
theorem test_hold_ended : let s := saved.setAlerts { saved.alerts with followed := some ⟨⟨5, 1⟩, 1, 6, some 2⟩ }
    (storeManifest 3 (announcing ⟨⟨5, 1⟩, .lead, 6, 22, none, some 9⟩) s).alerts.followed = some ⟨⟨5, 1⟩, 3, 6, none⟩ ∧
    (storeManifest 3 (announcing ⟨⟨5, 1⟩, .lead, 6, 22, none, some 9⟩) s).alerts.ends = [⟨⟨5, 1⟩, 3, 9⟩] := by decide
theorem witness_hold_ended : (saved.setAlerts { saved.alerts with followed := some ⟨⟨5, 1⟩, 1, 6, some 2⟩ }).announced = [] ∧
    saved.onTrunk = true ∧ (3 : Node) ≠ saved.mode.node := by decide
/-- R155, R163: a saved alert led by the node itself, whose own alert is a SHADOW of node 3's, has node 3 as its lead. -/
theorem test_saved_demoted : let s := heldBy3 3
    (switchSaved (s.setAlerts { s.alerts with stack := [⟨1, some ⟨⟨5, 1⟩, 2, 6, none⟩, false, Trio.const none, Trio.const none,
      Trio.const none, Trio.const none⟩] })).alerts.stack.map (fun c => c.followed) = [some ⟨⟨5, 1⟩, 3, 6, none⟩] := by decide
/-- `following`, the alert announced as LEAD by node 4 too, or by node 3 alone. -/
def ledTwice (other : Bool) : State := if other then following.setPeer 4 ⟨.present, 0, false,
  some { manifest.header with own := [⟨⟨5, 1⟩, .lead, 6, 22, none, none⟩] }, Quad.const none⟩ else following
/-- R163: node 3 lists its alert as HELD: node 4 leads, or the orphan hold begins. -/
theorem test_lead_lost : (storeManifest 3 (announcing ⟨⟨5, 1⟩, .held, 6, 0, none, none⟩) (ledTwice true)).alerts.followed =
      some ⟨⟨5, 1⟩, 4, 6, none⟩ ∧
    (storeManifest 3 (announcing ⟨⟨5, 1⟩, .held, 6, 0, none, none⟩) (ledTwice false)).alerts.followed =
      some ⟨⟨5, 1⟩, 3, 6, some 0⟩ := by decide
theorem witness_lead_lost (other : Bool) : (ledTwice other).onTrunk = true ∧ (3 : Node) ≠ (ledTwice other).mode.node ∧
    (∀ y ∈ (ledTwice other).announced, y.1 ≠ 3 → y.2.role = .lead → y.2.ident.level = 1 →
      y.2.ident = ⟨5, 1⟩ ∧ y.2.endCycle = none) ∧
    (ledTwice other).alerts.followed = some ⟨⟨5, 1⟩, 3, 6, none⟩ ∧
    (ledTwice other).otherLead 3 ⟨5, 1⟩ = if other then some 4 else none := by
  cases other <;> decide
/-- `active` with node 3's entry in a state after a number of unheard frames. -/
def withPeer (state : PeerState) (unheard : Nat) : State :=
  active.setPeer 3 ⟨state, unheard, false, some manifest.header, Quad.const none⟩
theorem witness_silent : (withPeer .present 15).live = true ∧ (3 : Node) ≠ (withPeer .present 15).mode.node ∧
    (withPeer .present 15).Room 1 ∧ ((withPeer .present 15).peers.get 3).state = .present ∧
    ((withPeer .present 15).peers.get 3).unheard = 15 := by decide
theorem witness_lost : (withPeer .silent 47).live = true ∧ ((withPeer .silent 47).peers.get 3).state = .silent ∧
    ((withPeer .silent 47).peers.get 3).unheard = 47 := by decide
/-- R46, R163: the same with node 3's alert followed; the peer is lost as its lead. -/
theorem witness_lost_lead : ((withPeer .silent 47).setAlerts following.alerts).onTrunk = true ∧
    ((withPeer .silent 47).setAlerts following.alerts).alerts.followed = some ⟨⟨5, 1⟩, 3, 6, none⟩ ∧
    (∀ y ∈ ((withPeer .silent 47).setAlerts following.alerts).announced, y.1 = 3) := by decide

/-- Lane 0 ON-AIR with a change that takes effect in the cycle in progress. -/
def due (kind : ChangeKind) : State := onAir.setTenancy (.svc .l0) { onAir.tenancy.get (.svc .l0) with
  change := some ⟨kind, .ordinary, 7, if kind = .claim then [⟨47, 3⟩] else [⟨40, 7⟩]⟩ }
theorem witness_due : (due .claim).onTrunk = true ∧ (due .release).onTrunk = true ∧ (due .claim).Room 1 ∧
    ((due .claim).tenancy.get (.svc .l0)).change = some ⟨.claim, .ordinary, (due .claim).time.cycle, [⟨47, 3⟩]⟩ ∧
    ((due .release).tenancy.get (.svc .l0)).change = some ⟨.release, .ordinary, (due .release).time.cycle, [⟨40, 7⟩]⟩ := by
  decide
/-- Lane 0 ON-AIR in 27 cells with a target. -/
def target (n : Nat) : State := onAir.setTenancy (.svc .l0) { onAir.tenancy.get (.svc .l0) with target := n }
theorem witness_backoff_end : (target 30).onTrunk = true ∧ ((target 30).tenancy.get (.svc .l0)).backoff = 0 ∧
    ((target 30).tenancy.get (.svc .l0)).change = none ∧ ((target 30).tenancy.get (.svc .l0)).cells < 30 ∧
    30 = ((target 30).tenancy.get (.svc .l0)).target ∧ ((target 30).units.get (.svc .l0)).state ≠ .restoring ∧
    (target 30).mode.mode = .active ∧ (target 30).alerts.level = 0 ∧ (target 30).Room 1 := by decide
theorem witness_backoff_end_release : ((target 26).tenancy.get (.svc .l0)).target <
    ((target 26).tenancy.get (.svc .l0)).cells ∧ ((target 27).tenancy.get (.svc .l0)).target =
    ((target 27).tenancy.get (.svc .l0)).cells := by decide
/-- Lane 0 RESTORING in 27 cells, up to 40. -/
def restoring : State := (target 64).setTenancy (.svc .l0) { (target 64).tenancy.get (.svc .l0) with
  restoreTarget := some 40 } |>.setUnit (.svc .l0) { onAir.units.get (.svc .l0) with state := .restoring }
/-- R60: a RESTORE claim takes 13 cells for its restore target, also at level 1, and an ALERT claim is for one cycle on. -/
theorem test_claims : after (.backoffEnd (.svc .l0)) (restoring.setAlerts { resetAlerts with level := 1 })
      (fun t => (t.tenancy.get (.svc .l0)).change.map (fun c => (c.rank, c.effective, runTotal c.runs))) =
        some (some (.restore, 9, 13)) ∧
    after (.backoffEnd .alert) (active.setTenancy .alert { resetTenancy with target := 6 })
      (fun t => (t.tenancy.get .alert).change.map (fun c => (c.rank, c.effective, c.runs))) =
        some (some (.alert, 8, [⟨0, 6⟩])) := by decide +kernel
theorem witness_first_fit : exampleFree.Pairwise (fun a b => a.start < b.start) ∧ ∀ r ∈ exampleFree, 0 < r.len := by decide
theorem witness_backoff_end_level :
    ((target 30).setAlerts { resetAlerts with level := 1 }).alerts.level ≠ 0 := by decide
theorem witness_trim : ([⟨20, 4, none⟩, ⟨24, 3, none⟩] : List Fragment).Pairwise
    (fun f g => f.start + f.len ≤ g.start) ∧ 7 ≤ (runCells [⟨20, 4⟩, ⟨24, 3⟩]).length := by decide
/-- A claim of lane 0 of cells 47 to 49, of a rank. -/
def claiming (rank : Rank) : State := onAir.setTenancy (.svc .l0) { onAir.tenancy.get (.svc .l0) with
  change := some ⟨.claim, rank, 9, [⟨47, 3⟩]⟩ }
/-- Against the sheet of node 1, which claims cell 47 for cycle 9, node 2 loses at equal rank and wins at a higher one. -/
theorem witness_collision : ((claiming .ordinary).tenancy.get (.svc .l0)).change = some ⟨.claim, .ordinary, 9, [⟨47, 3⟩]⟩ ∧
    (sheet (.svc .l0)).change = some ⟨.claim, .ordinary, 9, [⟨47, 1⟩]⟩ ∧
    2048 ≤ ((claiming .ordinary).time.cycle - 9).toNat ∧ 47 ∈ runCells [⟨47, 3⟩] ∧ inRuns [⟨47, 1⟩] 47 = true ∧
    (claiming .ordinary).Room 1 ∧ (1 : Node) < (claiming .ordinary).mode.node ∧
    ∀ k ∈ runCells [⟨47, 3⟩], inRuns (sheet (.svc .l0)).current k = false := by decide
/-- A sheet in cell 48, with a change. -/
def heldSheet (change : Option PendingChange) : Sheet := { sheet (.svc .l0) with current := [⟨48, 1⟩], change := change }
/-- The arguments of what meeting a sheet of node 5, in step, posts for the ALERT claim of `claiming`. -/
def met (change : Option PendingChange) : List Nat :=
  (conflictCheck 5 true (heldSheet change) (.svc .l0) (claiming .alert)).events.queue.map (fun e => e.arg)
/-- R63: cell 48 is the peer's without a change, and with a release for cycle 8; a release for cycle 7, and one 2,047 cycles
back, has freed it; a claim of cell 49 for cycle 7 is held. -/
theorem test_held_cells : met none = [517] ∧ met (some ⟨.release, .ordinary, 8, [⟨48, 1⟩]⟩) = [517] ∧
    met (some ⟨.release, .ordinary, 7, [⟨48, 1⟩]⟩) = [] ∧ met (some ⟨.release, .ordinary, 2056, [⟨48, 1⟩]⟩) = [] ∧
    met (some ⟨.claim, .ordinary, 7, [⟨49, 1⟩]⟩) = [517] := by decide
theorem witness_yield : 18 ≤ ([(48, 12), (36, 15), (30, 30), (40, 14)].map (fun x => x.1 - x.2)).sum := by decide
theorem witness_lane_record : (Instr.laneClose .l0).record = some (.svc .l0, .laneClose) ∧
    Instr.recordRejected (.svc .l0) 3 0 [] 0 = .recordRejected (.svc .l0) (3 : Byte) (0 : BitVec 16) [] (0 : BitVec 16) :=
  ⟨rfl, rfl⟩

/-- `onAir` with lane 0's FIFO at a length and its intake as given. -/
def withFifo (n : Nat) (x : Intake) : State := onAir.setUnit (.svc .l0) { onAir.units.get (.svc .l0) with
  fifo := List.replicate n 0, intake := x }
theorem witness_audio : onAir.live = true ∧ onAir.contracts.get .l0 = some contract ∧ onAir.Room 1 ∧
    (onAir.units.get (.svc .l0)).state = .onAir ∧ (onAir.units.get (.svc .l0)).intake = .accepting ∧
    (onAir.units.get (.svc .l0)).fifo.length + 1024 ≤ 16384 := by decide
theorem witness_audio_full : ((withFifo 16384 .accepting).units.get (.svc .l0)).intake = .accepting ∧
    ¬ ((withFifo 16384 .accepting).units.get (.svc .l0)).fifo.length + 1 ≤ 16384 :=
  ⟨rfl, by rw [show ((withFifo 16384 .accepting).units.get (.svc .l0)).fifo.length = 16384 from List.length_replicate]
           decide⟩
theorem witness_audio_held : ((withFifo 0 .held).units.get (.svc .l0)).intake = .held ∧
    (active.units.get (.svc .l0)).state = .closed := by decide

theorem witness_lane_open : active.live = true ∧ active.contracts.get .l0 = some contract ∧ active.Room 2 ∧
    (active.units.get (.svc .l0)).state = .closed ∧ active.mode.mode = .active ∧
    (active.tenancy.get (.svc .l0)).cells = 0 := by decide
theorem witness_lane_rate : (onAir.units.get (.svc .l0)).state = .onAir ∧ onAir.alerts.stack = [] ∧ onAir.Room 2 ∧
    (saved.units.get (.svc .l0)).state = .onAir ∧ saved.alerts.stack ≠ [] := by decide
/-- `onAir` with no cells left, its claim for them still pending. -/
def bare : State := onAir.setTenancy (.svc .l0) { resetTenancy with
  target := 27, change := some ⟨.claim, .ordinary, 9, [⟨20, 27⟩]⟩ }
/-- R89: the lane stays ON-AIR on a LANE_RATE that withdraws its claim, in WITHDRAWING, where no other is planned. -/
theorem test_lane_rate_bare : after (.laneRate .l0 48) { bare with mode := { bare.mode with mode := .withdrawing } } (fun t =>
    ((t.units.get (.svc .l0)).state, (t.tenancy.get (.svc .l0)).change)) = some (.onAir, none) := by decide
/-- `onAir`, node 3's lane 0 with a sheet of the same 27 cells and a claim of cell 47. -/
def mapped : State := onAir.setPeer 3 ⟨.present, 0, false, some manifest.header, ⟨some (sheet (.svc .l0)), none, none, none⟩⟩
/-- A new rate on a lane with a pending claim: in ACTIVE, at a level, with a backoff, RESTORING, or with a release pending. -/
def rerating (level backoff : Nat) (state : LaneState) (change : PendingChange) : State :=
  (((onAir.setTenancy (.svc .l0) { onAir.tenancy.get (.svc .l0) with
    change := some change, backoff := backoff, restoreTarget := if state = .restoring then some 40 else none }).setUnit (.svc .l0)
      { onAir.units.get (.svc .l0) with state := state }).setAlerts { resetAlerts with level := level })
/-- Node 3's lane 0 holds every cell but 20 to 46. -/
def crowded : State := mapped.setPeer 3 { mapped.peers.get 3 with
  sheets := ⟨some { sheet (.svc .l0) with current := [⟨0, 20⟩, ⟨47, 729⟩], change := none }, none, none, none⟩ }
/-- R69, R64, R58, R61: 34 cells for 80 kbit/s want 7 more, and the claim before is withdrawn; R60: for want of room, 7 deferred. -/
theorem test_lane_rate_replan : after (.laneRate .l0 80) (claiming .ordinary) (fun t =>
      (t.events.queue.map (fun e => (e.kind, e.arg)), (t.tenancy.get (.svc .l0)).change.map (fun c => (c.effective, c.runs)))) =
        some ([(.claimWithdrawn, 770)], some (9, [⟨0, 7⟩])) ∧
    after (.laneRate .l0 80) crowded (fun t => (t.events.queue.map (fun e => (e.kind, e.arg)),
      (t.tenancy.get (.svc .l0)).deferral)) = some ([(.claimDeferred, 7)], .room) := by decide +kernel
/-- What a rate meets with no context saved: a claim or a release pending, a level, a backoff, a restore not complete. -/
theorem witness_lane_rate_replan :
    (∀ s ∈ [claiming .ordinary, crowded, rerating 1 0 .onAir ⟨.claim, .ordinary, 9, [⟨47, 3⟩]⟩,
        rerating 0 2 .onAir ⟨.claim, .ordinary, 9, [⟨47, 3⟩]⟩, rerating 0 0 .restoring ⟨.claim, .restore, 9, [⟨47, 3⟩]⟩,
        rerating 0 0 .onAir ⟨.release, .ordinary, 8, [⟨40, 7⟩]⟩],
      s.live = true ∧ s.contracts.get .l0 = some contract ∧ s.Hunting (.svc .l0) ∧ s.alerts.stack = [] ∧ s.Room 3 ∧
        s.mode.mode = .active ∧ (s.tenancy.get (.svc .l0)).cells = 27 ∧ contract.grade = 2) ∧
    (claiming .ordinary).alerts.level = 0 ∧ ((claiming .ordinary).tenancy.get (.svc .l0)).claiming = true ∧
    (10 * 80 + gradePayload 2 - 1) / gradePayload 2 = 34 ∧ (10 * 40 + gradePayload 2 - 1) / gradePayload 2 = 17 := by decide
theorem witness_lane_rate_bare : bare.live = true ∧ bare.contracts.get .l0 = some contract ∧ bare.alerts.stack = [] ∧
    (bare.units.get (.svc .l0)).state = .onAir ∧ (bare.tenancy.get (.svc .l0)).cells = 0 ∧ bare.Room 2 ∧
    bare.Hunting (.svc .l0) ∧ (∀ r, (restoring.tenancy.get (.svc .l0)).restoreTarget = some r →
      (restoring.tenancy.get (.svc .l0)).cells < min r 40) ∧ (restoring.units.get (.svc .l0)).state = .restoring := by
  refine ⟨by decide, by decide, by decide, by decide, by decide, by decide, by decide, ?_, by decide⟩
  intro r h; cases h; decide
/-- Every port of the states here hunts with no bits held. -/
theorem witness_hunting : active.Hunting (.svc .l0) ∧ onAir.Hunting (.svc .l0) ∧ saved.Hunting (.svc .l0) ∧
    active.Hunting .alert := by decide
theorem witness_lane_close : onAir.live = true ∧ onAir.contracts.get .l0 = some contract ∧ onAir.Room 3 ∧
    onAir.Hunting (.svc .l0) ∧ (onAir.units.get (.svc .l0)).state = .onAir ∧ 0 < (onAir.tenancy.get (.svc .l0)).cells := by
  decide
theorem witness_lane_reset : onAir.live = true ∧ onAir.contracts.get .l0 = some contract ∧ onAir.Room 1 := by decide
/-- R91, R98: the record that LANE_RESET makes of a HELD intake. -/
theorem test_lane_reset_held : after (.laneReset .l0) (withFifo 3 .held) (fun t =>
    (t.returnLines.get .l0).sending.map (fun r => (r.intake, r.fill))) = some (some (.accepting, 0)) := by decide
theorem witness_assembly : runCells (onAir.tenancy.get (.svc .l0)).runs ≠ [] ∧
    runCells (active.tenancy.get (.svc .l0)).runs = [] ∧ onAir.live = true ∧ onAir.Room 1 ∧ onAir.store.objects = [] := by
  decide
/-- A HELD intake with any fill: with 608 bytes taken, 8,800 leaves the last that resumes and 8,801 the first that does not. -/
theorem witness_assembly_held (n : Nat) : ((withFifo n .held).units.get (.svc .l0)).intake = .held ∧
    ((withFifo n .held).units.get (.svc .l0)).fifo.length = n ∧
    ((withFifo n .held).units.get (.svc .l0)).split.audio = 608 := ⟨rfl, List.length_replicate, rfl⟩

/-- A caption carousel with a SENDING entry 4 of priority 3 and a WAITING entry 6 of priority 1. -/
def carousel : CaptionCarousel :=
  ⟨[⟨4, 3, [65], 5, 0, 0, true, .sending⟩, ⟨6, 1, [66], 5, 1, 1, true, .waiting⟩], 1, some 3, some 120, some ⟨0, 0⟩,
    Vector.replicate 256 false⟩
/-- `active` with that carousel in lane 0. -/
def captions : State := active.setCaptions .l0 carousel
theorem carousel_sound : (captions.captions.get .l0).Sound :=
  ⟨by decide, by decide, by decide, by decide, by decide, by decide⟩
theorem witness_caption_put : captions.live = true ∧ captions.contracts.get .l0 = some contract ∧ captions.Room 4 ∧
    (captions.captions.get .l0).entries.filter (fun e => e.id == 9) = [] ∧
    (captions.captions.get .l0).entries.filter (fun e => e.id == 4) ≠ [] ∧
    (captions.captions.get .l0).entries.length < 16 := by decide
/-- Sixteen WAITING entries of priority 1, of ids 0 to 15. -/
def full : CaptionCarousel :=
  ⟨(List.range 16).map (fun n => ⟨byteOf n, 1, [65], 5, 0, 0, true, .waiting⟩), 0, none, none, none,
    Vector.replicate 256 false⟩
theorem witness_caption_full : full.Sound ∧ full.entries.length = 16 ∧ full.entries.filter (fun e => e.id == 99) = [] ∧
    full.entries.getLast?.map (fun e => e.priority) = some 1 ∧
    (full.entries.find? (fun e => e.priority == 1)).map (fun e => e.id) = some 0 :=
  ⟨⟨by decide, by decide, by decide, by decide, by decide, by decide⟩, by decide, by decide, by decide, by decide⟩
theorem witness_caption_drop : captions.live = true ∧ (captions.captions.get .l0).entries[1]?.map (fun e => e.id) = some 6 ∧
    ∀ e ∈ (captions.captions.get .l0).entries, e.id ≠ 9 := by decide
/-- The SENDING entry goes on from its first byte; in `full` a send of the first begins; and a dwell end lies ahead. -/
theorem witness_caption_turn : carousel.entries[0]? = some ⟨4, 3, [65], 5, 0, 0, true, .sending⟩ ∧
    carousel.cursor = some ⟨0, 0⟩ ∧ full.cursor = none ∧ full.dwellEnd = none ∧
    (full.entries[0]?).map (fun e => (e.id, e.dwell)) = some (0, 5) ∧ ¬ full.mark ≠ 0 ∧
    32768 ≤ ((112 : FramePos) - 120).toNat := by decide
/-- A caption whose first byte is sent, with a dwell end. -/
def goingOn (dwellEnd : FramePos) : CaptionCarousel :=
  ⟨[⟨4, 3, [65, 66], 5, 0, 0, true, .sending⟩], 1, none, some dwellEnd, some ⟨1, 1⟩, Vector.replicate 256 false⟩
/-- R120: its second segment in frame 112 leaves a dwell end of 120 and drops one of 112. -/
theorem test_dwell_goes_on : [(120 : FramePos), 112].map (fun d => (((goingOn d).testDwell 112).supply 112 1).map
      (fun x => (x.1.payload, x.2.dwellEnd, x.2.entries.map (fun e => e.state)))) =
    [some ([66], some 120, [.dwelling]), some ([66], none, [.waiting])] := by decide
theorem witness_dwell_goes_on (d : FramePos) : (goingOn d).Sound ∧ (goingOn d).cursor = some ⟨1, 1⟩ ∧
    active.frameIndex = 0 ∧ active.time.cycle = 7 :=
  ⟨⟨by simp [goingOn, Config.captionEntries], by simp [goingOn], by simp [goingOn], rfl, by simp [goingOn], Or.inr rfl⟩, rfl,
    by decide, rfl⟩
theorem witness_dwell_end : captions.live = true ∧ (captions.captions.get .l0).dwellEnd = some 120 := by decide

/-- An object of lane 0 with id 3 and of 1,025 bytes in blocks 0 and 1. -/
def object (state : ObjectState) (received timer : Nat) (expiry : Option Nat) : Obj :=
  ⟨.svc .l0, 3, 1025, [0, 1], received, state, 2, 2, expiry, false, timer, 0, 0, .origin⟩
/-- `active` with that object, in the carousel's order unless it is ASSEMBLING. -/
def withObject (state : ObjectState) (received timer : Nat) (expiry : Option Nat) : State :=
  (active.setStore ⟨[object state received timer expiry], [], active.store.transfers⟩).setPictures .l0
    ⟨if state = .assembling then [] else [3], 0, none⟩
theorem witness_picture_begin : (withObject .ready 1025 0 none).live = true ∧ (withObject .ready 1025 0 none).Room 3 ∧
    ((withObject .ready 1025 0 none).store.objects.flatMap (fun o => o.blocks)).Nodup ∧
    ∀ o ∈ (withObject .ready 1025 0 none).store.objects, ∀ b ∈ o.blocks, (o.owner ≠ .alert ↔ b < 384) := by decide
/-- Lane 0 OPENING, its claim pending, with a picture whose lifetime is over ON-AIR, or without one. -/
def openingLane (expired : Bool) : State :=
  (((if expired then withObject .onAir 1025 0 (some 0) else active).setStore ⟨if expired then
      [{ object .onAir 1025 0 (some 0) with expired := true }] else [], [], active.store.transfers⟩).setUnit (.svc .l0)
    { resetUnit with state := .opening }).setTenancy (.svc .l0)
    { resetTenancy with target := 27, change := some ⟨.claim, .ordinary, 9, [⟨0, 27⟩]⟩, backoff := 3 }
/-- R90, R70, R64: the claim is withdrawn with cause 4, and the lane CLOSED; an expired picture goes then too (R140). -/
theorem test_lane_close_opening (expired : Bool) : after (.laneClose .l0) (openingLane expired) (fun t =>
      t.events.queue.map (fun e => (e.kind, e.arg))) = some ((.claimWithdrawn, 1026) ::
        if expired then [(.objectExpired, 3), (.laneClosed, 0)] else [(.laneClosed, 0)]) ∧
    after (.laneClose .l0) (openingLane expired) (fun t => ((t.units.get (.svc .l0)).state,
      (t.tenancy.get (.svc .l0)).backoff)) = some (.closed, 3) := by
  cases expired <;> exact ⟨by decide, by decide⟩
theorem witness_lane_close_opening (expired : Bool) : (openingLane expired).live = true ∧
    (openingLane expired).contracts.get .l0 = some contract ∧ (openingLane expired).Hunting (.svc .l0) ∧
    (openingLane expired).Room 3 ∧ ((openingLane expired).units.get (.svc .l0)).state = .opening ∧
    ((openingLane expired).tenancy.get (.svc .l0)).claiming = true ∧ ((openingLane expired).tenancy.get (.svc .l0)).cells = 0 ∧
    (expired = false → ∀ o ∈ (openingLane expired).store.objects, o.expired = false) := by
  cases expired <;> decide
/-- The largest size is admitted, in 64 blocks; one more is refused with reason 1, and a ninth object with reason 2. -/
theorem test_picture_begin_bounds : after (.pictureBegin .l0 9 65536 0 0) active (fun t =>
      (t.events.queue.length, t.store.objects.map (fun o => o.blocks.length))) = some (0, [64]) ∧
    after (.pictureBegin .l0 9 65537 0 0) active (fun t => t.events.queue.map (fun e => (e.kind, e.arg))) =
      some [(.objectRefused, 265)] := by decide
/-- `active` with eight objects of lane 0. -/
def eightObjects : State := active.setStore ⟨(List.range 8).map (fun n =>
  { object .ready 1025 0 none with id := byteOf n, blocks := [2 * n, 2 * n + 1] }), [], active.store.transfers⟩
theorem test_picture_begin_ninth : after (.pictureBegin .l0 9 1 0 0) eightObjects (fun t =>
    t.events.queue.map (fun e => (e.kind, e.arg))) = some [(.objectRefused, 521)] := by decide
theorem witness_picture_chunk : (withObject .assembling 1024 0 none).live = true ∧
    Memory.wf (withObject .assembling 1024 0 none).store.cells = true ∧
    (withObject .assembling 1024 0 none).store.objects.find? (fun o => o.owner == .svc .l0 && o.id == 3) =
      some (object .assembling 1024 0 none) ∧ (object .assembling 1024 0 none).received = 1024 := by decide
/-- The two blocks of the object give its bytes addresses of their own. -/
theorem witness_picture_chunk_addresses : ∀ i j, i < (object .assembling 0 0 none).size →
    j < (object .assembling 0 0 none).size → (object .assembling 0 0 none).address i = (object .assembling 0 0 none).address j →
    i = j := by
  have h : ∀ i, i < 1025 → (object .assembling 0 0 none).address i = i := by
    intro i hi
    by_cases c : i < 1024
    · simp [Obj.address, object, Config.blockBytes, Nat.div_eq_of_lt c, Nat.mod_eq_of_lt c]
    · have : i = 1024 := by omega
      subst this
      decide
  intro i j hi hj e
  rwa [h i hi, h j hj] at e
theorem witness_objects_leave : (withObject .ready 1025 0 (some 1)).live = true ∧ (withObject .ready 1025 0 (some 1)).Room 1 ∧
    (withObject .ready 1025 0 (some 1)).contracts.get .l0 = some contract ∧
    (withObject .ready 1025 0 (some 1)).store.objects.find? (fun x => x.owner == .svc .l0 && x.id == 3) =
      some (object .ready 1025 0 (some 1)) ∧ ((withObject .ready 1025 0 (some 1)).pictures.get .l0).order.Nodup ∧
    (withObject .ready 1025 0 (some 1)).Hunting (.svc .l0) ∧ (object .onAir 1025 0 (some 1)).state = .onAir ∧ (object .assembling 5 7 none).timer = 7 ∧
    (object .assembling 5 7 none).expiry ≠ some 1 ∧
    (∀ x ∈ (withObject .ready 1025 0 none).store.objects, x.owner = .svc .l0 → x.id ≠ 9) := by decide
/-- R135: an object whose lifetime ends at the boundary of its eighth cycle without a chunk goes as expired. -/
theorem test_expired_not_timed_out : after (.objectTimeout (.svc .l0) 3) (withObject .assembling 5 7 (some 1))
      (fun t => (t.store.objects.length, t.events.queue.length)) = some (1, 0) ∧
    after (.objectExpired .l0 3) (withObject .assembling 5 7 (some 1))
      (fun t => (t.store.objects.length, t.events.queue.map (fun e => e.kind))) = some (0, [.objectExpired]) := by decide
theorem object_store_sound (state : ObjectState) (h : state ≠ .assembling) :
    (withObject state 1025 0 none).store.Sound :=
  ⟨by simp [withObject, object, State.setStore, State.setPictures],
    by simp [withObject, object, State.setStore, State.setPictures, Config.allBlocks, Config.ordinaryBlocks],
    by simp [withObject, object, State.setStore, State.setPictures, Config.maxObject],
    by simp [withObject, object, State.setStore, State.setPictures, h],
    by simp [withObject, object, State.setStore, State.setPictures],
    by simp [withObject, object, State.setStore, State.setPictures],
    by intro l; cases l <;> simp [withObject, object, State.setStore, State.setPictures, Config.laneObjects],
    by simp [withObject, object, State.setStore, State.setPictures]⟩
theorem witness_picture_turn : (withObject .ready 1025 0 none).Room 1 ∧
    (withObject .ready 1025 0 none).store.objects.find? (fun x => x.owner == .svc .l0 && x.id == 3) =
      some (object .ready 1025 0 none) ∧ ((withObject .ready 1025 0 none).pictures.get .l0).order[0]? = some 3 ∧
    (∀ x ∈ (withObject .ready 1025 0 none).store.objects, x.owner = .svc .l0 → x.state ≠ .onAir) ∧
    (∀ x ∈ (withObject .onAir 1025 0 none).store.objects, x.owner = .svc .l0 → x.state = .onAir →
      x = object .onAir 1025 0 none) := by decide
/-- A reserve entry of alert 5 at level 1, seven cycles without a chunk. -/
def reserveEntry : Obj := ⟨.alert, 5, 1024, [384], 5, .assembling, 0, 0, none, false, 7, 0, 1, .origin⟩
/-- An own LEAD alert of id 5 and a level, in its twentieth cycle on air with a limit of 21. -/
def ownAlert (level : Nat) : OwnAlert := ⟨⟨5, level⟩, .lead, 3, 0, none, none, 21, 20, none, false, 3⟩
/-- `active` with that alert and entry. -/
def withAlert (level : Nat) : State :=
  (active.setAlerts { resetAlerts with own := [ownAlert level] }).setStore ⟨[reserveEntry], [], active.store.transfers⟩
theorem witness_reserve_timeout : (withAlert 1).store.objects.filter (fun y => y.owner == .alert && y.id == 5) =
    [reserveEntry] ∧ reserveEntry.state = .assembling ∧ reserveEntry.timer = 7 := by decide

/-- The expiry counts and chunk timers a cycle boundary leaves, and the events it posts. -/
def boundaryObjects (s : State) : Option (List Nat × List EventKind) := after (.cycleBoundary 0) s (fun t =>
  (t.store.objects.flatMap (fun o => [o.expiry.getD 0, o.timer]), t.events.queue.map (fun e => e.kind)))
/-- R135, R145: expiry counts and chunk timers at a boundary. -/
theorem test_boundary_objects :
    boundaryObjects (withObject .assembling 5 6 (some 3)) = some ([2, 7], []) ∧
    boundaryObjects (withObject .assembling 5 7 none) = some ([], [.objectTimeout]) ∧
    boundaryObjects (withObject .assembling 5 7 (some 1)) = some ([], [.objectExpired]) := by decide
theorem witness_boundary_objects (state : ObjectState) (timer : Nat) (expiry : Option Nat) :
    (withObject state 1024 timer expiry).live = true ∧ (withObject state 1024 timer expiry).trunk.inProgress = false ∧
    (withAlert 1).trunk.relaySet = [] ∧ (withAlert 1).holds reserveEntry.ident = true := ⟨rfl, rfl, rfl, by decide⟩
theorem assembling_store_sound (timer : Nat) (expiry : Option Nat) :
    (withObject .assembling 1024 timer expiry).store.Sound :=
  ⟨by simp [withObject, object, State.setStore, State.setPictures],
    by simp [withObject, object, State.setStore, State.setPictures, Config.allBlocks, Config.ordinaryBlocks],
    by simp [withObject, object, State.setStore, State.setPictures, Config.maxObject],
    by simp [withObject, object, State.setStore, State.setPictures],
    by simp [withObject, object, State.setStore, State.setPictures],
    by simp [withObject, object, State.setStore, State.setPictures],
    by intro l; cases l <;> simp [withObject, object, State.setStore, State.setPictures, Config.laneObjects],
    by simp [withObject, object, State.setStore, State.setPictures]⟩

/-- `saved` with a relayed text of the followed alert, one byte of it sent by lane 0. -/
def relayed : State := (saved.setAlerts { saved.alerts with relayTexts := [⟨⟨5, 1⟩, 3, 1, [65, 66, 67]⟩] }).setSched (.svc .l0)
  { saved.scheds.get (.svc .l0) with caption := some ⟨⟨3, ⟨5, 1⟩, 1⟩, 1, 1⟩ }
/-- R107: the turn goes on with the second byte, or begins again for a text of another toggle; without one there is none. -/
theorem test_alert_turn : (highTurn (.svc .l0) .alertCaption 1 relayed).map (fun x =>
      (x.1.payload, x.1.first, x.1.last, (x.2.scheds.get (.svc .l0)).caption)) =
        some ([66], false, false, some ⟨⟨3, ⟨5, 1⟩, 1⟩, 2, 2⟩) ∧
    (highTurn (.svc .l0) .alertCaption 60 (relayed.setAlerts { relayed.alerts with
      relayTexts := [⟨⟨5, 1⟩, 3, 0, [65, 66, 67]⟩] })).map (fun x => (x.1.payload, x.1.first, x.1.last,
        (x.2.scheds.get (.svc .l0)).caption)) = some ([65, 66, 67], true, true, some ⟨⟨3, ⟨5, 1⟩, 0⟩, 0, 0⟩) ∧
    (highTurn (.svc .l0) .alertPicture 1 relayed).isNone = true := by decide

/-- R101, R186, R189: 13 bytes of annex hold the two bytes of text left, the whole text again, and padding. -/
theorem test_annex : (fillAnnex (.svc .l0) 13 13 relayed).1 =
    [10, 5, 8, 1, 66, 67] ++ [14, 5, 136, 0, 65, 66, 67] := by decide
theorem witness_alert_raise : active.live = true ∧ active.Room 2 ∧ (active.alerts.own.map (fun o => o.ident.level)).Nodup ∧
    active.config.alertGrade ≠ none ∧ active.mode.mode = .active ∧ active.peerAnnounced = [] ∧
    active.followsOrScheduled ⟨5, 3⟩ = false ∧ active.alerts.followed = none ∧ active.alerts.scheduled = [] := by decide
theorem witness_alert_raise_again : ((withAlert 1).alerts.own.map (fun o => o.ident.level)).Nodup ∧
    ∃ o ∈ (withAlert 1).alerts.own, o.ident = ⟨5, 1⟩ := by decide
/-- `active` with a peer announcing alert 5 of level 1 in a role. -/
def peerAnnounces (m : Node) (role : Role) : State := active.setPeer m ⟨.present, 0, false,
  some { manifest.header with own := [⟨⟨5, 1⟩, role, 9, 22, none, none⟩] }, Quad.const none⟩
/-- `active` following another alert of level 1, led by node 1. -/
def outled : State := active.setAlerts { resetAlerts with level := 1, followed := some ⟨⟨6, 1⟩, 1, 6, none⟩ }
/-- R150: the role of an own alert 5 of level 1 raised there. -/
theorem test_roles : outled.decideRole { ownAlert 1 with role := .held } = .held ∧
    (peerAnnounces 1 .lead).decideRole { ownAlert 1 with role := .held } = .shadow ∧
    (peerAnnounces 1 .shadow).decideRole { ownAlert 1 with role := .held } = .shadow ∧
    (peerAnnounces 4 .lead).decideRole { ownAlert 1 with role := .held } = .lead ∧
    active.decideRole { ownAlert 1 with role := .held } = .lead := by decide
theorem witness_roles : outled.live = true ∧ outled.Room 2 ∧ outled.Hunting .alert ∧ outled.alerts.own = [] ∧
    outled.alerts.followed = some ⟨⟨6, 1⟩, 1, 6, none⟩ ∧ (1 : Node) < outled.mode.node ∧
    (peerAnnounces 1 .shadow).peerAnnounced.map (fun x => x.1) = [1] ∧
    (peerAnnounces 4 .lead).peerEntryOf ⟨5, 1⟩ .lead = some (4, ⟨⟨5, 1⟩, .lead, 9, 22, none, none⟩) ∧
    active.peerEntryOf ⟨5, 3⟩ .lead = none ∧ active.alerts.laneAlert ≠ some ⟨5, 3⟩ ∧ active.alerts.own = [] := by decide
/-- R147: the reserve entry, the kept text and the end noted of an own alert dropped do not pass to a new one. -/
theorem test_raise_anew : dropTraces ⟨5, 1⟩ ((withAlert 1).setAlerts { resetAlerts with
      keptTexts := [⟨⟨5, 1⟩, true, [65]⟩], ends := [⟨⟨5, 1⟩, 2, 8⟩, ⟨⟨5, 1⟩, 3, 8⟩] }) =
    ((withAlert 1).setAlerts { resetAlerts with ends := [⟨⟨5, 1⟩, 3, 8⟩] }).setObjects [] := rfl
theorem witness_alert_text : (withAlert 1).live = true ∧ (withAlert 1).Room 1 ∧
    (withAlert 1).ownById 5 = some (ownAlert 1) ∧ (withAlert 1).ownById 9 = none := by decide
/-- An own level 3 LEAD alert, with the alert lane ON-AIR and an audio budget. -/
def talking : State := (withAlert 3).setUnit .alert { resetUnit with state := .onAir, split := ⟨216, 108, 108⟩ }
theorem witness_alert_audio : (∃ o, talking.ownById 5 = some o ∧ o.ident.level = 3 ∧ o.role = .lead) ∧
    (talking.units.get .alert).state = .onAir ∧ 0 < (talking.units.get .alert).split.audio ∧
    (talking.units.get .alert).intake = .accepting ∧ (talking.units.get .alert).fifo.length + 1024 ≤ 16384 :=
  ⟨⟨ownAlert 3, by decide, rfl, rfl⟩, rfl, by decide, rfl, by decide⟩
theorem witness_alert_picture : (withAlert 1).live = true ∧ (withAlert 1).Room 1 ∧ (withAlert 1).reserveIdents.Nodup ∧
    (withAlert 1).reserveIdents.length ≤ 2 ∧ ((withAlert 1).store.objects.flatMap (fun o => o.blocks)).Nodup ∧
    (∀ o ∈ (withAlert 1).store.objects, (∀ b ∈ o.blocks, b < 512 ∧ (o.owner = .alert ↔ 384 ≤ b)) ∧
      (o.owner = .alert → o.blocks.length ≤ 64)) ∧ (withAlert 1).ownById 5 = some (ownAlert 1) ∧
    (withAlert 1).store.reserve ⟨5, 1⟩ = some reserveEntry ∧ Memory.wf (withAlert 1).store.cells = true ∧
    (withAlert 1).Hunting .alert := by decide
theorem witness_alert_end : (withAlert 1).live = true ∧ (withAlert 1).Room 1 ∧
    ((withAlert 1).ownById 5).map (fun o => o.role) = some .lead := by decide

/-- An entry of alert 5 of a level led by node 3, for the cycle in progress. -/
def entry (level : Nat) : Scheduled := ⟨⟨5, level⟩, 3, 7, .onTime, 22⟩
theorem witness_alert_entry : (onAir.setAlerts { resetAlerts with scheduled := [entry 1] }).onTrunk = true ∧
    (onAir.setAlerts { resetAlerts with scheduled := [entry 1] }).dueEntries = [entry 1] ∧
    (onAir.setAlerts { resetAlerts with scheduled := [entry 1] }).alerts.level < (entry 1).ident.level ∧
    (onAir.setAlerts { resetAlerts with scheduled := [entry 1] }).Room 2 := by decide
/-- The same with lane 0 in another state, RESTORING up to 40 cells of 50 wanted. -/
def entering (state : LaneState) : State := ((onAir.setAlerts { resetAlerts with scheduled := [entry 1] }).setUnit (.svc .l0)
  { onAir.units.get (.svc .l0) with state := state }).setTenancy (.svc .l0) { onAir.tenancy.get (.svc .l0) with
    target := 50, restoreTarget := if state = .restoring then some 40 else none }
theorem witness_entry_lanes (state : LaneState) : (entering state).yieldable .l0 = true ∧
    ((entering state).units.get (.svc .l0)).state = state ∧ 0 < ((entering state).tenancy.get (.svc .l0)).cells ∧
    (entering state).floorCells .l0 ≤ ((entering state).tenancy.get (.svc .l0)).cells ∧
    (∀ r, ((entering state).tenancy.get (.svc .l0)).restoreTarget = some r →
      ((entering state).tenancy.get (.svc .l0)).cells < min r ((entering state).tenancy.get (.svc .l0)).target) ∧
    (entering state).dueEntries = [entry 1] ∧ (active.tenancy.get (.svc .l0)).cells = 0 := by
  cases state <;> refine ⟨rfl, rfl, by decide, by decide, ?_, by decide, by decide⟩ <;> intro r h <;> cases h
  decide
/-- R169: the table, with 27 cells or 3 left of a floor of 4. -/
theorem test_squeezed_states : squeezedState .onAir 1 27 4 = .squeezed ∧ squeezedState .onAir 0 27 4 = .onAir ∧
    squeezedState .squeezed 0 27 4 = .squeezed ∧ squeezedState .restoring 0 4 4 = .squeezed ∧
    squeezedState .restoring 0 3 4 = .onAir ∧ squeezedState .restoring 1 27 4 = .squeezed := by decide
/-- R167: a pending alert takes the yield its lead's header announces, 22, and one that no header lists keeps its own. -/
theorem test_note_yields : (noteYields ((withPeer .present 0).setAlerts { resetAlerts with
    pendingAlerts := [⟨⟨5, 1⟩, 3, 4⟩, ⟨⟨6, 2⟩, 3, 9⟩] })).alerts.pendingAlerts.map (fun a => a.yield) = [22, 9] := by decide
/-- `saved`, the followed alert ending in the cycle in progress. -/
def ending : State := saved.setAlerts { saved.alerts with ends := [⟨⟨5, 1⟩, 3, 7⟩] }
theorem witness_alert_exit : ending.onTrunk = true ∧ ending.time.lock ≠ .unset ∧ ending.alerts.followed = some ⟨⟨5, 1⟩, 3, 6, none⟩ ∧
    (∀ x ∈ ending.alerts.stack, x.ended = false ∧ x.followed = none) ∧ ending.dueEntries = [] ∧
    ending.alerts.pendingAlerts = [] ∧ ending.Room 1 ∧ ending.dueEnds = [⟨⟨5, 1⟩, 3, ending.time.cycle⟩] := by decide
/-- `ending` with the context of an ended alert above the bottom one. -/
def endingTwice : State := ending.setAlerts { ending.alerts with stack :=
  ⟨0, none, true, Trio.const none, Trio.const none, Trio.const none, Trio.const none⟩ :: ending.alerts.stack }
/-- R156: two contexts are popped. -/
theorem test_two_popped : (popContexts endingTwice.alerts.stack).map (fun x => (x.1, x.2.1.level, x.2.2)) =
    some (2, 0, []) := by decide
theorem witness_two_popped : endingTwice.onTrunk = true ∧ endingTwice.dueEntries = [] ∧ endingTwice.Room 1 ∧
    endingTwice.alerts.followed = some ⟨⟨5, 1⟩, 3, 6, none⟩ ∧ endingTwice.alerts.stack.map (fun c => c.ended) = [true, false] ∧
    (∀ x ∈ endingTwice.alerts.stack, x.followed = none) ∧ endingTwice.alerts.pendingAlerts = [] ∧
    endingTwice.dueEnds = [⟨⟨5, 1⟩, 3, endingTwice.time.cycle⟩] := by decide
/-- Alert 5 of level 1 saved below another, its lead lost for three cycles. -/
def savedOrphan : State := (heldBy3 0).setAlerts { (heldBy3 0).alerts with
  stack := (heldBy3 0).alerts.stack.map (fun c => { c with followed := some ⟨⟨5, 1⟩, 3, 6, some 3⟩ }) }
/-- R164: the saved alert is given up. -/
theorem test_saved_orphaned : after (.alertOrphaned 5 1) savedOrphan (fun t =>
      t.events.queue.map EventRecord.says) = some [(.alertOrphaned, 3, none, 261)] ∧
    after (.alertOrphaned 5 1) savedOrphan (fun t => t.alerts.stack.map (fun c => c.ended)) = some [true] := by decide
theorem witness_saved_orphaned : savedOrphan.onTrunk = true ∧ savedOrphan.time.lock ≠ .unset ∧ savedOrphan.Room 1 ∧
    savedOrphan.alerts.followed = some ⟨⟨6, 2⟩, 4, 7, none⟩ ∧ savedOrphan.leadsOf ⟨5, 1⟩ = [] ∧
    savedOrphan.alerts.stack.map (fun c => (c.ended, c.followed)) = [(false, some ⟨⟨5, 1⟩, 3, 6, some 3⟩)] := by decide
/-- R156: the exits of a boundary at which the followed alert ends take the saved context back. -/
theorem test_boundary_exit : (boundaryExits (saved.setAlerts { saved.alerts with ends := [⟨⟨5, 1⟩, 3, 7⟩] })).2.alerts.level =
    0 := by decide
theorem witness_boundary_exit : saved.onTrunk = true ∧ saved.alerts.followed = some ⟨⟨5, 1⟩, 3, 6, none⟩ ∧
    saved.alerts.own = [] ∧ saved.alerts.scheduled = [] ∧ saved.alerts.pendingAlerts = [] ∧ saved.alerts.stack.length = 1 ∧
    (∀ b ∈ saved.alerts.stack, b.ended = false ∧ b.followed = none) ∧ saved.time.cycle + 1 = 8 := by decide
/-- `saved`, the lead lost and three cycles of hold counted. -/
def orphan : State := saved.setAlerts { saved.alerts with followed := some ⟨⟨5, 1⟩, 3, 6, some 3⟩ }
theorem witness_alert_orphaned : orphan.alerts.followed = some ⟨⟨5, 1⟩, 3, 6, some 3⟩ ∧ orphan.leadsOf ⟨5, 1⟩ = [] ∧
    orphan.alerts.scheduled = [] ∧ orphan.alerts.pendingAlerts = [] ∧ orphan.time.lock ≠ .unset ∧
    (orphan.tenancy.get (.svc .l0)).change = none := by decide
/-- `ending` with a restore value, a kept rate and positions saved for lane 0. -/
def endingWith (restore kept : Option Nat) : State := ending.setAlerts { ending.alerts with
  stack := [⟨0, none, false, ⟨some 6, none, none⟩, ⟨some 3, none, none⟩, ⟨restore, none, none⟩, ⟨kept, none, none⟩⟩] }
/-- R174: 27 cells are RESTORING up to 40, ON-AIR at 27, and a kept rate of 96 gives a target of 40. -/
theorem test_restore : after .alertExit ((endingWith (some 40) none).setTenancy (.svc .l0)
      { onAir.tenancy.get (.svc .l0) with target := 40 }) (fun t => ((t.units.get (.svc .l0)).state,
        (t.tenancy.get (.svc .l0)).restoreTarget)) = some (.restoring, some 40) ∧
    after .alertExit (endingWith (some 27) none) (fun t => (t.units.get (.svc .l0)).state) = some .onAir ∧
    after .alertExit (endingWith none (some 96)) (fun t => (t.tenancy.get (.svc .l0)).target) = some 40 := by decide +kernel
theorem witness_restore : (endingWith (some 40) none).Room 28 ∧ (endingWith (some 40) none).yieldable .l0 = true ∧
    (endingWith (some 40) none).cells (.svc .l0) < 40 ∧ (endingWith (some 40) none).store.objects = [] ∧
    ((endingWith (some 40) none).units.get (.svc .l0)).state = .onAir := by decide
theorem witness_alert_expired : (withAlert 1).onTrunk = true ∧ (withAlert 1).time.lock ≠ .unset ∧
    ownAlert 1 ∈ (withAlert 1).alerts.own ∧ (ownAlert 1).role = .lead ∧ (ownAlert 1).endCycle = none ∧
    (ownAlert 1).limit ≤ min 4095 ((ownAlert 1).onAir + 1) ∧ 0 < (ownAlert 1).onAir ∧ (withAlert 1).Room 1 ∧
    ((withAlert 1).alerts.own.map (fun x => x.ident.level)).Nodup := by decide
/-- Level 3 entered in an earlier cycle, its lead out of step, so that the redirect is due (R159). -/
def takeover : State := (withPeer .outOfStep 0).setAlerts { resetAlerts with
  level := 3, followed := some ⟨⟨5, 3⟩, 3, 6, none⟩ }
theorem witness_redirect : takeover.onTrunk = true ∧ takeover.alerts.redirect = none ∧
    takeover.alerts.followed = some ⟨⟨5, 3⟩, 3, 6, none⟩ ∧ (takeover.peers.get 3).counts = true ∧
    (takeover.peers.get 3).inStep = false ∧ (3 : Node) ≠ takeover.mode.node ∧ 6 ≠ takeover.time.cycle := by decide
/-- The same with the lead in step: a redirect cycle 0 or 4 cycles ahead has come, and one 1 to 3 ahead has not. -/
theorem witness_redirect_cycle : ((withPeer .present 0).peers.get 3).inStep = true ∧
    (7 - takeover.time.cycle).toNat = 0 ∧ 3 < (11 - takeover.time.cycle).toNat ∧
    ¬ ((8 - takeover.time.cycle).toNat = 0 ∨ 3 < (10 - takeover.time.cycle).toNat) := by decide
theorem witness_rejected : active.live = true ∧ active.Room 1 ∧ active.contracts.get .l0 ≠ none ∧
    crc16 (3 :: put16 0) ≠ (0 : BitVec 16) ∧ 1100 < (1101 : BitVec 16).toNat ∧ kindOnPort .alert 3 = false ∧
    bodyLengthAllowed 0x36 0 = false :=
  ⟨by decide, by decide, by decide, test_crc_check.2, by decide, by decide, by decide⟩
theorem onAir_tenancies : onAir.TenanciesSound where
  fragments i := by cases i with | alert => rfl | svc l => cases l <;> decide
  changes i c h := by cases i with | alert => cases h | svc l => cases l <;> cases h
  apart i j k ne h g := by
    have other : ∀ i : LaneId, i ≠ .svc .l0 → ¬ onAir.occupies i k := by
      intro i ne
      cases i with
      | alert => rintro (h | ⟨c, h, _⟩) <;> cases h
      | svc l => cases l with
        | l0 => exact absurd rfl ne
        | l1 => rintro (h | ⟨c, h, _⟩) <;> cases h
        | l2 => rintro (h | ⟨c, h, _⟩) <;> cases h
    by_cases e : i = .svc .l0
    · exact other j (fun f => ne (e.trans f.symm)) g
    · exact other i e h
  ahead _ i c h := by cases i with | alert => cases h | svc l => cases l <;> cases h
  off h := by cases h
theorem onAir_splits : onAir.SplitsSound := by
  intro i; cases i with | alert => decide | svc l => cases l <;> decide
theorem object_picture_sound (l : Lane) : (withObject .ready 1025 0 none).PictureSound l := by
  refine ⟨by cases l <;> decide, fun id => ?_, by cases l <;> decide⟩
  cases l <;> simp [withObject, object, State.setStore, State.setPictures, active, State.reset, State.pinReset,
    resetPictures, Trio.const, Trio.get, Trio.set, eq_comm]
theorem witness_step : State.reset.time.Sound ∧ State.reset.pending = [] ∧ step State.reset = .next State.reset :=
  ⟨⟨by decide, by decide, by decide, rfl, rfl, rfl⟩, rfl, rfl⟩

/-! Cut slots, relay and unheard reports -/

/-- A state with slot `k` in progress, listened to. -/
def inSlot (k : Nat) (s : State) : State := s.setTrunk { s.trunk with inProgress := true, slotsBegun := k + 1 }
/-- R17: the first slot of node 0 is cut, and the third of node 3 is an unheard report, its sixteenth. -/
theorem test_cut_directory : (cutSlot (inSlot 0 active)).trunk.directory = (.cut, .unread, .unread) ∧
    (cutSlot (inSlot 0 active)).trunk.slotState = .cut ∧
    ((cutSlot (inSlot 11 (withPeer .present 15))).peers.get 3).state = .silent ∧
    ((cutSlot (inSlot 10 (withPeer .present 15))).peers.get 3).unheard = 15 := by decide
/-- R15, R16, R18: a driven cell that is cut is no loss; a relay cell is handed over as bad. -/
theorem test_cut_payload : (cutSlot driving).tenancy = driving.tenancy ∧ (cutSlot driving).trunk.slotState = .cut ∧
    (cutSlot relaying).trunk.relayGot = [⟨20, [], false, false⟩] := by decide
/-- R16, R178: what the cut posts carries the cycle and frame in which the slot stood. -/
theorem test_cut_stamp : [Instr.refpulse 1279990 0, .cycleBoundary 0].map (fun c =>
      after c { inSlot 11 (withPeer .present 15) with time := ⟨1279950, 7, .locked, 0, 20, true, 0⟩ }
        (fun t => (t.events.queue.map (fun e => (e.kind, e.cycle, e.frame)), t.time.cycle))) =
    List.replicate 2 (some ([(.peerSilent, 7, 15)], 8)) := by decide
theorem witness_cut : (inSlot 11 (withPeer .present 15)).inReset = false ∧ (inSlot 11 (withPeer .present 15)).trunk.inProgress = true ∧
    (3 : Node) ≠ (withPeer .present 15).mode.node ∧ (inSlot 11 active).time.lock = .locked ∧ 24 ≤ driving.trunk.slotsBegun - 1 ∧
    (driving.trunk.slotsBegun - 1 - 24) ∉ driving.trunk.relaySet ∧
    (relaying.trunk.slotsBegun - 1 - 24) ∈ relaying.trunk.relaySet ∧ (inSlot 3 joining).time.lock = .unset ∧
    (inSlot 3 joining).mode.mode = .joining ∧ (inSlot 3 quiet).time.lock = .lost ∧ (inSlot 3 quiet).mode.mode = .quiet ∧
    1280000 - active.time.tolerance ≤ 1279980 ∧ (inSlot 3 (listening 31 none)).mode.mode = .joining ∧
    31 ≤ (inSlot 3 (listening 31 none)).mode.listenCount ∧ (inSlot 3 (listening 31 none)).time.lock ≠ .unset := by decide
/-- A directory slot that is read. -/
theorem test_directory_read : after (.slotEnd 9 [1]) (inSlot 1 active) (fun t => t.trunk.directory) =
    some (.unread, .read 9 [1], .unread) := by decide
theorem witness_directory_read : (inSlot 1 active).trunk.slotState = .listening ∧ (inSlot 1 active).trunk.driver = none ∧
    ((inSlot 1 active).trunk.slotsBegun - 1) % 3 = 1 := by decide
/-- `following`, the alert gathered: of its cells 40 and 41, the first with the bytes of a text has come or not. -/
def relayNow (got : Bool) : State := (following.setAlerts { following.alerts with relayKey := some (3, ⟨5, 1⟩) }).setTrunk
  { following.trunk with
    relaySource := some 3, relayGrade := 2, relaySet := [40, 41]
    relayGot := if got then [⟨40, [10, 5, 136, 0, 65, 66] ++ List.replicate 18 0, true, true⟩] else [] }
/-- R18, R160: at the last cell, read or cut, and at a frame boundary without it, the text is read; where the first cell is a
gap nothing is. -/
theorem test_relay_read : after (.slotEnd 3 (List.replicate 36 0)) (inSlot 65 (relayNow true)) (fun t => t.alerts.relayTexts) =
      some [⟨⟨5, 1⟩, 3, 1, [65, 66]⟩] ∧
    (cutSlot (inSlot 65 (relayNow true))).alerts.relayTexts = [⟨⟨5, 1⟩, 3, 1, [65, 66]⟩] ∧
    after (.frameBoundary 0) (relayNow true) (fun t => t.alerts.relayTexts) = some [⟨⟨5, 1⟩, 3, 1, [65, 66]⟩] ∧
    after (.frameBoundary 0) (relayNow false) (fun t => t.alerts.relayTexts) = some [] := by decide +kernel
theorem witness_relay_read (got : Bool) : (relayNow got).mode.mode.onTrunk = true ∧ (relayNow got).inReset = false ∧
    (relayNow got).trunk.relayGot.length < (relayNow got).trunk.relaySet.length ∧ (relayNow got).frameIndex < 15 ∧
    (relayNow true).trunk.relayGot.length + 1 = (relayNow true).trunk.relaySet.length ∧ (65 - 24) ∈ (relayNow got).trunk.relaySet ∧
    (relayNow got).trunk.relaySource = some 3 ∧ (relayNow got).alerts.relayKey = some (3, ⟨5, 1⟩) ∧
    ((relayNow got).peers.get 3).sheets.alert.map (fun sh => sh.annex) = some 40 := by cases got <;> decide
/-- R189: a header of end field 63 in the last 4 bytes is a segment of no payload; one of end field 61, of another id, or of a
service lane's kind stops the reading. -/
theorem test_segment_end : readSegment 5 4 [some 254, some 5, some 128, some 0] =
      some ⟨.alertCaption, 5, 0, true, false, 0, []⟩ ∧
    readSegment 5 80 ([some 246, some 5, some 128, some 0] ++ List.replicate 70 (some 0)) = none ∧
    readSegment 6 4 [some 254, some 5, some 128, some 0] = none ∧ readSegment 5 4 [some 252, some 5, some 128, some 0] = none ∧
    readSegment 5 4 [some 254, none, some 128, some 0] = none := by decide
theorem witness_segment_end : (⟨.alertCaption, 5, 0, true, false, 0, []⟩ : Segment).payload.length = min 60 (4 - 4) ∧
    (252 : Byte).toNat % 4 < 2 ∧ (246 : Byte).toNat / 4 = 61 ∧ (none : Option Byte) ∈ [some 254, none, some 128, some 0].take 4 := by
  decide
/-- A segment without payload lets the picture go on. -/
theorem test_empty_segment : (pictureSegment ⟨.alertPicture, 5, 1, false, false, 2, []⟩ ⟨5, 1⟩ 3 gathering).alerts.pictureCollector =
    some ⟨2, 2, [0, 0, 4], 1, true⟩ := by decide
theorem witness_empty_segment : gathering.alerts.pictureCollector = some ⟨2, 1, [0, 0, 4], 1, true⟩ ∧ 1 < get24 [0, 0, 4] 0 := by
  decide
/-- R160: with node 3's alert followed the key is that alert; with none, the collector's picture goes. -/
theorem test_sync_relay : (syncRelay following).alerts.relayKey = some (3, ⟨5, 1⟩) ∧
    (syncRelay (gathering.setAlerts { gathering.alerts with relayKey := some (3, ⟨5, 1⟩) })).alerts.relayKey = none ∧
    (syncRelay (gathering.setAlerts { gathering.alerts with relayKey := some (3, ⟨5, 1⟩) })).store.objects = [] := by decide
/-- At a boundary with nothing followed, the collector's key, source and picture go, though its chunk timer has just begun. -/
theorem test_boundary_gap : after (.cycleBoundary 0) (gathering.setAlerts { gathering.alerts with relayKey := some (3, ⟨5, 1⟩) })
    (fun t => (t.alerts.relayKey, t.store.objects)) = some (none, []) := by decide +kernel
theorem witness_boundary_gap : gathering.trunk.relaySet = [] ∧ gathering.onTrunk = true ∧
    relayEntry ∈ gathering.store.objects ∧ relayEntry.state = .assembling ∧ relayEntry.ident = ⟨5, 1⟩ ∧
    gathering.alerts.pictureCollector.map (fun p => p.allocated) = some true := by decide
/-- Contexts saved and no alert followed or saved that the node itself leads. -/
theorem witness_saved_leads : saved.alerts.stack ≠ [] ∧ (saved.alerts.followed.toList ++
    saved.alerts.stack.filterMap (fun b => b.followed)).any (fun f => f.lead == saved.mode.node) = false := by decide
/-- R171, R78: lane 0 SQUEEZED loses 27 of 30 cells, of a floor of 4, with a change of cells 30 to 34 pending. -/
def squeezedLoss (kind : ChangeKind) : State := (driving.setTenancy (.svc .l0) { driving.tenancy.get (.svc .l0) with
  fragments := [⟨20, 27, some 111⟩, ⟨100, 3, none⟩]
  change := some ⟨kind, .ordinary, 8, [if kind = .claim then ⟨200, 5⟩ else ⟨30, 5⟩]⟩ }).setUnit (.svc .l0)
    { driving.units.get (.svc .l0) with state := .squeezed }
theorem test_squeezed_loss : after (.slotEnd 3 []) (squeezedLoss .release) (fun t =>
      ((t.units.get (.svc .l0)).state, (t.tenancy.get (.svc .l0)).change)) = some (.onAir, none) ∧
    after (.slotEnd 3 []) (squeezedLoss .claim) (fun t => ((t.units.get (.svc .l0)).state,
      (t.tenancy.get (.svc .l0)).change)) = some (.onAir, some ⟨.claim, .ordinary, 8, [⟨200, 5⟩]⟩) := by decide
theorem witness_squeezed_loss (kind : ChangeKind) : (squeezedLoss kind).trunk.driver = some (.lane (.svc .l0)) ∧
    (3 : Byte) ≠ (squeezedLoss kind).trunk.tag ∧ (squeezedLoss kind).Room 1 ∧
    ((squeezedLoss kind).tenancy.get (.svc .l0)).fragments.find? (fun g => decide (g.start ≤ 20 ∧ 20 < g.start + g.len)) =
      some ⟨20, 27, some 111⟩ ∧ ((squeezedLoss kind).units.get (.svc .l0)).state = .squeezed := by cases kind <;> decide
/-- R43 step 7, R62: a stored manifest of node 1 that claims cell 47 has node 2's claim of it withdrawn with cause 1. -/
theorem test_stored_conflict : ((storeManifest 1 manifest (claiming .ordinary)).tenancy.get (.svc .l0)).change = none ∧
    (storeManifest 1 manifest (claiming .ordinary)).events.queue.map EventRecord.says =
      [(.claimWithdrawn, 2, some (.svc .l0), 257)] := by decide
theorem witness_stored_conflict : (claiming .ordinary).onTrunk = true ∧ (storeManifest 1 manifest (claiming .ordinary)).Room 1 ∧
    Posted (claiming .ordinary) (conflictCheck 1 true manifest.second (.svc .l0)
      (conflictCheck 1 true manifest.first (.svc .l0) (claiming .ordinary)))
      [(.claimWithdrawn, 2, some (.svc .l0), 257)] ∧ joining.onTrunk = false := by
  refine ⟨by decide, by decide, ?_, by decide⟩
  unfold Posted
  decide
/-- R45, R17, R40: another count, a third slot of another tag, and one in QUIET with a valid manifest read. -/
theorem test_unheard : ((unheardReport 3 (withPeer .present 3)).peers.get 3).unheard = 4 ∧
    ((unheardReport 3 (withPeer .unheard 48)).peers.get 3).unheard = 48 ∧
    after (.slotEnd 7 []) (hearing 3 (withPeer .present 3)) (fun t => (t.peers.get 3).unheard) = some 4 ∧
    after (.slotEnd 131 (heard.drop 72)) (hearing 3 (quiet.setPeer 3 ((withPeer .present 3).peers.get 3)))
      (fun t => (t.peers.get 3).unheard) = some 4 := by decide
theorem witness_unheard : (hearing 3 (withPeer .present 3)).inReset = false ∧
    (hearing 3 (withPeer .present 3)).time.lock ≠ .unset ∧ (hearing 3 (withPeer .present 3)).trunk.slotState = .listening ∧
    (hearing 3 (withPeer .present 3)).mode.mode = .active ∧ (7 : Byte) ≠ tagOf 3 .manifest ∧
    (hearing 3 quiet).mode.mode = .quiet ∧ (hearing 3 halted).mode.mode = .halted ∧
    (hearing 2 quiet).mode.node = 2 ∧ (withPeer .present 3).live = true ∧
    ((withPeer .present 3).peers.get 3).unheard ≠ 15 ∧ ((withPeer .silent 46).peers.get 3).unheard < 47 := by decide

/-! The map, the margin, and what entries and exits do to claims, carousels and cursors -/

/-- R52, R53, R166: node 2's lane has the lower tag, node 3 asks for cell 47, and each of the two lanes spares 23 of 27 cells. -/
theorem test_map : mapped.cellValue 20 = .held 2 (.svc .l0) ∧ mapped.cellValue 47 = .pending 3 (.svc .l0) 9 ∧
    mapped.cellValue 48 = .free ∧ mapped.freeRuns = [⟨0, 20⟩, ⟨48, 728⟩] ∧ mapped.freeCount = 748 ∧
    mapped.yieldableTotal = 46 := by decide +kernel
/-- R66, R67: 27 cells with a target of 20 release the seven highest. -/
theorem test_release_highest : after (.backoffEnd (.svc .l0)) (target 20) (fun t =>
    (t.tenancy.get (.svc .l0)).change.map (fun c => c.runs)) = some (some [⟨40, 7⟩]) := by decide +kernel
/-- R61, R152, for node 2: before slot 6 of a frame and after it, in frames 11, 12 and 15. -/
def atFrame (frame begun : Nat) : State := { active with
  time := ⟨frame * 80000 + 5000, 7, .locked, 0, 20, false, 0⟩, trunk := { active.trunk with slotsBegun := begun } }
theorem test_margin : [(atFrame 11 6).margin, (atFrame 11 7).margin, (atFrame 12 6).margin, (atFrame 15 7).margin] =
      [8, 9, 9, 9] ∧
    [(atFrame 14 6).announceCycle (.svc .l0), (atFrame 14 7).announceCycle (.svc .l0), (atFrame 15 6).announceCycle (.svc .l0),
      (atFrame 15 6).announceCycle .alert] = [7, 8, 8, 7] := by decide
theorem witness_margin : (atFrame 15 7).time.localCount < 1280000 := by decide
/-- Alerts 6 and 7 of level 1 with a reserve entry each, an own alert 5, and one of the others followed or none. -/
def twoEntries (followed : Option Byte) : State := (active.setAlerts { resetAlerts with
    own := [ownAlert 1], level := 1, followed := followed.map (fun id => ⟨⟨id, 1⟩, 3, 6, none⟩) }).setStore
  ⟨[{ reserveEntry with id := 6, blocks := [384] }, { reserveEntry with id := 7, blocks := [385] }], [], active.store.transfers⟩
/-- R144: which of the two goes; R143: an ORIGIN entry replaced gives the next transfer number. -/
theorem test_eviction : [none, some 6, some 7].map (fun f => after (.alertPictureBegin 5 9) (twoEntries f)
      (fun t => t.store.objects.map (fun o => o.id))) = [some [7, 5], some [6, 5], some [7, 5]] ∧
    after (.alertPictureBegin 5 9) (withAlert 1) (fun t => t.store.objects.map (fun o => o.transfer)) = some [1] := by decide
theorem witness_eviction : (twoEntries (some 6)).live = true ∧ (twoEntries (some 6)).reserveIdents.length = 2 ∧
    (twoEntries (some 6)).reserveIdents.Nodup ∧ (twoEntries (some 6)).Room 1 ∧ (twoEntries (some 6)).Hunting .alert ∧
    (twoEntries (some 6)).ownById 5 = some (ownAlert 1) ∧ Memory.wf (twoEntries (some 6)).store.cells = true ∧
    ((twoEntries (some 6)).store.objects.flatMap (fun o => o.blocks)).Nodup ∧
    (∀ o ∈ (twoEntries (some 6)).store.objects, (∀ b ∈ o.blocks, b < 512 ∧ (o.owner = .alert ↔ 384 ≤ b)) ∧
      (o.owner = .alert → o.blocks.length ≤ 64)) := by decide
/-- R144, log 20: a collector at work on the evicted entry is idle. -/
theorem test_eviction_collector : after (.alertPictureBegin 5 9) ((twoEntries none).setAlerts { (twoEntries none).alerts with
    pictureCollector := some ⟨2, 1, [0, 0, 4], 1, true⟩, relayKey := some (3, ⟨6, 1⟩) })
      (fun t => t.alerts.pictureCollector.isNone) = some true := by decide
/-- `talking` with the alert lane's FIFO at a length and its intake as given. -/
def talkingFifo (n : Nat) (x : Intake) : State := talking.setUnit .alert { talking.units.get .alert with
  fifo := List.replicate n 0, intake := x, dropped := if x = .held then 65535 else 0 }
theorem witness_audio_alert_full : ((talkingFifo 16384 .accepting).units.get .alert).intake = .accepting ∧
    16384 < ((talkingFifo 16384 .accepting).units.get .alert).fifo.length + 1 ∧ (talkingFifo 16384 .accepting).live = true ∧
    (∃ o, (talkingFifo 16384 .accepting).ownById 5 = some o ∧ o.ident.level = 3 ∧ o.role = .lead) ∧
    (talkingFifo 16384 .accepting).Hunting .alert :=
  ⟨rfl, by rw [show ((talkingFifo 16384 .accepting).units.get .alert).fifo.length = 16384 from List.length_replicate]; decide,
    rfl, ⟨ownAlert 3, rfl, rfl, rfl⟩, rfl⟩
/-- R92, R96: one more unit on a HELD intake whose count stands at its end. -/
theorem test_audio_alert_held : after (.alertAudio 5 [1]) (talkingFifo 2 .held) (fun t =>
    ((t.units.get .alert).dropped, (t.units.get .alert).fifo.length, t.events.queue.length)) = some (65535, 2, 0) := by decide
theorem witness_audio_alert_held : ((talkingFifo 2 .held).units.get .alert).intake = .held ∧
    ((talkingFifo 2 .held).units.get .alert).state = .onAir ∧ 0 < ((talkingFifo 2 .held).units.get .alert).split.audio := by decide
/-- An entry of a level due at a level, lane 0 with a claim of a rank for three of the 30 cells it wants. -/
def enteringWith (rank : Rank) (level entered : Nat) : State := ((claiming rank).setTenancy (.svc .l0)
  { (claiming rank).tenancy.get (.svc .l0) with target := 30 }).setAlerts { resetAlerts with
    level := level, scheduled := [entry entered] }
/-- R71, R76, R58: what becomes of the claim, its events, and R66's highest cells given: 6 of 27 under a yield of 22. -/
theorem test_entry_claims : after .alertEntry (enteringWith .ordinary 0 1) (fun t =>
      (t.events.queue.map (fun e => (e.kind, e.arg)), (t.tenancy.get (.svc .l0)).deferral, (t.tenancy.get (.svc .l0)).runs)) =
        some ([(.alertFollowed, 261), (.takeoverEnter, 257), (.claimWithdrawn, 1282), (.claimDeferred, 1027),
          (.yieldApplied, 6)], .alert, [⟨20, 21⟩]) ∧
    after .alertEntry (enteringWith .restore 0 1) (fun t => (t.events.queue.map (fun e => (e.kind, e.arg)))) =
        some [(.alertFollowed, 261), (.takeoverEnter, 257), (.claimWithdrawn, 1538), (.yieldApplied, 6)] ∧
    after .alertEntry (enteringWith .ordinary 1 2) (fun t => (t.tenancy.get (.svc .l0)).change.map (fun c => c.rank)) =
        some (some .ordinary) := by decide +kernel
theorem witness_entry_yield : after .alertEntry (enteringWith .ordinary 0 1) (fun t => decide (t.Room 1)) = some true := by
  decide +kernel
theorem witness_entry_claims (rank : Rank) (late : Bool) :
    let s := enteringWith rank (if late then 1 else 0) (if late then 2 else 1)
    s.onTrunk = true ∧ s.dueEntries.length = 1 ∧ s.Room 2 ∧ (s.units.get (.svc .l0)).state ≠ .restoring ∧
      (s.tenancy.get (.svc .l0)).cells < (s.tenancy.get (.svc .l0)).target ∧ (s.tenancy.get (.svc .l0)).backoff = 0 ∧
      s.mode.mode = .active ∧ (s.tenancy.get (.svc .l0)).change.map (fun c => c.kind) = some .claim := by
  cases rank <;> cases late <;> decide
/-- Lane 0 with the caption 4 SENDING and the picture 3 ON-AIR, its lifetime over or not, an entry of a level due. -/
def onAirBoth (level : Nat) (expired : Bool) : State := (((active.setStore ⟨[{ object .onAir 1025 0 none with
    expired := expired }], [], active.store.transfers⟩).setPictures .l0 ⟨[3], 1, some ⟨60, 1⟩⟩).setCaptions .l0 carousel).setAlerts
  { resetAlerts with scheduled := [entry level] }
/-- R108, R124, R140: level 2 interrupts both, and level 1 neither. -/
theorem test_entry_suspends : [(2, false), (2, true), (1, true)].map (fun x => after .alertEntry (onAirBoth x.1 x.2) (fun t =>
      ((t.captions.get .l0).entries.map (fun e => e.state), (t.captions.get .l0).mark, (t.captions.get .l0).cursor.isSome))) =
    [some ([.waiting, .waiting], 0, false), some ([.waiting, .waiting], 0, false), some ([.sending, .waiting], 1, true)] := by
  decide
theorem test_entry_suspends_pictures : [(2, false), (2, true), (1, true)].map (fun x => after .alertEntry (onAirBoth x.1 x.2)
      (fun t => (t.store.objects.map (fun o => o.state), (t.pictures.get .l0).mark,
        (t.events.queue.map (fun e => e.kind)).contains .objectExpired))) =
    [some ([.ready], 0, false), some ([], 0, true), some ([.onAir], 1, false)] := by decide
theorem onAirBoth_sound (level : Nat) (expired : Bool) : (onAirBoth level expired).ObjectsSound := by
  refine ⟨⟨?_, ?_, ?_, ?_, ?_, ?_, ?_, ?_⟩, fun l => ⟨?_, fun id => ?_, ?_⟩⟩
  all_goals try simp [onAirBoth, object, State.setStore, State.setPictures, State.setCaptions, State.setAlerts, Config.allBlocks,
    Config.ordinaryBlocks, Config.maxObject]
  · intro l; cases l <;> simp [Config.laneObjects]
  all_goals cases l <;> simp [active, State.reset, State.pinReset, resetPictures, Trio.const, Trio.get, Trio.set, eq_comm]
theorem witness_entry_suspends (expired : Bool) : (onAirBoth 2 expired).onTrunk = true ∧ (onAirBoth 2 expired).Room 2 ∧
    (onAirBoth 2 expired).dueEntries = [entry 2] ∧ (onAirBoth 1 expired).dueEntries = [entry 1] ∧
    (onAirBoth 2 expired).captions.get .l0 = carousel ∧ ((onAirBoth 2 expired).captions.get .l1).cursor = none ∧
    ((onAirBoth 2 expired).units.get (.svc .l0)).state ≠ .closing := by
  cases expired <;> exact ⟨rfl, by decide, rfl, rfl, rfl, rfl, by decide⟩
/-- R107: the exit to level 0 empties the alert cursors and keeps the pointers. -/
theorem test_exit_cursors : after .alertExit (ending.setSched (.svc .l0) ⟨.lowGroup, .picture, some ⟨⟨3, ⟨5, 1⟩, 1⟩, 1, 1⟩, none⟩)
    (fun t => t.scheds.get (.svc .l0)) = some ⟨.lowGroup, .picture, none, none⟩ := by decide
theorem witness_exit_cursors : ending.alerts.stack.map (fun c => c.level) = [0] := by decide
/-- An own alert 5 SHADOW of node 1's, which the node follows. -/
def shadowing : State := (peerAnnounces 1 .lead).setAlerts { saved.alerts with
  followed := some ⟨⟨5, 1⟩, 1, 6, none⟩, own := [{ ownAlert 1 with role := .shadow }] }
/-- R155: an end learned of node 0, which led the alert before, has no effect; node 1's takes the copy with ALERT_ENDED. -/
theorem test_stale_end : [(0 : Node), 1].map (fun n => let t := applyEnd ⟨⟨5, 1⟩, n, 8⟩ shadowing
    (t.alerts.own.length, t.events.queue.map (fun e => e.kind))) = [(1, []), (0, [.alertEnded])] := by decide
theorem witness_lists : announcer.alerts.ListsSound ∧ (heldBy3 2).alerts.ListsSound ∧ (heldBy3 1).alerts.ListsSound :=
  ⟨⟨by decide, by decide, by decide, by decide⟩, ⟨by decide, by decide, by decide, by decide⟩,
    ⟨by decide, by decide, by decide, by decide⟩⟩

end Sys2Proof.Tests
end

