-- ==== Sys2Proof/Proofs/Basics.lean ====
section
/-! SUPPORT. Right after reset: the values the spec gives, and every soundness predicate of the model. -/

namespace Sys2Proof.Machine

/-- Settles O2: the reset state's fields, read lane by lane and node by node. -/
theorem resetValues : Obligations.ResetValues := by
  unfold Obligations.ResetValues
  refine ⟨by decide, by decide, by decide, ?peers, ?lanes, ?scheds, ?carousels, rfl, by decide, by decide⟩
  case peers =>
    intro m
    have entry : State.reset.peers.get m = resetPeer := by simp [State.reset, State.pinReset]
    rw [entry]
    exact ⟨rfl, rfl, rfl, fun i => Quad.get_const i none⟩
  case lanes => intro i; simp [State.reset, State.pinReset, resetUnit, resetTenancy]
  case scheds => intro i; exact Quad.get_const i resetSched
  case carousels =>
    intro l
    simp [State.reset, State.pinReset, resetCaptions, resetPictures, resetStore]

/-- Nothing is held, claimed or stored right after reset, so that every law of a lane holds for want of a case. -/
theorem reset_tenanciesSound : State.reset.TenanciesSound where
  fragments i := by simp [State.reset, State.pinReset, resetTenancy, Tenancy.runs, runsGood]
  changes i c h := by simp [State.reset, State.pinReset, resetTenancy] at h
  apart i j k _ h := by
    simp [State.occupies, State.reset, State.pinReset, resetTenancy, Tenancy.runs, inRuns] at h
  ahead h := absurd h (by decide)
  off _ _ i := by simp [State.reset, State.pinReset, resetTenancy]

theorem reset_splitsSound : State.reset.SplitsSound := by
  intro i
  rcases i with (_ | _ | _) | _ <;> decide

theorem reset_captionsSound : State.reset.CaptionsSound := by
  intro l
  rw [show State.reset.captions.get l = resetCaptions from Trio.get_const l _]
  constructor <;> simp [resetCaptions]

theorem reset_objectsSound : State.reset.ObjectsSound := by
  refine ⟨by constructor <;> simp [State.reset, State.pinReset, resetStore], fun l => ?_⟩
  constructor <;> simp [State.reset, State.pinReset, resetStore, resetPictures]

/-- Settles O3: one predicate after another on the reset state. -/
theorem resetIsSound : Obligations.ResetIsSound := by
  unfold Obligations.ResetIsSound
  have events : State.reset.events.Sound := ⟨by decide, by simp [State.reset, State.pinReset, resetEvents], trivial⟩
  have fifos : State.reset.FifosSound := fun i => by
    rw [show State.reset.units.get i = resetUnit from Quad.get_const i _]
    exact ⟨by decide, rfl⟩
  have lists : State.reset.alerts.ListsSound := by
    constructor <;> simp [State.reset, State.pinReset, resetAlerts]
  exact ⟨⟨by decide, by decide, by decide, rfl, rfl, rfl⟩, events, rfl, fifos, reset_captionsSound, ⟨rfl, rfl⟩,
    nofun, rfl, Nat.zero_le _, reset_tenanciesSound, reset_splitsSound, reset_objectsSound, lists,
    fun _ _ => ⟨rfl, nofun⟩⟩

end Sys2Proof.Machine
end

