-- ==== Sys2Proof/Proofs/Wire.lean ====
section
/-! SUPPORT. The wired line and the cell's protection: arbitration bit by bit leaves the drivers of the lowest tag (R2, R15),
and a protection byte is an exclusive-or that a change of one byte changes (R3). -/

namespace Sys2Proof.Machine

/-! ### Tag arbitration (R2, R15) -/

/-- The number that bits spell, most significant bit first. -/
def bitsValue : List Bool → Nat
  | [] => 0
  | b :: bs => b.toNat * 2 ^ bs.length + bitsValue bs

theorem bitsValue_lt (bs : List Bool) : bitsValue bs < 2 ^ bs.length := by
  induction bs with
  | nil => exact Nat.one_pos
  | cons b bs ih =>
    have : b.toNat ≤ 1 := Bool.toNat_le b
    simp only [bitsValue, List.length_cons, Nat.pow_succ]
    nlinarith

theorem bitsValue_byteBits (t : Byte) : bitsValue (byteBits t) = t.toNat := by
  revert t; decide

/-- The line reads 1 only where no driver sends 0 (R2). -/
theorem lineBit_eq_true {sent : List Bool} : lineBit sent = true ↔ ∀ b ∈ sent, b = true := by
  simp [lineBit]

theorem mem_arbitrateBit {ds : List (Byte × List Bool)} {x : Byte × List Bool} :
    x ∈ (arbitrateBit ds).2 ↔
      ∃ d ∈ ds, d.2.headD true = lineBit (ds.map (fun e => e.2.headD true)) ∧ (d.1, d.2.tail) = x := by
  simp [arbitrateBit, and_assoc]

/-- After `n` bits, the drivers still sending are those whose `n` bits spell the lowest number. -/
theorem mem_arbitrateBits (n : Nat) (t : Byte) : ∀ ds : List (Byte × List Bool), (∀ d ∈ ds, d.2.length = n) →
    (t ∈ (arbitrateBits n ds).map (fun d => d.1) ↔
      ∃ d ∈ ds, d.1 = t ∧ ∀ e ∈ ds, bitsValue d.2 ≤ bitsValue e.2) := by
  induction n with
  | zero =>
    intro ds len
    have none : ∀ d ∈ ds, d.2 = [] := fun d m => List.eq_nil_of_length_eq_zero (len d m)
    simp only [arbitrateBits, List.mem_map]
    refine exists_congr fun d => and_congr_right fun m => ?_
    simp only [iff_self_and]
    intro _ e me
    rw [none d m, none e me]
  | succ n ih =>
    intro ds len
    have split : ∀ d ∈ ds, bitsValue d.2 = (d.2.headD true).toNat * 2 ^ n + bitsValue d.2.tail ∧ d.2.tail.length = n := by
      intro d m
      have := len d m
      obtain ⟨u, bs⟩ := d
      cases bs with
      | nil => simp at this
      | cons b bs => simp at this; simp [bitsValue, this]
    have below : ∀ d ∈ ds, bitsValue d.2.tail < 2 ^ n := fun d m => (split d m).2 ▸ bitsValue_lt d.2.tail
    have rest : ∀ d ∈ (arbitrateBit ds).2, d.2.length = n := by
      intro d m
      obtain ⟨e, me, -, rfl⟩ := mem_arbitrateBit.mp m
      exact (split e me).2
    rw [arbitrateBits, ih _ rest]
    set line := lineBit (ds.map (fun e => e.2.headD true)) with hline
    have one (h : line = true) : ∀ d ∈ ds, d.2.headD true = true := fun d m =>
      lineBit_eq_true.mp (hline.symm.trans h) _ (List.mem_map.mpr ⟨d, m, rfl⟩)
    have zero (h : line = false) : ∃ d ∈ ds, d.2.headD true = false := by
      by_contra none
      push Not at none
      have : line = true := hline ▸ lineBit_eq_true.mpr (by simpa using none)
      simp [h] at this
    constructor
    · rintro ⟨x, mx, rfl, low⟩
      obtain ⟨d, md, head, rfl⟩ := mem_arbitrateBit.mp mx
      refine ⟨d, md, rfl, fun e me => ?_⟩
      rw [(split d md).1, (split e me).1, head]
      by_cases same : e.2.headD true = line
      · rw [same]
        exact Nat.add_le_add_left (low _ (mem_arbitrateBit.mpr ⟨e, me, same, rfl⟩)) _
      · cases hl : line with
        | true => exact absurd ((one hl e me).trans hl.symm) same
        | false =>
          have : e.2.headD true = true := by simpa [hl] using same
          rw [this, ← hline, hl]
          have := below d md
          simp only [Bool.toNat_true, Bool.toNat_false]
          omega
    · rintro ⟨d, md, rfl, low⟩
      have head : d.2.headD true = line := by
        cases hl : line with
        | true => exact one hl d md
        | false =>
          obtain ⟨e, me, he⟩ := zero hl
          by_contra hd
          have hd : d.2.headD true = true := by simpa using hd
          have := low e me
          have := below e me
          rw [(split d md).1, (split e me).1, hd, he] at *
          simp at *
          omega
      refine ⟨_, mem_arbitrateBit.mpr ⟨d, md, head, rfl⟩, rfl, fun x mx => ?_⟩
      obtain ⟨e, me, he, rfl⟩ := mem_arbitrateBit.mp mx
      have := low e me
      rw [(split d md).1, (split e me).1, head, he] at this
      exact Nat.le_of_add_le_add_left this

/-- Settles O21, from what `n` bits of arbitration leave. -/
theorem lowestTagWinsArbitration : Obligations.LowestTagWinsArbitration := by
  intro tags t
  rw [arbitrationWinners, mem_arbitrateBits 8 t _ (by simp [byteBits])]
  simp [bitsValue_byteBits]

/-! ### Cell protection (R3) -/

/-- The exclusive-or of the bytes of a list whose position, counted from `n`, meets a test. -/
def xorWhere (test : Nat → Bool) : Nat → List Byte → Byte
  | _, [] => 0
  | n, b :: bs => (if test n then b else 0) ^^^ xorWhere test (n + 1) bs

theorem foldl_xor_filter_zipIdx (test : Nat → Bool) (bs : List Byte) (n : Nat) (acc : Byte) :
    ((bs.zipIdx n).filter (fun x => test x.2)).foldl (fun acc x => acc ^^^ x.1) acc = acc ^^^ xorWhere test n bs := by
  induction bs generalizing n acc with
  | nil => simp [xorWhere]
  | cons b bs ih =>
    simp only [List.zipIdx_cons, List.filter_cons, xorWhere]
    cases test n <;> simp [ih, BitVec.xor_assoc]

theorem foldl_xor_filter_range (test : Nat → Bool) (bs : List Byte) (n : Nat) (acc : Byte) :
    ((List.range' n bs.length).filter test).foldl (fun x k => x ^^^ bs.getD (k - n) 0) acc = acc ^^^ xorWhere test n bs := by
  induction bs generalizing n acc with
  | nil => simp [xorWhere]
  | cons b bs ih =>
    have shift (x : Byte) : ((List.range' (n + 1) bs.length).filter test).foldl
        (fun x k => x ^^^ (b :: bs).getD (k - n) 0) x = x ^^^ xorWhere test (n + 1) bs := by
      rw [← ih]
      refine List.foldl_ext _ _ _ fun y k mem => ?_
      have : n + 1 ≤ k := (List.mem_range'_1.mp (List.mem_of_mem_filter mem)).1
      obtain ⟨m, rfl⟩ := Nat.exists_eq_add_of_le this
      simp [show n + 1 + m - n = m + 1 by omega]
    simp only [List.length_cons, List.range'_succ, List.filter_cons, xorWhere]
    cases test n
    · simpa using shift acc
    · simp only [if_true, List.foldl_cons, shift]
      simp [BitVec.xor_assoc]

/-- A protection byte is the exclusive-or of the bytes at its positions. -/
theorem protectionByte_eq (p j : Nat) (payload : List Byte) :
    protectionByte p j payload = xorWhere (fun k => k % p == j) 0 payload := by
  exact (foldl_xor_filter_zipIdx (fun k => k % p == j) payload 0 0).trans (by simp)

/-- A change of one byte changes the exclusive-or where its position counts, by what the byte changed. -/
theorem xorWhere_set (test : Nat → Bool) (bs : List Byte) (n k : Nat) (b : Byte) (h : k < bs.length) :
    xorWhere test n (bs.set k b) =
      xorWhere test n bs ^^^ (if test (n + k) then bs.getD k 0 ^^^ b else 0) := by
  induction bs generalizing n k with
  | nil => simp at h
  | cons c cs ih =>
    cases k with
    | zero =>
      simp only [List.set_cons_zero, xorWhere, Nat.add_zero, List.getD_cons_zero]
      cases test n
      · simp
      · simp only [if_true]
        generalize xorWhere test (n + 1) cs = x
        ext i
        simp
        grind
    | succ k =>
      simp only [List.set_cons_succ, xorWhere, List.getD_cons_succ]
      rw [ih (n + 1) k (by simpa using h), show n + 1 + k = n + (k + 1) by omega, BitVec.xor_assoc]

theorem protection_length (payload : List Byte) : (protection payload).length = 36 - payload.length := by
  simp [protection, Config.contentBytes]

theorem protection_getD {payload : List Byte} {j : Nat} (h : j < 36 - payload.length) :
    (protection payload).getD j 0 = protectionByte (36 - payload.length) j payload := by
  simp [protection, Config.contentBytes, h, List.getD_eq_getElem?_getD]

/-- A content whose payload is as long as the grade's passes exactly when its protection bytes follow the payload. -/
theorem protectionGood_append {grade : Nat} {payload rest : List Byte} (h : payload.length = gradePayload grade) :
    protectionGood grade (payload ++ rest) = (rest == protection payload) := by
  simp [protectionGood, ← h]

/-- One changed payload byte changes the protection byte at its remainder. -/
theorem protection_set_ne {payload : List Byte} {k : Nat} {b : Byte} (hk : k < payload.length) (room : payload.length < 36)
    (hb : b ≠ payload.getD k 0) : protection (payload.set k b) ≠ protection payload := by
  intro same
  have hj : k % (36 - payload.length) < 36 - payload.length := Nat.mod_lt _ (by omega)
  have at_j : (protection (payload.set k b)).getD (k % (36 - payload.length)) 0 =
      (protection payload).getD (k % (36 - payload.length)) 0 := by rw [same]
  rw [protection_getD (by simpa using hj), protection_getD hj, List.length_set, protectionByte_eq, protectionByte_eq,
    xorWhere_set _ _ _ _ _ hk] at at_j
  simp only [Nat.zero_add, beq_self_eq_true, if_true] at at_j
  refine hb ?_
  generalize xorWhere _ _ _ = x at at_j
  generalize payload.getD k 0 = c at at_j ⊢
  have : x ^^^ (x ^^^ (c ^^^ b)) = x ^^^ x := by rw [at_j]
  rw [← BitVec.xor_assoc, BitVec.xor_self, BitVec.zero_xor] at this
  exact (BitVec.xor_eq_zero_iff.mp this).symm

/-- Settles O23: the changed byte lies in the payload, and then a protection byte differs, or among the protection bytes. -/
theorem cellProtectionCatchesOneByte : Obligations.CellProtectionCatchesOneByte := by
  intro grade payload low high len
  have room : payload.length < 36 := by rw [len]; unfold gradePayload; split <;> omega
  dsimp only
  refine ⟨?_, ?_, ?_, ?_, ?_⟩
  · rw [cellContent, List.length_append, protection_length]; omega
  · simp [cellContent, ← len]
  · intro j hj
    rw [cellContent, ← len, List.getD_append_right _ _ _ _ (by omega), Nat.add_sub_cancel_left,
      protection_getD (by omega), protectionByte_eq, List.range_eq_range']
    have := foldl_xor_filter_range (fun k => k % (36 - payload.length) == j) payload 0 0
    simpa using this.symm
  · rw [cellContent, protectionGood_append len]; simp
  · intro k b hk hb
    by_cases inside : k < payload.length
    · have hb : b ≠ payload.getD k 0 := by rwa [cellContent, List.getD_append _ _ _ _ inside] at hb
      rw [cellContent, List.set_append_left _ _ inside, protectionGood_append (by simpa using len)]
      simpa using (protection_set_ne inside room hb).symm
    · push Not at inside
      rw [cellContent, List.getD_append_right _ _ _ _ inside] at hb
      rw [cellContent, List.set_append_right _ _ inside, protectionGood_append len, beq_eq_false_iff_ne]
      intro same
      have place : k - payload.length < (protection payload).length := by rw [protection_length]; omega
      refine hb ?_
      rw [← same]
      simp [List.getD_eq_getElem?_getD, place]

end Sys2Proof.Machine
end

