-- ==== Sys2Proof/Proofs/NodeFrame.lean ====
section
/-! SUPPORT. What the operations of the trunk, the boundaries and the pulses leave alone (`NodeStep`), what a record or a
thing due in a block leaves alone (`CalmStep`), and what becomes of the Timebase. -/

namespace Sys2Proof.Machine

/-! ### What every operation but reset and the image leaves alone -/

/-- `t` comes from `s` by operations of the trunk, the boundaries and the pulses: pins, configuration, contracts, ports,
queue and node number are as they were, a slot is driven on the trunk only and the listen count stays bounded. -/
structure NodeStep (s t : State) : Prop where
  inReset : t.inReset = s.inReset
  loading : t.loading = s.loading
  config : t.config = s.config
  contracts : t.contracts = s.contracts
  ports : t.ports = s.ports
  pending : t.pending = s.pending
  node : t.mode.node = s.mode.node
  drives : s.DrivesOnlyOnTrunk → t.DrivesOnlyOnTrunk
  listen : s.ListenBounded → t.ListenBounded

namespace NodeStep

variable {s t u : State}

theorem refl (s : State) : NodeStep s s := ⟨rfl, rfl, rfl, rfl, rfl, rfl, rfl, id, id⟩

theorem trans (h : NodeStep s t) (k : NodeStep t u) : NodeStep s u where
  inReset := k.inReset.trans h.inReset
  loading := k.loading.trans h.loading
  config := k.config.trans h.config
  contracts := k.contracts.trans h.contracts
  ports := k.ports.trans h.ports
  pending := k.pending.trans h.pending
  node := k.node.trans h.node
  drives := k.drives ∘ h.drives
  listen := k.listen ∘ h.listen

theorem ofBlock (h : BlockStep s t) : NodeStep s t where
  inReset := h.inReset
  loading := h.loading
  config := h.config
  contracts := h.contracts
  ports := h.ports
  pending := h.pending
  node := by rw [h.mode]
  drives d := by unfold State.DrivesOnlyOnTrunk; rw [h.trunk, h.mode]; exact d
  listen d := by unfold State.ListenBounded; rw [h.mode]; exact d

theorem cond (c : Prop) [Decidable c] (h : NodeStep s t) (k : NodeStep s u) : NodeStep s (if c then t else u) := by
  split
  · exact h
  · exact k

theorem forLanes {f : Lane → State → State} (h : ∀ l s, NodeStep s (f l s)) (s : State) :
    NodeStep s (forLanes f s) := ((h _ _).trans (h _ _)).trans (h _ _)

theorem forEach {α : Type} {f : α → State → State} (h : ∀ x s, NodeStep s (f x s)) (xs : List α) (s : State) :
    NodeStep s (forEach xs f s) := by
  induction xs generalizing s with
  | nil => exact refl s
  | cons x xs ih => exact (h x s).trans (ih (f x s))

/-! ### Setters -/

theorem setPeer (s : State) (m : Node) (e : PeerEntry) : NodeStep s (s.setPeer m e) := { refl s with }
theorem setTime (s : State) (x : Timebase) : NodeStep s (s.setTime x) := { refl s with }
theorem setEvents (s : State) (x : EventOut) : NodeStep s (s.setEvents x) := { refl s with }
theorem setUnit (s : State) (i : LaneId) (x : LaneUnit) : NodeStep s (s.setUnit i x) := { refl s with }
theorem setTenancy (s : State) (i : LaneId) (x : Tenancy) : NodeStep s (s.setTenancy i x) := { refl s with }

/-- A Trunk Interface that drives no slot the old one did not. -/
theorem setTrunk (s : State) (x : Trunk) (h : x.slotState = .driving → s.trunk.slotState = .driving := by exact id) :
    NodeStep s (s.setTrunk x) := { refl s with drives := fun d e => d (h e) }

theorem setModeCtl (s : State) (m : ModeCtl) (node : m.node = s.mode.node) (mode : m.mode = s.mode.mode)
    (listen : s.mode.listenCount ≤ Config.listenFrames → m.listenCount ≤ Config.listenFrames) :
    NodeStep s (s.setModeCtl m) :=
  { refl s with node := node, listen := listen, drives := fun d e => (congrArg _ mode).trans (d e) }

/-- The entry to a mode releases a driven slot where the mode drives nothing (R13). -/
theorem setMode (m : Mode) (s : State) : NodeStep s (setMode m s) := by
  unfold Machine.setMode
  by_cases on : m.onTrunk = true
  · exact { refl s with
      drives := fun _ _ => by simp only [on, if_true]; exact on
      inReset := by simp [on], loading := by simp [on], config := by simp [on], contracts := by simp [on]
      ports := by simp [on], pending := by simp [on], node := by simp [on]
      listen := by simp [on, State.ListenBounded] }
  · have released (x : Trunk) : x.release.slotState ≠ .driving := by unfold Trunk.release; split <;> simp_all
    exact { refl s with
      drives := fun _ e => by simp only [on] at e; exact absurd e (released _)
      inReset := by simp [on], loading := by simp [on], config := by simp [on], contracts := by simp [on]
      ports := by simp [on], pending := by simp [on], node := by simp [on]
      listen := by simp [on, State.ListenBounded] }

theorem duplicateFound (k : Nat) (s : State) : NodeStep s (duplicateFound k s) :=
  (ofBlock (.postSelf ..)).trans (setMode .halted _)

/-! ### Peer View and Trunk Interface -/

theorem unheardReport (m : Node) (s : State) : NodeStep s (unheardReport m s) := by
  have silence (s : State) : NodeStep s (silencePeer m s) := (setPeer ..).trans (ofBlock (.post ..))
  have lose (s : State) : NodeStep s (losePeer m s) :=
    (setPeer ..).trans ((ofBlock (.post ..)).trans (ofBlock (.peerLossAlerts ..)))
  unfold Machine.unheardReport
  split
  · exact refl s
  · dsimp only
    generalize counted : s.setPeer m _ = t
    have step : NodeStep s t := counted ▸ setPeer ..
    refine step.trans ?_
    split
    · exact cond _ (silence _) (refl _)
    · exact cond _ (silence _) (refl _)
    · exact cond _ (lose _) (refl _)
    · exact refl _
    · exact refl _

theorem postStored (m : Node) (was : PeerState) (b : Bool) (h : Header) (s : State) :
    NodeStep s (postStored m was b h s) := by
  unfold Machine.postStored
  split
  all_goals
    split
    all_goals first | exact ofBlock (.post ..) | exact refl s

theorem checkConflicts (m : Node) (b : Bool) (x : Manifest) (s : State) : NodeStep s (checkConflicts m b x s) :=
  cond _ (ofBlock ((BlockStep.forEach (fun _ _ => .conflictCheck ..) _ _).trans
    (.forEach (fun _ _ => .conflictCheck ..) _ _))) (refl s)

theorem storeManifest (m : Node) (x : Manifest) (s : State) : NodeStep s (storeManifest m x s) :=
  (postStored ..).trans ((setPeer ..).trans ((checkConflicts ..).trans (ofBlock (.headerStored ..))))

theorem adoptCycle (m : Node) (h : Header) (s : State) : NodeStep s (adoptCycle m h s) :=
  cond _ ((setTime ..).trans (setModeCtl _ _ rfl rfl id)) (refl s)

theorem passManifest (m : Node) (heard : Option (List Byte)) (s : State) : NodeStep s (passManifest m heard s) := by
  unfold Machine.passManifest
  split
  · exact unheardReport m s
  · exact cond _ (unheardReport m s) ((cond _ (adoptCycle ..) (refl s)).trans (storeManifest ..))

theorem handOver (m : Node) (heard : Option (List Byte)) (s : State) : NodeStep s (handOver m heard s) := by
  unfold Machine.handOver
  split
  · exact refl s
  · exact refl s
  · exact unheardReport m s
  · refine cond _ ?_ (passManifest ..)
    split
    · exact duplicateFound ..
    · exact refl s
  all_goals exact cond _ (refl s) (passManifest ..)

theorem directorySlot (k : Nat) (r : DirRead) (s : State) : NodeStep s (directorySlot k r s) :=
  (setTrunk ..).trans (cond _ (handOver ..) (refl _))

theorem relayHandOver (r : RelayCell) (s : State) : NodeStep s (relayHandOver r s) :=
  (setTrunk ..).trans (cond _ (ofBlock (.keeping .relayEnd _)) (refl _))

theorem routeSlot (k : Nat) (tag : Byte) (content : List Byte) (s : State) : NodeStep s (routeSlot k tag content s) :=
  cond _ (directorySlot k _ s) (cond _ (relayHandOver _ s) (refl s))

theorem cutSlot (s : State) : NodeStep s (cutSlot s) :=
  cond _ ((setTrunk s _ (by exact nofun)).trans (cond _ (directorySlot ..) (cond _ (relayHandOver ..) (refl _)))) (refl s)

theorem takeCopy (k : Nat) (s : State) : NodeStep s (takeCopy k s) := cond _ (setTrunk ..) (refl s)

theorem decideSlot (k : Nat) (s : State) : NodeStep s (decideSlot k s) :=
  { refl s with
    drives := fun _ e => by
      by_contra off
      have off : s.onTrunk = false := by
        simp only [State.onTrunk, Bool.and_eq_false_iff]
        exact .inr (Bool.eq_false_iff.mpr off)
      simp [Machine.decideSlot, State.driverOf, off] at e }

theorem startSlot (k : Nat) (s : State) : NodeStep s (startSlot k s) :=
  (cutSlot s).trans ((setTime ..).trans ((cond _ (ofBlock (.assembleFrame _)) (refl _)).trans
    ((takeCopy ..).trans (decideSlot ..))))

theorem reportLoss (k : Nat) (d : Option Driver) (s : State) : NodeStep s (reportLoss k d s) := by
  unfold Machine.reportLoss
  split
  · exact cond _ (ofBlock (.lostSlot ..)) (refl s)
  · exact refl s

/-- A slot that has ended is driven no more. -/
theorem slotResult_ne_driving (x : Trunk) (tag : Byte) (content : List Byte) : slotResult x tag content ≠ .driving := by
  unfold slotResult driveResult
  split
  · split
    · simp
    · split <;> simp
  · assumption

theorem endSlot (tag : Byte) (content : List Byte) (s : State) : NodeStep s (endSlot tag content s) := by
  unfold Machine.endSlot
  split
  · dsimp only
    generalize ended : s.setTrunk _ = t
    have step : NodeStep s t := ended ▸ setTrunk s _ (fun e => absurd e (slotResult_ne_driving s.trunk tag content))
    refine step.trans ?_
    split
    · exact duplicateFound ..
    · exact (reportLoss ..).trans (routeSlot ..)
    · exact routeSlot ..
  · exact refl s

/-! ### Boundaries and pulses -/

theorem frameWork (p : FramePos) (s : State) : NodeStep s (frameWork p s) := by
  have frame : NodeStep s (trunkFrame s) := (ofBlock (.relayLeftover s)).trans (setTrunk ..)
  refine frame.trans (cond _ ?_ (refl _))
  have idle (i : LaneId) (s : State) : NodeStep s (onUnit i (fun u => { u with assembled := none }) s) := setUnit ..
  have tested (s : State) : BlockStep s (Machine.forLanes (fun l s => onCaptions l (fun c => c.testDwell s.pos) s) s) :=
    .forLanes (fun l s => .onCaptions _ _ _ (·.testDwell _)) s
  exact (forEach idle _ _).trans ((ofBlock (.clearMarks ..)).trans (ofBlock (tested _)))

theorem listenStep (s : State) : NodeStep s (listenStep s) :=
  cond _ (setModeCtl _ _ rfl rfl (fun _ => Nat.min_le_left _ _)) (refl s)

theorem sampleMode (lines : ModeLines) (s : State) : NodeStep s (sampleMode lines s) :=
  cond _ (setModeCtl _ _ rfl rfl id) (refl s)

theorem openUnplanned (l : Lane) (r : Nat) (s : State) : NodeStep s (openUnplanned l r s) :=
  ofBlock ((BlockStep.setLaneState ..).trans ((BlockStep.postSelf ..).trans (BlockStep.setTargetRate ..)))

theorem autoOpenUnplanned (s : State) : NodeStep s (autoOpenUnplanned s) := by
  refine forLanes (fun l s => ?_) s
  split
  · exact cond _ (openUnplanned ..) (refl s)
  · exact refl s

theorem withdrawnCheck (s : State) : NodeStep s (withdrawnCheck s) := cond _ (setMode ..) (refl s)

theorem modeTransition (s : State) : NodeStep s (modeTransition s) := by
  unfold Machine.modeTransition
  split
  · split
    · exact refl s
    all_goals exact (setMode ..).trans ((ofBlock (.forLanes BlockStep.laneCloseOp _)).trans (withdrawnCheck _))
  · split
    · exact (setMode ..).trans (autoOpenUnplanned _)
    all_goals exact refl s
  · exact withdrawnCheck s
  all_goals exact refl s

theorem runningWork (s : State) : NodeStep s (runningWork s) :=
  cond _ ((ofBlock (.tenancySteps12 _)).trans ((modeTransition _).trans
    ((ofBlock (.alertBoundary _)).trans (ofBlock (.tenancyStep4 _))))) (refl s)

theorem endListening (s : State) : NodeStep s (endListening s) :=
  ((setMode ..).trans (ofBlock (.postSelf ..))).trans
    ((cond _ (ofBlock (.autoOpenLanes _)) (refl _)).trans (ofBlock (.judged _)))

theorem cycleWork (lines : ModeLines) (s : State) : NodeStep s (cycleWork lines s) := by
  unfold Machine.cycleWork
  split
  · refine (sampleMode lines s).trans (.trans ?_ ((ofBlock (.storeBoundary _)).trans (ofBlock (.statusRecords _))))
    exact cond _ (endListening _) (runningWork _)
  · exact refl s

theorem takeRelaySet (s : State) : NodeStep s (takeRelaySet s) := setTrunk ..

theorem cycleBoundary (lines : ModeLines) (b : Bool) (s : State) : NodeStep s (cycleBoundary lines b s) :=
  (cutSlot s).trans ((setTime ..).trans ((frameWork ..).trans ((listenStep _).trans
    ((cycleWork ..).trans (takeRelaySet _)))))

theorem plainFrameBoundary (s : State) : NodeStep s (plainFrameBoundary s) :=
  (cutSlot s).trans ((setTime ..).trans ((frameWork ..).trans ((listenStep _).trans (takeRelaySet _))))

theorem frameBoundary (lines : ModeLines) (s : State) : NodeStep s (frameBoundary lines s) :=
  cond _ (plainFrameBoundary s) (cycleBoundary ..)

theorem postRegained (was : Timebase) (s : State) : NodeStep s (postRegained was s) :=
  cond _ (ofBlock (.postSelf ..)) (refl s)

/-- The listen period begins (R26): no listen frame is counted and no cycle source known. -/
theorem beginListening (s : State) :
    NodeStep s (s.setModeCtl { s.mode with listenCount := 0, cycleSource := none }) :=
  setModeCtl _ _ rfl rfl (fun _ => Nat.zero_le _)

theorem earlyPulse (a : Nat) (lines : ModeLines) (s : State) : NodeStep s (earlyPulse a lines s) :=
  (setTime ..).trans ((cutSlot _).trans ((setTime ..).trans ((postRegained ..).trans (cycleBoundary ..))))

theorem latePulse (a : Nat) (s : State) : NodeStep s (latePulse a s) := (setTime ..).trans (postRegained ..)

theorem firstPulse (lines : ModeLines) (s : State) : NodeStep s (firstPulse lines s) :=
  (cutSlot s).trans ((setTime ..).trans ((frameWork ..).trans ((beginListening _).trans
    ((cycleWork ..).trans (takeRelaySet _)))))

theorem realignPulse (lines : ModeLines) (s : State) : NodeStep s (realignPulse lines s) :=
  (cutSlot s).trans ((setTime ..).trans ((frameWork ..).trans ((ofBlock (.postSelf ..)).trans ((setMode ..).trans
    ((beginListening _).trans ((cycleWork ..).trans (takeRelaySet _)))))))

theorem pulse (a : Nat) (lines : ModeLines) (s : State) : NodeStep s (pulse a lines s) := by
  unfold Machine.pulse
  split
  · exact cond _ (firstPulse ..) (refl s)
  · exact cond _ (realignPulse ..) (refl s)
  all_goals exact cond _ (earlyPulse ..) (cond _ (latePulse ..) (refl s))

theorem quietLane (i : LaneId) (s : State) : NodeStep s (quietLane i s) := by
  have dropped (s : State) : NodeStep s (onUnit i LaneUnit.quiet (s.setTenancy i resetTenancy)) := { refl s with }
  cases i with
  | svc l =>
    exact (dropped s).trans ((ofBlock (.setSched ..)).trans
      ((ofBlock (.interruptCaptions l _)).trans (ofBlock (.interruptPicture l _))))
  | alert => exact (dropped s).trans (ofBlock (.setSched ..))

theorem quietEntry (s : State) : NodeStep s (quietEntry s) := by
  have forget (s : State) : NodeStep s (freeReserve (s.setAlerts resetAlerts)) := { refl s with }
  exact ((setMode .quiet s).trans (beginListening _)).trans ((forget _).trans ((forEach quietLane _ _).trans
    (forLanes (fun l _ => ofBlock (.statusIfHeld (.svc l) (s.units.get (.svc l)).intake _)) _)))

theorem holdoverExhausted (s : State) : NodeStep s (holdoverExhausted s) := by
  unfold Machine.holdoverExhausted
  split
  all_goals first | exact quietEntry s | exact refl s

theorem windowClose (s : State) : NodeStep s (windowClose s) :=
  cond _ ((setTime ..).trans ((ofBlock (.postSelf ..)).trans
    (cond _ ((ofBlock (.postSelf ..)).trans (holdoverExhausted _)) (refl _)))) (refl s)

end NodeStep

/-- What a list of operations leaves of the alerts, each leaving them alone. -/
theorem forEach_alerts {α : Type} {f : α → State → State} (h : ∀ x s, (f x s).alerts = s.alerts) (xs : List α) (s : State) :
    (forEach xs f s).alerts = s.alerts := by
  induction xs generalizing s with
  | nil => rfl
  | cons x xs ih => exact (ih (f x s)).trans (h x s)

@[simp] theorem applyRelease_alerts (i : LaneId) (s : State) : (applyRelease i s).alerts = s.alerts := by
  unfold applyRelease
  split
  · split <;> simp
  · rfl

@[simp] theorem applyClaim_alerts (i : LaneId) (s : State) : (applyClaim i s).alerts = s.alerts := by
  unfold applyClaim
  split
  · split <;> simp
  · rfl

@[simp] theorem tenancySteps12_alerts (s : State) : (tenancySteps12 s).alerts = s.alerts := by
  unfold tenancySteps12
  rw [forEach_alerts reportLane_alerts, forEach_alerts applyClaim_alerts, forEach_alerts applyRelease_alerts]

/-! ### Records, and what falls due in a block -/

/-- `t` comes from `s` by a record on a port or by something that falls due in a block: only lanes, ports, carousels, store,
alerts and events have changed. -/
structure CalmStep (s t : State) : Prop where
  inReset : t.inReset = s.inReset
  loading : t.loading = s.loading
  config : t.config = s.config
  contracts : t.contracts = s.contracts
  time : t.time = s.time
  trunk : t.trunk = s.trunk
  mode : t.mode = s.mode
  peers : t.peers = s.peers
  pending : t.pending = s.pending

namespace BlockStep

variable {s : State}

theorem actService (l : Lane) (c : Contract) (r : PortRecord) (s : State) : BlockStep s (actService l c r s) := by
  cases r with
  | audioUnit => exact audioUnitOp ..
  | laneOpen => exact laneOpenOp ..
  | laneClose => exact laneCloseOp ..
  | laneRate => exact laneRateOp ..
  | laneReset => exact laneResetOp ..
  | captionPut => exact captionPutOp ..
  | captionDrop => exact captionDropOp ..
  | pictureBegin => exact pictureBeginOp ..
  | pictureChunk => exact pictureChunkOp ..
  | pictureDrop => exact pictureDropOp ..
  | _ => exact refl s

theorem actAlert (r : PortRecord) (s : State) : BlockStep s (actAlert r s) := by
  cases r with
  | alertRaise => exact alertRaiseOp ..
  | alertText => exact alertTextOp ..
  | alertPictureBegin => exact alertPictureBeginOp ..
  | alertPictureChunk => exact alertPictureChunkOp ..
  | alertAudio => exact alertAudioOp ..
  | alertEnd => exact alertEndOp ..
  | _ => exact refl s

theorem actRecord (p : LaneId) (r : PortRecord) (s : State) : BlockStep s (actRecord p r s) := by
  cases p with
  | alert => exact actAlert r s
  | svc l =>
    unfold Machine.actRecord
    split
    · exact actAlert r s
    · split
      · exact actService ..
      · exact refl s

theorem portEvent (p : LaneId) (e : PortEvent) (s : State) : BlockStep s (portEvent p e s) := by
  cases e with
  | taken r => exact actRecord p r s
  | rejected reason kind => exact cond _ (refl s) (postSelf ..)

theorem afterExit (s : State) : BlockStep s (afterExit s) :=
  ((boundaryEntries ..).trans (exitAttempts _)).trans (syncRelay _)

theorem exitDue (s : State) : BlockStep s (exitDue s) := by
  refine (boundaryExits s).trans ?_
  unfold Machine.exitDue
  generalize Machine.boundaryExits s = p
  obtain ⟨b, t⟩ := p
  exact cond _ (afterExit t) ((boundaryEntries ..).trans (syncRelay _))

theorem expireAlert (n : Nat) (s : State) : BlockStep s (expireAlert n s) := by
  unfold Machine.expireAlert
  split
  · exact keeping (fun s => (stepOnAir ..).trans (judged _)) s
  · exact refl s

/-- A hold that steps leaves the followed alert's identity, so the takeover stack is as sound as before. -/
theorem stepHold_followed {s : State} {f : Followed} (h : s.alerts.followed = some f) :
    BlockStep s (s.setAlerts { s.alerts with followed := some f.stepHold }) :=
  setAlerts _ _ fun sound => by
    unfold AlertCtl.Sound at *
    rw [h] at sound
    cases hs : s.alerts.stack with
    | nil => simp [hs, StackSound] at sound
    | cons c rest => simpa [hs, StackSound, Followed.stepHold] using sound

theorem orphanStep (i : Ident) (s : State) : BlockStep s (orphanStep i s) := by
  unfold Machine.orphanStep
  split
  · rename_i f h
    refine cond _ ?_ ?_
    · have alerts : (Machine.tenancySteps12 s).alerts.followed = some f := by rw [tenancySteps12_alerts]; exact h
      exact (tenancySteps12 s).trans ((stepHold_followed alerts).trans
        ((postAlert ..).trans ((exitAlert _).trans (afterExit _))))
    · refine BlockStep.trans ?_ (forEach (fun _ _ => postAlert ..) _ _)
      refine setAlertsFollowed _ _ rfl rfl _ rfl (fun c => ?_) (fun c => ?_)
      · dsimp only
        split <;> rfl
      · dsimp only
        split
        · cases c.followed <;> rfl
        · rfl
  · exact refl s

theorem timeoutStep (i : LaneId) (id : Byte) (s : State) : BlockStep s (timeoutStep i id s) := by
  cases i with
  | alert => exact forEach timeReserve _ _
  | svc l =>
    simp only [Machine.timeoutStep]
    split
    · exact cond _ (timeObj ..) (refl s)
    · exact refl s

end BlockStep

namespace CalmStep

variable {s t u : State}

theorem refl (s : State) : CalmStep s s := ⟨rfl, rfl, rfl, rfl, rfl, rfl, rfl, rfl, rfl⟩

theorem trans (h : CalmStep s t) (k : CalmStep t u) : CalmStep s u :=
  ⟨k.inReset.trans h.inReset, k.loading.trans h.loading, k.config.trans h.config, k.contracts.trans h.contracts,
    k.time.trans h.time, k.trunk.trans h.trunk, k.mode.trans h.mode, k.peers.trans h.peers, k.pending.trans h.pending⟩

theorem ofBlock (h : BlockStep s t) : CalmStep s t :=
  ⟨h.inReset, h.loading, h.config, h.contracts, h.time, h.trunk, h.mode, h.peers, h.pending⟩

theorem cond (c : Prop) [Decidable c] (h : CalmStep s t) (k : CalmStep s u) : CalmStep s (if c then t else u) := by
  split
  · exact h
  · exact k

theorem setPort (s : State) (p : LaneId) (x : Port) : CalmStep s (s.setPort p x) := ⟨rfl, rfl, rfl, rfl, rfl, rfl, rfl, rfl, rfl⟩

theorem readBits (p : LaneId) (bits : List Bool) (s : State) : CalmStep s (readBits p bits s) := by
  unfold Machine.readBits
  dsimp only
  generalize scanBits _ _ _ _ = scanned
  obtain ⟨es, port⟩ := scanned
  exact (setPort ..).trans (ofBlock (.forEach (fun _ _ => .portEvent ..) _ _))

theorem takeRecord (p : LaneId) (r : PortRecord) (s : State) : CalmStep s (takeRecord p r s) :=
  cond _ (cond _ ((setPort ..).trans (ofBlock (.actRecord ..))) (readBits ..)) (refl s)

theorem rejectRecord (p : LaneId) (k : Byte) (n : BitVec 16) (body : List Byte) (crc : BitVec 16) (s : State) :
    CalmStep s (rejectRecord p k n body crc s) := cond _ (readBits ..) (refl s)

/-- On a state as it was, drives and listen count are as they were. -/
theorem drives (h : CalmStep s t) (d : s.DrivesOnlyOnTrunk) : t.DrivesOnlyOnTrunk := by
  unfold State.DrivesOnlyOnTrunk; rw [h.trunk, h.mode]; exact d

theorem listen (h : CalmStep s t) (d : s.ListenBounded) : t.ListenBounded := by
  unfold State.ListenBounded; rw [h.mode]; exact d

end CalmStep

/-! ### What a command does -/

/-- A command that the trunk, the Timebase or the Peer View acts on. -/
def Instr.moves : Instr → Bool
  | .refpulse .. | .toleranceWindowClose | .refLost | .frameBoundary .. | .cycleBoundary .. | .listenPeriodEnd ..
  | .slotStart .. | .slotEnd .. | .peerSilent .. | .peerLost .. => true
  | _ => false

/-- A command of reset, or the end of the image's read. -/
def Instr.restarts : Instr → Bool
  | .resetAssert | .resetRelease | .configReadDone .. => true
  | _ => false

/-- A command that neither moves the trunk nor restarts the node is a record or something that falls due in a block. -/
theorem exec_calm {c : Instr} {s t : State} (still : Instr.moves c = false) (runs : Instr.restarts c = false)
    (h : exec c s = .next t) : CalmStep s t := by
  cases c with
  | resetAssert | resetRelease | configReadDone => simp [Instr.restarts] at runs
  | refpulse | toleranceWindowClose | refLost | frameBoundary | cycleBoundary | listenPeriodEnd | slotStart | slotEnd
  | peerSilent | peerLost => simp [Instr.moves] at still
  | audioUnit | laneOpen | laneRate | laneClose | laneReset | captionPut | captionDrop | pictureBegin | pictureChunk
  | pictureDrop | alertRaise | alertText | alertPictureBegin | alertPictureChunk | alertAudio | alertEnd =>
    cases h; exact .takeRecord ..
  | recordRejected => cases h; exact .rejectRecord ..
  | laneStatusRecordDone | portClockResume => cases h; exact .cond _ (.ofBlock (.setReturn ..)) (.refl s)
  | eventRecordSent => cases h; exact .cond _ (.refl s) ⟨rfl, rfl, rfl, rfl, rfl, rfl, rfl, rfl, rfl⟩
  | releaseDone => cases h; exact .cond _ (.ofBlock ((BlockStep.applyRelease ..).trans (.reportLane ..))) (.refl s)
  | claimTaken => cases h; exact .cond _ (.ofBlock ((BlockStep.applyClaim ..).trans (.reportLane ..))) (.refl s)
  | backoffEnd => cases h; exact .cond _ (.ofBlock (.planAttempt ..)) (.refl s)
  | alertEntry =>
    cases h
    exact .cond _ (.ofBlock (.keeping (fun _ => (BlockStep.boundaryEntries ..).trans (.syncRelay _)) _)) (.refl s)
  | alertExit => cases h; exact .cond _ (.ofBlock (.keeping .exitDue _)) (.refl s)
  | alertExpired => cases h; exact .cond _ (.ofBlock (.atBoundary (.expireAlert _) _)) (.refl s)
  | alertOrphaned => cases h; exact .cond _ (.ofBlock (.atBoundary (.keeping (.orphanStep _)) _)) (.refl s)
  | redirectStart => cases h; exact .cond _ (.ofBlock (.updateRedirect _)) (.refl s)
  | dwellEnd => cases h; exact .cond _ (.ofBlock (.onCaptions _ _ _ (·.testDwell _))) (.refl s)
  | objectExpired => cases h; exact .cond _ (.ofBlock (.atBoundary (.expireObj _ _) _)) (.refl s)
  | objectTimeout => cases h; exact .cond _ (.ofBlock (.atBoundary (.timeoutStep _ _) _)) (.refl s)

/-- A command that moves the trunk is a `NodeStep`. -/
theorem exec_moves {c : Instr} {s t : State} (moves : Instr.moves c = true) (h : exec c s = .next t) : NodeStep s t := by
  cases c with
  | refpulse => cases h; exact .cond _ (.refl s) (.pulse ..)
  | toleranceWindowClose => cases h; exact .cond _ (.windowClose s) (.refl s)
  | refLost => cases h; exact .cond _ (.windowClose s) (.refl s)
  | frameBoundary => cases h; exact .cond _ (.frameBoundary ..) (.refl s)
  | cycleBoundary => cases h; exact .cond _ (.cycleBoundary ..) (.refl s)
  | listenPeriodEnd => cases h; exact .cond _ (.cycleBoundary ..) (.refl s)
  | slotStart => cases h; exact .cond _ (.startSlot ..) (.refl s)
  | slotEnd => cases h; exact .cond _ (.endSlot ..) (.refl s)
  | peerSilent => cases h; exact .cond _ (.unheardReport ..) (.refl s)
  | peerLost => cases h; exact .cond _ (.unheardReport ..) (.refl s)
  | _ => simp [Instr.moves] at moves

end Sys2Proof.Machine
end

