-- ==== Sys2Proof/Proofs/Timebase.lean ====
section
/-! SUPPORT. The Timebase: what boundaries, pulses and slots leave of it, that every step keeps it within R5, and the pulses and
windows that touch nothing else (R8 to R10). -/

namespace Sys2Proof.Machine

/-! ### Operations that leave the Timebase and the peer table alone -/

/-- `t` has the Timebase and the peer table of `s`, and has posted behind the records queued in `s`. -/
structure StillStep (s t : State) : Prop where
  time : t.time = s.time
  peers : t.peers = s.peers
  queue : s.events.queue <+: t.events.queue

namespace StillStep

variable {s t u : State}

/-- An operation that touches neither of the three. -/
theorem same (time : t.time = s.time := by rfl) (peers : t.peers = s.peers := by rfl)
    (queue : t.events.queue = s.events.queue := by rfl) : StillStep s t := ⟨time, peers, queue ▸ List.prefix_refl _⟩

theorem refl (s : State) : StillStep s s := same

theorem trans (h : StillStep s t) (k : StillStep t u) : StillStep s u := 
  ⟨k.time.trans h.time, k.peers.trans h.peers, h.queue.trans k.queue⟩

theorem ofBlock (h : BlockStep s t) : StillStep s t := ⟨h.time, h.peers, h.queue⟩

theorem cond (c : Prop) [Decidable c] (h : StillStep s t) (k : StillStep s u) : StillStep s (if c then t else u) := by
  split
  · exact h
  · exact k

theorem forEach {α : Type} {f : α → State → State} (h : ∀ x s, StillStep s (f x s)) (xs : List α) (s : State) :
    StillStep s (forEach xs f s) := by
  induction xs generalizing s with
  | nil => exact refl s
  | cons x xs ih => exact (h x s).trans (ih (f x s))

theorem setMode (m : Mode) (s : State) : StillStep s (setMode m s) := by
  unfold Machine.setMode
  exact cond _ same same

theorem frameWork (p : FramePos) (s : State) : StillStep s (frameWork p s) := by
  have frame : StillStep s (trunkFrame s) := (ofBlock (.relayLeftover s)).trans same
  have idle (i : LaneId) (s : State) : StillStep s (onUnit i (fun u => { u with assembled := none }) s) := same
  have tested (s : State) : BlockStep s (Machine.forLanes (fun l s => onCaptions l (fun c => c.testDwell s.pos) s) s) :=
    .forLanes (fun l s => .onCaptions _ _ _ (·.testDwell _)) s
  exact frame.trans (cond _ ((forEach idle _ _).trans ((ofBlock (.clearMarks ..)).trans (ofBlock (tested _)))) (refl _))

theorem listenStep (s : State) : StillStep s (listenStep s) := cond _ same (refl s)

theorem autoOpenUnplanned (s : State) : StillStep s (autoOpenUnplanned s) := by
  refine ofBlock (.forLanes (fun l s => ?_) s)
  split
  · exact .cond _ ((BlockStep.setLaneState ..).trans ((BlockStep.postSelf ..).trans (.setTargetRate ..))) (.refl s)
  · exact .refl s

theorem withdrawnCheck (s : State) : StillStep s (withdrawnCheck s) := cond _ (setMode ..) (refl s)

theorem modeTransition (s : State) : StillStep s (modeTransition s) := by
  unfold Machine.modeTransition
  split
  · split
    · exact refl s
    all_goals exact (setMode ..).trans ((ofBlock (.forLanes BlockStep.laneCloseOp _)).trans (withdrawnCheck _))
  · split
    · exact (setMode ..).trans (autoOpenUnplanned _)
    all_goals exact refl s
  · exact withdrawnCheck s
  all_goals exact refl s

theorem runningWork (s : State) : StillStep s (runningWork s) :=
  cond _ ((ofBlock (.tenancySteps12 _)).trans ((modeTransition _).trans
    ((ofBlock (.alertBoundary _)).trans (ofBlock (.tenancyStep4 _))))) (refl s)

theorem endListening (s : State) : StillStep s (endListening s) :=
  ((setMode ..).trans (ofBlock (.postSelf ..))).trans
    ((cond _ (ofBlock (.autoOpenLanes _)) (refl _)).trans (ofBlock (.judged _)))

theorem sampleMode (lines : ModeLines) (s : State) : StillStep s (sampleMode lines s) := cond _ same (refl s)

theorem cycleWork (lines : ModeLines) (s : State) : StillStep s (cycleWork lines s) := by
  unfold Machine.cycleWork
  split
  · refine (sampleMode lines s).trans (.trans ?_ ((ofBlock (.storeBoundary _)).trans (ofBlock (.statusRecords _))))
    exact cond _ (endListening _) (runningWork _)
  · exact refl s

theorem quietLane (i : LaneId) (s : State) : StillStep s (quietLane i s) := by
  have dropped (s : State) : StillStep s (onUnit i LaneUnit.quiet (s.setTenancy i resetTenancy)) := same
  cases i with
  | svc l =>
    exact (dropped s).trans ((ofBlock (.setSched ..)).trans
      ((ofBlock (.interruptCaptions l _)).trans (ofBlock (.interruptPicture l _))))
  | alert => exact (dropped s).trans (ofBlock (.setSched ..))

theorem quietEntry (s : State) : StillStep s (quietEntry s) := by
  have forget (s : State) : StillStep s (freeReserve (s.setAlerts resetAlerts)) := same
  have listens (s : State) : StillStep s (s.setModeCtl { s.mode with listenCount := 0, cycleSource := none }) := same
  exact ((setMode .quiet s).trans (listens _)).trans ((forget _).trans ((forEach quietLane _ _).trans
    (ofBlock (.forLanes (fun l _ => .statusIfHeld (.svc l) (s.units.get (.svc l)).intake _) _))))

theorem holdoverExhausted (s : State) : StillStep s (holdoverExhausted s) := by
  unfold Machine.holdoverExhausted
  split
  all_goals first | exact quietEntry s | exact refl s

theorem postRegained (was : Timebase) (s : State) : StillStep s (postRegained was s) :=
  cond _ (ofBlock (.postSelf ..)) (refl s)

end StillStep

/-! ### Slots: only the cycle number can change, by adoption while JOINING (R12, R27) -/

/-- From `s` to `t` the Timebase has at most taken another cycle number, and that while JOINING only. -/
structure ClockStep (s t : State) : Prop where
  time : t.time = { s.time with cycle := t.time.cycle }
  cycle : t.time.cycle = s.time.cycle ∨ s.mode.mode = .joining

namespace ClockStep

variable {s t u : State}

theorem ofTime (h : t.time = s.time) : ClockStep s t := ⟨by rw [h], .inl (by rw [h])⟩

theorem refl (s : State) : ClockStep s s := ofTime rfl

theorem ofBlock (h : BlockStep s t) : ClockStep s t := ofTime h.time

theorem cond (c : Prop) [Decidable c] (h : ClockStep s t) (k : ClockStep s u) : ClockStep s (if c then t else u) := by
  split
  · exact h
  · exact k

/-- After operations that leave the Timebase as it is, nothing more has changed. -/
theorem andThen (h : ClockStep s t) (k : u.time = t.time) : ClockStep s u := ⟨by rw [k]; exact h.time, by rw [k]; exact h.cycle⟩

/-- Before it too, where the mode is kept. -/
theorem after (h : t.time = s.time) (mode : t.mode.mode = s.mode.mode) (k : ClockStep t u) : ClockStep s u :=
  ⟨by rw [← h]; exact k.time, by rw [← h, ← mode]; exact k.cycle⟩

theorem afterTrunk {x : Trunk} (k : ClockStep (s.setTrunk x) u) : ClockStep s u := ⟨k.time, k.cycle⟩

theorem storeManifest_time (m : Node) (x : Manifest) (s : State) : (storeManifest m x s).time = s.time := by
  have stored (was : PeerState) (b : Bool) (h : Header) (s : State) : (postStored m was b h s).time = s.time := by
    unfold postStored
    split
    all_goals
      split
      all_goals rfl
  have checked (b : Bool) (s : State) : (checkConflicts m b x s).time = s.time := by
    unfold checkConflicts
    split
    · exact ((BlockStep.forEach (fun _ _ => .conflictCheck ..) _ _).trans
        (.forEach (fun _ _ => .conflictCheck ..) _ _)).time
    · rfl
  exact (BlockStep.headerStored ..).time.trans ((checked ..).trans (stored ..))

theorem passManifest (m : Node) (heard : Option (List Byte)) (s : State) : ClockStep s (passManifest m heard s) := by
  unfold Machine.passManifest
  split
  · exact ofTime (SlotStep.unheardReport m s).time
  · refine cond _ (ofTime (SlotStep.unheardReport m s).time) (andThen ?_ (storeManifest_time ..))
    split
    · rename_i joining
      unfold adoptCycle
      exact cond _ ⟨rfl, .inr joining⟩ (refl s)
    · exact refl s

theorem handOver (m : Node) (heard : Option (List Byte)) (s : State) : ClockStep s (handOver m heard s) := by
  unfold Machine.handOver
  split
  · exact refl s
  · exact refl s
  · exact ofTime (SlotStep.unheardReport m s).time
  · refine cond _ ?_ (passManifest ..)
    split
    · exact ofTime (StillStep.setMode .halted _).time
    · exact refl s
  all_goals exact cond _ (refl s) (passManifest ..)

theorem routeSlot (k : Nat) (tag : Byte) (content : List Byte) (s : State) : ClockStep s (routeSlot k tag content s) := by
  unfold Machine.routeSlot directorySlot payloadSlot
  refine cond _ (afterTrunk (cond _ (handOver ..) (refl _))) (cond _ ?_ (refl s))
  exact ofTime (SlotStep.relayHandOver _ s).time

theorem endSlot (tag : Byte) (content : List Byte) (s : State) : ClockStep s (endSlot tag content s) := by
  unfold Machine.endSlot
  split
  · dsimp only
    split
    · exact ofTime (StillStep.setMode .halted _).time
    · have lost (k : Nat) (d : Option Driver) (s : State) : BlockStep s (reportLoss k d s) := by
        unfold reportLoss
        split
        · exact .cond _ (.lostSlot ..) (.refl s)
        · exact .refl s
      refine afterTrunk (after (lost _ _ _).time (congrArg _ (lost _ _ _).mode) (routeSlot ..))
    · exact afterTrunk (routeSlot ..)
  · exact refl s

end ClockStep

/-! ### The Timebase stays within R5 -/

namespace Timebase.Sound

theorem locked {t : Timebase} (h : t.Sound) : t.locked.Sound := ⟨h.1, h.2.1, h.2.2.1, rfl⟩

/-- A Timebase that counts is sound with any count in the cycle and any cycle number, window or hold. -/
theorem recount {t : Timebase} (h : t.Sound) (run : t.lock ≠ .unset) {count : Nat} (inside : count < Config.cycleMicros)
    (cycle : Cycle) (late : Bool) (hold : Nat) :
    Timebase.Sound { t with localCount := count, cycle := cycle, lateOpen := late, hold := hold } := by
  refine ⟨inside, h.2.1, h.2.2.1, ?_⟩
  have law := h.2.2.2
  cases lock : t.lock <;> simp_all

theorem tick {t : Timebase} (h : t.Sound) : t.tick.Sound := by
  unfold Timebase.tick
  split
  · exact h
  · rename_i run
    have inside := h.1
    simp only [Config.cycleMicros] at inside
    split
    · exact h.recount run h.1 t.cycle t.lateOpen (t.hold - 1)
    · split
      · exact h
      · refine h.recount run ?_ t.cycle t.lateOpen t.hold
        simp only [Config.cycleMicros, Config.slotMicros] at *
        omega

/-- A missed window is the eighth at most, since seven are held at most (R9). -/
theorem miss {t : Timebase} (h : t.Sound) (follows : t.follows = true) :
    Timebase.Sound { t with
      misses := t.misses + 1, lateOpen := false
      lock := if decide (Config.lostMisses ≤ t.misses + 1) then .lost else .holdover
      localCount := max t.localCount t.tolerance } := by
  obtain ⟨inside, low, high, law⟩ := h
  have held : t.misses ≤ 7 := by
    cases lock : t.lock <;> simp_all [Timebase.follows]
  refine ⟨?_, low, high, ?_⟩
  · simp only [Config.cycleMicros] at *
    omega
  · by_cases last : Config.lostMisses ≤ t.misses + 1 <;> simp only [last, decide_true, decide_false, if_true] <;>
      simp [Config.lostMisses] at * <;> omega

end Timebase.Sound

theorem frameIndex_lt {s : State} (h : s.time.Sound) : s.frameIndex < 16 := by
  have := h.1
  simp only [State.frameIndex, Config.cycleMicros, Config.frameMicros] at *
  omega

theorem cycleBoundary_time (lines : ModeLines) (late : Bool) (s : State) :
    (cycleBoundary lines late s).time = s.time.beginCycle (cutSlot s).comingCycle late := by
  have := (StillStep.frameWork s.pos ((cutSlot s).setTime ((cutSlot s).time.beginCycle (cutSlot s).comingCycle late))).trans
    ((StillStep.listenStep _).trans (StillStep.cycleWork lines _))
  exact this.time.trans (by simp)

theorem plainFrameBoundary_time (s : State) : (plainFrameBoundary s).time =
    { s.time with localCount := (s.frameIndex + 1) * Config.frameMicros, hold := 0 } := by
  have := (StillStep.frameWork s.pos ((cutSlot s).setTime { (cutSlot s).time with
    localCount := ((cutSlot s).frameIndex + 1) * Config.frameMicros, hold := 0 })).trans (StillStep.listenStep _)
  exact this.time.trans (by simp [State.frameIndex])

theorem startSlot_time (k : Nat) (s : State) : (startSlot k s).time =
    { s.time with localCount := s.frameIndex * Config.frameMicros + k * Config.slotMicros, hold := 0 } := by
  have copied (s : State) : (takeCopy k s).time = s.time := by unfold takeCopy; split <;> rfl
  have assembled (s : State) : (if k = Config.directorySlots ∧ s.onTrunk then assembleFrame s else s).time = s.time := by
    split
    · exact (BlockStep.assembleFrame _).time
    · rfl
  exact (copied _).trans ((assembled _).trans (by simp [State.frameIndex]))

theorem windowClose_time (s : State) : (windowClose s).time =
    if s.time.follows ∧ s.time.lateOpen then
      { s.time with
        misses := s.time.misses + 1, lateOpen := false
        lock := if decide (Config.lostMisses ≤ s.time.misses + 1) then .lost else .holdover
        localCount := max s.time.localCount s.time.tolerance }
    else s.time := by
  unfold windowClose
  by_cases closes : s.time.follows ∧ s.time.lateOpen
  · rw [if_pos closes, if_pos closes]
    dsimp only
    split
    · exact (StillStep.holdoverExhausted _).time
    · rfl
  · rw [if_neg closes, if_neg closes]

/-! ### The image (R21 to R24) -/

/-- What reading the image's fields leaves alone: lanes, alerts, trunk and modes; of the Timebase it sets the tolerance
only, in R22's range. -/
structure LoadStep (s t : State) : Prop where
  inReset : t.inReset = s.inReset
  tenancy : t.tenancy = s.tenancy
  units : t.units = s.units
  alerts : t.alerts = s.alerts
  trunk : t.trunk = s.trunk
  mode : t.mode.mode = s.mode.mode
  listen : t.mode.listenCount = s.mode.listenCount
  time : t.time = { s.time with tolerance := t.time.tolerance }
  tolerance : 4 ≤ s.time.tolerance ∧ s.time.tolerance ≤ 250 → 4 ≤ t.time.tolerance ∧ t.time.tolerance ≤ 250

namespace LoadStep

variable {s t u : State}

theorem refl (s : State) : LoadStep s s := ⟨rfl, rfl, rfl, rfl, rfl, rfl, rfl, rfl, id⟩

theorem trans (h : LoadStep s t) (k : LoadStep t u) : LoadStep s u where
  inReset := k.inReset.trans h.inReset
  tenancy := k.tenancy.trans h.tenancy
  units := k.units.trans h.units
  alerts := k.alerts.trans h.alerts
  trunk := k.trunk.trans h.trunk
  mode := k.mode.trans h.mode
  listen := k.listen.trans h.listen
  time := by rw [k.time, h.time]
  tolerance := k.tolerance ∘ h.tolerance

theorem post (k : EventKind) (n : Nat) (l : Option LaneId) (a : Nat) (s : State) : LoadStep s (post k n l a s) :=
  { refl s with }

theorem postConfig (l : Option LaneId) (d : Bool) (k : Nat) (s : State) : LoadStep s (postConfig l d k s) := post ..

theorem setContract (s : State) (l : Lane) (c : Option Contract) : LoadStep s (s.setContract l c) := { refl s with }

theorem cond (c : Prop) [Decidable c] (h : LoadStep s t) (k : LoadStep s u) : LoadStep s (if c then t else u) := by
  split
  · exact h
  · exact k

theorem takeClamped (l : Option LaneId) (k lo hi n : Nat) (s : State) : LoadStep s (takeClamped l k lo hi n s).2 :=
  cond _ (refl s) (postConfig ..)

theorem takeRate (l : Option LaneId) (k lo hi n : Nat) (s : State) : LoadStep s (takeRate l k lo hi n s).2 := takeClamped ..

theorem takeOrDefault (l : Option LaneId) (k lo hi d n : Nat) (s : State) : LoadStep s (takeOrDefault l k lo hi d n s).2 := by
  unfold Machine.takeOrDefault
  split
  · exact refl s
  · exact takeClamped ..

theorem disableLane (l : Lane) (k : Nat) (s : State) : LoadStep s (disableLane l k s) :=
  (postConfig ..).trans (setContract ..)

theorem takeRates (l : Lane) (c : List Byte) (s : State) : LoadStep s (takeRates l c s) := by
  have rates := ((takeRate (some (.svc l)) 3 8 384 (get16 c 13) s).trans (takeRate (some (.svc l)) 4 8 384 (get16 c 15) _)).trans
    (takeRate (some (.svc l)) 5 8 384 (get16 c 17) _)
  exact rates.trans (cond _ (((takeClamped (some (.svc l)) 7 0 512 (get16 c 19) _).trans
    (takeClamped (some (.svc l)) 8 1 255 (byteAt c 23) _)).trans (setContract ..)) (disableLane ..))

theorem takeContract (l : Lane) (c : List Byte) (s : State) : LoadStep s (takeContract l c s) :=
  cond _ (setContract ..) (cond _ (disableLane ..) (cond _ (disableLane ..) (takeRates ..)))

theorem tolerance_bounds (n : Nat) (s : State) :
    4 ≤ (Machine.takeOrDefault none 16 4 250 20 n s).1 ∧ (Machine.takeOrDefault none 16 4 250 20 n s).1 ≤ 250 := by
  unfold Machine.takeOrDefault Machine.takeClamped clampTo
  split
  · exact ⟨show 4 ≤ 20 by decide, show 20 ≤ 250 by decide⟩
  · exact ⟨Nat.le_max_left _ _, by omega⟩

theorem takeNodeFields (image : List Byte) (s : State) : LoadStep s (takeNodeFields image s) := by
  have node (n : Node) : LoadStep s (s.setModeCtl { s.mode with node := n }) := { refl s with }
  have window (n : Nat) (s : State) : LoadStep s ((Machine.takeOrDefault none 16 4 250 20 n s).2.setTime
      { (Machine.takeOrDefault none 16 4 250 20 n s).2.time with
        tolerance := (Machine.takeOrDefault none 16 4 250 20 n s).1 }) :=
    (takeOrDefault none 16 4 250 20 n s).trans { refl _ with time := rfl, tolerance := fun _ => tolerance_bounds n s }
  have config (s : State) (c : NodeConfig) : LoadStep s (s.setConfig c) := { refl s with }
  exact (node _).trans ((window (byteAt image 7) _).trans ((takeClamped (some .alert) 17 4 32 (byteAt image 8) _).trans
    ((cond _ (refl _) (postConfig (some .alert) true 18 _)).trans ((takeRate (some .alert) 19 16 192 (get16 image 10) _).trans
      ((takeOrDefault (some .alert) 20 16 4095 2812 (get16 image 12) _).trans
        ((takeOrDefault (some .alert) 21 16 4095 938 (get16 image 14) _).trans
          ((takeOrDefault (some .alert) 22 16 4095 469 (get16 image 16) _).trans (config _ _))))))))

end LoadStep

/-- The end of the image's read: its fields are taken, and the node enters JOINING, or for a bad one HALTED. -/
theorem finishLoad_cases (image : List Byte) (s : State) : ∃ t, LoadStep s t ∧
    (finishLoad image s = setMode .halted t ∨ finishLoad image s = enterJoining t) := by
  have pins (b : Bool) : LoadStep s (s.setPins s.inReset b) := { LoadStep.refl s with }
  unfold finishLoad
  dsimp only
  split
  · exact ⟨_, (pins _).trans (.post ..), .inl rfl⟩
  · exact ⟨_, (pins _).trans ((LoadStep.takeNodeFields ..).trans
      ((LoadStep.takeContract ..).trans ((LoadStep.takeContract ..).trans (.takeContract ..)))), .inr rfl⟩

/-- At the entry to JOINING the ports begin to hunt and the listening begins; the rest is the change of mode. -/
theorem enterJoining_eq (s : State) : ∃ ports, enterJoining s =
    { setMode .joining s with
      mode := { (setMode .joining s).mode with listenCount := 0, cycleSource := none }, ports := ports } :=
  ⟨_, rfl⟩

theorem finishLoad_time (image : List Byte) (s : State) (h : s.time.Sound) : (finishLoad image s).time.Sound := by
  obtain ⟨t, step, run⟩ := finishLoad_cases image s
  have same : (finishLoad image s).time = t.time := by
    rcases run with run | run <;> rw [run]
    · exact (StillStep.setMode .halted t).time
    · obtain ⟨ports, joins⟩ := enterJoining_eq t
      rw [joins]
      exact (StillStep.setMode .joining t).time
  obtain ⟨low, high⟩ := step.tolerance ⟨h.2.1, h.2.2.1⟩
  rw [same, step.time]
  exact ⟨h.1, low, high, h.2.2.2⟩

/-! ### Pulses (R8, R11) -/

/-- The coming cycle's number is read off the Timebase and the Mode Controller. -/
theorem comingCycle_congr {s t : State} (time : t.time = s.time) (mode : t.mode = s.mode) :
    t.comingCycle = s.comingCycle := by simp only [State.comingCycle, time, mode]

theorem earlyPulse_time (arrival : Nat) (lines : ModeLines) (s : State) : (earlyPulse arrival lines s).time =
    ⟨0, if s.mode.mode = .joining ∧ s.mode.cycleSource = none ∧ Config.listenFrames ≤ s.mode.listenCount + 1 then 0
      else s.time.cycle + 1, .locked, 0, s.time.tolerance, false, 0⟩ := by
  have regained (was : Timebase) (s : State) : (postRegained was s).time = s.time ∧ (postRegained was s).mode = s.mode := by
    unfold postRegained
    split
    · exact ⟨rfl, rfl⟩
    · exact ⟨rfl, rfl⟩
  unfold earlyPulse
  rw [cycleBoundary_time, comingCycle_congr (cutSlot_time _) (cutSlot_mode _)]
  simp [State.comingCycle, regained, Timebase.locked, Timebase.beginCycle]

theorem latePulse_time (arrival : Nat) (s : State) : (latePulse arrival s).time =
    { s.time.locked with localCount := arrival, hold := arrival } := (StillStep.postRegained _ _).time

theorem firstPulse_time (lines : ModeLines) (s : State) :
    (firstPulse lines s).time = s.time.locked.beginCycle s.time.cycle false := by
  refine (StillStep.cycleWork lines _).time.trans ((StillStep.frameWork s.pos _).time.trans ?_)
  simp

theorem realignPulse_time (lines : ModeLines) (s : State) :
    (realignPulse lines s).time = s.time.locked.beginCycle (s.time.cycle + 1) false := by
  refine (StillStep.cycleWork lines _).time.trans ((StillStep.setMode .joining _).time.trans
    ((StillStep.frameWork s.pos _).time.trans ?_))
  simp

/-! ### Every step keeps the Timebase -/

theorem pulse_sound {s : State} (arrival : Nat) (lines : ModeLines) (h : s.time.Sound) :
    (pulse arrival lines s).time.Sound := by
  have begun (cycle : Cycle) : (s.time.locked.beginCycle cycle false).Sound :=
    h.locked.recount (by simp [Timebase.locked]) (by decide) cycle false 0
  have follows : (if Config.cycleMicros - s.time.tolerance ≤ arrival then earlyPulse arrival lines s
      else if arrival ≤ s.time.tolerance ∧ s.time.lateOpen then latePulse arrival s else s).time.Sound := by
    split
    · rw [earlyPulse_time]
      exact begun _
    · split
      · rename_i late
        rw [latePulse_time]
        refine h.locked.recount (by simp [Timebase.locked]) ?_ s.time.cycle false arrival
        have := h.2.2.1
        have := late.1
        simp only [Config.cycleMicros]
        omega
      · exact h
  unfold pulse
  split
  · split
    · rw [firstPulse_time]; exact begun _
    · exact h
  · split
    · rw [realignPulse_time]; exact begun _
    · exact h
  all_goals exact follows

theorem cycleBoundary_sound {s : State} (lines : ModeLines) (late : Bool) (h : s.time.Sound) (run : s.time.lock ≠ .unset) :
    (cycleBoundary lines late s).time.Sound := by
  rw [cycleBoundary_time]
  exact h.recount run (by decide) _ _ _

theorem frameBoundary_sound {s : State} (lines : ModeLines) (h : s.time.Sound) (run : s.time.lock ≠ .unset) :
    (frameBoundary lines s).time.Sound := by
  unfold frameBoundary
  split
  · rename_i inside
    rw [plainFrameBoundary_time]
    refine h.recount run ?_ s.time.cycle s.time.lateOpen 0
    simp only [Config.cycleMicros, Config.frameMicros]
    omega
  · exact cycleBoundary_sound lines _ h run

theorem startSlot_sound {s : State} {k : Nat} (h : s.time.Sound) (run : s.time.lock ≠ .unset) (slot : k < Config.slotsPerFrame) :
    (startSlot k s).time.Sound := by
  rw [startSlot_time]
  refine h.recount run ?_ s.time.cycle s.time.lateOpen 0
  have := frameIndex_lt h
  simp only [Config.cycleMicros, Config.frameMicros, Config.slotMicros, Config.slotsPerFrame] at *
  omega

theorem endSlot_sound {s : State} (tag : Byte) (content : List Byte) (h : s.time.Sound) (run : s.time.lock ≠ .unset) :
    (endSlot tag content s).time.Sound := by
  rw [(ClockStep.endSlot tag content s).time]
  exact h.recount run h.1 _ s.time.lateOpen s.time.hold

theorem windowClose_sound {s : State} (h : s.time.Sound) : (windowClose s).time.Sound := by
  rw [windowClose_time]
  split
  · rename_i closes
    exact h.miss closes.1
  · exact h

theorem counting_lock {s : State} (h : s.counting = true) : s.time.lock ≠ .unset := by
  simp only [State.counting, Bool.and_eq_true, bne_iff_ne] at h
  exact h.2

theorem exec_keepsTimebase {c : Instr} {s t : State} (h : s.time.Sound) (run : exec c s = .next t) : t.time.Sound := by
  by_cases moves : Instr.moves c
  · cases c with
    | refpulse => cases run; split; exacts [h, pulse_sound _ _ h]
    | toleranceWindowClose => cases run; split; exacts [windowClose_sound h, h]
    | refLost => cases run; split; exacts [windowClose_sound h, h]
    | frameBoundary => cases run; split; exacts [frameBoundary_sound _ h (counting_lock ‹_›), h]
    | cycleBoundary => cases run; split; exacts [cycleBoundary_sound _ _ h (counting_lock ‹_›), h]
    | listenPeriodEnd =>
      cases run; split
      · rename_i due
        simp only [Bool.and_eq_true] at due
        exact cycleBoundary_sound _ _ h (counting_lock due.1.1)
      · exact h
    | slotStart =>
      cases run; split
      · rename_i due
        simp only [Bool.and_eq_true, decide_eq_true_eq] at due
        exact startSlot_sound h (counting_lock due.1) due.2
      · exact h
    | slotEnd => cases run; split; exacts [endSlot_sound _ _ h (counting_lock ‹_›), h]
    | peerSilent => cases run; split; exacts [(SlotStep.unheardReport _ s).time.symm ▸ h, h]
    | peerLost => cases run; split; exacts [(SlotStep.unheardReport _ s).time.symm ▸ h, h]
    | _ => simp [Instr.moves] at moves
  · by_cases restarts : Instr.restarts c
    · cases c with
      | resetAssert => cases run; exact resetIsSound.1
      | resetRelease => cases run; exact resetIsSound.1
      | configReadDone => cases run; split; exacts [finishLoad_time _ _ h, h]
      | _ => simp [Instr.restarts] at restarts
    · rw [(exec_calm (by simpa using moves) (by simpa using restarts) run).time]
      exact h

/-- Settles O55: a command by its kind, and a microsecond by `Timebase.tick`. -/
theorem stepKeepsTimebase : Obligations.StepKeepsTimebase := by
  intro s t sound run
  unfold step at run
  split at run
  next =>
    cases run
    unfold tick
    split
    · exact sound
    · exact Timebase.Sound.tick sound
  next c rest _ => exact exec_keepsTimebase (s := s.setQueue rest) sound run

end Sys2Proof.Machine
end

