-- ==== Sys2Proof/Proofs/Pulses.lean ====
section
/-! SUPPORT. What an event posted adds to the queue; the reference pulses and the tolerance windows (R7 to R11), and the entry
to QUIET (R33). -/

namespace Sys2Proof.Machine

/-! ### Events posted -/

/-- A record offered to a queue with room joins its tail. -/
theorem post_queue {s : State} (room : s.Room 1) (k : EventKind) (n : Nat) (l : Option LaneId) (a : Nat) :
    (post k n l a s).events.queue = s.events.queue ++ [eventRecord k n l a s] := by
  simp [post, EventOut.offer, show s.events.queue.length < Config.eventRecords from room]

theorem post_posted {s : State} (room : s.Room 1) (k : EventKind) (n : Nat) (l : Option LaneId) (a : Nat) :
    Posted s (post k n l a s) [(k, n, l, a)] := by
  simp [Posted, post_queue room, eventRecord, EventRecord.says]

theorem Posted.trans {s t u : State} {es fs : List (EventKind × Nat × Option LaneId × Nat)} (h : Posted s t es)
    (k : Posted t u fs) : Posted s u (es ++ fs) := by
  unfold Posted at *
  rw [k, h, List.append_assoc]

theorem Posted.of_queue {s t : State} (h : t.events.queue = s.events.queue) : Posted s t [] := by simp [Posted, h]

/-- What was posted first stays first. -/
theorem PostedFirst.of_prefix {s t u : State} {es : List (EventKind × Nat × Option LaneId × Nat)} (h : Posted s t es)
    (k : t.events.queue <+: u.events.queue) : PostedFirst s u es := by
  obtain ⟨more, e⟩ := k
  exact ⟨more.map EventRecord.says, by unfold Posted at *; rw [← e, List.map_append, h, List.append_assoc]⟩

/-! ### Pulses discarded, and the late half of a window (R7 to R10) -/

/-- Settles O8: in each case of R10 no branch of `pulse` is taken that does anything. -/
theorem strayPulsesAreDiscarded : Obligations.StrayPulsesAreDiscarded := by
  intro arrival lines s off stray
  have outside : pulse arrival lines s = s := by
    rcases stray with ⟨lock, early, late⟩ | ⟨lock, mode⟩ | ⟨lock, mode⟩
    · have noEarly : ¬ Config.cycleMicros - s.time.tolerance ≤ arrival := Nat.not_le.mpr early
      have noLate : ¬ (arrival ≤ s.time.tolerance ∧ s.time.lateOpen = true) := by
        rintro ⟨within, isOpen⟩
        rcases late with late | late
        · omega
        · simp [late] at isOpen
      rcases lock with lock | lock <;> simp only [pulse, lock, if_neg noEarly, if_neg noLate]
    · simp [pulse, lock, mode]
    · rcases mode with mode | mode <;> simp [pulse, lock, mode]
  show Host.Outcome.next (if s.inReset then s else pulse arrival lines s) = _
  rw [off, outside]
  rfl

theorem counting_of {s : State} (on : s.inReset = false) (lock : s.time.lock ≠ .unset) : s.counting = true := by
  simp [State.counting, on, lock]

theorem unset_ne_of_follows {s : State} (h : s.time.lock = .locked ∨ s.time.lock = .holdover) : s.time.lock ≠ .unset := by
  rcases h with h | h <;> simp [h]

/-- A pulse in the late half of an open window is taken as one (R8). -/
theorem exec_refpulse_late {s : State} {arrival : Nat} {lines : ModeLines} (on : s.inReset = false)
    (lock : s.time.lock = .locked ∨ s.time.lock = .holdover) (sound : s.time.Sound) (isOpen : s.time.lateOpen = true)
    (within : arrival ≤ s.time.tolerance) : exec (.refpulse arrival lines) s = .next (latePulse arrival s) := by
  have noEarly : ¬ Config.cycleMicros - s.time.tolerance ≤ arrival := by
    have := sound.2.2.1
    simp only [Config.cycleMicros]
    omega
  show Host.Outcome.next (if s.inReset then s else pulse arrival lines s) = _
  rcases lock with lock | lock <;> simp [on, pulse, lock, noEarly, within, isOpen]

theorem exec_windowClose {s : State} (on : s.inReset = false) (lock : s.time.lock = .locked ∨ s.time.lock = .holdover) :
    exec .toleranceWindowClose s = .next (windowClose s) := by
  show Host.Outcome.next (if s.counting then windowClose s else s) = _
  rw [counting_of on (unset_ne_of_follows lock)]
  rfl

theorem follows_iff {t : Timebase} : t.follows = true ↔ t.lock = .locked ∨ t.lock = .holdover := by
  simp [Timebase.follows]

/-- Settles O9: the late pulse, and the window that closes before the eighth miss. -/
theorem windowHitLateOrMissed : Obligations.WindowHitLateOrMissed := by
  intro s on lock sound isOpen
  refine ⟨fun arrival lines within => ?_, fun few => ?_⟩
  · rw [exec_refpulse_late on lock sound isOpen within]
    have frame : arrival / 80000 = 0 := Nat.div_eq_of_lt (by have := sound.2.2.1; omega)
    by_cases held : s.time.lock = .holdover
    · simp [latePulse, postRegained, held, postSelf, post, eventRecord, State.frameIndex, State.node, Config.frameMicros,
        Timebase.locked, State.setTime, State.setEvents, frame]
    · simp [latePulse, postRegained, held, Timebase.locked, State.setTime]
  · rw [exec_windowClose on lock]
    have notLast : ¬ Config.lostMisses ≤ s.time.misses + 1 := by simp only [Config.lostMisses]; omega
    simp [windowClose, follows_iff.mpr lock, isOpen, notLast, postSelf, post, eventRecord, State.frameIndex, State.node,
      Config.frameMicros, State.setTime, State.setEvents]

/-! ### An early pulse (R8) -/

theorem exec_refpulse_early {s : State} {arrival : Nat} {lines : ModeLines} (on : s.inReset = false)
    (lock : s.time.lock = .locked ∨ s.time.lock = .holdover) (early : 1280000 - s.time.tolerance ≤ arrival) :
    exec (.refpulse arrival lines) s = .next (earlyPulse arrival lines s) := by
  have early : Config.cycleMicros - s.time.tolerance ≤ arrival := early
  show Host.Outcome.next (if s.inReset then s else pulse arrival lines s) = _
  rcases lock with lock | lock <;> simp [on, pulse, lock, early]

/-- A payload cell outside the relay cell set is cut without a trace but in the Trunk Interface (R8, R18). -/
theorem cutSlot_payload {s : State} (k : 25 ≤ s.trunk.slotsBegun) (outside : (s.trunk.slotsBegun - 25) ∉ s.trunk.relaySet)
    (inProgress : s.trunk.inProgress = true) :
    cutSlot s = s.setTrunk { s.trunk with inProgress := false, slotState := .cut, driver := none } := by
  have far : ¬ s.trunk.slotsBegun - 1 < Config.directorySlots := by simp only [Config.directorySlots]; omega
  have cell : s.trunk.slotsBegun - 1 - Config.directorySlots = s.trunk.slotsBegun - 25 := by
    simp only [Config.directorySlots]; omega
  simp [cutSlot, inProgress, far, cell, outside]

/-- What a cycle boundary posts comes behind what was queued, once no slot is in progress. -/
theorem cycleBoundary_queue {s : State} (lines : ModeLines) (late : Bool) (idle : s.trunk.inProgress = false) :
    s.events.queue <+: (cycleBoundary lines late s).events.queue := by
  have := (StillStep.frameWork s.pos (s.setTime (s.time.beginCycle s.comingCycle late))).trans
    ((StillStep.listenStep _).trans (StillStep.cycleWork lines _))
  have queue := this.queue
  rw [← cutSlot_idle idle] at queue
  simpa [cycleBoundary, cutSlot_idle idle] using queue

/-- Settles O10: the cycle number of `earlyPulse_time`, and the event posted before the boundary's. -/
theorem earlyPulseBeginsCycle : Obligations.EarlyPulseBeginsCycle := by
  intro arrival lines s on lock early
  have run := exec_refpulse_early (lines := lines) on lock early
  have node := exec_moves (c := .refpulse arrival lines) rfl run
  refine ⟨_, run, ?_, fun held room cell => ?_, node.config, node.contracts, node.ports, node.pending⟩
  · rw [earlyPulse_time]
    simp [Config.listenFrames, and_assoc]
  · set moved := s.setTime { s.time with localCount := min arrival (Config.cycleMicros - 1) } with hmoved
    have cutEvents : (cutSlot moved).events = s.events := by
      cases inProgress : s.trunk.inProgress with
      | false => rw [cutSlot_idle (s := moved) inProgress]; rfl
      | true =>
        obtain ⟨far, outside⟩ := cell.resolve_left (by simp [inProgress])
        rw [cutSlot_payload (s := moved) far outside inProgress]; rfl
    set locked := (cutSlot moved).setTime (cutSlot moved).time.locked with hlocked
    have room' : locked.Room 1 := by simpa [State.Room, hlocked, cutEvents] using room
    have posted := post_posted room' .refRegained s.mode.node.val none s.time.misses
    have same : earlyPulse arrival lines s =
        cycleBoundary lines false (post .refRegained s.mode.node.val none s.time.misses locked) := by
      simp [earlyPulse, postRegained, held, postSelf, State.node, hlocked, hmoved]
    rw [same]
    refine PostedFirst.of_prefix ?_ (cycleBoundary_queue lines false (by simp [hlocked, post]))
    simpa [Posted, hlocked, cutEvents] using posted

/-! ### The phase set outright (R11) -/

/-- What frame work leaves of the Mode Controller, and off the trunk of the events. -/
theorem frameWork_mode (p : FramePos) (s : State) : (frameWork p s).mode = s.mode := by
  have frame : (trunkFrame s).mode = s.mode := (BlockStep.relayLeftover s).mode
  have idle : ∀ (xs : List LaneId) (s : State),
      (forEach xs (onUnit · (fun u => { u with assembled := none })) s).mode = s.mode := by
    intro xs
    induction xs with
    | nil => exact fun _ => rfl
    | cons x xs ih => exact fun s => (ih _).trans rfl
  have tested (s : State) : BlockStep s (forLanes (fun l s => onCaptions l (fun c => c.testDwell s.pos) s) s) :=
    .forLanes (fun l s => .onCaptions _ _ _ (·.testDwell _)) s
  unfold frameWork
  dsimp only
  split
  · exact ((tested _).trans (.refl _)).mode.trans ((BlockStep.clearMarks ..).mode.trans ((idle _ _).trans frame))
  · exact frame

theorem forEach_events {α : Type} {f : α → State → State} (h : ∀ x s, (f x s).events = s.events) (xs : List α) (s : State) :
    (forEach xs f s).events = s.events := by
  induction xs generalizing s with
  | nil => rfl
  | cons x xs ih => exact (ih (f x s)).trans (h x s)

/-- Frame work posts what the end of the old frame's relay posts, and nothing else. -/
theorem frameWork_events (p : FramePos) (s : State) : (frameWork p s).events = (relayLeftover s).events := by
  have tested (s : State) : (forLanes (fun l s => onCaptions l (fun c => c.testDwell s.pos) s) s).events = s.events := rfl
  have cleared (s : State) : (clearMarks p s).events = s.events := by
    refine forEach_events (fun _ _ => ?_) _ _
    rfl
  have idle (s : State) : (forEach allLanes (onUnit · (fun u => { u with assembled := none })) s).events = s.events := by
    refine forEach_events (fun _ _ => ?_) _ _
    rfl
  unfold frameWork
  dsimp only
  split
  · rw [tested, cleared, idle]; rfl
  · rfl

theorem relayLeftover_off {s : State} (off : s.onTrunk = false) : relayLeftover s = s := by simp [relayLeftover, off]

theorem onTrunk_of_mode {s : State} (h : s.mode.mode.onTrunk = false) : s.onTrunk = false := by simp [State.onTrunk, h]

/-- While JOINING, before the listen period ends, a cycle boundary samples the MODE lines, and steps the store and the
return lines. -/
theorem cycleWork_listening {s : State} (lines : ModeLines) (on : s.inReset = false) (joining : s.mode.mode = .joining)
    (listening : s.mode.listenCount ≠ Config.listenFrames) :
    cycleWork lines s = statusRecords (storeBoundary
      (s.setModeCtl { s.mode with request := sampled lines s.mode.request })) := by
  simp [cycleWork, State.live, on, joining, Mode.takesRecords, sampleMode, listening, runningWork, State.onTrunk, Mode.onTrunk]

theorem cycleWork_listening_block {s : State} (lines : ModeLines) (on : s.inReset = false) (joining : s.mode.mode = .joining)
    (listening : s.mode.listenCount ≠ Config.listenFrames) :
    BlockStep (s.setModeCtl { s.mode with request := sampled lines s.mode.request }) (cycleWork lines s) := by
  rw [cycleWork_listening lines on joining listening]
  exact (BlockStep.storeBoundary _).trans (BlockStep.statusRecords _)

/-- Settles O11: either pulse leaves a node JOINING at the head of its listen period, whose boundary work is the store's. -/
theorem phaseSetOutright : Obligations.PhaseSetOutright := by
  intro arrival lines s on sound idle lock
  have fresh : (0 : Nat) ≠ Config.listenFrames := by decide
  rcases lock with ⟨lock, mode⟩ | ⟨lock, mode⟩
  · have run : exec (.refpulse arrival lines) s = .next (firstPulse lines s) := by
      show Host.Outcome.next (if s.inReset then s else pulse arrival lines s) = _
      simp [on, pulse, lock, mode]
    have node := exec_moves (c := .refpulse arrival lines) rfl run
    have zero : s.time.cycle = 0 := by have := sound.2.2.2; rw [lock] at this; exact this.2.2
    set framed := frameWork s.pos (s.setTime (s.time.locked.beginCycle s.time.cycle false)) with hframed
    have framedMode : framed.mode = s.mode := frameWork_mode ..
    have framedOn : framed.inReset = false := (NodeStep.frameWork ..).inReset.trans on
    have work := cycleWork_listening_block (s := framed.setModeCtl { framed.mode with listenCount := 0, cycleSource := none })
      lines framedOn (by simp [framedMode, mode]) fresh
    have same : firstPulse lines s =
        takeRelaySet (cycleWork lines (framed.setModeCtl { framed.mode with listenCount := 0, cycleSource := none })) := by
      simp [firstPulse, cutSlot_idle idle, hframed]
    have modes : (firstPulse lines s).mode =
        { s.mode with request := sampled lines s.mode.request, listenCount := 0, cycleSource := none } := by
      rw [same, takeRelaySet_mode, work.mode]
      simp [framedMode]
    refine ⟨_, run, ?_, ?_, ?_, ?_, ?_, ?_, ?_, node.config, node.contracts, ?_, node.ports, node.pending⟩
    · rw [firstPulse_time, lock, zero]; rfl
    · rw [modes]; exact mode
    · rw [modes]
    · rw [modes]
    · rw [modes]
    · simp [lock]
    · simp [lock]
    · rw [same]
      exact work.peers.trans (StillStep.frameWork ..).peers
  · have run : exec (.refpulse arrival lines) s = .next (realignPulse lines s) := by
      show Host.Outcome.next (if s.inReset then s else pulse arrival lines s) = _
      simp [on, pulse, lock, mode]
    have node := exec_moves (c := .refpulse arrival lines) rfl run
    set framed := frameWork s.pos (s.setTime (s.time.locked.beginCycle (s.time.cycle + 1) false)) with hframed
    have framedMode : framed.mode = s.mode := frameWork_mode ..
    have framedOn : framed.inReset = false := (NodeStep.frameWork ..).inReset.trans on
    have framedEvents : framed.events = s.events := by
      rw [hframed, frameWork_events, relayLeftover_off (onTrunk_of_mode (by simp [mode, Mode.onTrunk]))]
      rfl
    set joined := setMode .joining (postSelf .refRegained none Config.lostMisses framed) with hjoined
    have joinedMode : joined.mode = { s.mode with mode := .joining } := by
      simp [hjoined, setMode, Mode.onTrunk, postSelf, post, framedMode]
    have joinedEvents : joined.events =
        { (postSelf .refRegained none Config.lostMisses framed).events with nfault := false } := by
      simp [hjoined, setMode, Mode.onTrunk, Mode.faulty]
    have joinedOn : joined.inReset = false := (NodeStep.setMode ..).inReset.trans framedOn
    have work := cycleWork_listening_block (s := joined.setModeCtl { joined.mode with listenCount := 0, cycleSource := none })
      lines joinedOn (by simp [joinedMode]) fresh
    have same : realignPulse lines s =
        takeRelaySet (cycleWork lines (joined.setModeCtl { joined.mode with listenCount := 0, cycleSource := none })) := by
      simp [realignPulse, cutSlot_idle idle, hframed, hjoined]
    have modes : (realignPulse lines s).mode = { s.mode with
        mode := .joining, request := sampled lines s.mode.request, listenCount := 0, cycleSource := none } := by
      rw [same, takeRelaySet_mode, work.mode]
      simp [joinedMode]
    refine ⟨_, run, ?_, ?_, ?_, ?_, ?_, ?_, ?_, node.config, node.contracts, ?_, node.ports, node.pending⟩
    · rw [realignPulse_time, lock]; rfl
    · rw [modes]
    · rw [modes]
    · rw [modes]
    · rw [modes]
    · intro _
      rw [same, takeRelaySet_events, work.nfault]
      simp [joinedEvents]
    · intro _ room
      rw [same]
      have posted := post_posted (s := framed) (by simpa [State.Room, framedEvents] using room)
        .refRegained s.mode.node.val none Config.lostMisses
      refine PostedFirst.of_prefix (t := joined) ?_ work.queue
      simpa [Posted, joinedEvents, framedEvents, postSelf, State.node, framedMode, Config.lostMisses] using posted
    · rw [same]
      refine work.peers.trans ?_
      exact (StillStep.setMode .joining _).peers.trans (StillStep.frameWork ..).peers

/-! ### The eighth miss, and the entry to QUIET (R9, R33) -/

@[simp] theorem interruptPicture_tenancy (l : Lane) (s : State) : (interruptPicture l s).tenancy = s.tenancy := by
  unfold interruptPicture; dsimp only; split <;> [rfl; split <;> rfl]
@[simp] theorem interruptPicture_units (l : Lane) (s : State) : (interruptPicture l s).units = s.units := by
  unfold interruptPicture; dsimp only; split <;> [rfl; split <;> rfl]
@[simp] theorem interruptPicture_scheds (l : Lane) (s : State) : (interruptPicture l s).scheds = s.scheds := by
  unfold interruptPicture; dsimp only; split <;> [rfl; split <;> rfl]

/-- An interruption removes an object or leaves it with its owner. -/
theorem interruptPicture_owners (l : Lane) (s : State) :
    ∀ o ∈ (interruptPicture l s).store.objects, ∃ p ∈ s.store.objects, p.owner = o.owner := by
  have ready (id : Byte) (o : Obj) (mem : o ∈ (updateObj (.svc l) id (fun x => { x with state := .ready }) s).store.objects) :
      ∃ p ∈ s.store.objects, p.owner = o.owner := by
    simp only [updateObj, State.setObjects, State.setStore_store, List.mem_map] at mem
    obtain ⟨p, mem, rfl⟩ := mem
    refine ⟨p, mem, ?_⟩
    split <;> rfl
  intro o mem
  unfold interruptPicture at mem
  split at mem
  · exact ⟨o, mem, rfl⟩
  · rename_i onAir _
    dsimp only at mem
    split at mem
    · exact ready onAir.id o (List.mem_of_mem_filter mem)
    · exact ready onAir.id o mem

/-- What the entry to QUIET does to a lane (R55, R79, R99). -/
structure QuietedLane (i : LaneId) (s t : State) : Prop where
  tenancy : t.tenancy = s.tenancy.set i resetTenancy
  units : t.units = s.units.set i resetUnit
  scheds : t.scheds = s.scheds.set i { s.scheds.get i with caption := none, picture := none }
  alerts : t.alerts = s.alerts
  mode : t.mode = s.mode
  trunk : t.trunk = s.trunk
  nfault : t.events.nfault = s.events.nfault
  owners : ∀ o ∈ t.store.objects, ∃ p ∈ s.store.objects, p.owner = o.owner

theorem quietLane_spec (i : LaneId) (s : State) : QuietedLane i s (quietLane i s) := by
  cases i with
  | alert => exact ⟨rfl, rfl, rfl, rfl, rfl, rfl, rfl, fun o mem => ⟨o, mem, rfl⟩⟩
  | svc l =>
    simp only [quietLane]
    generalize stripped : State.setSched _ _ _ = u
    have block := (BlockStep.interruptCaptions l u).trans (BlockStep.interruptPicture l _)
    subst stripped
    refine ⟨?_, ?_, ?_, ?_, block.mode, block.trunk, block.nfault, interruptPicture_owners l _⟩
    · rw [interruptPicture_tenancy]; rfl
    · rw [interruptPicture_units]; rfl
    · rw [interruptPicture_scheds]; rfl
    · rw [interruptPicture_alerts]; rfl

/-- The lanes quieted, one after another. -/
structure QuietedLanes (s t : State) : Prop where
  tenancy : ∀ i, t.tenancy.get i = resetTenancy
  units : ∀ i, t.units.get i = resetUnit
  scheds : ∀ i, t.scheds.get i = { s.scheds.get i with caption := none, picture := none }
  alerts : t.alerts = s.alerts
  mode : t.mode = s.mode
  trunk : t.trunk = s.trunk
  nfault : t.events.nfault = s.events.nfault
  owners : ∀ o ∈ t.store.objects, ∃ p ∈ s.store.objects, p.owner = o.owner

theorem quietLanes_spec (s : State) : QuietedLanes s (forEach allLanes quietLane s) := by
  have a := quietLane_spec (.svc .l0) s
  have b := quietLane_spec (.svc .l1) (quietLane (.svc .l0) s)
  have c := quietLane_spec (.svc .l2) (quietLane (.svc .l1) (quietLane (.svc .l0) s))
  have d := quietLane_spec .alert (quietLane (.svc .l2) (quietLane (.svc .l1) (quietLane (.svc .l0) s)))
  show QuietedLanes s (quietLane .alert (quietLane (.svc .l2) (quietLane (.svc .l1) (quietLane (.svc .l0) s))))
  refine ⟨fun i => ?_, fun i => ?_, fun i => ?_, ?_, ?_, ?_, ?_, fun o mem => ?_⟩
  · rw [d.tenancy, c.tenancy, b.tenancy, a.tenancy]
    rcases i with (_ | _ | _) | _ <;> rfl
  · rw [d.units, c.units, b.units, a.units]
    rcases i with (_ | _ | _) | _ <;> rfl
  · rw [d.scheds, c.scheds, b.scheds, a.scheds]
    rcases i with (_ | _ | _) | _ <;> rfl
  · rw [d.alerts, c.alerts, b.alerts, a.alerts]
  · rw [d.mode, c.mode, b.mode, a.mode]
  · rw [d.trunk, c.trunk, b.trunk, a.trunk]
  · rw [d.nfault, c.nfault, b.nfault, a.nfault]
  · obtain ⟨p, mem, own⟩ := d.owners o mem
    obtain ⟨q, mem, own'⟩ := c.owners p mem
    obtain ⟨r, mem, own''⟩ := b.owners q mem
    obtain ⟨x, mem, own'''⟩ := a.owners r mem
    exact ⟨x, mem, own'''.trans (own''.trans (own'.trans own))⟩

/-- What the return of held intakes to ACCEPTING at QUIET entry touches: return lines only. -/
theorem statusIfHeld_eq (i : LaneId) (x : Intake) (s : State) : ∃ lines, statusIfHeld i x s = { s with returnLines := lines } := by
  unfold statusIfHeld
  split
  · unfold makeStatus
    split
    · exact ⟨_, rfl⟩
    · exact ⟨s.returnLines, rfl⟩
  · exact ⟨s.returnLines, rfl⟩

theorem statusesIfHeld_eq (was : Quad LaneUnit) (s : State) : ∃ lines,
    forLanes (fun l => statusIfHeld (.svc l) (was.get (.svc l)).intake) s = { s with returnLines := lines } := by
  obtain ⟨a, ha⟩ := statusIfHeld_eq (.svc .l0) (was.get (.svc .l0)).intake s
  obtain ⟨b, hb⟩ := statusIfHeld_eq (.svc .l1) (was.get (.svc .l1)).intake { s with returnLines := a }
  obtain ⟨c, hc⟩ := statusIfHeld_eq (.svc .l2) (was.get (.svc .l2)).intake { s with returnLines := b }
  exact ⟨c, by simp only [forLanes, ha, hb, hc]⟩

/-- The node in QUIET (R33): lanes, alerts and reserve as after reset, NFAULT asserted, no slot driven. -/
structure Quieted (s t : State) : Prop where
  mode : t.mode = { s.mode with mode := .quiet, listenCount := 0, cycleSource := none }
  nfault : t.events.nfault = true
  slot : t.trunk.slotState ≠ .driving
  lanes : ∀ i, t.tenancy.get i = resetTenancy ∧ t.units.get i = resetUnit ∧
    t.scheds.get i = { s.scheds.get i with caption := none, picture := none }
  alerts : t.alerts = resetAlerts
  reserve : ∀ o ∈ t.store.objects, o.owner ≠ .alert

theorem quietEntry_spec (s : State) : Quieted s (quietEntry s) := by
  set begun := freeReserve (((setMode .quiet s).setModeCtl
    { (setMode .quiet s).mode with listenCount := 0, cycleSource := none }).setAlerts resetAlerts) with hbegun
  obtain ⟨lines, same⟩ := statusesIfHeld_eq s.units (forEach allLanes quietLane begun)
  have lanes := quietLanes_spec begun
  have released : begun.trunk.slotState ≠ .driving := by
    show s.trunk.release.slotState ≠ .driving
    unfold Trunk.release
    split
    · simp
    · assumption
  rw [show quietEntry s = _ from same]
  refine ⟨?_, ?_, ?_, fun i => ⟨lanes.tenancy i, lanes.units i, lanes.scheds i⟩, lanes.alerts, fun o mem => ?_⟩
  · exact lanes.mode
  · exact lanes.nfault
  · exact lanes.trunk ▸ released
  · obtain ⟨p, mem, own⟩ := lanes.owners o mem
    have := (List.mem_filter.mp mem).2
    simpa [own] using this

/-- The window close that is the eighth miss, by either of its commands. -/
theorem exec_eighthMiss {c : Instr} {s : State} (cmd : c = .toleranceWindowClose ∨ c = .refLost) (on : s.inReset = false)
    (lock : s.time.lock = .locked ∨ s.time.lock = .holdover) (seven : s.time.misses = 7) :
    exec c s = .next (windowClose s) := by
  rcases cmd with rfl | rfl
  · exact exec_windowClose on lock
  · show Host.Outcome.next (if s.counting && s.time.misses == 7 then windowClose s else s) = _
    simp [counting_of on (unset_ne_of_follows lock), seven]

/-- Settles O12: the eighth miss posts its two events and enters QUIET (`quietEntry_spec`). -/
theorem eighthMissMakesQuiet : Obligations.EighthMissMakesQuiet := by
  intro c s cmd on lock isOpen seven mode
  have run := exec_eighthMiss cmd on lock seven
  have moves : Instr.moves c = true := by rcases cmd with rfl | rfl <;> rfl
  have node := exec_moves moves run
  have time : (windowClose s).time = { s.time with
      localCount := max s.time.localCount s.time.tolerance, lock := .lost, misses := 8, lateOpen := false } := by
    rw [windowClose_time, if_pos ⟨follows_iff.mpr lock, isOpen⟩]
    simp [seven, Config.lostMisses]
  set missed := s.setTime (windowClose s).time with hmissed
  set posted := post .refLost s.mode.node.val none 8 (post .refMiss s.mode.node.val none 8 missed) with hposted
  have same : windowClose s = quietEntry posted := by
    have exhausted : holdoverExhausted posted = quietEntry posted := by
      have modes : posted.mode.mode = s.mode.mode := rfl
      simp only [List.mem_cons, List.not_mem_nil, or_false] at mode
      rcases mode with m | m | m | m <;> simp only [holdoverExhausted, modes, m]
    rw [← exhausted, hposted, hmissed, time]
    simp only [windowClose, follows_iff.mpr lock, isOpen, seven, Config.lostMisses, postSelf, State.node]
    rfl
  have quiet : Quieted posted (windowClose s) := same ▸ quietEntry_spec posted
  refine ⟨_, run, time, quiet.mode, quiet.nfault, quiet.slot, fun i => ?_, quiet.alerts, quiet.reserve, fun room => ?_,
    ?_, node.config, node.contracts, node.ports, node.pending⟩
  · exact quiet.lanes i
  · have first := post_posted (s := missed) (Nat.le_of_succ_le room) .refMiss s.mode.node.val none 8
    have room' : (post .refMiss s.mode.node.val none 8 missed).Room 1 := by
      have queue := post_queue (s := missed) (Nat.le_of_succ_le room) .refMiss s.mode.node.val none 8
      have : missed.events.queue = s.events.queue := rfl
      simp only [State.Room, queue, this, List.length_append, List.length_singleton] at *
      omega
    rw [same]
    exact .of_prefix (s := missed) (first.trans (post_posted room' .refLost s.mode.node.val none 8))
      (StillStep.quietEntry posted).queue
  · rw [same]
    exact (StillStep.quietEntry posted).peers

end Sys2Proof.Machine
end

