-- ==== Sys2Proof/Proofs/Relay.lean ====
section
/-! SUPPORT. Relay reassembly touches the collectors, the relayed and kept texts and the Object Store, and posts nothing (R160 to
R162); the end of a frame's relay (R18); and the frame boundary inside a cycle (R6). -/

namespace Sys2Proof.Machine

/-! ### What relay reassembly touches -/

/-- From `s` to `t` relay reassembly has read an annex: only the collectors, the relayed and kept texts and the Object Store
have changed. -/
structure RelayStep (s t : State) : Prop where
  state : t = { s with alerts := t.alerts, store := t.store }
  alerts : t.alerts = { s.alerts with
    relayTexts := t.alerts.relayTexts, captionCollector := t.alerts.captionCollector
    pictureCollector := t.alerts.pictureCollector, keptTexts := t.alerts.keptTexts }

namespace RelayStep

variable {s t u : State}

theorem refl (s : State) : RelayStep s s := ⟨rfl, rfl⟩

theorem trans (h : RelayStep s t) (k : RelayStep t u) : RelayStep s u where
  state := k.state.trans (congrArg (fun x : State => { x with alerts := u.alerts, store := u.store }) h.state)
  alerts := k.alerts.trans (congrArg (fun x : AlertCtl => { x with
    relayTexts := u.alerts.relayTexts, captionCollector := u.alerts.captionCollector
    pictureCollector := u.alerts.pictureCollector, keptTexts := u.alerts.keptTexts }) h.alerts)

theorem cond (c : Prop) [Decidable c] (h : RelayStep s t) (k : RelayStep s u) : RelayStep s (if c then t else u) := by
  split
  · exact h
  · exact k

theorem setObjects (s : State) (x : List Obj) : RelayStep s (s.setObjects x) := ⟨rfl, rfl⟩
theorem setStore (s : State) (x : ObjectStore) : RelayStep s (s.setStore x) := ⟨rfl, rfl⟩
theorem setCaption (s : State) (c : Option CaptionCollect) :
    RelayStep s (s.setAlerts { s.alerts with captionCollector := c }) := ⟨rfl, rfl⟩
theorem setPicture (s : State) (c : Option PictureCollect) :
    RelayStep s (s.setAlerts { s.alerts with pictureCollector := c }) := ⟨rfl, rfl⟩
theorem setTexts (s : State) (x : List RelayText) : RelayStep s (s.setAlerts { s.alerts with relayTexts := x }) := ⟨rfl, rfl⟩

theorem discardReserve (i : Ident) (s : State) : RelayStep s (discardReserve i s) := by
  unfold Machine.discardReserve
  dsimp only
  split
  · exact cond _ ((setObjects ..).trans (setPicture ..)) (setObjects ..)
  · exact setObjects ..

theorem pictureGap (i : Ident) (s : State) : RelayStep s (pictureGap i s) := by
  unfold Machine.pictureGap
  split
  · exact refl s
  · exact (cond _ (discardReserve i s) (refl s)).trans (setPicture ..)

theorem dropKeptText (i : Ident) (s : State) : RelayStep s (dropKeptText i s) := ⟨rfl, rfl⟩

theorem storeRelayText (i : Ident) (n : Node) (v : Nat) (text : List Byte) (s : State) :
    RelayStep s (storeRelayText i n v text s) := by
  unfold Machine.storeRelayText
  dsimp only
  exact cond _ (refl s) ((dropKeptText i s).trans (cond _ (setTexts ..) (setTexts ..)))

theorem captionAccept (c : CaptionCollect) (i : Ident) (n : Node) (last : Bool) (s : State) :
    RelayStep s (captionAccept c i n last s) :=
  cond _ (setCaption ..) (cond _ ((setCaption ..).trans (storeRelayText ..)) (setCaption ..))

theorem captionSegment (g : Segment) (i : Ident) (n : Node) (s : State) : RelayStep s (captionSegment g i n s) := by
  unfold Machine.captionSegment
  split
  · exact captionAccept ..
  · split
    · exact refl s
    · exact cond _ (captionAccept ..) (setCaption ..)

theorem reserveAppend (i : Ident) (bytes : List Byte) (s : State) : RelayStep s (reserveAppend i bytes s) := by
  unfold Machine.reserveAppend
  split
  · exact cond _ ⟨rfl, rfl⟩ (refl s)
  · exact refl s

theorem pictureBytes (c : PictureCollect) (bytes : List Byte) (last : Bool) (i : Ident) (s : State) :
    RelayStep s (pictureBytes c bytes last i s) :=
  cond _ (pictureGap ..) ((reserveAppend i bytes s).trans (cond _ (setPicture ..) (setPicture ..)))

theorem evictReserve (s : State) : RelayStep s (evictReserve s) := by
  unfold Machine.evictReserve
  split
  · exact refl s
  · split
    · exact discardReserve ..
    · exact refl s

theorem allocateEntry (i : Ident) (x : Source) (n : Nat) (v : BitVec 4) (s : State) :
    RelayStep s (allocateEntry i x n v s) :=
  ((discardReserve i s).trans (evictReserve _)).trans (setObjects ..)

/-- A relay request for a reserve entry is refused without an event (R143). -/
theorem allocateReserve (i : Ident) (n : Node) (size : Nat) (v : BitVec 4) (s : State) :
    RelayStep s (allocateReserve i (.relay n) size v s).2 := by
  unfold Machine.allocateReserve
  split
  · exact refl s
  · split
    · split
      · exact refl s
      · split
        · exact refl s
        · exact allocateEntry i (.relay n) size v s
    · exact allocateEntry i (.relay n) size v s

theorem pictureAccept (c : PictureCollect) (g : Segment) (i : Ident) (n : Node) (s : State) :
    RelayStep s (pictureAccept c g i n s) := by
  unfold Machine.pictureAccept
  dsimp only
  generalize collected : s.setAlerts _ = t
  have begun : RelayStep s t := collected ▸ setPicture ..
  refine begun.trans ?_
  split
  · exact cond _ (pictureGap ..) (refl _)
  · split
    · exact pictureBytes ..
    · generalize asked : Machine.allocateReserve i (.relay n) _ _ t = answer
      have step : RelayStep t answer.2 := asked ▸ allocateReserve ..
      refine step.trans ?_
      split
      · exact setPicture ..
      · exact setPicture ..
      · exact (setPicture ..).trans (pictureBytes ..)

theorem pictureSegment (g : Segment) (i : Ident) (n : Node) (s : State) : RelayStep s (pictureSegment g i n s) := by
  unfold Machine.pictureSegment
  split
  · exact (pictureGap i s).trans (pictureAccept ..)
  · split
    · exact refl s
    · exact cond _ (pictureAccept ..) (pictureGap ..)

theorem readAnnex (i : Ident) (n : Node) (fuel r : Nat) (bytes : List (Option Byte)) (s : State) :
    RelayStep s (readAnnex i n fuel r bytes s) := by
  induction fuel generalizing r bytes s with
  | zero => exact refl s
  | succ fuel ih =>
    unfold Machine.readAnnex
    split
    · exact refl s
    · refine .trans ?_ (ih _ _ _)
      split
      · exact captionSegment ..
      · exact pictureSegment ..

theorem relayEnd (s : State) : RelayStep s (relayEnd s) := by
  unfold Machine.relayEnd
  split
  · split
    · split
      · exact readAnnex ..
      · exact refl s
    · exact refl s
  · exact refl s

/-! What `RelayStep` says of the Alert Controller. -/

theorem level (h : RelayStep s t) : t.alerts.level = s.alerts.level := by rw [h.alerts]
theorem followed (h : RelayStep s t) : t.alerts.followed = s.alerts.followed := by rw [h.alerts]
theorem scheduled (h : RelayStep s t) : t.alerts.scheduled = s.alerts.scheduled := by rw [h.alerts]
theorem relayKey (h : RelayStep s t) : t.alerts.relayKey = s.alerts.relayKey := by rw [h.alerts]

/-- Relay reassembly holds the identities that were held, so the keep rule of R155 sweeps none. -/
theorem holds (h : RelayStep s t) (i : Ident) : t.holds i = s.holds i := by
  unfold State.holds
  rw [h.alerts]

end RelayStep

theorem holds_of_mem_heldIdents {s : State} {i : Ident} (h : i ∈ s.heldIdents) : s.holds i = true := by
  simp only [State.heldIdents, List.mem_append, List.mem_map] at h
  simp only [State.holds, Bool.or_eq_true, List.any_eq_true, beq_iff_eq]
  rcases h with ((h | ⟨x, mem, rfl⟩) | ⟨x, mem, rfl⟩) | ⟨x, mem, rfl⟩
  · split at h
    · rename_i f _
      simp at h
      simp [h]
    · simp at h
  · exact .inl (.inl (.inr ⟨x, mem, rfl⟩))
  · exact .inl (.inr ⟨x, mem, rfl⟩)
  · exact .inr ⟨x, mem, rfl⟩

/-- With every identity still held, the keep rule leaves nothing behind. -/
theorem keeping_of_holds {f : State → State} {s : State} (h : ∀ i, (f s).holds i = s.holds i) : keeping f s = f s := by
  have none : (s.heldIdents.filter (fun i => !(f s).holds i)) = [] := by
    refine List.filter_eq_nil_iff.mpr fun i mem => ?_
    simp [h, holds_of_mem_heldIdents mem]
  unfold keeping sweepIdents
  rw [none]
  rfl

theorem keeping_relayEnd (s : State) : keeping relayEnd s = relayEnd s :=
  keeping_of_holds (RelayStep.relayEnd s).holds

/-! ### The end of a frame's relay (R18, R160) -/

theorem relayEnd_ended (s : State) : RelayEnded s (relayEnd s) := by
  refine ⟨fun n i sh source key sheet => ?_, fun missing => ?_⟩
  · have : relayEnd s = readAnnex i n sh.annex sh.annex
        (relayStream s.trunk.relaySet s.trunk.relayGot (gradePayload s.trunk.relayGrade)) s := by
      simp [relayEnd, source, key, sheet]
    rw [this]
    exact ⟨rfl, rfl⟩
  · unfold relayEnd
    split
    · rename_i n m i source key
      split
      · rename_i same
        subst same
        simp [missing n i source key]
      · exact ⟨rfl, rfl⟩
    · exact ⟨rfl, rfl⟩

theorem RelayStep.relayLeftover (s : State) : RelayStep s (relayLeftover s) := by
  unfold Machine.relayLeftover
  split
  · rw [keeping_relayEnd]; exact RelayStep.relayEnd s
  · exact RelayStep.refl s

/-! ### The frame boundary inside a cycle (R6, R13, R18, R26) -/

/-- What frame work leaves of a lane: its cells, its change, its state and its FIFO. -/
structure SameCells (s t : State) : Prop where
  runs : ∀ i, (t.tenancy.get i).runs = (s.tenancy.get i).runs
  change : ∀ i, (t.tenancy.get i).change = (s.tenancy.get i).change
  state : ∀ i, (t.units.get i).state = (s.units.get i).state
  fifo : ∀ i, (t.units.get i).fifo = (s.units.get i).fifo
  split : ∀ i, (t.units.get i).split = (s.units.get i).split
  alerts : t.alerts = s.alerts
  store : t.store = s.store

namespace SameCells

variable {s t u : State}

theorem refl (s : State) : SameCells s s := ⟨fun _ => rfl, fun _ => rfl, fun _ => rfl, fun _ => rfl, fun _ => rfl, rfl, rfl⟩

theorem trans (h : SameCells s t) (k : SameCells t u) : SameCells s u :=
  ⟨fun i => (k.runs i).trans (h.runs i), fun i => (k.change i).trans (h.change i), fun i => (k.state i).trans (h.state i),
    fun i => (k.fifo i).trans (h.fifo i), fun i => (k.split i).trans (h.split i), k.alerts.trans h.alerts,
    k.store.trans h.store⟩

theorem forEach {α : Type} {f : α → State → State} (h : ∀ x s, SameCells s (f x s)) (xs : List α) (s : State) :
    SameCells s (forEach xs f s) := by
  induction xs generalizing s with
  | nil => exact refl s
  | cons x xs ih => exact (h x s).trans (ih (f x s))

/-- A Lane Unit that keeps state, FIFO and split. -/
theorem onUnit (i : LaneId) (f : LaneUnit → LaneUnit) (s : State) (state : ∀ u, (f u).state = u.state := by exact fun _ => rfl)
    (fifo : ∀ u, (f u).fifo = u.fifo := by exact fun _ => rfl) (split : ∀ u, (f u).split = u.split := by exact fun _ => rfl) :
    SameCells s (onUnit i f s) := by
  refine ⟨fun _ => rfl, fun _ => rfl, fun k => ?_, fun k => ?_, fun k => ?_, rfl, rfl⟩
  all_goals
    by_cases same : k = i
    · subst same; simp [Machine.onUnit, state, fifo, split]
    · simp [Machine.onUnit, Quad.get_set_of_ne _ _ _ _ same]

/-- A tenancy record that keeps its runs and its change. -/
theorem onTenancy (i : LaneId) (f : Tenancy → Tenancy) (s : State) (runs : ∀ t, (f t).runs = t.runs)
    (change : ∀ t, (f t).change = t.change) : SameCells s (onTenancy i f s) := by
  refine ⟨fun k => ?_, fun k => ?_, fun _ => rfl, fun _ => rfl, fun _ => rfl, rfl, rfl⟩
  all_goals
    by_cases same : k = i
    · subst same; simp [Machine.onTenancy, runs, change]
    · simp [Machine.onTenancy, Quad.get_set_of_ne _ _ _ _ same]

theorem clearMarks (p : FramePos) (s : State) : SameCells s (clearMarks p s) := by
  refine forEach (fun i s => onTenancy i _ s (fun t => ?_) (fun _ => ?_)) _ _
  · simp only [Tenancy.runs, List.map_map]
    refine List.map_congr_left fun g _ => ?_
    dsimp only [Function.comp]
    split <;> rfl
  · rfl

theorem frameWork (p : FramePos) (s : State) : SameCells (relayLeftover s) (frameWork p s) := by
  have begun : SameCells (relayLeftover s) (trunkFrame s) :=
    ⟨fun _ => rfl, fun _ => rfl, fun _ => rfl, fun _ => rfl, fun _ => rfl, rfl, rfl⟩
  have tested (s : State) : SameCells s (forLanes (fun l s => onCaptions l (fun c => c.testDwell s.pos) s) s) :=
    ⟨fun _ => rfl, fun _ => rfl, fun _ => rfl, fun _ => rfl, fun _ => rfl, rfl, rfl⟩
  refine begun.trans ?_
  unfold Machine.frameWork
  dsimp only
  split
  · exact (forEach (fun i s => onUnit i _ s) _ _).trans ((clearMarks p _).trans (tested _))
  · exact refl _

end SameCells

/-- `topScheduled` answers an entry of the list that none has a higher level than, and nothing only for no entries. -/
theorem topScheduled_spec (xs : List Scheduled) : match topScheduled xs with
    | some x => x ∈ xs ∧ ∀ y ∈ xs, y.ident.level ≤ x.ident.level
    | none => xs = [] := by
  induction xs with
  | nil => rfl
  | cons x rest ih =>
    unfold topScheduled
    revert ih
    cases topScheduled rest with
    | none => intro ih; subst ih; simp
    | some y =>
      intro ⟨mem, top⟩
      by_cases h : x.ident.level < y.ident.level
      · simp only [h, if_true, List.mem_cons]
        exact ⟨.inr mem, fun z hz => hz.elim (fun e => e ▸ h.le) (top z)⟩
      · simp only [h, if_false, List.mem_cons, true_or, true_and]
        exact fun z hz => hz.elim (fun e => e ▸ le_rfl) (fun m => (top z m).trans (not_lt.mp h))

/-- The one entry of highest level is the one `topScheduled` answers. -/
theorem topScheduled_eq {xs : List Scheduled} {x : Scheduled} (mem : x ∈ xs)
    (top : ∀ y ∈ xs, y = x ∨ y.ident.level < x.ident.level) : topScheduled xs = some x := by
  have spec := topScheduled_spec xs
  cases h : topScheduled xs with
  | none => rw [h] at spec; simp [spec] at mem
  | some y =>
    rw [h] at spec
    rcases top y spec.1 with same | lower
    · rw [same]
    · exact absurd (spec.2 x mem) (Nat.not_le.mpr lower)

/-- The relay source, read from the scheduled entries and the followed alert (R160). -/
theorem relaySource_namesRelay (s : State) : s.NamesRelay s.relaySource := by
  refine ⟨fun none => ?_, fun x mem top => ?_⟩
  · unfold State.relaySource
    rw [none]
    rfl
  · unfold State.relaySource
    rw [topScheduled_eq mem top]
    rfl

/-- The relay source is read off the alerts and the node number. -/
theorem relaySource_congr {s t : State} (scheduled : t.alerts.scheduled = s.alerts.scheduled)
    (followed : t.alerts.followed = s.alerts.followed) (node : t.mode.node = s.mode.node) : t.relaySource = s.relaySource := by
  unfold State.relaySource State.node
  rw [scheduled, followed, node]

/-- The cells a stored sheet's lane holds (R50, R51, R53): the current ones, with a reached claim's and without a reached
release's. -/
theorem heldCells_eq (own : Cycle) (inStep : Bool) (sh : Sheet) : heldCells own inStep sh =
    (List.range 776).filter (fun k => match sh.change with
      | none => inRuns sh.current k
      | some c => match c.kind with
        | .claim => inRuns sh.current k || (changeReached own inStep c && inRuns c.runs k)
        | .release => inRuns sh.current k && !(changeReached own inStep c && inRuns c.runs k)) := by
  refine List.filter_congr fun k _ => ?_
  unfold sheetCoverings
  cases sh.change with
  | none => simp [Covering.covers, inRuns]
  | some c =>
    dsimp only
    generalize changeReached own inStep c = reached
    cases kind : c.kind with
    | claim => cases reached <;> simp [Covering.covers, inRuns]
    | release => cases reached <;> simp [Covering.covers, inRuns]

theorem inStep_eq (e : PeerEntry) :
    e.inStep = decide (e.state = .present ∨ e.state = .silent ∧ e.silentOutOfStep = false) := by
  unfold PeerEntry.inStep
  cases e.state <;> simp

/-- The frame boundary inside a cycle as a command, with no slot in progress. -/
theorem exec_frameBoundary_inside {s : State} {lines : ModeLines} (on : s.inReset = false) (lock : s.time.lock ≠ .unset)
    (inside : s.frameIndex < 15) : exec (.frameBoundary lines) s = .next (plainFrameBoundary s) := by
  show Host.Outcome.next (if s.counting then frameBoundary lines s else s) = _
  simp [counting_of on lock, frameBoundary, inside]

theorem relayLeftover_events (s : State) : (relayLeftover s).events = s.events := by
  rw [(RelayStep.relayLeftover s).state]

theorem listenStep_eq (s : State) : listenStep s = s.setModeCtl { s.mode with
    listenCount := if s.mode.mode = .joining then min 32 (s.mode.listenCount + 1) else s.mode.listenCount } := by
  unfold listenStep
  split <;> simp_all [Config.listenFrames, State.setModeCtl]

/-- Frame work begins a frame of the Trunk Interface (R13). -/
theorem frameWork_trunk (p : FramePos) (s : State) : (frameWork p s).trunk = { s.trunk with
    inProgress := false, slotsBegun := 0, copy := none, directory := (.unread, .unread, .unread) } := by
  have idle (s : State) : (forEach allLanes (onUnit · (fun u => { u with assembled := none })) s).trunk = s.trunk := rfl
  have tested (s : State) : BlockStep s (forLanes (fun l s => onCaptions l (fun c => c.testDwell s.pos) s) s) :=
    .forLanes (fun l s => .onCaptions _ _ _ (·.testDwell _)) s
  have begun : (trunkFrame s).trunk = { s.trunk with
      inProgress := false, slotsBegun := 0, copy := none, directory := (.unread, .unread, .unread) } := by
    simp [trunkFrame, (BlockStep.relayLeftover s).trunk]
  unfold frameWork
  dsimp only
  split
  · rw [(tested _).trunk, (BlockStep.clearMarks ..).trunk, idle, begun]
  · exact begun

/-- Settles O13: frame work, the listen step and the relay set of `plainFrameBoundary`, one field after another. -/
theorem frameBoundaryInsideCycle : Obligations.FrameBoundaryInsideCycle := by
  intro lines s on lock inside idle
  dsimp only
  have run := exec_frameBoundary_inside (lines := lines) on lock inside
  have node := exec_moves (c := .frameBoundary lines) rfl run
  set begun := s.setTime { s.time with localCount := (s.frameIndex + 1) * Config.frameMicros, hold := 0 } with hbegun
  set framed := frameWork s.pos begun with hframed
  have same : plainFrameBoundary s = takeRelaySet (listenStep framed) := by
    simp [plainFrameBoundary, cutSlot_idle idle, hframed, hbegun]
  have ended := RelayStep.relayLeftover begun
  have kept := SameCells.frameWork s.pos begun
  have still := StillStep.frameWork s.pos begun
  have mode : framed.mode = s.mode := frameWork_mode ..
  have scheduled : framed.alerts.scheduled = s.alerts.scheduled := by rw [hframed, kept.alerts, ended.scheduled]; rfl
  have followed : framed.alerts.followed = s.alerts.followed := by rw [hframed, kept.alerts, ended.followed]; rfl
  have listened : (listenStep framed).relaySource = s.relaySource := by
    refine relaySource_congr ?_ ?_ ?_ <;> rw [listenStep_eq] <;> simp [scheduled, followed, mode]
  have peers : (listenStep framed).peers = s.peers := (StillStep.listenStep _).peers.trans still.peers
  have cycle : (listenStep framed).time.cycle = s.time.cycle := by
    rw [(StillStep.listenStep _).time, still.time]; rfl
  have trunk : (plainFrameBoundary s).trunk = { framed.trunk with
      relaySource := (listenStep framed).relayCells.1, relayGrade := (listenStep framed).relayCells.2.1
      relaySet := (listenStep framed).relayCells.2.2, relayGot := [] } := by
    rw [same, takeRelaySet_trunk, listenStep_eq]; rfl
  have source : (plainFrameBoundary s).trunk.relaySource = s.relaySource := by
    rw [trunk, ← listened]
    dsimp only [State.relayCells]
    cases (listenStep framed).relaySource with
    | none => rfl
    | some n => dsimp only; split <;> rfl
  have alerts : (plainFrameBoundary s).alerts = (relayLeftover begun).alerts := by
    rw [same, listenStep_eq]; exact kept.alerts
  have store : (plainFrameBoundary s).store = (relayLeftover begun).store := by
    rw [same, listenStep_eq]; exact kept.store
  refine ⟨_, run, plainFrameBoundary_time s, ?_, ?_, ?_, ?_, ?_, ?_, ?_, ?_, fun i => ?_, ?_, node.config, node.contracts,
    node.ports, node.pending⟩
  · rw [trunk, hframed, frameWork_trunk]; exact ⟨rfl, rfl, rfl, rfl⟩
  · rw [source]; exact (relaySource_namesRelay s).1
  · rw [source]; exact (relaySource_namesRelay s).2
  · rw [source, trunk]
    dsimp only [State.relayCells]
    rw [listened, peers, cycle]
    cases s.relaySource with
    | none => rfl
    | some n =>
      dsimp only
      cases (s.peers.get n).sheets.alert with
      | none => rfl
      | some sh =>
        refine ⟨rfl, ?_⟩
        dsimp only
        rw [heldCells_eq]
        refine List.filter_congr fun k _ => ?_
        rw [inStep_eq]
        rfl
  · rintro ⟨trunkMode, short⟩
    have relays : relayLeftover begun = relayEnd begun := by
      have on : begun.onTrunk = true := by simp [State.onTrunk, hbegun, on, trunkMode]
      have some : begun.trunk.relaySet ≠ [] := by
        intro empty
        have : s.trunk.relaySet = [] := empty
        simp [this] at short
      rw [relayLeftover, if_pos ⟨on, some, short⟩, keeping_relayEnd]
    have := relayEnd_ended begun
    rw [← relays] at this
    unfold RelayEnded at *
    rw [plainFrameBoundary_time]
    exact ⟨fun n i sh a b c => by rw [alerts, store]; exact this.1 n i sh a b c,
      fun missing => by rw [alerts, store]; exact this.2 missing⟩
  · intro never
    have relays : relayLeftover begun = begun := by
      rw [relayLeftover, if_neg]
      rintro ⟨on', -, short⟩
      refine never ⟨?_, short⟩
      simpa [State.onTrunk, hbegun, on] using on'
    rw [alerts, store, relays]
    exact ⟨rfl, rfl⟩
  · rw [same, takeRelaySet_mode, listenStep_eq, State.setModeCtl_mode, mode]
  · rw [same, takeRelaySet_events, listenStep_eq]
    exact (frameWork_events ..).trans (relayLeftover_events begun)
  · have before : (relayLeftover begun).tenancy = s.tenancy ∧ (relayLeftover begun).units = s.units := by
      rw [ended.state]; exact ⟨rfl, rfl⟩
    have fields := (⟨kept.runs i, kept.change i, kept.state i, kept.fifo i⟩ : _ ∧ _ ∧ _ ∧ _)
    rw [before.1, before.2] at fields
    rw [same, listenStep_eq]
    exact fields
  · rw [same]; exact peers

end Sys2Proof.Machine
end

