-- ==== Sys2Proof/Proofs/Reports.lean ====
section
/-! SUPPORT. What a report of the Tenancy Unit does (R55, R83): the lane's split follows its cells, its state follows the rules
R81, R82, R96, R171 and R175, and no other lane is touched. -/

namespace Sys2Proof.Machine

/-- From `s` to `t` only lane `i` has been told of its cells: its restore target, its state and its FIFO may have changed, its
split not, and no other lane's tenancy or Lane Unit. -/
structure Reported (i : LaneId) (s t : State) : Prop where
  tenancies : ∀ j, j ≠ i → t.tenancy.get j = s.tenancy.get j
  units : ∀ j, j ≠ i → t.units.get j = s.units.get j
  own : t.tenancy.get i = { s.tenancy.get i with restoreTarget := (t.tenancy.get i).restoreTarget }
  split : (t.units.get i).split = (s.units.get i).split
  alerts : t.alerts = s.alerts

namespace Reported

variable {i : LaneId} {s t u : State}

/-- An operation that touches neither tenancies nor Lane Units nor alerts. -/
theorem same (tenancy : t.tenancy = s.tenancy := by rfl) (units : t.units = s.units := by rfl)
    (alerts : t.alerts = s.alerts := by rfl) : Reported i s t :=
  ⟨fun _ _ => by rw [tenancy], fun _ _ => by rw [units], by rw [tenancy], by rw [units], alerts⟩

theorem refl (s : State) : Reported i s s := same

theorem trans (h : Reported i s t) (k : Reported i t u) : Reported i s u where
  tenancies j ne := (k.tenancies j ne).trans (h.tenancies j ne)
  units j ne := (k.units j ne).trans (h.units j ne)
  own := by rw [k.own, h.own]
  split := k.split.trans h.split
  alerts := k.alerts.trans h.alerts

theorem cond (c : Prop) [Decidable c] (h : Reported i s t) (k : Reported i s u) : Reported i s (if c then t else u) := by
  split
  · exact h
  · exact k

/-- A Lane Unit that keeps its split. -/
theorem onUnit (i : LaneId) (f : LaneUnit → LaneUnit) (s : State) (split : ∀ u, (f u).split = u.split := by exact fun _ => rfl) :
    Reported i s (onUnit i f s) where
  tenancies _ _ := rfl
  units j ne := by simp [Machine.onUnit, Quad.get_set_of_ne _ _ _ _ ne]
  own := rfl
  split := by simp [Machine.onUnit, split]
  alerts := rfl

theorem setLaneState (i : LaneId) (x : LaneState) (s : State) : Reported i s (setLaneState i x s) := onUnit ..

theorem postSelf (k : EventKind) (l : Option LaneId) (a : Nat) (s : State) : Reported i s (postSelf k l a s) := same

theorem dropRestore (i : LaneId) (s : State) : Reported i s (onTenancy i (fun t => { t with restoreTarget := none }) s) where
  tenancies j ne := by simp [onTenancy, Quad.get_set_of_ne _ _ _ _ ne]
  units _ _ := rfl
  own := by simp [onTenancy]
  split := rfl
  alerts := rfl

theorem interruptCaptions (l : Lane) (s : State) : Reported i s (onCaptions l CaptionCarousel.interrupt s) := same

theorem interruptPicture (l : Lane) (s : State) : Reported i s (interruptPicture l s) :=
  same (interruptPicture_tenancy l s) (interruptPicture_units l s) (interruptPicture_alerts l s)

theorem closeSched (s : State) : Reported i s (closeSched i s) := by
  cases i with
  | alert => exact refl s
  | svc l => exact .trans (t := onCaptions l _ (s.setSched _ _)) same (interruptPicture ..)

theorem statusIfHeld (x : Intake) (s : State) : Reported i s (statusIfHeld i x s) := by
  obtain ⟨lines, e⟩ := statusIfHeld_eq i x s
  rw [e]
  exact same

theorem closeLane (i : LaneId) (s : State) : Reported i s (closeLane i s) :=
  (onUnit i (fun u => { u.discard with state := .closed }) s).trans
    ((closeSched _).trans ((postSelf ..).trans (statusIfHeld ..)))

theorem checkRestore (l : Lane) (s : State) : Reported (.svc l) s (checkRestore l s) := by
  unfold Machine.checkRestore
  dsimp only
  split
  · exact cond _ ((dropRestore ..).trans (setLaneState ..)) (refl s)
  · exact refl s

theorem reportService (l : Lane) (s : State) : Reported (.svc l) s (reportService l s) := by
  unfold Machine.reportService
  dsimp only
  split
  · exact refl s
  · exact cond _ (setLaneState ..) (refl s)
  · exact cond _ (setLaneState ..) (refl s)
  · exact cond _ (setLaneState ..) (cond _ (setLaneState ..) (refl s))
  · exact checkRestore l s
  · exact cond _ (closeLane ..) (refl s)

theorem reportAlert (s : State) : Reported .alert s (reportAlert s) := by
  unfold Machine.reportAlert
  dsimp only
  split
  · exact cond _ (setLaneState ..) (refl s)
  · exact cond _ (setLaneState ..) (refl s)
  · refine cond _ ((closeLane .alert s).trans (cond _ ((setLaneState ..).trans (postSelf ..)) (refl _))) (refl s)
  all_goals exact refl s

/-- A report is a resplit and what it does to the lane. -/
theorem reportLane (i : LaneId) (s : State) : Reported i (resplit i s) (reportLane i s) := by
  cases i with
  | svc l => exact reportService l _
  | alert => exact reportAlert _

end Reported

/-! ### A report's effect on tenancies, splits and other lanes -/

theorem resplit_tenancy (i : LaneId) (s : State) : (resplit i s).tenancy = s.tenancy := rfl

theorem resplit_unit (i j : LaneId) (s : State) :
    (resplit i s).units.get j = if j = i then { s.units.get i with split := s.splitOf i } else s.units.get j := by
  by_cases same : j = i
  · subst same; simp [resplit, onUnit]
  · simp [resplit, onUnit, Quad.get_set_of_ne _ _ _ _ same, same]

/-- A report leaves every tenancy but for the lane's restore target. -/
theorem reportLane_tenancy (i j : LaneId) (s : State) : (reportLane i s).tenancy.get j =
    { s.tenancy.get j with restoreTarget := ((reportLane i s).tenancy.get j).restoreTarget } := by
  by_cases same : j = i
  · subst same; exact (Reported.reportLane j s).own
  · rw [(Reported.reportLane i s).tenancies j same]; rfl

theorem reportLane_tenancy_of_ne {i j : LaneId} (ne : j ≠ i) (s : State) :
    (reportLane i s).tenancy.get j = s.tenancy.get j := (Reported.reportLane i s).tenancies j ne

theorem reportLane_unit_of_ne {i j : LaneId} (ne : j ≠ i) (s : State) : (reportLane i s).units.get j = s.units.get j := by
  rw [(Reported.reportLane i s).units j ne, resplit_unit, if_neg ne]

/-- After a report the lane's split is the one its cells give (R83, R84). -/
theorem reportLane_split (i : LaneId) (s : State) : ((reportLane i s).units.get i).split = s.splitOf i := by
  rw [(Reported.reportLane i s).split, resplit_unit, if_pos rfl]

/-! ### The lane state after a report -/

/-- The state a report leaves a lane in (R81, R82, R96, R171, R175). -/
def State.reportedState (s : State) (i : LaneId) : LaneState :=
  let n := s.cells i
  let bare : Bool := decide (n = 0 ∧ (s.tenancy.get i).change = none)
  let target := (s.tenancy.get i).target
  match i, (s.units.get i).state with
  | _, .closed => .closed
  | _, .opening => if 0 < n then .onAir else .opening
  | .svc _, .onAir => if bare then .opening else .onAir
  | .svc l, .squeezed => if bare then .opening else if 0 < n ∧ n < s.floorCells l then .onAir else .squeezed
  | .svc l, .restoring =>
    match (s.tenancy.get i).restoreTarget with
    | some r => if n < min r target then .restoring else s.restoredState l
    | none => .restoring
  | .svc _, .closing => if bare then .closed else .closing
  | .alert, .onAir => if bare ∧ 0 < target then .opening else .onAir
  | .alert, .closing => if bare then (if 0 < target then .opening else .closed) else .closing
  | .alert, x => x

theorem setLaneState_state (i : LaneId) (x : LaneState) (s : State) : ((setLaneState i x s).units.get i).state = x := by
  simp [setLaneState, onUnit]

theorem closeLane_unit (i : LaneId) (s : State) :
    (closeLane i s).units.get i = { (s.units.get i).discard with state := .closed } := by
  have sched (s : State) : (closeSched i s).units = s.units := by
    cases i with
    | alert => rfl
    | svc l => exact interruptPicture_units ..
  obtain ⟨lines, e⟩ := statusIfHeld_eq i (s.units.get i).intake (postSelf .laneClosed (some i) (s.units.get i).fifo.length
    (closeSched i (onUnit i (fun u => { u.discard with state := .closed }) s)))
  rw [closeLane, e]
  show ((closeSched i _).units).get i = _
  rw [sched]
  simp [onUnit]

theorem bare_iff {t : Tenancy} : (t.cells = 0 ∧ t.change.isNone = true) ↔ t.cells = 0 ∧ t.change = none := by
  simp

/-- The state of a lane after one of two operations. -/
theorem ite_state (c : Prop) [Decidable c] (i : LaneId) (a b : State) :
    ((if c then a else b).units.get i).state = if c then (a.units.get i).state else (b.units.get i).state := by
  split <;> rfl

theorem checkRestore_state (l : Lane) (s : State) (state : (s.units.get (.svc l)).state = .restoring) :
    ((checkRestore l s).units.get (.svc l)).state = match (s.tenancy.get (.svc l)).restoreTarget with
      | some r => if s.cells (.svc l) < min r (s.tenancy.get (.svc l)).target then .restoring else s.restoredState l
      | none => .restoring := by
  unfold checkRestore State.cells
  dsimp only
  rw [state]
  cases (s.tenancy.get (.svc l)).restoreTarget with
  | none => exact state
  | some r =>
    dsimp only
    by_cases low : (s.tenancy.get (.svc l)).cells < min r (s.tenancy.get (.svc l)).target
    · rw [if_pos low, if_neg (Nat.not_le.mpr low), state]
    · rw [if_neg low, if_pos (Nat.not_lt.mp low)]
      exact setLaneState_state ..

theorem reportService_state (l : Lane) (s : State) :
    ((reportService l s).units.get (.svc l)).state = s.reportedState (.svc l) := by
  have restoring := checkRestore_state l s
  unfold reportService State.reportedState
  cases state : (s.units.get (.svc l)).state with
  | restoring => exact (restoring state)
  | closed | opening | onAir | squeezed | closing =>
    simp [ite_state, setLaneState_state, closeLane_unit, state, State.cells] <;> grind

theorem reportAlert_state (s : State) : ((reportAlert s).units.get .alert).state = s.reportedState .alert := by
  unfold reportAlert State.reportedState
  cases state : (s.units.get .alert).state with
  | closed | opening | onAir | squeezed | restoring | closing =>
    simp [ite_state, setLaneState_state, closeLane_unit, state, State.cells, postSelf, post, State.setEvents] <;> grind

theorem reportedState_congr {s t : State} (tenancy : t.tenancy = s.tenancy) (alerts : t.alerts = s.alerts)
    (contracts : t.contracts = s.contracts) (i : LaneId) (state : (t.units.get i).state = (s.units.get i).state) :
    t.reportedState i = s.reportedState i := by
  have floor (l : Lane) : t.floorCells l = s.floorCells l := by rw [State.floorCells, State.floorCells, contracts]
  have restored (l : Lane) : t.restoredState l = s.restoredState l := by
    simp only [State.restoredState, State.bottomRestore, State.cells, floor, alerts, tenancy]
    rfl
  simp only [State.reportedState, State.cells, state, tenancy, floor, restored]
  rfl

/-- `reportedState` is the lane state that a report leaves. -/
theorem reportLane_state (i : LaneId) (s : State) : ((reportLane i s).units.get i).state = s.reportedState i := by
  have state : ((resplit i s).units.get i).state = (s.units.get i).state := by rw [resplit_unit, if_pos rfl]
  cases i with
  | svc l => exact (reportService_state l _).trans (reportedState_congr (resplit_tenancy ..) rfl rfl _ state)
  | alert => exact (reportAlert_state _).trans (reportedState_congr (resplit_tenancy ..) rfl rfl _ state)

end Sys2Proof.Machine
end

