-- ==== Sys2Proof/Proofs/Runs.lean ====
section
/-! SUPPORT. Lists of runs as sets of cells (R36): what removing, trimming, joining and claiming do to the cells, and that
they keep a list ascending within the 776 cells. -/

namespace Sys2Proof.Machine

/-! ### Cells of a list of runs -/

@[simp] theorem inRuns_nil (k : Nat) : inRuns [] k = false := rfl

theorem inRuns_cons (r : Run) (rs : List Run) (k : Nat) :
    inRuns (r :: rs) k = (decide (r.start ≤ k ∧ k < r.start + r.len) || inRuns rs k) := rfl

theorem inRuns_append (rs qs : List Run) (k : Nat) : inRuns (rs ++ qs) k = (inRuns rs k || inRuns qs k) := by
  simp [inRuns]

theorem inRuns_flatMap {α : Type} (xs : List α) (f : α → List Run) (k : Nat) :
    inRuns (xs.flatMap f) k = xs.any (fun x => inRuns (f x) k) := by
  simp [inRuns, List.any_flatMap]

theorem inRuns_iff (rs : List Run) (k : Nat) : inRuns rs k = true ↔ ∃ r ∈ rs, r.start ≤ k ∧ k < r.start + r.len := by
  simp [inRuns]

theorem mem_runCells (rs : List Run) (k : Nat) : k ∈ runCells rs ↔ inRuns rs k = true := by
  simp only [runCells, List.mem_flatMap, List.mem_map, List.mem_range, inRuns_iff]
  refine exists_congr fun r => and_congr_right fun _ => ⟨?_, fun ⟨lo, hi⟩ => ⟨k - r.start, by omega, by omega⟩⟩
  rintro ⟨i, lt, rfl⟩
  omega

/-! ### Ascending lists (R36) -/

/-- Run `a` ends where `b` starts, or before. -/
def Run.Before (a b : Run) : Prop := a.start + a.len ≤ b.start

/-- A run of at least one cell within the 776. -/
def Run.Proper (r : Run) : Prop := 1 ≤ r.len ∧ r.start + r.len ≤ Config.cells

theorem runsGood_iff (rs : List Run) : runsGood rs = true ↔ rs.Pairwise Run.Before ∧ ∀ r ∈ rs, r.Proper := by
  induction rs with
  | nil => simp [runsGood]
  | cons r rest ih =>
    cases rest with
    | nil => simp [runsGood, Run.Proper]
    | cons q rest =>
      simp only [runsGood, Bool.and_eq_true, decide_eq_true_eq, ih, List.pairwise_cons (a := r), List.forall_mem_cons (a := r)]
      constructor
      · rintro ⟨⟨len, below⟩, order, proper⟩
        have head := proper q List.mem_cons_self
        have first : ∀ x ∈ q :: rest, r.Before x := by
          intro x mem
          rcases List.mem_cons.mp mem with rfl | mem
          · exact below
          · have := List.rel_of_pairwise_cons order mem
            unfold Run.Before Run.Proper at *
            omega
        refine ⟨⟨first, order⟩, ⟨len, ?_⟩, proper⟩
        unfold Run.Proper at head
        omega
      · rintro ⟨⟨first, order⟩, ⟨len, -⟩, proper⟩
        exact ⟨⟨len, first q List.mem_cons_self⟩, order, proper⟩

theorem runsGood_nil : runsGood [] = true := rfl

theorem runsGood_sublist {rs qs : List Run} (h : rs.Sublist qs) (good : runsGood qs = true) : runsGood rs = true := by
  rw [runsGood_iff] at *
  exact ⟨good.1.sublist h, fun r mem => good.2 r (h.subset mem)⟩

theorem runsGood_append {rs qs : List Run} : runsGood (rs ++ qs) = true ↔
    runsGood rs = true ∧ runsGood qs = true ∧ ∀ r ∈ rs, ∀ q ∈ qs, r.Before q := by
  simp only [runsGood_iff, List.pairwise_append, List.forall_mem_append]
  tauto

theorem runsGood_cons {r : Run} {rs : List Run} : runsGood (r :: rs) = true ↔
    r.Proper ∧ runsGood rs = true ∧ ∀ q ∈ rs, r.Before q := by
  simp only [runsGood_iff, List.pairwise_cons, List.forall_mem_cons]
  tauto

/-- The two parts of an ascending list share no cell. -/
theorem inRuns_append_apart {rs qs : List Run} (good : runsGood (rs ++ qs) = true) {k : Nat} (left : inRuns rs k = true) :
    inRuns qs k = false := by
  by_contra both
  obtain ⟨r, inR, lo, hi⟩ := (inRuns_iff ..).mp left
  obtain ⟨q, inQ, low, high⟩ := (inRuns_iff ..).mp (Bool.not_eq_false _ ▸ both)
  have := (runsGood_append.mp good).2.2 r inR q inQ
  unfold Run.Before at this
  omega

/-- A non-empty ascending list has a cell. -/
theorem exists_inRuns {rs : List Run} (good : runsGood rs = true) (some : rs ≠ []) : ∃ k, inRuns rs k = true := by
  obtain ⟨r, rest, rfl⟩ := List.exists_cons_of_ne_nil some
  have := (runsGood_cons.mp good).1
  exact ⟨r.start, (inRuns_iff ..).mpr ⟨r, List.mem_cons_self, le_refl _, by unfold Run.Proper at this; omega⟩⟩

theorem eq_nil_of_inRuns {rs : List Run} (good : runsGood rs = true) (none : ∀ k, inRuns rs k = false) : rs = [] := by
  by_contra some
  obtain ⟨k, here⟩ := exists_inRuns good some
  simp [none] at here

/-- Replacing each run of an ascending list by an ascending list inside it leaves an ascending list. -/
theorem runsGood_flatMap {rs : List Run} {f : Run → List Run} (good : runsGood rs = true)
    (parts : ∀ r ∈ rs, runsGood (f r) = true)
    (inside : ∀ r, ∀ q ∈ f r, r.start ≤ q.start ∧ q.start + q.len ≤ r.start + r.len) : runsGood (rs.flatMap f) = true := by
  induction rs with
  | nil => rfl
  | cons r rest ih =>
    obtain ⟨-, good, before⟩ := runsGood_cons.mp good
    obtain ⟨part, parts⟩ := List.forall_mem_cons.mp parts
    refine runsGood_append.mpr ⟨part, ih good parts, fun p inP q inQ => ?_⟩
    obtain ⟨x, inX, inQ⟩ := List.mem_flatMap.mp inQ
    have low := inside r p inP
    have high := inside x q inQ
    have := before x inX
    unfold Run.Before at *
    omega

/-! ### Removing runs (R72, R73, R78) -/

theorem inRuns_ite (c : Prop) [Decidable c] (r : Run) (k : Nat) :
    (inRuns (if c then [r] else []) k = true) ↔ c ∧ r.start ≤ k ∧ k < r.start + r.len := by
  split <;> simp_all [inRuns]

theorem inRuns_runMinus' (a b : Run) (k : Nat) :
    inRuns (runMinus' a b) k = (inRuns [a] k && !inRuns [b] k) := by
  rw [Bool.eq_iff_iff]
  unfold runMinus' runMinus
  simp only [Bool.and_eq_true, Bool.not_eq_true', inRuns_cons, inRuns_nil, Bool.or_false, decide_eq_true_eq, decide_eq_false_iff_not]
  split
  · simp only [inRuns_cons, inRuns_nil, Bool.or_false, decide_eq_true_eq]
    omega
  · simp only [inRuns_append, Bool.or_eq_true, inRuns_ite]
    omega

theorem runMinus'_inside (a b : Run) : ∀ q ∈ runMinus' a b, a.start ≤ q.start ∧ q.start + q.len ≤ a.start + a.len := by
  intro q mem
  unfold runMinus' runMinus at mem
  dsimp only at mem
  split at mem
  · simp only [List.mem_singleton] at mem
    subst mem
    omega
  · simp only [List.mem_append] at mem
    rcases mem with mem | mem
    all_goals
      split at mem
      · simp only [List.mem_singleton] at mem
        subst mem
        simp only
        omega
      · simp at mem

theorem runMinus'_good {a : Run} (b : Run) (proper : a.Proper) : runsGood (runMinus' a b) = true := by
  unfold runMinus' runMinus
  dsimp only
  unfold Run.Proper at proper
  split
  · exact runsGood_cons.mpr ⟨proper, rfl, by simp⟩
  · refine runsGood_append.mpr ⟨?_, ?_, fun p inP q inQ => ?_⟩
    · split
      · refine runsGood_cons.mpr ⟨⟨?_, ?_⟩, rfl, by simp⟩ <;> simp only <;> omega
      · rfl
    · split
      · refine runsGood_cons.mpr ⟨⟨?_, ?_⟩, rfl, by simp⟩ <;> simp only <;> omega
      · rfl
    · split at inP <;> split at inQ <;> simp only [List.mem_singleton, List.not_mem_nil] at inP inQ
      subst inP inQ
      unfold Run.Before
      simp only
      omega

theorem inRuns_any (rs : List Run) (k : Nat) (p : Bool) :
    rs.any (fun r => inRuns [r] k && p) = (inRuns rs k && p) := by
  cases p <;> simp [inRuns]

/-- What is left of runs when others are removed (R72, R78). -/
theorem inRuns_runsMinus (rs gone : List Run) (k : Nat) :
    inRuns (runsMinus rs gone) k = (inRuns rs k && !inRuns gone k) := by
  induction gone generalizing rs with
  | nil => simp [runsMinus]
  | cons g gone ih =>
    show inRuns (runsMinus (rs.flatMap (fun r => runMinus' r g)) gone) k = _
    rw [ih, inRuns_flatMap]
    simp only [inRuns_runMinus', inRuns_any]
    rw [show inRuns (g :: gone) k = (inRuns [g] k || inRuns gone k) from inRuns_append [g] gone k]
    cases inRuns rs k <;> cases inRuns [g] k <;> cases inRuns gone k <;> rfl

theorem runsMinus_good (rs gone : List Run) (good : runsGood rs = true) : runsGood (runsMinus rs gone) = true := by
  induction gone generalizing rs with
  | nil => exact good
  | cons g gone ih =>
    exact ih _ (runsGood_flatMap good (fun r mem => runMinus'_good g (((runsGood_iff _).mp good).2 r mem))
      (fun r => runMinus'_inside r g))

theorem runsMinus_inside (a : Run) (gone rs : List Run)
    (h : ∀ q ∈ rs, a.start ≤ q.start ∧ q.start + q.len ≤ a.start + a.len) :
    ∀ q ∈ runsMinus rs gone, a.start ≤ q.start ∧ q.start + q.len ≤ a.start + a.len := by
  induction gone generalizing rs with
  | nil => exact h
  | cons g gone ih =>
    refine ih _ fun q mem => ?_
    obtain ⟨r, inR, mem⟩ := List.mem_flatMap.mp mem
    have := runMinus'_inside r g q mem
    have := h r inR
    omega

/-! ### Fragments -/

/-- The runs of a list of fragments. -/
def fragmentRuns (fs : List Fragment) : List Run := fs.map (fun f => ⟨f.start, f.len⟩)

theorem Tenancy.runs_eq (t : Tenancy) : t.runs = fragmentRuns t.fragments := rfl

theorem runTotal_append (rs qs : List Run) : runTotal (rs ++ qs) = runTotal rs + runTotal qs := by simp [runTotal]

theorem Tenancy.cells_eq (t : Tenancy) : t.cells = runTotal t.runs := by
  simp [Tenancy.cells, runTotal, Tenancy.runs, Function.comp_def]

theorem fragmentRuns_append (fs gs : List Fragment) : fragmentRuns (fs ++ gs) = fragmentRuns fs ++ fragmentRuns gs := by
  simp [fragmentRuns]

theorem fragmentRuns_minus (fs : List Fragment) (gone : List Run) :
    fragmentRuns (fragmentsMinus fs gone) = (fragmentRuns fs).flatMap (fun r => runsMinus [r] gone) := by
  induction fs with
  | nil => rfl
  | cons f fs ih =>
    show fragmentRuns ((runsMinus [⟨f.start, f.len⟩] gone).map (fun r => ⟨r.start, r.len, f.mark⟩) ++ fragmentsMinus fs gone)
      = runsMinus [⟨f.start, f.len⟩] gone ++ _
    rw [fragmentRuns_append, ih]
    congr 1
    simp [fragmentRuns, Function.comp_def]

theorem inRuns_fragmentsMinus (fs : List Fragment) (gone : List Run) (k : Nat) :
    inRuns (fragmentRuns (fragmentsMinus fs gone)) k = (inRuns (fragmentRuns fs) k && !inRuns gone k) := by
  rw [fragmentRuns_minus, inRuns_flatMap]
  simp only [inRuns_runsMinus, inRuns_any]

theorem fragmentsMinus_good (fs : List Fragment) (gone : List Run) (good : runsGood (fragmentRuns fs) = true) :
    runsGood (fragmentRuns (fragmentsMinus fs gone)) = true := by
  rw [fragmentRuns_minus]
  refine runsGood_flatMap good (fun r mem => ?_) (fun r => runsMinus_inside r gone [r] (by simp))
  exact runsMinus_good _ _ (runsGood_cons.mpr ⟨((runsGood_iff _).mp good).2 r mem, rfl, by simp⟩)

theorem runsGood_filter {fs : List Fragment} (p : Fragment → Bool) (good : runsGood (fragmentRuns fs) = true) :
    runsGood (fragmentRuns (fs.filter p)) = true :=
  runsGood_sublist (List.filter_sublist.map _) good

/-- Two fragments of an ascending list are one or share no cell. -/
theorem fragments_apart {fs : List Fragment} (good : runsGood (fragmentRuns fs) = true) {f g : Fragment} (inF : f ∈ fs)
    (inG : g ∈ fs) : g = f ∨ g.start + g.len ≤ f.start ∨ f.start + f.len ≤ g.start := by
  have order := List.pairwise_map.mp ((runsGood_iff _).mp good).1
  have symm : Std.Symm (fun a b : Fragment => a.start + a.len ≤ b.start ∨ b.start + b.len ≤ a.start) :=
    ⟨fun _ _ h => h.symm⟩
  by_cases same : g = f
  · exact .inl same
  · exact .inr ((order.imp (S := fun a b : Fragment => a.start + a.len ≤ b.start ∨ b.start + b.len ≤ a.start)
      (fun h => .inl h)).forall inG inF same)

/-- Dropping the fragment at a start drops its cells. -/
theorem inRuns_dropStart {fs : List Fragment} {f : Fragment} (good : runsGood (fragmentRuns fs) = true) (mem : f ∈ fs)
    (k : Nat) : inRuns (fragmentRuns (fs.filter (fun g => g.start != f.start))) k =
      (inRuns (fragmentRuns fs) k && !inRuns [⟨f.start, f.len⟩] k) := by
  have proper (g : Fragment) (inG : g ∈ fs) : 1 ≤ g.len := (((runsGood_iff _).mp good).2 _ (List.mem_map_of_mem inG)).1
  have apart (g : Fragment) (inG : g ∈ fs) := fragments_apart good mem inG
  rw [Bool.eq_iff_iff]
  simp only [Bool.and_eq_true, Bool.not_eq_true', inRuns_iff, fragmentRuns, List.mem_map, List.mem_filter, bne_iff_ne,
    inRuns_cons, inRuns_nil, Bool.or_false, decide_eq_false_iff_not]
  constructor
  · rintro ⟨_, ⟨g, ⟨inG, ne⟩, rfl⟩, lo, hi⟩
    refine ⟨⟨_, ⟨g, inG, rfl⟩, lo, hi⟩, ?_⟩
    have := apart g inG
    rcases this with rfl | h | h
    · exact absurd rfl ne
    · simp only at *; omega
    · simp only at *; omega
  · rintro ⟨⟨_, ⟨g, inG, rfl⟩, lo, hi⟩, out⟩
    refine ⟨_, ⟨g, ⟨inG, fun same => ?_⟩, rfl⟩, lo, hi⟩
    have := proper g inG
    have := proper f mem
    rcases apart g inG with rfl | h | h
    · exact out ⟨lo, hi⟩
    · omega
    · omega

/-! ### Trimming (R66) -/

/-- Trimming moves cells from the top of the fragments to the runs above them. -/
theorem trimDown_spec (n : Nat) (fs : List Fragment) (gone : List Run)
    (good : runsGood (fragmentRuns fs.reverse ++ gone) = true) :
    runsGood (fragmentRuns (trimDown n fs gone).1.reverse ++ (trimDown n fs gone).2) = true ∧
      ∀ k, inRuns (fragmentRuns (trimDown n fs gone).1.reverse ++ (trimDown n fs gone).2) k =
        inRuns (fragmentRuns fs.reverse ++ gone) k := by
  fun_induction trimDown n fs gone with
  | case1 => exact ⟨good, fun _ => rfl⟩
  | case2 => exact ⟨good, fun _ => rfl⟩
  | case3 n f fs gone pos whole ih =>
    have same : fragmentRuns (f :: fs).reverse ++ gone = fragmentRuns fs.reverse ++ (⟨f.start, f.len⟩ :: gone) := by
      simp [fragmentRuns]
    rw [same] at good ⊢
    exact ih good
  | case4 n f fs gone pos part =>
    simp only [List.reverse_cons, fragmentRuns_append, List.append_assoc] at good ⊢
    obtain ⟨left, right, before⟩ := runsGood_append.mp good
    obtain ⟨proper, right, above⟩ := runsGood_cons.mp right
    unfold Run.Proper at proper
    simp only at proper
    constructor
    · refine runsGood_append.mpr ⟨left, runsGood_cons.mpr ⟨⟨?_, ?_⟩, runsGood_cons.mpr ⟨⟨?_, ?_⟩, right, ?_⟩, ?_⟩, ?_⟩
      all_goals try (simp only; omega)
      · intro q mem
        have := above q mem
        unfold Run.Before at *
        simp only at *
        omega
      · intro q mem
        rcases List.mem_cons.mp mem with rfl | mem
        · unfold Run.Before; simp only; omega
        · have := above q mem
          unfold Run.Before at *
          simp only at *
          omega
      · intro p inP q mem
        have low := before p inP _ List.mem_cons_self
        rcases List.mem_cons.mp mem with rfl | mem
        · exact low
        · have : q = ⟨f.start + (f.len - n), n⟩ ∨ q ∈ gone := List.mem_cons.mp mem
          rcases this with rfl | mem
          · unfold Run.Before at *; simp only at *; omega
          · exact before p inP q (List.mem_cons_of_mem _ mem)
    · intro k
      simp only [inRuns_append, fragmentRuns, List.map_cons, List.map_nil, inRuns_cons, inRuns_nil, Bool.or_false]
      rw [Bool.eq_iff_iff]
      simp only [Bool.or_eq_true, decide_eq_true_eq]
      have : (f.start ≤ k ∧ k < f.start + (f.len - n)) ∨ (f.start + (f.len - n) ≤ k ∧ k < f.start + (f.len - n) + n) ↔
          f.start ≤ k ∧ k < f.start + f.len := by omega
      tauto

/-- Trimming splits the cells into those left and those removed (R66). -/
theorem trim_spec (n : Nat) (fs : List Fragment) (good : runsGood (fragmentRuns fs) = true) :
    runsGood (fragmentRuns (trim n fs).1 ++ (trim n fs).2) = true ∧
      ∀ k, inRuns (fragmentRuns (trim n fs).1 ++ (trim n fs).2) k = inRuns (fragmentRuns fs) k := by
  have spec := trimDown_spec n fs.reverse []
  simp only [List.reverse_reverse, List.append_nil] at spec
  exact spec good

/-! ### Joining (R59, R72) -/

theorem mem_insertFragment (f : Fragment) (fs : List Fragment) (g : Fragment) :
    g ∈ insertFragment f fs ↔ g = f ∨ g ∈ fs := by
  induction fs with
  | nil => simp [insertFragment]
  | cons h rest ih =>
    unfold insertFragment
    split
    · simp
    · simp only [List.mem_cons, ih]
      tauto

theorem inRuns_insertFragment (f : Fragment) (fs : List Fragment) (k : Nat) :
    inRuns (fragmentRuns (insertFragment f fs)) k = (inRuns [⟨f.start, f.len⟩] k || inRuns (fragmentRuns fs) k) := by
  rw [Bool.eq_iff_iff]
  simp only [Bool.or_eq_true, inRuns_iff, fragmentRuns, List.mem_map, mem_insertFragment, List.mem_singleton]
  constructor
  · rintro ⟨_, ⟨g, rfl | mem, rfl⟩, inside⟩
    · exact .inl ⟨_, rfl, inside⟩
    · exact .inr ⟨_, ⟨g, mem, rfl⟩, inside⟩
  · rintro (⟨_, rfl, inside⟩ | ⟨_, ⟨g, mem, rfl⟩, inside⟩)
    · exact ⟨_, ⟨f, .inl rfl, rfl⟩, inside⟩
    · exact ⟨_, ⟨g, .inr mem, rfl⟩, inside⟩

theorem insertFragment_good {f : Fragment} {fs : List Fragment} (good : runsGood (fragmentRuns fs) = true)
    (proper : Run.Proper ⟨f.start, f.len⟩)
    (clear : ∀ k, inRuns [⟨f.start, f.len⟩] k = true → inRuns (fragmentRuns fs) k = false) :
    runsGood (fragmentRuns (insertFragment f fs)) = true := by
  induction fs with
  | nil => exact runsGood_cons.mpr ⟨proper, rfl, nofun⟩
  | cons g rest ih =>
    obtain ⟨properG, goodRest, above⟩ := runsGood_cons.mp good
    have meets (k : Nat) : ¬ ((f.start ≤ k ∧ k < f.start + f.len) ∧ g.start ≤ k ∧ k < g.start + g.len) := by
      rintro ⟨inF, inG⟩
      have := clear k (by simpa [inRuns] using inF)
      rw [show inRuns (fragmentRuns (g :: rest)) k = true from (inRuns_iff ..).mpr ⟨_, List.mem_cons_self, inG⟩] at this
      cases this
    unfold Run.Proper at proper properG
    simp only at proper properG
    unfold insertFragment
    split
    next low =>
      have atG := meets g.start
      have first : Run.Before ⟨f.start, f.len⟩ ⟨g.start, g.len⟩ := by unfold Run.Before; simp only; omega
      refine runsGood_cons.mpr ⟨proper, good, fun q mem => ?_⟩
      rcases List.mem_cons.mp mem with rfl | mem
      · exact first
      · have := above q mem
        unfold Run.Before at *
        simp only at *
        omega
    next high =>
      have atF := meets f.start
      refine runsGood_cons.mpr ⟨properG, ih goodRest (fun k inF => ?_), fun q mem => ?_⟩
      · have := clear k inF
        rw [fragmentRuns, List.map_cons, inRuns_cons, Bool.or_eq_false_iff] at this
        exact this.2
      · obtain ⟨x, inX, rfl⟩ := List.mem_map.mp mem
        rcases (mem_insertFragment ..).mp inX with rfl | inX
        · unfold Run.Before; simp only; omega
        · exact above _ (List.mem_map_of_mem inX)

theorem joinFragment_spec {f : Fragment} {above : List Fragment} (good : runsGood (fragmentRuns (f :: above)) = true) :
    runsGood (fragmentRuns (joinFragment f above)) = true ∧
      ∀ k, inRuns (fragmentRuns (joinFragment f above)) k = inRuns (fragmentRuns (f :: above)) k := by
  unfold joinFragment
  split
  · exact ⟨good, fun _ => rfl⟩
  next g rest =>
    split
    next abut =>
      obtain ⟨proper, good, -⟩ := runsGood_cons.mp good
      obtain ⟨properG, good, after⟩ := runsGood_cons.mp good
      unfold Run.Proper at proper properG
      simp only at proper properG
      refine ⟨runsGood_cons.mpr ⟨⟨by simp only; omega, by simp only; omega⟩, good, fun q mem => ?_⟩, fun k => ?_⟩
      · have := after q mem
        unfold Run.Before at *
        simp only at *
        omega
      · rw [Bool.eq_iff_iff]
        simp only [fragmentRuns, List.map_cons, inRuns_cons, Bool.or_eq_true, decide_eq_true_eq]
        rw [← or_assoc]
        exact or_congr (by omega) Iff.rfl
    next => exact ⟨good, fun _ => rfl⟩

/-- What lies behind a run lies behind it however its cells are cut into runs. -/
theorem before_of_inRuns {r : Run} {rs qs : List Run} (before : ∀ q ∈ rs, r.Before q) (good : runsGood qs = true)
    (same : ∀ k, inRuns qs k = inRuns rs k) : ∀ q ∈ qs, r.Before q := by
  intro q mem
  have := ((runsGood_iff _).mp good).2 q mem
  unfold Run.Proper at this
  have here : inRuns rs q.start = true := same q.start ▸ (inRuns_iff ..).mpr ⟨q, mem, le_refl _, by omega⟩
  obtain ⟨p, inP, low, -⟩ := (inRuns_iff ..).mp here
  have := before p inP
  unfold Run.Before at *
  omega

theorem joinFragments_spec {fs : List Fragment} (good : runsGood (fragmentRuns fs) = true) :
    runsGood (fragmentRuns (fs.foldr joinFragment [])) = true ∧
      ∀ k, inRuns (fragmentRuns (fs.foldr joinFragment [])) k = inRuns (fragmentRuns fs) k := by
  induction fs with
  | nil => exact ⟨rfl, fun _ => rfl⟩
  | cons f fs ih =>
    obtain ⟨proper, rest, above⟩ := runsGood_cons.mp good
    obtain ⟨joined, same⟩ := ih rest
    have spec := joinFragment_spec (f := f)
      (runsGood_cons.mpr ⟨proper, joined, before_of_inRuns above joined same⟩)
    refine ⟨spec.1, fun k => (spec.2 k).trans ?_⟩
    simp only [fragmentRuns, List.map_cons, inRuns_cons] at same ⊢
    rw [same k]

/-- Adding runs outside the fragments adds their cells (R59, R72). -/
theorem addRuns_spec {fs : List Fragment} {rs : List Run} (good : runsGood (fragmentRuns fs) = true)
    (added : runsGood rs = true) (clear : ∀ k, inRuns rs k = true → inRuns (fragmentRuns fs) k = false) :
    runsGood (fragmentRuns (addRuns fs rs)) = true ∧
      ∀ k, inRuns (fragmentRuns (addRuns fs rs)) k = (inRuns (fragmentRuns fs) k || inRuns rs k) := by
  have inserted : runsGood (fragmentRuns (rs.foldl (fun acc r => insertFragment ⟨r.start, r.len, none⟩ acc) fs)) = true ∧
      ∀ k, inRuns (fragmentRuns (rs.foldl (fun acc r => insertFragment ⟨r.start, r.len, none⟩ acc) fs)) k =
        (inRuns (fragmentRuns fs) k || inRuns rs k) := by
    induction rs generalizing fs with
    | nil => exact ⟨good, fun k => by simp⟩
    | cons r rs ih =>
      obtain ⟨proper, rest, above⟩ := runsGood_cons.mp added
      have step := insertFragment_good (f := ⟨r.start, r.len, none⟩) good proper fun k here => clear k (by
        rw [inRuns_cons]; rw [inRuns_cons, inRuns_nil, Bool.or_false] at here; rw [here, Bool.true_or])
      have cells := inRuns_insertFragment ⟨r.start, r.len, none⟩ fs
      obtain ⟨good', same⟩ := ih step rest fun k here => by
        rw [cells, Bool.or_eq_false_iff]
        refine ⟨?_, clear k (by rw [inRuns_cons, here, Bool.or_true])⟩
        by_contra both
        exact absurd here (by
          rw [inRuns_append_apart (rs := [r]) (qs := rs) added (Bool.not_eq_false _ ▸ both)]
          exact Bool.false_ne_true)
      refine ⟨good', fun k => (same k).trans ?_⟩
      rw [cells, show inRuns (r :: rs) k = (inRuns [r] k || inRuns rs k) from inRuns_append [r] rs k, ← Bool.or_assoc,
        Bool.or_comm (inRuns _ k) (inRuns [r] k)]
  obtain ⟨joined, same⟩ := joinFragments_spec inserted.1
  exact ⟨joined, fun k => (same k).trans (inserted.2 k)⟩

/-! ### Free runs and claims (R53, R59) -/

/-- The free runs ascend, and their cells are free (R53). -/
theorem freeRunsBelow_spec (cs : List Covering) (n : Nat) (acc : List Run) (bound : n ≤ Config.cells)
    (good : runsGood acc = true) (above : ∀ q ∈ acc, n ≤ q.start) (free : ∀ k, inRuns acc k = true → cellFree cs k = true) :
    runsGood (freeRunsBelow cs n acc) = true ∧ ∀ k, inRuns (freeRunsBelow cs n acc) k = true → cellFree cs k = true := by
  induction n generalizing acc with
  | zero => exact ⟨good, free⟩
  | succ n ih =>
    have alone (acc : List Run) (good : runsGood acc = true) (above : ∀ q ∈ acc, n + 1 ≤ q.start)
        (free : ∀ k, inRuns acc k = true → cellFree cs k = true) (here : cellFree cs n = true) :
        runsGood (freeRunsBelow cs n (⟨n, 1⟩ :: acc)) = true ∧
          ∀ k, inRuns (freeRunsBelow cs n (⟨n, 1⟩ :: acc)) k = true → cellFree cs k = true := by
      refine ih _ (by omega) (runsGood_cons.mpr ⟨⟨le_refl _, bound⟩, good, above⟩) (fun q mem => ?_) (fun k inK => ?_)
      · rcases List.mem_cons.mp mem with rfl | mem
        · exact le_refl _
        · have := above q mem; omega
      · rw [inRuns_cons, Bool.or_eq_true, decide_eq_true_eq] at inK
        rcases inK with ⟨lo, hi⟩ | inK
        · simp only at lo hi
          rwa [show k = n by omega]
        · exact free k inK
    unfold freeRunsBelow
    split
    next here =>
      split
      next r rest =>
        split
        next abut =>
          obtain ⟨proper, goodRest, after⟩ := runsGood_cons.mp good
          unfold Run.Proper at proper
          refine ih _ (by omega) (runsGood_cons.mpr ⟨⟨by simp only; omega, by simp only; omega⟩, goodRest, fun q mem => ?_⟩)
            (fun q mem => ?_) (fun k inK => ?_)
          · have := after q mem
            unfold Run.Before at *
            simp only
            omega
          · rcases List.mem_cons.mp mem with rfl | mem
            · exact le_refl _
            · have := above q (List.mem_cons_of_mem _ mem); omega
          · rw [inRuns_cons, Bool.or_eq_true, decide_eq_true_eq] at inK
            simp only at inK
            by_cases same : k = n
            · rwa [same]
            · refine free k ?_
              rw [inRuns_cons, Bool.or_eq_true, decide_eq_true_eq]
              rcases inK with ⟨lo, hi⟩ | inK
              · exact .inl ⟨by omega, by omega⟩
              · exact .inr inK
        next => exact alone _ good above free here
      next => exact alone [] rfl nofun nofun here
    next => exact ih _ (by omega) good (fun q mem => by have := above q mem; omega) free

theorem freeRuns_spec (s : State) :
    runsGood s.freeRuns = true ∧ ∀ k, inRuns s.freeRuns k = true → cellFree s.coverings k = true :=
  freeRunsBelow_spec _ _ _ (le_refl _) rfl nofun nofun

/-- A claim's runs ascend and are taken from the runs offered (R59). -/
theorem takeRuns_spec (current : List Fragment) (rs : List Run) (need : Nat) (taken : List Run)
    (good : runsGood (taken ++ rs) = true) : runsGood (takeRuns current rs need taken) = true ∧
      ∀ k, inRuns (takeRuns current rs need taken) k = true → inRuns (taken ++ rs) k = true := by
  fun_induction takeRuns current rs need taken with
  | case1 => simpa using good
  | case2 r rs taken => exact ⟨(runsGood_append.mp good).1, fun k here => by rw [inRuns_append, here, Bool.true_or]⟩
  | case3 r rs need taken pos piece more fits ih =>
    obtain ⟨before, after, order⟩ := runsGood_append.mp good
    obtain ⟨proper, rest, above⟩ := runsGood_cons.mp after
    unfold Run.Proper at proper
    have fits : runsGood (more ++ rs) = true := by
      rw [show more ++ rs = taken ++ piece :: rs from List.append_cons .. |>.symm]
      refine runsGood_append.mpr ⟨before, runsGood_cons.mpr ⟨⟨?_, ?_⟩, rest, fun q mem => ?_⟩, fun p inP q mem => ?_⟩
      · simp only [piece]; omega
      · simp only [piece]; omega
      · have := above q mem
        unfold Run.Before at *
        simp only [piece]
        omega
      · rcases List.mem_cons.mp mem with rfl | mem
        · exact order p inP r List.mem_cons_self
        · exact order p inP q (List.mem_cons_of_mem _ mem)
    obtain ⟨good', sub⟩ := ih fits
    refine ⟨good', fun k here => ?_⟩
    have := sub k here
    simp only [more, inRuns_append, inRuns_cons, inRuns_nil, Bool.or_eq_true, decide_eq_true_eq, piece] at this ⊢
    rcases this with (this | this | this) | this
    · exact .inl this
    · exact .inr (.inl (by omega))
    · cases this
    · exact .inr (.inr this)
  | case4 r rs need taken pos piece more full ih =>
    have skip : (taken ++ rs).Sublist (taken ++ r :: rs) := (List.Sublist.refl taken).append (List.sublist_cons_self r rs)
    obtain ⟨good', sub⟩ := ih (runsGood_sublist skip good)
    refine ⟨good', fun k here => ?_⟩
    obtain ⟨q, mem, inside⟩ := (inRuns_iff ..).mp (sub k here)
    exact (inRuns_iff ..).mpr ⟨q, skip.subset mem, inside⟩

end Sys2Proof.Machine
end

