-- ==== Sys2Proof/Proofs/LostCell.lean ====
section
/-! SUPPORT. The end of a slot that was driven and read back otherwise: relay records of payload cells (R18), and the loss of a
cell (R15, R77, R78). -/

namespace Sys2Proof.Machine

/-! ### The end of a slot -/

theorem exec_slotEnd {s : State} (tag : Byte) (content : List Byte) (on : s.inReset = false) (lock : s.time.lock ≠ .unset) :
    exec (.slotEnd tag content) s = .next (endSlot tag content s) := by
  show Host.Outcome.next (if s.counting then endSlot tag content s else s) = _
  rw [counting_of on lock]
  rfl

/-- The tag of a cell is the source's alert lane's where its number is the source's (R14). -/
theorem eq_alertTag_iff (n : Node) (tag : Byte) : tag = tagOf n (.lane .alert) ↔ tag.toNat = n.val := by
  rw [← BitVec.toNat_inj, show (tagOf n (.lane .alert)).toNat = n.val from by
    simp only [tagOf, byteOf, BitVec.toNat_ofNat]; omega]

theorem relayRecord_eq (s : State) (cell : Nat) (tag : Byte) (content : List Byte) : relayRecord s cell tag content =
    ⟨cell, content.take (gradePayload s.trunk.relayGrade),
      decide (∃ n, s.trunk.relaySource = some n ∧ tag.toNat = n.val), protectionGood s.trunk.relayGrade content⟩ := by
  unfold relayRecord
  congr 1
  cases s.trunk.relaySource with
  | none => simp
  | some n =>
    rw [Bool.eq_iff_iff]
    simp [eq_alertTag_iff]

theorem RelayStep.relayHandOver (r : RelayCell) (s : State) :
    RelayStep (s.setTrunk { s.trunk with relayGot := s.trunk.relayGot ++ [r] }) (relayHandOver r s) := by
  unfold Machine.relayHandOver
  simp only [keeping_relayEnd]
  exact cond _ (relayEnd _) (refl _)

/-- A payload slot hands over its record where its cell is of the relay cell set (R18). -/
theorem RelayStep.payloadSlot (cell : Nat) (tag : Byte) (content : List Byte) (s : State) :
    RelayStep (s.setTrunk { s.trunk with relayGot := if cell ∈ s.trunk.relaySet then
      s.trunk.relayGot ++ [relayRecord s cell tag content] else s.trunk.relayGot }) (payloadSlot cell tag content s) := by
  unfold Machine.payloadSlot
  by_cases inSet : cell ∈ s.trunk.relaySet
  · rw [if_pos inSet, if_pos (List.contains_iff_mem.mpr inSet)]
    exact relayHandOver ..
  · rw [if_neg inSet, if_neg (by simpa using inSet)]
    exact refl s

/-! ### What a lost cell does (R77, R78) -/

/-- A payload slot driven for a lane that reads back another tag: the lane is told of the loss, and the cell is routed on. -/
theorem endSlot_lostCell {s : State} {tag : Byte} {i : LaneId} (content : List Byte) (trunk : s.onTrunk = true)
    (inProgress : s.trunk.inProgress = true) (driving : s.trunk.slotState = .driving)
    (driver : s.trunk.driver = some (.lane i)) (lost : tag ≠ s.trunk.tag) (k : 25 ≤ s.trunk.slotsBegun) :
    endSlot tag content s = payloadSlot (s.trunk.slotsBegun - 25) tag content (lostSlot i (s.trunk.slotsBegun - 25) s.pos
      (s.setTrunk { s.trunk with inProgress := false, slotState := .yielded, driver := none })) := by
  have far : ¬ s.trunk.slotsBegun - 1 < Config.directorySlots := by simp only [Config.directorySlots]; omega
  have cell : s.trunk.slotsBegun - 1 - Config.directorySlots = s.trunk.slotsBegun - 25 := by
    simp only [Config.directorySlots]; omega
  have result : slotResult s.trunk tag content = .yielded := by simp [slotResult, driveResult, driving, lost]
  have told (u : State) (h : u.onTrunk = true) : reportLoss (s.trunk.slotsBegun - 1) (some (.lane i)) u =
      lostSlot i (s.trunk.slotsBegun - 25) u.pos u := by simp [reportLoss, h, cell]
  unfold endSlot
  rw [if_pos inProgress]
  dsimp only
  rw [result, driver, told _ (by exact trunk)]
  simp only [routeSlot, if_neg far, cell]
  rfl

/-- The first loss in a row of frames marks the fragment (R77). -/
theorem lostSlot_marks {s : State} {i : LaneId} {cell : Nat} {p : FramePos} {f : Fragment}
    (holds : (s.tenancy.get i).fragments.find? (fun g => decide (g.start ≤ cell ∧ cell < g.start + g.len)) = some f)
    (fresh : f.mark ≠ some (p - 1)) : lostSlot i cell p s = onTenancy i (fun t => { t with
      fragments := t.fragments.map (fun g => if g.start = f.start then { g with mark := some p } else g) }) s := by
  unfold lostSlot
  rw [holds]
  exact if_neg fresh

/-- A loss in two frames in a row drops the fragment (R78). -/
theorem lostSlot_drops {s : State} {i : LaneId} {cell : Nat} {p : FramePos} {f : Fragment}
    (holds : (s.tenancy.get i).fragments.find? (fun g => decide (g.start ≤ cell ∧ cell < g.start + g.len)) = some f)
    (marked : f.mark = some (p - 1)) : lostSlot i cell p s = dropFragment i f s := by
  unfold lostSlot
  rw [holds]
  exact if_pos marked

/-- A pending release keeps the cells that are not gone (R73, R78). -/
theorem dropFromRelease_spec (gone : List Run) (c : Option PendingChange) :
    match c, dropFromRelease gone c with
    | none, r => r = none
    | some c, some r => if c.kind = .claim then r = c
        else r = { c with runs := r.runs } ∧ ∀ k, inRuns r.runs k = (inRuns c.runs k && !inRuns gone k)
    | some c, none => c.kind = .release ∧ ∀ k, inRuns c.runs k = true → inRuns gone k = true := by
  cases c with
  | none => rfl
  | some c =>
    unfold dropFromRelease
    by_cases release : c.kind = .release
    · simp only [release, if_true]
      cases left : runsMinus c.runs gone with
      | nil =>
        refine ⟨release, fun k here => ?_⟩
        have := inRuns_runsMinus c.runs gone k
        rw [left, here, inRuns_nil, Bool.true_and] at this
        simpa using this.symm
      | cons r rest =>
        simp only [List.isEmpty_cons, Bool.false_eq_true, if_false, release, reduceCtorEq]
        exact ⟨trivial, fun k => by rw [← left, inRuns_runsMinus]⟩
    · have claim : c.kind = .claim := by cases h : c.kind <;> simp_all
      simp [claim]

/-- The lane's tenancy once a fragment is dropped, but for its restore target (R78). -/
def droppedTenancy (s : State) (i : LaneId) (f : Fragment) : Tenancy :=
  { s.tenancy.get i with
    fragments := (s.tenancy.get i).fragments.filter (fun g => g.start != f.start)
    change := dropFromRelease [⟨f.start, f.len⟩] (s.tenancy.get i).change
    deferral := .none
    backoff := lossBackoff s i }

theorem dropFragment_eq (i : LaneId) (f : Fragment) (s : State) :
    dropFragment i f s = reportLane i (postSelf .cellLost (some i) f.start (s.setTenancy i (droppedTenancy s i f))) := rfl

theorem dropFragment_tenancy (i : LaneId) (f : Fragment) (s : State) : (dropFragment i f s).tenancy.get i =
    { droppedTenancy s i f with restoreTarget := ((dropFragment i f s).tenancy.get i).restoreTarget } := by
  have own := reportLane_tenancy i i (postSelf .cellLost (some i) f.start (s.setTenancy i (droppedTenancy s i f)))
  rw [dropFragment_eq, own]
  simp [postSelf, post]

theorem dropFragment_state (i : LaneId) (f : Fragment) (s : State) : ((dropFragment i f s).units.get i).state =
    (s.setTenancy i (droppedTenancy s i f)).reportedState i := by
  rw [dropFragment_eq, reportLane_state]
  exact reportedState_congr rfl rfl rfl _ rfl

theorem dropFragment_posted (i : LaneId) (f : Fragment) {s : State} (room : s.Room 1) :
    PostedFirst s (dropFragment i f s) [(.cellLost, s.mode.node.val, some i, f.start)] := by
  rw [dropFragment_eq]
  exact .of_prefix (post_posted (s := s.setTenancy i (droppedTenancy s i f)) room ..) (BlockStep.reportLane ..).queue

theorem lostSlot_tenancy_of_ne {i j : LaneId} (ne : j ≠ i) (cell : Nat) (p : FramePos) (s : State) :
    (lostSlot i cell p s).tenancy.get j = s.tenancy.get j := by
  have other (t : Tenancy) : (s.setTenancy i t).tenancy.get j = s.tenancy.get j := by
    simp [Quad.get_set_of_ne _ _ _ _ ne]
  unfold lostSlot
  split
  · rfl
  · split
    · exact (reportLane_tenancy_of_ne ne _).trans (other (droppedTenancy s i _))
    · exact other _

/-- Settles O20: the slot's end is the lane's loss and the cell's hand-over, which touches only alerts and store. -/
theorem lostCellMarksThenDrops : Obligations.LostCellMarksThenDrops := by
  intro tag content i f s on lock mode inProgress driving driver lost k holds
  dsimp only
  set cell := s.trunk.slotsBegun - 25 with hcell
  set u := s.setTrunk { s.trunk with inProgress := false, slotState := .yielded, driver := none } with hu
  set v := lostSlot i cell s.pos u with hv
  have trunk : s.onTrunk = true := by simp [State.onTrunk, on, mode]
  have block : BlockStep u v := .lostSlot ..
  have relay := RelayStep.payloadSlot cell tag content v
  have done : endSlot tag content s = payloadSlot cell tag content v :=
    endSlot_lostCell content trunk inProgress driving driver lost k
  set t := payloadSlot cell tag content v with ht
  have state := relay.state
  have tenancy : t.tenancy = v.tenancy := by rw [state]; rfl
  have units : t.units = v.units := by rw [state]; rfl
  have events : t.events = v.events := by rw [state]; rfl
  refine ⟨t, (exec_slotEnd tag content on lock).trans (congrArg _ done), ?_, fun fresh => ?_, fun marked => ?_,
    fun j ne => ?_, ?_, ?_, ?_, ?_, ?_⟩
  · rw [state]
    simp only [State.setTrunk, relayRecord_eq, block.trunk]
    rfl
  · have marks : v = _ := lostSlot_marks (s := u) holds fresh
    rw [tenancy, units, events, marks]
    simp only [onTenancy, State.setTenancy_tenancy, Quad.get_set_self]
    refine ⟨?_, fun g mem start => ?_, rfl, rfl⟩
    · simp only [Tenancy.runs, List.map_map]
      refine List.map_congr_left fun g _ => ?_
      simp only [Function.comp_apply]
      split <;> rfl
    · obtain ⟨h, inH, rfl⟩ := List.mem_map.mp mem
      split at start
      next same => simp [same, State.pos, framePos, State.frameIndex, Config.frameMicros]
      next differs => exact absurd start differs
  · have drops : v = dropFragment i f u := lostSlot_drops (s := u) holds marked
    rw [tenancy, units, drops, dropFragment_tenancy, dropFragment_state]
    refine ⟨rfl, rfl, ?_, dropFromRelease_spec .., ?_, fun j ne => ?_, fun room => ?_⟩
    · cases i <;> rfl
    · have cells : (u.setTenancy i (droppedTenancy u i f)).cells i = (droppedTenancy u i f).cells := by simp [State.cells]
      have unit : ((u.setTenancy i (droppedTenancy u i f)).units.get i).state = (s.units.get i).state := rfl
      cases i with
      | alert =>
        simp only [State.reportedState, cells, State.setTenancy_tenancy, Quad.get_set_self, unit]
        cases (s.units.get .alert).state <;> rfl
      | svc l =>
        have restore : (droppedTenancy u (.svc l) f).restoreTarget = (s.tenancy.get (.svc l)).restoreTarget := rfl
        have stack : (u.setTenancy (.svc l) (droppedTenancy u (.svc l) f)).alerts.stack = s.alerts.stack := rfl
        simp only [State.reportedState, State.setTenancy_tenancy, Quad.get_set_self, unit]
        cases (s.units.get (.svc l)).state with
        | restoring =>
          simp only [State.restoredState, State.bottomRestore, cells, restore, stack]
          cases (s.tenancy.get (.svc l)).restoreTarget with
          | none => rfl
          | some r => cases s.alerts.stack.getLast? <;> rfl
        | closed | opening | onAir | squeezed | closing => simp only [cells] <;> rfl
    · exact (dropFragment_eq i f u ▸ reportLane_unit_of_ne ne _ :)
    · obtain ⟨more, posted⟩ := dropFragment_posted i f (s := u) room
      exact ⟨more, by rw [Posted, events, drops]; exact posted⟩
  · rw [tenancy]
    exact lostSlot_tenancy_of_ne ne ..
  all_goals rw [state]
  · exact block.time
  · exact block.mode
  · exact block.peers
  · exact block.config
  · exact block.contracts

end Sys2Proof.Machine
end

