-- ==== Sys2Proof/Proofs/SlotEnd.lean ====
section
/-! SUPPORT. How a slot ends (R15 to R18): what its end leaves of the Trunk Interface, and what a slot that is cut leaves. -/

namespace Sys2Proof.Machine

/-! ### The Trunk Interface through a hand-over -/

/-- From `s` to `t`, with no slot driven, the Trunk Interface is as it was. -/
structure TrunkKept (s t : State) : Prop where
  kept : s.trunk.slotState ≠ .driving → t.trunk = s.trunk

namespace TrunkKept

variable {s t u : State}

theorem refl (s : State) : TrunkKept s s := ⟨fun _ => rfl⟩

theorem trans (h : TrunkKept s t) (k : TrunkKept t u) : TrunkKept s u :=
  ⟨fun idle => (k.kept (h.kept idle ▸ idle)).trans (h.kept idle)⟩

theorem ofBlock (h : BlockStep s t) : TrunkKept s t := ⟨fun _ => h.trunk⟩

theorem cond (c : Prop) [Decidable c] (h : TrunkKept s t) (k : TrunkKept s u) : TrunkKept s (if c then t else u) := by
  split
  · exact h
  · exact k

theorem setPeer (s : State) (m : Node) (e : PeerEntry) : TrunkKept s (s.setPeer m e) := ⟨fun _ => rfl⟩

/-- A line that drives nothing has nothing to release. -/
theorem setMode (m : Mode) (s : State) : TrunkKept s (setMode m s) := by
  refine ⟨fun idle => ?_⟩
  have release : s.trunk.release = s.trunk := by
    unfold Trunk.release
    split
    next driving => exact absurd driving idle
    next => rfl
  unfold Machine.setMode
  dsimp only
  split
  · rfl
  · exact release

theorem duplicateFound (k : Nat) (s : State) : TrunkKept s (duplicateFound k s) :=
  (ofBlock (.postSelf ..)).trans (setMode .halted _)

theorem unheardReport (m : Node) (s : State) : TrunkKept s (unheardReport m s) := by
  have silence (s : State) : TrunkKept s (silencePeer m s) := (setPeer ..).trans (ofBlock (.post ..))
  have lose (s : State) : TrunkKept s (losePeer m s) :=
    (setPeer ..).trans ((ofBlock (.post ..)).trans (ofBlock (.peerLossAlerts ..)))
  unfold Machine.unheardReport
  split
  · exact refl s
  · dsimp only
    generalize counted : s.setPeer m _ = t
    have step : TrunkKept s t := counted ▸ setPeer ..
    refine step.trans ?_
    split
    · exact cond _ (silence _) (refl _)
    · exact cond _ (silence _) (refl _)
    · exact cond _ (lose _) (refl _)
    · exact refl _
    · exact refl _

theorem storeManifest (m : Node) (x : Manifest) (s : State) : TrunkKept s (storeManifest m x s) := by
  have posted (was : PeerState) (b : Bool) (h : Header) (s : State) : TrunkKept s (postStored m was b h s) := by
    unfold postStored
    split <;> split <;> exact ⟨fun _ => rfl⟩
  have checked (b : Bool) (s : State) : TrunkKept s (checkConflicts m b x s) :=
    cond _ (ofBlock ((BlockStep.forEach (fun _ _ => .conflictCheck ..) _ _).trans
      (.forEach (fun _ _ => .conflictCheck ..) _ _))) (refl s)
  exact (posted ..).trans ((setPeer ..).trans ((checked ..).trans (ofBlock (.headerStored ..))))

theorem passManifest (m : Node) (heard : Option (List Byte)) (s : State) : TrunkKept s (passManifest m heard s) := by
  have adopt (h : Header) (s : State) : TrunkKept s (adoptCycle m h s) := cond _ ⟨fun _ => rfl⟩ (refl s)
  unfold Machine.passManifest
  split
  · exact unheardReport m s
  · exact cond _ (unheardReport m s) ((cond _ (adopt ..) (refl s)).trans (storeManifest ..))

theorem handOver (m : Node) (heard : Option (List Byte)) (s : State) : TrunkKept s (handOver m heard s) := by
  unfold Machine.handOver
  split
  · exact refl s
  · exact refl s
  · exact unheardReport m s
  · refine cond _ ?_ (passManifest ..)
    split
    · exact duplicateFound ..
    · exact refl s
  all_goals exact cond _ (refl s) (passManifest ..)

end TrunkKept

/-! ### What a slot's end leaves (R15, R16) -/

/-- A slot that ended reads as `result`, and nothing is driven. -/
structure Trunk.Ended (t : Trunk) (result : SlotState) : Prop where
  inProgress : t.inProgress = false
  slotState : t.slotState = result
  driver : t.driver = none

theorem ended_directorySlot {s : State} {x : SlotState} (k : Nat) (r : DirRead) (ended : s.trunk.Ended x) (idle : x ≠ .driving) :
    (directorySlot k r s).trunk.Ended x := by
  have kept (m : Node) (heard : Option (List Byte)) :=
    (TrunkKept.handOver m heard (s.setTrunk { s.trunk with directory := setReading s.trunk.directory (k % 3) r })).kept
      (by rw [State.setTrunk_trunk]; exact ended.slotState ▸ idle)
  unfold directorySlot
  dsimp only
  split
  · rw [kept]; exact ⟨ended.inProgress, ended.slotState, ended.driver⟩
  · exact ⟨ended.inProgress, ended.slotState, ended.driver⟩

theorem ended_routeSlot {s : State} {x : SlotState} (k : Nat) (tag : Byte) (content : List Byte) (ended : s.trunk.Ended x)
    (idle : x ≠ .driving) : (routeSlot k tag content s).trunk.Ended x := by
  unfold routeSlot
  split
  · exact ended_directorySlot _ _ ended idle
  · rw [(RelayStep.payloadSlot ..).state]
    exact ⟨ended.inProgress, ended.slotState, ended.driver⟩

theorem reportLoss_trunk (k : Nat) (d : Option Driver) (s : State) : (reportLoss k d s).trunk = s.trunk := by
  unfold reportLoss
  split
  · split
    · exact (BlockStep.lostSlot ..).trunk
    · rfl
  · rfl

/-- The state in which a slot has ended, what it read still to be routed on. -/
def endedSlot (tag : Byte) (content : List Byte) (s : State) : State :=
  s.setTrunk { s.trunk with inProgress := false, slotState := slotResult s.trunk tag content, driver := none }

theorem endSlot_eq {s : State} (tag : Byte) (content : List Byte) (inProgress : s.trunk.inProgress = true) :
    endSlot tag content s = match slotResult s.trunk tag content with
      | .mismatch => duplicateFound (s.trunk.slotsBegun - 1) (endedSlot tag content s)
      | .yielded => routeSlot (s.trunk.slotsBegun - 1) tag content
          (reportLoss (s.trunk.slotsBegun - 1) s.trunk.driver (endedSlot tag content s))
      | _ => routeSlot (s.trunk.slotsBegun - 1) tag content (endedSlot tag content s) := by
  unfold endSlot
  rw [if_pos inProgress]
  rfl

theorem ended_endSlot {s : State} (tag : Byte) (content : List Byte) (inProgress : s.trunk.inProgress = true) :
    (endSlot tag content s).trunk.Ended (slotResult s.trunk tag content) := by
  have idle := NodeStep.slotResult_ne_driving s.trunk tag content
  have ended : (endedSlot tag content s).trunk.Ended (slotResult s.trunk tag content) := ⟨rfl, rfl, rfl⟩
  rw [endSlot_eq tag content inProgress]
  split
  · rw [(TrunkKept.duplicateFound ..).kept (by exact idle)]; exact ended
  · exact ended_routeSlot _ _ _ (by rw [reportLoss_trunk]; exact ended) idle
  · exact ended_routeSlot _ _ _ ended idle

/-- The result as the statement of the slot's end spells it (R15, R16). -/
theorem slotResult_of {s : State} (tag : Byte) (content : List Byte)
    (kind : s.trunk.slotState = .driving ∨ s.trunk.slotState = .listening) : slotResult s.trunk tag content =
      if s.trunk.slotState = .listening then .listening else if tag ≠ s.trunk.tag then .yielded
      else if content ≠ s.trunk.content then .mismatch else .won := by
  rcases kind with kind | kind <;> simp [slotResult, driveResult, kind]

/-- A lost slot that no lane holds, and that is no lane's, is reported to none. -/
theorem reportLoss_none {s : State} {k : Nat} {d : Option Driver}
    (none : ∀ i, d = some (.lane i) → inRuns (s.tenancy.get i).runs (k - 24) = false) : reportLoss k d s = s := by
  unfold reportLoss
  split
  next i =>
    split
    next =>
      have free := none i rfl
      have missing : (s.tenancy.get i).fragments.find?
          (fun f => decide (f.start ≤ k - 24 ∧ k - 24 < f.start + f.len)) = .none := by
        rw [List.find?_eq_none]
        intro f mem inside
        have held : inRuns (s.tenancy.get i).runs (k - 24) = true :=
          (inRuns_iff ..).mpr ⟨⟨f.start, f.len⟩, List.mem_map_of_mem mem, of_decide_eq_true inside⟩
        rw [free] at held
        cases held
      unfold lostSlot
      rw [show Config.directorySlots = 24 from rfl, missing]
    next => rfl
  next => rfl

/-- A slot without a mismatch, and without a loss that a lane is told of, is routed on and nothing more. -/
theorem endSlot_routed {s : State} {tag : Byte} {content : List Byte} (inProgress : s.trunk.inProgress = true)
    (sent : slotResult s.trunk tag content ≠ .mismatch) (unlost : slotResult s.trunk tag content = .yielded →
      reportLoss (s.trunk.slotsBegun - 1) s.trunk.driver (endedSlot tag content s) = endedSlot tag content s) :
    endSlot tag content s = routeSlot (s.trunk.slotsBegun - 1) tag content (endedSlot tag content s) := by
  rw [endSlot_eq tag content inProgress]
  split
  next h => exact absurd h sent
  next h => rw [unlost h]
  next => rfl

/-- A relay cell handed over changes alerts and store alone, and these only as the frame's relay ends (R18). -/
theorem relayHandOver_spec (r : RelayCell) (s : State) :
    let handed := s.setTrunk { s.trunk with relayGot := s.trunk.relayGot ++ [r] }
    relayHandOver r s =
      { handed with alerts := (relayHandOver r s).alerts, store := (relayHandOver r s).store } ∧
      if s.onTrunk = true ∧ handed.trunk.relayGot.length = s.trunk.relaySet.length then
        RelayEnded handed (relayHandOver r s)
      else relayHandOver r s = handed := by
  refine ⟨(RelayStep.relayHandOver r s).state, ?_⟩
  unfold relayHandOver
  simp only [keeping_relayEnd]
  split
  next last =>
    rw [if_pos (by exact last)]
    exact relayEnd_ended _
  next more => rw [if_neg (by exact more)]

/-! ### A slot that is cut (R8, R11, R16) -/

/-- A hand-over with nothing heard makes an unheard report, but for the node's own number and in CONFIG and HALTED. -/
theorem handOver_none (m : Node) (s : State) : handOver m none s =
    if s.mode.mode = .config ∨ s.mode.mode = .halted ∨ m = s.mode.node then s else unheardReport m s := by
  unfold handOver
  cases mode : s.mode.mode with
  | config | halted => rfl
  | quiet | joining | active | standby | withdrawing =>
    by_cases own : m = s.mode.node <;> simp [own, unheardReport, State.node, passManifest]

theorem directorySlot_cut (k : Nat) (s : State) : directorySlot k .cut s =
    let read := s.setTrunk { s.trunk with directory := setReading s.trunk.directory (k % 3) .cut }
    if k % 3 = 2 then handOver (Fin.ofNat 8 (k / 3)) none read else read := by
  unfold directorySlot
  by_cases third : k % 3 = 2
  · simp only [third, if_true, heardManifest_cut]
  · simp only [third, if_false]

theorem cutSlot_eq {s : State} (inProgress : s.trunk.inProgress = true) : cutSlot s =
    let cut := s.setTrunk { s.trunk with inProgress := false, slotState := .cut, driver := none }
    if s.trunk.slotsBegun - 1 < 24 then directorySlot (s.trunk.slotsBegun - 1) .cut cut
    else if s.trunk.slotsBegun - 1 - 24 ∈ s.trunk.relaySet then
      relayHandOver ⟨s.trunk.slotsBegun - 1 - 24, [], false, false⟩ cut
    else cut := by
  unfold cutSlot
  rw [if_pos inProgress]
  simp [Config.directorySlots]

/-- What a slot that is cut leaves (R8, R11, R16 to R18). -/
theorem cutSlot_settles (s : State) (on : s.inReset = false) (inProgress : s.trunk.inProgress = true) :
    let k := s.trunk.slotsBegun - 1
    let m : Node := Fin.ofNat 8 (k / 3)
    let d := s.trunk.directory
    let cut : Trunk := { s.trunk with inProgress := false, slotState := .cut, driver := none }
    let read : State := { s with trunk := { cut with
      directory := if k % 3 = 0 then (.cut, .unread, .unread)
        else if k % 3 = 1 then (d.1, .cut, .unread) else (d.1, d.2.1, .cut) } }
    let handed : State := { s with trunk := { cut with relayGot := s.trunk.relayGot ++ [⟨k - 24, [], false, false⟩] } }
    let t := cutSlot s
    (k < 24 → k % 3 ≠ 2 ∨ m = s.mode.node ∨ s.mode.mode = .config ∨ s.mode.mode = .halted → t = read) ∧
    (k < 24 → k % 3 = 2 → m ≠ s.mode.node → s.mode.mode ≠ .config → s.mode.mode ≠ .halted → t = unheardReport m read) ∧
    (24 ≤ k → (k - 24) ∉ s.trunk.relaySet → t = { s with trunk := cut }) ∧
    (24 ≤ k → (k - 24) ∈ s.trunk.relaySet →
      t = { handed with alerts := t.alerts, store := t.store } ∧
        if s.mode.mode.onTrunk = true ∧ handed.trunk.relayGot.length = s.trunk.relaySet.length then RelayEnded handed t
        else t = handed) := by
  intro k m d cut read handed t
  have trunk : s.onTrunk = s.mode.mode.onTrunk := by simp [State.onTrunk, on]
  have split : t = _ := cutSlot_eq inProgress
  have reading : (s.setTrunk cut).setTrunk { cut with directory := setReading d (k % 3) .cut } = read := by
    have : k % 3 = 0 ∨ k % 3 = 1 ∨ k % 3 = 2 := by omega
    rcases this with j | j | j <;> simp only [read, j] <;> rfl
  have directory (near : k < 24) : t = if k % 3 = 2 then handOver m none read else read := by
    rw [split, ← reading]
    exact (if_pos near).trans (directorySlot_cut k _)
  refine ⟨fun near quiet => ?_, fun near third other config halted => ?_, fun far outside => ?_, fun far inside => ?_⟩
  · rw [directory near]
    split
    next third =>
      rw [handOver_none, if_pos]
      rcases quiet with other | own | config | halted
      · exact absurd third other
      · exact .inr (.inr own)
      · exact .inl config
      · exact .inr (.inl halted)
    next => rfl
  · rw [directory near, if_pos third, handOver_none, if_neg]
    rintro (h | h | h)
    · exact config h
    · exact halted h
    · exact other h
  · rw [split]
    exact (if_neg (Nat.not_lt.mpr far)).trans (if_neg outside)
  · have same : t = relayHandOver ⟨k - 24, [], false, false⟩ (s.setTrunk cut) := by
      rw [split]
      exact (if_neg (Nat.not_lt.mpr far)).trans (if_pos inside)
    rw [same, ← trunk]
    exact relayHandOver_spec ..

/-! ### A cut comes first (R16; log 6) -/

theorem startSlot_cutSlot (k : Nat) (s : State) : startSlot k (cutSlot s) = startSlot k s := by
  simp [startSlot]

theorem cycleBoundary_cutSlot (lines : ModeLines) (late : Bool) (s : State) :
    cycleBoundary lines late (cutSlot s) = cycleBoundary lines late s := by
  simp [cycleBoundary, State.pos, State.frameIndex]

theorem plainFrameBoundary_cutSlot (s : State) : plainFrameBoundary (cutSlot s) = plainFrameBoundary s := by
  simp [plainFrameBoundary, State.pos, State.frameIndex]

theorem frameBoundary_cutSlot (lines : ModeLines) (s : State) : frameBoundary lines (cutSlot s) = frameBoundary lines s := by
  rw [frameBoundary, frameBoundary, cycleBoundary_cutSlot, plainFrameBoundary_cutSlot, State.frameIndex, State.frameIndex,
    cutSlot_time]

theorem firstPulse_cutSlot (lines : ModeLines) (s : State) : firstPulse lines (cutSlot s) = firstPulse lines s := by
  simp [firstPulse, State.pos, State.frameIndex]

theorem realignPulse_cutSlot (lines : ModeLines) (s : State) : realignPulse lines (cutSlot s) = realignPulse lines s := by
  simp [realignPulse, State.pos, State.frameIndex]

/-- An early pulse cuts the slot at its arrival. -/
theorem earlyPulse_cutSlot (arrival : Nat) (lines : ModeLines) (s : State) : earlyPulse arrival lines
    (cutSlot (s.setTime { s.time with localCount := min arrival 1279999 })) = earlyPulse arrival lines s := by
  set moved := s.setTime { s.time with localCount := min arrival 1279999 } with hmoved
  have again : (cutSlot moved).setTime { (cutSlot moved).time with localCount := min arrival 1279999 } = cutSlot moved := by
    rw [cutSlot_time]
    have : { moved.time with localCount := min arrival 1279999 } = (cutSlot moved).time := by simp [hmoved]
    rw [this]
    rfl
  unfold earlyPulse
  simp only [Config.cycleMicros, again, cutSlot_cutSlot]
  simp [postRegained, hmoved]

theorem counting_cutSlot (s : State) : (cutSlot s).counting = s.counting := by simp [State.counting]

/-- SLOT_END settles the slot in progress (R15, R16, R18). -/
theorem slotEnd_settles (tag : Byte) (content : List Byte) (s : State) (on : s.inReset = false)
    (inProgress : s.trunk.inProgress = true) :
    let result := slotResult s.trunk tag content
    let slot := s.trunk.slotsBegun - 1
    let read : Trunk := { s.trunk with inProgress := false, slotState := result, driver := none }
    let got : List RelayCell := s.trunk.relayGot ++ [⟨slot - 24, content.take (gradePayload s.trunk.relayGrade),
      decide (∃ n, s.trunk.relaySource = some n ∧ tag.toNat = n.val), protectionGood s.trunk.relayGrade content⟩]
    let unlost : Prop := result = .won ∨ result = .listening ∨
      result = .yielded ∧ ∀ i, s.trunk.driver = some (.lane i) → inRuns (s.tenancy.get i).runs (slot - 24) = false
    let t := endSlot tag content s
    (result = .mismatch →
      t.mode = { s.mode with mode := .halted } ∧ t.events.nfault = true ∧
        (s.Room 1 → Posted s t [(.duplicate, s.mode.node.val, none, slot)]) ∧
        t = { s with mode := t.mode, trunk := t.trunk, events := t.events }) ∧
    (unlost → 24 ≤ slot → (slot - 24) ∉ s.trunk.relaySet → t = { s with trunk := read }) ∧
    (unlost → 24 ≤ slot → (slot - 24) ∈ s.trunk.relaySet →
      t = { s with trunk := { read with relayGot := got }, alerts := t.alerts, store := t.store } ∧
        (s.mode.mode.onTrunk = false ∨ got.length ≠ s.trunk.relaySet.length →
          t = { s with trunk := { read with relayGot := got } }) ∧
        (s.mode.mode.onTrunk = true → got.length = s.trunk.relaySet.length →
          RelayEnded { s with trunk := { read with relayGot := got } } t)) ∧
    (slot < 24 → slot % 3 ≠ 2 → result ≠ .mismatch → (∀ i, s.trunk.driver ≠ some (.lane i)) →
      t = { s with trunk := { read with
        directory := if slot % 3 = 0 then (.read tag content, .unread, .unread)
          else (s.trunk.directory.1, .read tag content, .unread) } }) := by
  intro result slot read got unlost t
  have trunk : s.onTrunk = s.mode.mode.onTrunk := by simp [State.onTrunk, on]
  have routed (h : unlost) : t = routeSlot slot tag content (s.setTrunk read) :=
    endSlot_routed inProgress
      (by rcases h with h | h | h <;> [skip; skip; replace h := h.1] <;> simp only [result] at h <;> rw [h] <;> nofun)
      (fun yielded => reportLoss_none (by
        rcases h with h | h | h
        · exact absurd (h.symm.trans yielded) nofun
        · exact absurd (h.symm.trans yielded) nofun
        · exact h.2))
  have payload (h : unlost) (far : 24 ≤ slot) : t = payloadSlot (slot - 24) tag content (s.setTrunk read) :=
    (routed h).trans (if_neg (Nat.not_lt.mpr far))
  refine ⟨fun mismatch => ?_, fun h far outside => ?_, fun h far inside => ?_, fun near third sent noLane => ?_⟩
  · have halted : t = duplicateFound slot (s.setTrunk read) := by
      have := endSlot_eq tag content inProgress
      rw [show slotResult s.trunk tag content = .mismatch from mismatch] at this
      exact this
    rw [halted]
    exact ⟨rfl, rfl, fun room => post_posted (s := s.setTrunk read) room .duplicate _ _ _, rfl⟩
  · rw [payload h far, payloadSlot, if_neg (by simpa [read] using outside)]
    rfl
  · have handed : t = relayHandOver (relayRecord (s.setTrunk read) (slot - 24) tag content) (s.setTrunk read) := by
      rw [payload h far, payloadSlot, if_pos (by simpa [read] using inside)]
    rw [relayRecord_eq] at handed
    obtain ⟨state, ends⟩ := relayHandOver_spec _ (s.setTrunk read) |> (handed ▸ ·)
    refine ⟨state, fun more => ?_, fun live last => ?_⟩
    · rw [if_neg] at ends
      · exact ends
      · rintro ⟨live, last⟩
        rcases more with off | more
        · rw [show (s.setTrunk read).onTrunk = s.onTrunk from rfl, trunk, off] at live
          cases live
        · exact more last
    · rw [if_pos ⟨trunk.trans live, last⟩] at ends
      exact ends
  · have routed : t = routeSlot slot tag content (s.setTrunk read) :=
      endSlot_routed inProgress sent (fun _ => reportLoss_none (fun i h => absurd h (noLane i)))
    rw [routed, routeSlot, if_pos (by exact near)]
    unfold directorySlot
    simp only [if_neg third]
    have : slot % 3 = 0 ∨ slot % 3 = 1 := by omega
    rcases this with j | j <;> simp only [j] <;> rfl

/-- Settles O19. -/
theorem slotEndSettles : Obligations.SlotEndSettles := by
  refine ⟨fun tag content s on lock inProgress kind => ?_, fun s idle => cutSlot_idle idle,
    fun s on inProgress => cutSlot_settles s on inProgress, fun lines s on => ⟨fun lock => ?_, fun arrival => ⟨?_, ?_⟩⟩⟩
  · have run := exec_slotEnd tag content on lock
    have node := exec_moves (c := .slotEnd tag content) rfl run
    have ended := ended_endSlot tag content inProgress
    obtain ⟨mismatch, outside, inside, directory⟩ := slotEnd_settles tag content s on inProgress
    rw [slotResult_of tag content kind] at ended mismatch outside inside directory
    exact ⟨_, run, ended.inProgress, ended.slotState, ended.driver, mismatch, outside, inside, directory, node.config,
      node.contracts, node.ports, node.pending⟩
  · have count := counting_of on lock
    refine ⟨fun k inFrame => ?_, ?_, ?_, fun joining last => ?_⟩
    · show execSlotStart k s = execSlotStart k (cutSlot s)
      simp [execSlotStart, counting_cutSlot, count, startSlot_cutSlot, Config.slotsPerFrame, inFrame]
    · show execFrameBoundary lines s = execFrameBoundary lines (cutSlot s)
      simp [execFrameBoundary, counting_cutSlot, count, frameBoundary_cutSlot]
    · show execCycleBoundary lines s = execCycleBoundary lines (cutSlot s)
      simp [execCycleBoundary, counting_cutSlot, count, cycleBoundary_cutSlot]
    · show execListenPeriodEnd lines s = execListenPeriodEnd lines (cutSlot s)
      simp [execListenPeriodEnd, counting_cutSlot, count, cycleBoundary_cutSlot, joining, Config.listenFrames, last]
  · intro phase
    show execRefpulse arrival lines s = execRefpulse arrival lines (cutSlot s)
    rcases phase with ⟨lock, mode⟩ | ⟨lock, mode⟩
    · simp [execRefpulse, on, pulse, lock, mode, firstPulse_cutSlot]
    · simp [execRefpulse, on, pulse, lock, mode, realignPulse_cutSlot]
  · intro lock early
    rw [exec_refpulse_early on lock early]
    refine Eq.symm ((exec_refpulse_early ?_ ?_ ?_).trans (congrArg _ (earlyPulse_cutSlot arrival lines s)))
    · rw [cutSlot_inReset]; exact on
    · rw [cutSlot_time]; exact lock
    · rw [cutSlot_time]; exact early

end Sys2Proof.Machine
end

