-- ==== Sys2Proof/Proofs/SlotStart.lean ====
section
/-! SUPPORT. What the assembly of a frame's lane bytes leaves alone (R93 to R95, R100 to R107), and how a slot starts (R4, R13,
R14). -/

namespace Sys2Proof.Machine

/-! ### Assembly leaves tenancies, alerts and splits alone -/

/-- From `s` to `t` annexes have been filled, FIFOs drained and statuses made: tenancies, alerts and splits are the same. -/
structure AnnexStep (s t : State) : Prop where
  tenancy : t.tenancy = s.tenancy
  alerts : t.alerts = s.alerts
  splits : ∀ i, (t.units.get i).split = (s.units.get i).split

namespace AnnexStep

variable {s t u : State}

/-- An operation that touches neither tenancies nor alerts nor Lane Units. -/
theorem same (tenancy : t.tenancy = s.tenancy := by rfl) (alerts : t.alerts = s.alerts := by rfl)
    (units : t.units = s.units := by rfl) : AnnexStep s t := ⟨tenancy, alerts, fun _ => by rw [units]⟩

theorem refl (s : State) : AnnexStep s s := same

theorem trans (h : AnnexStep s t) (k : AnnexStep t u) : AnnexStep s u :=
  ⟨k.tenancy.trans h.tenancy, k.alerts.trans h.alerts, fun i => (k.splits i).trans (h.splits i)⟩

theorem cond (c : Prop) [Decidable c] (h : AnnexStep s t) (k : AnnexStep s u) : AnnexStep s (if c then t else u) := by
  split
  · exact h
  · exact k

theorem forEach {α : Type} {f : α → State → State} (h : ∀ x s, AnnexStep s (f x s)) (xs : List α) (s : State) :
    AnnexStep s (forEach xs f s) := by
  induction xs generalizing s with
  | nil => exact refl s
  | cons x xs ih => exact (h x s).trans (ih _)

/-- A Lane Unit that keeps its split. -/
theorem setUnit (s : State) (i : LaneId) (u : LaneUnit) (split : u.split = (s.units.get i).split := by rfl) :
    AnnexStep s (s.setUnit i u) := by
  refine ⟨rfl, rfl, fun j => ?_⟩
  by_cases here : j = i
  · subst here; simp [split]
  · simp [Quad.get_set_of_ne _ _ _ _ here]

theorem makeStatus (l : Lane) (s : State) : AnnexStep s (makeStatus l s) := cond _ same (refl s)

theorem statusForIntake (i : LaneId) (s : State) : AnnexStep s (statusForIntake i s) := by
  cases i with
  | svc l => exact makeStatus l s
  | alert => exact refl s

theorem postSelf (k : EventKind) (l : Option LaneId) (a : Nat) (s : State) : AnnexStep s (postSelf k l a s) := same
theorem onPictures (l : Lane) (f : PictureCarousel → PictureCarousel) (s : State) : AnnexStep s (onPictures l f s) := same
theorem updateObj (i : LaneId) (id : Byte) (f : Obj → Obj) (s : State) : AnnexStep s (updateObj i id f s) := same
theorem setObjects (s : State) (x : List Obj) : AnnexStep s (s.setObjects x) := same
theorem setSched (s : State) (i : LaneId) (x : Scheduler) : AnnexStep s (s.setSched i x) := same
theorem setCaptions (s : State) (l : Lane) (x : CaptionCarousel) : AnnexStep s (s.setCaptions l x) := same

theorem removeObj (l : Lane) (id : Byte) (s : State) : AnnexStep s (removeObj l id s) :=
  (onPictures ..).trans (setObjects ..)

theorem endPass (l : Lane) (id : Byte) (s : State) : AnnexStep s (endPass l id s) := by
  have begun (f : PictureCarousel → PictureCarousel) (g : Obj → Obj) : AnnexStep s
      (Machine.updateObj (.svc l) id g (Machine.onPictures l f s)) := (onPictures ..).trans (updateObj ..)
  unfold Machine.endPass
  dsimp only
  split
  · exact begun ..
  · exact (begun ..).trans (cond _ (removeObj ..) (cond _ ((removeObj ..).trans (postSelf ..)) (updateObj ..)))

theorem beginPass (l : Lane) (s : State) : AnnexStep s (beginPass l s) := by
  unfold Machine.beginPass
  split
  · exact (updateObj ..).trans (onPictures ..)
  · exact refl s

theorem supplyPicture {l : Lane} {n : Nat} {s t : State} {g : Segment} (h : supplyPicture l n s = some (g, t)) :
    AnnexStep s t := by
  unfold Machine.supplyPicture at h
  refine (beginPass l s).trans ?_
  dsimp only at h
  split at h
  · simp only [Option.some.injEq, Prod.mk.injEq] at h
    obtain ⟨-, rfl⟩ := h
    exact cond _ ((onPictures ..).trans (endPass ..)) (onPictures ..)
  · simp at h

theorem lowMemberTurn {l : Lane} {m : LowMember} {n : Nat} {s t : State} {g : Segment}
    (h : lowMemberTurn l m n s = some (g, t)) : AnnexStep s t := by
  unfold Machine.lowMemberTurn at h
  split at h
  · dsimp only at h
    split at h
    · obtain ⟨x, -, same'⟩ := Option.map_eq_some_iff.mp h
      obtain ⟨-, rfl⟩ := Prod.mk.inj same'
      exact setCaptions ..
    · simp at h
  · exact supplyPicture h

theorem lowTurn {l : Lane} {n : Nat} {s t : State} {g : Segment} (h : lowTurn l n s = some (g, t)) : AnnexStep s t := by
  unfold Machine.lowTurn at h
  dsimp only at h
  split at h
  next turn =>
    simp only [Option.some.injEq, Prod.mk.injEq] at h
    obtain ⟨-, rfl⟩ := h
    exact (lowMemberTurn turn).trans (setSched ..)
  next => exact lowMemberTurn h

theorem highTurn {i : LaneId} {m : HighMember} {n : Nat} {s t : State} {g : Segment} (h : highTurn i m n s = some (g, t)) :
    AnnexStep s t := by
  unfold Machine.highTurn at h
  dsimp only at h
  split at h
  · obtain ⟨x, -, same'⟩ := Option.map_eq_some_iff.mp h
    obtain ⟨-, rfl⟩ := Prod.mk.inj same'
    exact setSched ..
  · obtain ⟨x, -, same'⟩ := Option.map_eq_some_iff.mp h
    obtain ⟨-, rfl⟩ := Prod.mk.inj same'
    exact setSched ..
  · split at h
    · exact lowTurn h
    · simp at h

theorem tryMembers {i : LaneId} {comp : List HighMember} {n : Nat} {s t : State} {ms : List HighMember} {g : Segment}
    (h : tryMembers i comp n s ms = some (g, t)) : AnnexStep s t := by
  induction ms with
  | nil => simp [Machine.tryMembers] at h
  | cons m ms ih =>
    unfold Machine.tryMembers at h
    split at h
    next turn =>
      simp only [Option.some.injEq, Prod.mk.injEq] at h
      obtain ⟨-, rfl⟩ := h
      exact (highTurn turn).trans (setSched ..)
    next => exact ih h

theorem fillAnnex (i : LaneId) (fuel r : Nat) (s : State) : AnnexStep s (fillAnnex i fuel r s).2 := by
  induction fuel generalizing r s with
  | zero => exact refl s
  | succ fuel ih =>
    unfold Machine.fillAnnex
    split
    · exact refl s
    · split
      · exact refl s
      next placed => exact (tryMembers placed).trans (ih ..)

theorem resumeIntake (i : LaneId) (s : State) : AnnexStep s (resumeIntake i s) := by
  unfold Machine.resumeIntake
  dsimp only
  split
  · exact cond _ ((setUnit s i { s.units.get i with intake := .accepting, dropped := 0 }).trans
      ((postSelf ..).trans (statusForIntake ..))) (refl s)
  · exact refl s

theorem assembleLane (i : LaneId) (s : State) : AnnexStep s (assembleLane i s) := by
  unfold Machine.assembleLane
  refine cond _ (setUnit _ i _) ?_
  exact (fillAnnex i (s.units.get i).split.annex (s.units.get i).split.annex s).trans
    ((setUnit _ i _).trans (resumeIntake i _))

theorem assembleFrame (s : State) : AnnexStep s (assembleFrame s) := forEach assembleLane _ _

end AnnexStep

/-! ### The lane that holds a cell, and the payload of a cell -/

theorem laneHolding_some {s : State} {k : Nat} {i : LaneId} (h : s.laneHolding k = some i) :
    inRuns (s.tenancy.get i).runs k = true := by
  simpa using List.find?_some h

theorem laneHolding_none {s : State} {k : Nat} :
    s.laneHolding k = none ↔ ∀ i, inRuns (s.tenancy.get i).runs k = false := by
  have all (i : LaneId) : i ∈ LaneId.planningOrder := by rcases i with (_ | _ | _) | _ <;> decide
  simp only [State.laneHolding, List.find?_eq_none, Bool.not_eq_true]
  exact ⟨fun h i => h i (all i), fun h i _ => h i⟩

/-- The first place of a cell among those assembled gives its payload (R95). -/
theorem payloadOf_eq {a : Assembly} {j cell : Nat} (here : a.cells[j]? = some cell) (first : cell ∉ a.cells.take j) :
    a.payloadOf cell = (a.bytes.drop (j * a.payload)).take a.payload := by
  obtain ⟨inside, here⟩ := List.getElem?_eq_some_iff.mp here
  have place : a.cells.findIdx? (fun k => k == cell) = some j := by
    rw [List.findIdx?_eq_some_iff_getElem]
    refine ⟨inside, by simp [here], fun n before same => first ?_⟩
    rw [List.mem_take_iff_getElem]
    refine ⟨n, by omega, by simpa using same⟩
  unfold Assembly.payloadOf
  rw [place]

/-! ### The start of a slot (R4, R13, R14) -/

/-- The state of a slot's start, the slot still to be decided. -/
def slotBegins (k : Nat) (s : State) : State :=
  let s := s.setTime { s.time with localCount := s.frameIndex * 80000 + k * 100, hold := 0 }
  if k = 24 ∧ s.onTrunk then assembleFrame s else s

theorem startSlot_eq {k : Nat} {s : State} (idle : s.trunk.inProgress = false) :
    startSlot k s = decideSlot k (takeCopy k (slotBegins k s)) := by
  unfold startSlot
  rw [cutSlot_idle idle]
  rfl

theorem slotBegins_block (k : Nat) (s : State) :
    BlockStep (s.setTime { s.time with localCount := s.frameIndex * 80000 + k * 100, hold := 0 }) (slotBegins k s) :=
  .cond _ (.assembleFrame _) (.refl _)

theorem slotBegins_annex (k : Nat) (s : State) : AnnexStep s (slotBegins k s) :=
  .trans (t := s.setTime _) .same (.cond _ (.assembleFrame _) (.refl _))

theorem slotBegins_of_ne {k : Nat} (other : k ≠ 24) (s : State) : slotBegins k s =
    s.setTime { s.time with localCount := s.frameIndex * 80000 + k * 100, hold := 0 } :=
  if_neg (fun h => other h.1)

theorem assembleFrame_eq (s : State) : assembleFrame s =
    assembleLane .alert (assembleLane (.svc .l2) (assembleLane (.svc .l1) (assembleLane (.svc .l0) s))) := by
  simp only [assembleFrame, forEach, allLanes, List.foldl_cons, List.foldl_nil]

theorem slotBegins_assembles {k : Nat} {s : State} (h : k = 24 ∧ s.onTrunk = true) : slotBegins k s =
    assembleLane .alert (assembleLane (.svc .l2) (assembleLane (.svc .l1) (assembleLane (.svc .l0)
      (s.setTime { s.time with localCount := s.frameIndex * 80000 + k * 100, hold := 0 })))) := by
  rw [← assembleFrame_eq]
  exact if_pos h

theorem takeCopy_eq (k : Nat) (s : State) : takeCopy k s = s.setTrunk { s.trunk with
    copy := if k / 3 = s.node.val ∧ k < 24 ∧ (k % 3 = 0 ∨ s.trunk.copy.isNone) then s.outgoing.map Manifest.bytes
      else s.trunk.copy } := by
  unfold takeCopy
  rw [show Config.directorySlots = 24 from rfl]
  split <;> rfl

/-- A later place in the same frame sees the same manifest (R37). -/
theorem outgoing_setTime {s : State} {x : Timebase} (cycle : x.cycle = s.time.cycle)
    (frame : x.localCount / 80000 = s.frameIndex) : (s.setTime x).outgoing = s.outgoing := by
  have frame' : (s.setTime x).frameIndex = s.frameIndex := frame
  have header : (s.setTime x).header = s.header := by
    simp only [State.header, frame', State.setTime_time, cycle]
    rfl
  simp only [State.outgoing, frame', header]
  rfl

/-- On the trunk the copy of the outgoing manifest is taken as slot 3n begins, and stands for the slots after it (R4). -/
theorem decideSlot_manifest {s : State} {k : Nat} (live : s.onTrunk = true) (own : k / 3 = s.node.val) :
    (decideSlot k s).trunk.copy = s.trunk.copy ∧
      (decideSlot k s).trunk.content = (((s.trunk.copy).getD []).drop (36 * (k % 3))).take 36 := by
  have near : k < 24 := by have := s.node.isLt; omega
  have driver : s.driverOf k = some .manifest := by
    simp [State.driverOf, live, Config.directorySlots, near, own]
  unfold decideSlot
  simp only [driver, State.slotContent]
  exact ⟨rfl, rfl⟩

/-- Who drives a slot (R13). -/
theorem driverOf_directory {s : State} {k : Nat} (live : s.onTrunk = true) (near : k < 24) :
    s.driverOf k = if k / 3 = s.node.val then some .manifest else none := by
  simp [State.driverOf, live, Config.directorySlots, near]

theorem driverOf_payload {s : State} {k : Nat} (live : s.onTrunk = true) (far : 24 ≤ k) :
    s.driverOf k = (s.laneHolding (k - 24)).map Driver.lane := by
  simp [State.driverOf, live, Config.directorySlots, Nat.not_lt.mpr far]

theorem driverOf_off {s : State} {k : Nat} (off : s.onTrunk = false) : s.driverOf k = none := by
  simp [State.driverOf, off]

/-- A cell of a lane's assembled frame carries its payload (R95). -/
theorem decideSlot_payload {s : State} {k j : Nat} {i : LaneId} {a : Assembly} (driver : s.driverOf k = some (.lane i))
    (assembled : (s.units.get i).assembled = some a) (here : a.cells[j]? = some (k - 24))
    (first : (k - 24) ∉ a.cells.take j) :
    (decideSlot k s).trunk.content = cellContent ((a.bytes.drop (j * a.payload)).take a.payload) := by
  unfold decideSlot
  simp only [driver, State.slotContent, assembled, Config.directorySlots, payloadOf_eq here first]
  rfl

/-- Settles O18: `slotBegins` is the assembly at slot 24, and `decideSlot` drives what R13 says. -/
theorem slotStartDecidesDriver : Obligations.SlotStartDecidesDriver := by
  intro k s on lock inFrame idle
  set begun := slotBegins k s with hbegun
  have trunk : s.onTrunk = s.mode.mode.onTrunk := by simp [State.onTrunk, on]
  have block := slotBegins_block k s
  have annex := slotBegins_annex k s
  have live : begun.onTrunk = s.mode.mode.onTrunk := by
    rw [← trunk, State.onTrunk, block.inReset, block.mode]; rfl
  have node : begun.node = s.mode.node := by rw [State.node, block.mode]; rfl
  have run : exec (.slotStart k) s = .next (decideSlot k (takeCopy k begun)) := by
    rw [← startSlot_eq idle]
    show Host.Outcome.next (if s.counting && decide (k < Config.slotsPerFrame) then startSlot k s else s) = _
    simp [counting_of on lock, Config.slotsPerFrame, inFrame]
  have frames := exec_moves (c := .slotStart k) rfl run
  rw [takeCopy_eq k begun] at run frames
  set ready := begun.setTrunk { begun.trunk with
    copy := if k / 3 = begun.node.val ∧ k < 24 ∧ (k % 3 = 0 ∨ begun.trunk.copy.isNone) then
      begun.outgoing.map Manifest.bytes else begun.trunk.copy } with hready
  set t := decideSlot k ready with ht
  have driver : t.trunk.driver = ready.driverOf k := rfl
  have time : t.time = { s.time with localCount := s.frameIndex * 80000 + k * 100, hold := 0 } := block.time
  have tenancy : ready.tenancy = s.tenancy := annex.tenancy
  refine ⟨t, run, time, rfl, rfl, ?_, fun off => ?_, fun onAir near => ?_, fun onAir far => ?_, ?_, fun onAir own => ?_,
    fun j copy onAir own place held => ?_, fun i a j driven assembled here first => ?_, ?_, frames.config, frames.contracts,
    block.mode, block.peers, annex.tenancy, annex.alerts, frames.ports, frames.pending⟩
  · rw [driver]
    show (match ready.driverOf k with | some _ => SlotState.driving | none => .listening) = _
    cases ready.driverOf k <;> rfl
  · exact driverOf_off (live.trans off)
  · rw [driver, driverOf_directory (s := ready) (live.trans onAir) near, ← node]
    rfl
  · rw [driver, driverOf_payload (s := ready) (live.trans onAir) far, Option.map_eq_none_iff, laneHolding_none, tenancy]
    refine ⟨Iff.rfl, fun d h => ?_⟩
    obtain ⟨i, holds, rfl⟩ := Option.map_eq_some_iff.mp h
    exact ⟨i, rfl, tenancy ▸ laneHolding_some holds⟩
  · rw [driver, ← node]
    show (match ready.driverOf k with | some d => tagOf ready.node d | none => Config.undrivenTag) = _
    cases ready.driverOf k <;> rfl
  · have third : k / 3 = begun.node.val ∧ k < 24 ∧ (k % 3 = 0 ∨ begun.trunk.copy.isNone) := by
      have := s.mode.node.isLt
      rw [node]
      omega
    obtain ⟨copy, content⟩ := decideSlot_manifest (s := ready) (k := k) (live.trans onAir) third.1
    have out : begun.outgoing = s.outgoing := by
      rw [hbegun, slotBegins_of_ne (by have := third.2.1; omega)]
      exact outgoing_setTime rfl (by simp only [State.frameIndex, Config.frameMicros]; omega)
    have same : ready.trunk.copy = s.outgoing.map Manifest.bytes := by rw [← out]; exact if_pos third
    have some : ∃ m, s.outgoing = some m := by simp [State.outgoing, trunk.trans onAir]
    obtain ⟨m, some⟩ := some
    refine ⟨m, some, by rw [copy, same, some]; rfl, ?_⟩
    rw [content, same, some, show k % 3 = 0 by omega]
    rfl
  · have near : k < 24 := by have := s.mode.node.isLt; omega
    have trunks : begun.trunk.copy = some copy := by rw [block.trunk]; exact held
    have same : ready.trunk.copy = some copy := by
      rw [← trunks]
      refine if_neg fun h => ?_
      rcases h.2.2 with zero | missing
      · omega
      · rw [trunks] at missing; cases missing
    obtain ⟨kept, content⟩ := decideSlot_manifest (s := ready) (k := k) (live.trans onAir)
      (by show k / 3 = begun.node.val; rw [node]; omega)
    refine ⟨kept.trans same, ?_⟩
    rw [content, same, show k % 3 = j by omega]
    rfl
  · exact decideSlot_payload (s := ready) driven assembled here first
  · have whole : t = { begun with time := t.time, trunk := t.trunk } := rfl
    rw [whole, trunk.symm]
    by_cases assembles : k = 24 ∧ s.onTrunk = true
    · rw [if_pos assembles, time, hbegun, slotBegins_assembles assembles]
      rfl
    · rw [if_neg assembles, time, hbegun, slotBegins, if_neg (by exact assembles)]
      rfl

end Sys2Proof.Machine
end

