-- ==== Sys2Proof/Proofs/Cells.lean ====
section
/-! SUPPORT. The tenancies' invariant, lane by lane: what it asks of one tenancy, when a lane's cells shrink within it, and how
a change of one lane keeps it for all (R36, R55, R56, R61). -/

namespace Sys2Proof.Machine

/-! ### One tenancy -/

/-- The tenancy's pending change lies as R36 has it beside the fragments: a claim outside, a release inside. -/
def Tenancy.Fits (t : Tenancy) (c : PendingChange) : Prop :=
  c.runs ≠ [] ∧ runsGood c.runs = true ∧ ∀ k, inRuns c.runs k = true → inRuns t.runs k = (c.kind == .release)

/-- A tenancy's fragments ascend, and its pending change fits them. -/
structure Tenancy.Good (t : Tenancy) : Prop where
  fragments : runsGood t.runs = true
  change : ∀ c, t.change = some c → t.Fits c

/-- The tenancy holds cell `k`, or its pending claim asks for it. -/
def Tenancy.occupies (t : Tenancy) (k : Nat) : Prop :=
  inRuns t.runs k = true ∨ ∃ c, t.change = some c ∧ c.kind = .claim ∧ inRuns c.runs k = true

/-- The tenancy holds nothing and nothing is pending. -/
def Tenancy.Empty (t : Tenancy) : Prop := t.fragments = [] ∧ t.change = none

theorem Tenancy.Empty.cells {t : Tenancy} (h : t.Empty) : t.cells = 0 := by simp [Tenancy.cells, h.1]

theorem Tenancy.runs_eq_nil {t : Tenancy} : t.runs = [] ↔ t.fragments = [] := by simp [Tenancy.runs]

theorem Tenancy.Empty.good {t : Tenancy} (h : t.Empty) : t.Good where
  fragments := by rw [Tenancy.runs_eq_nil.mpr h.1]; rfl
  change c e := by rw [h.2] at e; cases e

/-- A tenancy `t'` that comes from `t` without a new change: no cell more is held or asked for, and the change pending, if
one is left, is for the same cycle. -/
structure Tenancy.Within (t t' : Tenancy) : Prop where
  good : t.Good → t'.Good
  occupies : t.Good → ∀ k, t'.occupies k → t.occupies k
  change : ∀ c', t'.change = some c' → ∃ c, t.change = some c ∧ c'.effective = c.effective
  empty : t.Empty → t'.Empty

namespace Tenancy.Within

variable {t t' t'' : Tenancy}

theorem trans (h : t.Within t') (k : t'.Within t'') : t.Within t'' where
  good g := k.good (h.good g)
  occupies g n o := h.occupies g n (k.occupies (h.good g) n o)
  change c e := by
    obtain ⟨c', e', same'⟩ := k.change c e
    obtain ⟨c, e, same⟩ := h.change c' e'
    exact ⟨c, e, same'.trans same⟩
  empty e := k.empty (h.empty e)

/-- The same cells and the same change. -/
theorem same (runs : t'.runs = t.runs) (change : t'.change = t.change) : t.Within t' where
  good g := ⟨runs ▸ g.fragments, fun c e => by unfold Fits; rw [runs]; exact g.change c (change ▸ e)⟩
  occupies _ k o := by unfold Tenancy.occupies at *; rwa [runs, change] at o
  change c e := ⟨c, change ▸ e, rfl⟩
  empty e := ⟨Tenancy.runs_eq_nil.mp (runs.trans (Tenancy.runs_eq_nil.mpr e.1)), change.trans e.2⟩

theorem refl (t : Tenancy) : t.Within t := same rfl rfl

/-- The pending change is over, and no cell more is held than were held and asked for. -/
theorem settled (good : t.Good → runsGood t'.runs = true) (change : t'.change = none)
    (cells : t.Good → ∀ k, inRuns t'.runs k = true → t.occupies k) (empty : t.Empty → t'.fragments = []) : t.Within t' where
  good g := ⟨good g, fun c e => by rw [change] at e; cases e⟩
  occupies g k o := by
    rcases o with o | ⟨c, e, -⟩
    · exact cells g k o
    · rw [change] at e; cases e
  change c e := by rw [change] at e; cases e
  empty e := ⟨empty e, change⟩

/-- The pending change is given up (R64). -/
theorem withdrawn (fragments : t'.fragments = t.fragments) (change : t'.change = none) : t.Within t' := by
  have runs : t'.runs = t.runs := by rw [Tenancy.runs, fragments]; rfl
  exact settled (fun g => runs ▸ g.fragments) change (fun _ k o => .inl (runs ▸ o)) (fun e => fragments.trans e.1)

/-- A due claim is taken (R72, step 2). -/
theorem claimed {c : PendingChange} (pending : t.change = some c) (kind : c.kind = .claim)
    (fragments : t'.fragments = addRuns t.fragments c.runs) (change : t'.change = none) : t.Within t' := by
  have added (g : t.Good) := by
    obtain ⟨-, good, outside⟩ := g.change c pending
    exact addRuns_spec g.fragments good fun k here => (outside k here).trans (by rw [kind]; rfl)
  refine settled (fun g => ?_) change (fun g k o => ?_) (fun e => by rw [e.2] at pending; cases pending)
  · rw [Tenancy.runs_eq, fragments]; exact (added g).1
  · rw [Tenancy.runs_eq, fragments, (added g).2, Bool.or_eq_true] at o
    exact o.imp id fun o => ⟨c, pending, kind, o⟩

/-- A due release is done (R72, step 1). -/
theorem released {gone : List Run} (fragments : t'.fragments = fragmentsMinus t.fragments gone)
    (change : t'.change = none) : t.Within t' := by
  refine settled (fun g => ?_) change (fun g k o => ?_) (fun e => by rw [fragments, e.1]; rfl)
  · rw [Tenancy.runs_eq, fragments]; exact fragmentsMinus_good _ _ g.fragments
  · rw [Tenancy.runs_eq, fragments, inRuns_fragmentsMinus, Bool.and_eq_true] at o
    exact .inl o.1

/-- Cells are lost at once, and a pending release lets go of those among them (R73, R78). -/
theorem dropped {gone : List Run} (change : t'.change = dropFromRelease gone t.change)
    (cells : t.Good → runsGood t'.runs = true ∧ ∀ k, inRuns t'.runs k = (inRuns t.runs k && !inRuns gone k))
    (empty : t.fragments = [] → t'.fragments = []) : t.Within t' := by
  have left (c' : PendingChange) (e : t'.change = some c') : ∃ c, t.change = some c ∧ c'.effective = c.effective ∧
      c'.kind = c.kind ∧ (c.kind = .claim → c'.runs = c.runs) ∧
      (c.kind = .release → c'.runs = runsMinus c.runs gone ∧ c'.runs ≠ []) := by
    rw [change] at e
    cases pending : t.change with
    | none => rw [pending] at e; cases e
    | some c =>
      rw [pending] at e
      unfold dropFromRelease at e
      dsimp only at e
      split at e
      next release =>
        split at e
        next => cases e
        next some =>
          cases e
          exact ⟨c, rfl, rfl, rfl, (fun claim => by rw [claim] at release; cases release),
            fun _ => ⟨rfl, by simpa using some⟩⟩
      next claim => cases e; exact ⟨_, rfl, rfl, rfl, fun _ => rfl, fun release => absurd release claim⟩
  refine ⟨fun g => ⟨(cells g).1, fun c' e => ?_⟩, fun g k o => ?_, fun c' e => ?_, fun e => ?_⟩
  · obtain ⟨c, pending, -, kind, claim, release⟩ := left c' e
    obtain ⟨some, good, inside⟩ := g.change c pending
    unfold Fits
    rw [kind]
    cases what : c.kind with
    | claim =>
      rw [claim what]
      refine ⟨some, good, fun k here => ?_⟩
      have outside := inside k here
      rw [what] at outside
      rw [(cells g).2, outside]
      rfl
    | release =>
      obtain ⟨runs, some⟩ := release what
      refine ⟨some, runs ▸ runsMinus_good _ _ good, fun k here => ?_⟩
      rw [runs, inRuns_runsMinus, Bool.and_eq_true] at here
      have held := inside k here.1
      rw [what] at held
      rw [(cells g).2, held, here.2]
      rfl
  · rcases o with o | ⟨c', e, claims, here⟩
    · rw [(cells g).2, Bool.and_eq_true] at o
      exact .inl o.1
    · obtain ⟨c, pending, -, kind, claim, -⟩ := left c' e
      have what : c.kind = .claim := kind ▸ claims
      exact .inr ⟨c, pending, what, claim what ▸ here⟩
  · obtain ⟨c, pending, same, -⟩ := left c' e
    exact ⟨c, pending, same⟩
  · exact ⟨empty e.1, by rw [change, e.2]; rfl⟩

theorem reset (t : Tenancy) : t.Within resetTenancy :=
  settled (fun _ => rfl) rfl (fun _ _ o => by cases o) (fun _ => rfl)

end Tenancy.Within

/-! ### All lanes -/

/-- The tenancies are sound, on the trunk with every change `lo` to `hi` cycles ahead (R36, R55, R56, R61). -/
structure State.Fit (s : State) (lo hi : Nat) : Prop where
  good : ∀ i, (s.tenancy.get i).Good
  apart : ∀ i j k, i ≠ j → (s.tenancy.get i).occupies k → ¬ (s.tenancy.get j).occupies k
  ahead : s.mode.mode.onTrunk = true → ∀ i c, (s.tenancy.get i).change = some c →
    lo ≤ (c.effective - s.time.cycle).toNat ∧ (c.effective - s.time.cycle).toNat ≤ hi
  off : s.mode.mode.onTrunk = false → s.mode.mode ≠ .halted → ∀ i, (s.tenancy.get i).Empty

theorem tenanciesSound_iff (s : State) : s.TenanciesSound ↔ s.Fit 1 4 :=
  ⟨fun h => ⟨fun i => ⟨h.fragments i, h.changes i⟩, h.apart, h.ahead, h.off⟩,
    fun h => ⟨fun i => (h.good i).fragments, fun i => (h.good i).change, h.apart, h.ahead, h.off⟩⟩

namespace State.Fit

variable {s t : State} {lo hi : Nat}

/-- States with the same tenancies, mode and cycle are sound alike. -/
theorem congr (h : s.Fit lo hi) (tenancy : t.tenancy = s.tenancy) (mode : t.mode.mode = s.mode.mode)
    (cycle : t.time.cycle = s.time.cycle) : t.Fit lo hi := by
  refine ⟨fun i => ?_, fun i j => ?_, fun on i => ?_, fun off live i => ?_⟩
  · rw [tenancy]; exact h.good i
  · rw [tenancy]; exact h.apart i j
  · rw [tenancy, cycle]; exact h.ahead (mode ▸ on) i
  · rw [tenancy]; exact h.off (mode ▸ off) (mode ▸ live) i

theorem mono {lo' hi' : Nat} (h : s.Fit lo hi) (low : lo' ≤ lo) (high : hi ≤ hi') : s.Fit lo' hi' :=
  ⟨h.good, h.apart, fun on i c e => ⟨low.trans (h.ahead on i c e).1, (h.ahead on i c e).2.trans high⟩, h.off⟩

/-- One lane's tenancy replaced by one that takes no cell of another lane. -/
theorem set (h : s.Fit lo hi) (i : LaneId) {t : Tenancy} (good : t.Good)
    (clear : ∀ k, t.occupies k → ∀ j, j ≠ i → ¬ (s.tenancy.get j).occupies k)
    (ahead : s.mode.mode.onTrunk = true → ∀ c, t.change = some c →
      lo ≤ (c.effective - s.time.cycle).toNat ∧ (c.effective - s.time.cycle).toNat ≤ hi)
    (off : s.mode.mode.onTrunk = false → s.mode.mode ≠ .halted → t.Empty) : (s.setTenancy i t).Fit lo hi := by
  have other {j : LaneId} (ne : j ≠ i) : (s.tenancy.set i t).get j = s.tenancy.get j := Quad.get_set_of_ne _ _ _ _ ne
  refine ⟨fun j => ?_, fun j m k ne => ?_, fun on j => ?_, fun offTrunk live j => ?_⟩
  all_goals simp only [State.setTenancy_tenancy, State.setTenancy_mode, State.setTenancy_time] at *
  · by_cases here : j = i
    · subst here; simpa using good
    · rw [other here]; exact h.good j
  · by_cases here : j = i
    · subst here
      rw [Quad.get_set_self, other ne.symm]
      exact fun o => clear k o m ne.symm
    · rw [other here]
      by_cases there : m = i
      · subst there
        rw [Quad.get_set_self]
        exact fun o o' => clear k o' j here o
      · rw [other there]; exact h.apart j m k ne
  · by_cases here : j = i
    · subst here; simpa using ahead on
    · rw [other here]; exact h.ahead on j
  · by_cases here : j = i
    · subst here; simpa using off offTrunk live
    · rw [other here]; exact h.off offTrunk live j

/-- One lane's tenancy changed within itself. -/
theorem within (h : s.Fit lo hi) (i : LaneId) {t : Tenancy} (w : (s.tenancy.get i).Within t) : (s.setTenancy i t).Fit lo hi :=
  h.set i (w.good (h.good i))
    (fun k o j ne => h.apart i j k ne.symm (w.occupies (h.good i) k o))
    (fun on c e => by
      obtain ⟨c', e', same⟩ := w.change c e
      rw [same]
      exact h.ahead on i c' e')
    (fun off live => w.empty (h.off off live i))

/-- Every lane's tenancy changed within itself, mode and cycle the same. -/
theorem withinAll (h : s.Fit lo hi) (w : ∀ i, (s.tenancy.get i).Within (t.tenancy.get i))
    (mode : t.mode.mode = s.mode.mode) (cycle : t.time.cycle = s.time.cycle) : t.Fit lo hi where
  good i := (w i).good (h.good i)
  apart i j k ne o o' := h.apart i j k ne ((w i).occupies (h.good i) k o) ((w j).occupies (h.good j) k o')
  ahead on i c e := by
    obtain ⟨c', e', same⟩ := (w i).change c e
    rw [same, cycle]
    exact h.ahead (mode ▸ on) i c' e'
  off off live i := (w i).empty (h.off (mode ▸ off) (mode ▸ live) i)

/-- With every lane empty the tenancies are sound in any mode. -/
theorem ofEmpty (empty : ∀ i, (t.tenancy.get i).Empty) : t.Fit lo hi where
  good i := (empty i).good
  apart i j k _ o := by
    rcases o with o | ⟨c, e, -⟩
    · rw [Tenancy.runs_eq_nil.mpr (empty i).1] at o; cases o
    · rw [(empty i).2] at e; cases e
  ahead _ i c e := by rw [(empty i).2] at e; cases e
  off _ _ := empty

/-- A change of the mode from the trunk to the trunk, or to HALTED. -/
theorem toMode (h : s.Fit lo hi) (tenancy : t.tenancy = s.tenancy) (cycle : t.time.cycle = s.time.cycle)
    (mode : t.mode.mode = .halted ∨ s.mode.mode.onTrunk = true ∧ t.mode.mode.onTrunk = true) : t.Fit lo hi := by
  refine ⟨fun i => tenancy ▸ h.good i, fun i j => by rw [tenancy]; exact h.apart i j, fun on i => ?_, fun off live => ?_⟩
  · rcases mode with halted | ⟨was, -⟩
    · rw [halted] at on; cases on
    · rw [tenancy, cycle]; exact h.ahead was i
  · rcases mode with halted | ⟨-, now⟩
    · exact absurd halted live
    · rw [now] at off; cases off

end State.Fit

/-! ### Splits -/

/-- Lane `i`'s split is the one its cells give (R83, R84). -/
def State.SplitOk (s : State) (i : LaneId) : Prop := (s.units.get i).split = s.splitOf i

theorem splitsSound_iff (s : State) : s.SplitsSound ↔ ∀ i, s.SplitOk i := by
  refine forall_congr' fun i => ?_
  have same : s.splitOf i = ⟨s.cells i * gradePayload (s.laneGrade i), s.annexOf (s.cells i * gradePayload (s.laneGrade i)) i,
      s.cells i * gradePayload (s.laneGrade i) - s.annexOf (s.cells i * gradePayload (s.laneGrade i)) i⟩ := by
    cases i <;> rfl
  have within : s.annexOf (s.cells i * gradePayload (s.laneGrade i)) i ≤ s.cells i * gradePayload (s.laneGrade i) := by
    cases i with
    | svc l => simp only [State.annexOf]; omega
    | alert => simp only [State.annexOf]; split <;> [omega; split <;> omega]
  unfold State.SplitOk
  rw [same]
  generalize (s.units.get i).split = u at *
  obtain ⟨bytes, annex, audio⟩ := u
  simp only [Split.mk.injEq]
  constructor
  · rintro ⟨rfl, rfl, sum⟩
    exact ⟨rfl, rfl, by omega⟩
  · rintro ⟨rfl, rfl, rfl⟩
    exact ⟨rfl, rfl, by omega⟩

/-- A split depends on the lane's cells, the configuration and, on the alert lane, the level. -/
theorem splitOf_congr {s t : State} {i : LaneId} (cells : t.cells i = s.cells i) (config : t.config = s.config)
    (contracts : t.contracts = s.contracts) (level : i = .alert → t.alerts.level = s.alerts.level) :
    t.splitOf i = s.splitOf i := by
  have grade : t.laneGrade i = s.laneGrade i := by
    cases i <;> simp only [State.laneGrade, State.alertGrade, config, contracts]
  cases i with
  | svc l => simp only [State.splitOf, cells, grade, contracts]
  | alert => simp only [State.splitOf, cells, grade, config, level rfl]

theorem splitOk_resplit (i : LaneId) (s : State) : (resplit i s).SplitOk i := by
  unfold State.SplitOk
  rw [resplit_unit, if_pos rfl]
  exact (splitOf_congr rfl rfl rfl (fun _ => rfl)).symm

end Sys2Proof.Machine
end

