-- ==== Sys2Proof/Proofs/Kept.lean ====
section
/-! SUPPORT. Operations that keep every tenancy, every split and the alert level: those of the carousels, the Object Store, the
FIFOs, the alert lists and relay reassembly. What the tenancies' invariant and the splits' ask for stands after them as before. -/

namespace Sys2Proof.Machine

/-- From `s` to `t` the mode, the cycle, the configuration, every tenancy, every split and the alert level are the same. -/
structure Kept (s t : State) : Prop where
  mode : t.mode.mode = s.mode.mode
  cycle : t.time.cycle = s.time.cycle
  config : t.config = s.config
  contracts : t.contracts = s.contracts
  tenancy : t.tenancy = s.tenancy
  splits : ∀ i, (t.units.get i).split = (s.units.get i).split
  level : t.alerts.level = s.alerts.level

/-- All that tenancies and splits are judged by. -/
def State.judgedBy (s : State) : Mode × Cycle × NodeConfig × Trio (Option Contract) × Quad Tenancy × Quad LaneUnit × Nat :=
  (s.mode.mode, s.time.cycle, s.config, s.contracts, s.tenancy, s.units, s.alerts.level)

namespace Kept

variable {s t u : State}

/-- An operation on blocks that hold none of this. -/
theorem same (h : t.judgedBy = s.judgedBy) : Kept s t := by
  simp only [State.judgedBy, Prod.mk.injEq] at h
  obtain ⟨mode, cycle, config, contracts, tenancy, units, level⟩ := h
  exact ⟨mode, cycle, config, contracts, tenancy, fun _ => by rw [units], level⟩

theorem refl (s : State) : Kept s s := same rfl

theorem trans (h : Kept s t) (k : Kept t u) : Kept s u :=
  ⟨k.mode.trans h.mode, k.cycle.trans h.cycle, k.config.trans h.config, k.contracts.trans h.contracts,
    k.tenancy.trans h.tenancy, fun i => (k.splits i).trans (h.splits i), k.level.trans h.level⟩

theorem cond (c : Prop) [Decidable c] (h : Kept s t) (k : Kept s u) : Kept s (if c then t else u) := by
  split
  · exact h
  · exact k

theorem forEach {α : Type} {f : α → State → State} (h : ∀ x s, Kept s (f x s)) (xs : List α) (s : State) :
    Kept s (forEach xs f s) := by
  induction xs generalizing s with
  | nil => exact refl s
  | cons x xs ih => exact (h x s).trans (ih _)

theorem forLanes {f : Lane → State → State} (h : ∀ l s, Kept s (f l s)) (s : State) : Kept s (forLanes f s) :=
  (h _ _).trans ((h _ _).trans (h _ _))

theorem ofAnnex (h : AnnexStep s t) (block : BlockStep s t) : Kept s t :=
  ⟨by rw [block.mode], by rw [block.time], block.config, block.contracts, h.tenancy, h.splits, by rw [h.alerts]⟩

theorem ofRelay (h : RelayStep s t) : Kept s t := by
  have e := h.state
  exact ⟨by rw [e], by rw [e], by rw [e], by rw [e], by rw [e], fun _ => by rw [e], h.level⟩

/-- What the tenancies' invariant asks of the state before, it asks of the state after. -/
theorem fit {lo hi : Nat} (h : Kept s t) (fit : s.Fit lo hi) : t.Fit lo hi := fit.congr h.tenancy h.mode h.cycle

theorem splitOf (h : Kept s t) (i : LaneId) : t.splitOf i = s.splitOf i :=
  splitOf_congr (by rw [State.cells, State.cells, h.tenancy]) h.config h.contracts (fun _ => h.level)

theorem splitOk (h : Kept s t) {i : LaneId} (ok : s.SplitOk i) : t.SplitOk i := by
  unfold State.SplitOk
  rw [h.splits, h.splitOf]
  exact ok

/-! ### Setters and events -/

theorem setTrunk (s : State) (x : Trunk) : Kept s (s.setTrunk x) := same rfl
theorem setPeer (s : State) (m : Node) (x : PeerEntry) : Kept s (s.setPeer m x) := same rfl
theorem setPort (s : State) (i : LaneId) (x : Port) : Kept s (s.setPort i x) := same rfl
theorem setReturn (s : State) (l : Lane) (x : ReturnLine) : Kept s (s.setReturn l x) := same rfl
theorem setSched (s : State) (i : LaneId) (x : Scheduler) : Kept s (s.setSched i x) := same rfl
theorem setObjects (s : State) (x : List Obj) : Kept s (s.setObjects x) := same rfl
theorem setStore (s : State) (x : ObjectStore) : Kept s (s.setStore x) := same rfl
theorem post (k : EventKind) (n : Nat) (l : Option LaneId) (a : Nat) (s : State) : Kept s (post k n l a s) := same rfl
theorem postSelf (k : EventKind) (l : Option LaneId) (a : Nat) (s : State) : Kept s (postSelf k l a s) := same rfl

theorem setUnit (s : State) (i : LaneId) (u : LaneUnit) (split : u.split = (s.units.get i).split) :
    Kept s (s.setUnit i u) :=
  ⟨rfl, rfl, rfl, rfl, rfl, (AnnexStep.setUnit s i u split).splits, rfl⟩

/-- Alert fields other than the level changed. -/
theorem setAlerts (s : State) (x : AlertCtl) (level : x.level = s.alerts.level) : Kept s (s.setAlerts x) :=
  ⟨rfl, rfl, rfl, rfl, rfl, fun _ => rfl, level⟩

theorem setLaneState (i : LaneId) (x : LaneState) (s : State) : Kept s (setLaneState i x s) := setUnit _ _ _ rfl

/-! ### Carousels and Object Store -/

theorem onCaptions (l : Lane) (f : CaptionCarousel → CaptionCarousel) (s : State) : Kept s (onCaptions l f s) := same rfl
theorem onPictures (l : Lane) (f : PictureCarousel → PictureCarousel) (s : State) : Kept s (onPictures l f s) := same rfl
theorem updateObj (i : LaneId) (id : Byte) (f : Obj → Obj) (s : State) : Kept s (updateObj i id f s) := same rfl

theorem onlyIf (b : Bool) {f : State → State} {s : State} (h : Kept s (f s)) : Kept s (onlyIf b f s) := cond _ h (refl s)

theorem postClamp (i : LaneId) (f : Nat) (id : Byte) (s : State) : Kept s (postClamp i f id s) := postSelf ..

theorem postCaptionClamps (l : Lane) (id p r : Byte) (t : List Byte) (s : State) :
    Kept s (postCaptionClamps l id p r t s) :=
  ((onlyIf _ (postClamp ..)).trans (onlyIf _ (postClamp ..))).trans (onlyIf _ (postClamp ..))

theorem captionContend (l : Lane) (id : Byte) (p d r : Nat) (t : List Byte) (s : State) :
    Kept s (captionContend l id p d r t s) := by
  unfold Machine.captionContend
  dsimp only
  split
  · exact refl s
  · exact cond _ (postSelf ..) (cond _ (postSelf ..) ((onCaptions ..).trans (postSelf ..)))

theorem captionPutOp (l : Lane) (id p d r : Byte) (t : List Byte) (s : State) : Kept s (captionPutOp l id p d r t s) := by
  unfold Machine.captionPutOp
  refine (postCaptionClamps l id p r t s).trans ?_
  dsimp only
  split
  · exact onCaptions ..
  · exact cond _ (onCaptions ..) (captionContend ..)

theorem captionDropOp (l : Lane) (id : Byte) (s : State) : Kept s (captionDropOp l id s) := onCaptions ..

theorem removeObj (l : Lane) (id : Byte) (s : State) : Kept s (removeObj l id s) := (onPictures ..).trans (setObjects ..)

theorem interruptPicture (l : Lane) (s : State) : Kept s (interruptPicture l s) := by
  unfold Machine.interruptPicture
  split
  · exact refl s
  · exact cond _ (((updateObj ..).trans (onPictures ..)).trans ((removeObj ..).trans (postSelf ..)))
      ((updateObj ..).trans (onPictures ..))

theorem restorePicture (l : Lane) (p : Option Byte) (s : State) : Kept s (restorePicture l p s) :=
  (interruptPicture ..).trans (onPictures ..)

theorem pictureBeginOp (l : Lane) (id : Byte) (n : BitVec 24) (r : Byte) (x : BitVec 16) (s : State) :
    Kept s (pictureBeginOp l id n r x s) := by
  have clamps : Kept s (postPictureClamps l id r x s) := (onlyIf _ (postClamp ..)).trans (onlyIf _ (postClamp ..))
  refine clamps.trans ?_
  unfold Machine.pictureBeginOp
  dsimp only
  split
  · exact postSelf ..
  · exact (removeObj ..).trans (setStore ..)

theorem acceptBytes (picked : Obj → Bool) (o : Obj) (bs : List Byte) (s : State) : Kept s (acceptBytes picked o bs s) := setStore ..

theorem pictureChunkOp (l : Lane) (id : Byte) (n : BitVec 24) (bs : List Byte) (s : State) :
    Kept s (pictureChunkOp l id n bs s) := by
  have bad (k : EventKind) (a : Nat) : Kept s (Machine.postSelf k (some (.svc l)) a (Machine.removeObj l id s)) :=
    (removeObj ..).trans (postSelf ..)
  unfold Machine.pictureChunkOp
  dsimp only
  split
  · exact postSelf ..
  · exact cond _ (postSelf ..) (cond _ (bad ..) (cond _ (bad ..) (cond _ ((acceptBytes ..).trans (onPictures ..)) (acceptBytes ..))))

theorem discardPictures (l : Lane) (s : State) : Kept s (discardPictures l s) := same rfl

theorem expireObj (l : Lane) (id : Byte) (s : State) : Kept s (expireObj l id s) := by
  unfold Machine.expireObj
  split
  · exact refl s
  · split
    · exact cond _ ((updateObj ..).trans ((removeObj ..).trans (postSelf ..))) (updateObj ..)
    · exact refl s

theorem timeObj (l : Lane) (id : Byte) (s : State) : Kept s (timeObj l id s) := by
  unfold Machine.timeObj
  split
  · exact refl s
  · exact cond _ (refl s) (cond _ (updateObj ..) ((removeObj ..).trans (postSelf ..)))

theorem discardReserve (i : Ident) (s : State) : Kept s (discardReserve i s) := ofRelay (.discardReserve i s)

theorem timeReserve (i : Ident) (s : State) : Kept s (timeReserve i s) := by
  unfold Machine.timeReserve
  split
  · exact refl s
  · exact cond _ (refl s) (cond _ (setObjects ..) ((discardReserve ..).trans (postSelf ..)))

theorem timeoutStep (i : LaneId) (id : Byte) (s : State) : Kept s (timeoutStep i id s) := by
  unfold Machine.timeoutStep
  split
  · split
    · exact cond _ (timeObj ..) (refl s)
    · exact refl s
  · exact forEach timeReserve _ _

theorem storeBoundary (s : State) : Kept s (storeBoundary s) :=
  ((forLanes (fun _ _ => forEach (expireObj _) _ _) _).trans (forLanes (fun _ _ => forEach (timeObj _) _ _) _)).trans
    (forEach timeReserve _ _)

theorem allocateEntry (i : Ident) (x : Source) (n : Nat) (k : BitVec 4) (s : State) : Kept s (allocateEntry i x n k s) :=
  (discardReserve ..).trans ((ofRelay (.evictReserve _)).trans (setObjects ..))

theorem allocateReserve (i : Ident) (x : Source) (n : Nat) (k : BitVec 4) (s : State) :
    Kept s (allocateReserve i x n k s).2 := by
  unfold Machine.allocateReserve
  split
  · dsimp only
    split
    · exact refl s
    · exact postSelf ..
  · split
    · split
      · exact refl s
      · split
        · exact refl s
        · exact allocateEntry ..
    · exact allocateEntry ..

theorem reserveChunk (i : Ident) (n : BitVec 24) (bs : List Byte) (s : State) : Kept s (reserveChunk i n bs s) := by
  have bad (k : EventKind) (l : Option LaneId) (a : Nat) : Kept s (Machine.postSelf k l a (Machine.discardReserve i s)) :=
    (discardReserve ..).trans (postSelf ..)
  unfold Machine.reserveChunk
  dsimp only
  split
  · exact postSelf ..
  · exact cond _ (postSelf ..) (cond _ (bad ..) (cond _ (bad ..) (acceptBytes ..)))

/-! ### Lane Units -/

theorem makeStatus (l : Lane) (s : State) : Kept s (makeStatus l s) := cond _ (setReturn ..) (refl s)

theorem statusRecords (s : State) : Kept s (statusRecords s) := forLanes makeStatus s

theorem statusIfHeld (i : LaneId) (x : Intake) (s : State) : Kept s (statusIfHeld i x s) := by
  unfold Machine.statusIfHeld
  split
  · exact makeStatus ..
  · exact refl s

theorem closeSched (i : LaneId) (s : State) : Kept s (closeSched i s) := by
  cases i with
  | alert => exact refl s
  | svc l => exact (setSched ..).trans ((onCaptions ..).trans (interruptPicture ..))

theorem closeLane (i : LaneId) (s : State) : Kept s (closeLane i s) :=
  (setUnit s i { (s.units.get i).discard with state := .closed } rfl).trans
    ((closeSched ..).trans ((postSelf ..).trans (statusIfHeld ..)))

theorem appendUnit (i : LaneId) (bs : List Byte) (s : State) : Kept s (appendUnit i bs s) := by
  have status (s : State) : Kept s (statusForIntake i s) := by
    cases i with
    | svc l => exact makeStatus ..
    | alert => exact refl s
  unfold Machine.appendUnit
  dsimp only
  split
  · exact setUnit _ _ _ rfl
  · exact cond _ (setUnit _ _ _ rfl) ((setUnit s i { s.units.get i with intake := .held, dropped := 1 } rfl).trans
      ((postSelf ..).trans (status _)))

theorem audioUnitOp (l : Lane) (bs : List Byte) (s : State) : Kept s (audioUnitOp l bs s) := cond _ (appendUnit ..) (refl s)

theorem postRateClamped (l : Lane) (a b : Nat) (s : State) : Kept s (postRateClamped l a b s) := cond _ (refl s) (postSelf ..)

theorem laneResetOp (l : Lane) (s : State) : Kept s (laneResetOp l s) :=
  (setUnit s (.svc l) (s.units.get (.svc l)).discard rfl).trans ((onCaptions ..).trans ((discardPictures ..).trans
    ((setSched ..).trans ((postSelf ..).trans (statusIfHeld ..)))))

theorem assembleFrame (s : State) : Kept s (assembleFrame s) := ofAnnex (.assembleFrame s) (.assembleFrame s)

/-! ### Alert lists -/

theorem updateOwn (i : Ident) (f : OwnAlert → OwnAlert) (s : State) : Kept s (s.updateOwn i f) := setAlerts _ _ rfl

theorem dropKeptText (i : Ident) (s : State) : Kept s (dropKeptText i s) := setAlerts _ _ rfl

theorem dropRelayText (i : Ident) (s : State) : Kept s (dropRelayText i s) := (dropKeptText ..).trans (setAlerts _ _ rfl)

theorem sweepIdents (before : List Ident) (s : State) : Kept s (sweepIdents before s) :=
  forEach (fun _ _ => (discardReserve ..).trans (dropRelayText ..)) _ _

theorem keeping {f : State → State} (h : Kept s (f s)) : Kept s (keeping f s) := h.trans (sweepIdents ..)

theorem postAlert (k : EventKind) (n : Node) (i : Ident) (s : State) : Kept s (postAlert k n i s) := post ..

theorem copyShadow (i : Ident) (s : State) : Kept s (copyShadow i s) := by
  unfold Machine.copyShadow
  split
  · exact updateOwn ..
  · exact refl s

theorem holdAlert (a : HeldAlert) (s : State) : Kept s (holdAlert a s) := (setAlerts _ _ (by exact rfl)).trans (postAlert ..)

theorem offerAlert (a : HeldAlert) (s : State) : Kept s (offerAlert a s) := by
  unfold Machine.offerAlert
  split
  · exact holdAlert ..
  · exact cond _ (holdAlert ..) (refl s)

theorem switchLead (s : State) : Kept s (switchLead s) := by
  unfold Machine.switchLead
  split
  · exact refl s
  · split
    · exact refl s
    · exact setAlerts _ _ rfl

theorem scheduleCandidate (s : State) : Kept s (scheduleCandidate s) := by
  unfold Machine.scheduleCandidate
  split
  · exact refl s
  · exact cond _ (setAlerts _ _ rfl) (refl s)

theorem pruneScheduled (s : State) : Kept s (pruneScheduled s) := setAlerts _ _ rfl

theorem switchSaved (s : State) : Kept s (switchSaved s) := setAlerts _ _ rfl

theorem noteLeadEnds (s : State) : Kept s (noteLeadEnds s) := setAlerts _ _ rfl

theorem judgeAlerts (s : State) : Kept s (judgeAlerts s) :=
  (pruneScheduled s).trans <| (switchLead _).trans <|
    (switchSaved _).trans <| (noteLeadEnds _).trans <| (scheduleCandidate _).trans (forEach offerAlert _ _)

theorem pictureGap (i : Ident) (s : State) : Kept s (pictureGap i s) := ofRelay (.pictureGap i s)

theorem syncRelay (s : State) : Kept s (syncRelay s) := by
  unfold Machine.syncRelay
  refine cond _ (refl s) ?_
  dsimp only
  split
  · exact (pictureGap ..).trans (setAlerts _ _ rfl)
  · exact setAlerts _ _ rfl

theorem noteRedirect (s : State) : Kept s (noteRedirect s) := setAlerts _ _ rfl

theorem noteYields (s : State) : Kept s (noteYields s) := setAlerts _ _ rfl

theorem judged (s : State) : Kept s (judged s) :=
  (judgeAlerts s).trans ((noteRedirect _).trans ((noteYields _).trans (syncRelay _)))

theorem unschedule (i : Ident) (n : Node) (s : State) : Kept s (unschedule i n s) := setAlerts _ _ rfl

theorem noteEnd (i : Ident) (n : Node) (b : Cycle) (s : State) : Kept s (noteEnd i n b s) := setAlerts _ _ rfl

theorem loseLead (m : Node) (i : Ident) (s : State) : Kept s (loseLead m i s) := setAlerts _ _ rfl

theorem headerFor (m : Node) (h : Header) (i : Ident) (s : State) : Kept s (headerFor m h i s) := by
  unfold Machine.headerFor
  split
  · exact (unschedule ..).trans (noteEnd ..)
  · split
    · split
      · exact (unschedule ..).trans (noteEnd ..)
      · exact refl s
    · exact loseLead ..
    · exact loseLead ..

theorem headerStored (m : Node) (b : Option Header) (h : Header) (s : State) : Kept s (headerStored m b h s) :=
  cond _ (keeping ((forEach copyShadow _ _).trans ((forEach (headerFor m h) _ _).trans (judged _)))) (refl s)

theorem peerLossAlerts (m : Node) (s : State) : Kept s (peerLossAlerts m s) :=
  cond _ (keeping ((forEach (loseLead m) _ _).trans (judged _))) (refl s)

theorem unheardReport (m : Node) (s : State) : Kept s (unheardReport m s) := by
  unfold Machine.unheardReport
  refine cond _ (refl s) ?_
  have silent (s : State) : Kept s (silencePeer m s) := (setPeer ..).trans (post ..)
  have lose (s : State) : Kept s (losePeer m s) := (setPeer ..).trans ((post ..).trans (peerLossAlerts ..))
  dsimp only
  split
  · exact cond _ ((setPeer ..).trans (silent _)) (setPeer ..)
  · exact cond _ ((setPeer ..).trans (silent _)) (setPeer ..)
  · exact cond _ ((setPeer ..).trans (lose _)) (setPeer ..)
  · exact setPeer ..
  · exact setPeer ..

/-! ### The alert lists at a boundary -/

theorem stepOnAir (i : Ident) (s : State) : Kept s (stepOnAir i s) := by
  unfold Machine.stepOnAir
  split
  · exact refl s
  · exact cond _ (cond _ ((updateOwn ..).trans ((updateOwn ..).trans (postSelf ..))) (updateOwn ..)) (refl s)

theorem expireAlert (level : Nat) (s : State) : Kept s (expireAlert level s) := by
  unfold Machine.expireAlert
  split
  · exact keeping ((stepOnAir ..).trans (judged _))
  · exact refl s

theorem stepHolds (s : State) : Kept s (stepHolds s) := setAlerts _ _ rfl

theorem orphanSaved (s : State) : Kept s (orphanSaved s) := (setAlerts _ _ (by exact rfl)).trans (forEach (fun _ _ => postAlert ..) _ _)

theorem applyEnd (n : EndNote) (s : State) : Kept s (applyEnd n s) :=
  cond _ ((setAlerts _ _ (by exact rfl)).trans (postAlert ..)) (setAlerts _ _ rfl)

theorem postOrphan (o : Option Followed) (s : State) : Kept s (postOrphan o s) := by
  cases o with
  | none => exact refl s
  | some f => exact postAlert ..

theorem updateRedirect (s : State) : Kept s (updateRedirect s) := setAlerts _ _ rfl

theorem restorePositions (c : Context) (s : State) : Kept s (restorePositions c s) :=
  forLanes (fun _ _ => (onCaptions ..).trans (restorePicture ..)) s

theorem emptyCursors (s : State) : Kept s (emptyCursors s) := forEach (fun _ _ => setSched ..) _ _

theorem suspendLow (s : State) : Kept s (suspendLow s) := forLanes (fun _ _ => (onCaptions ..).trans (interruptPicture ..)) s

/-! ### The alert port -/

theorem refuseAlert (r : Nat) (id : Byte) (s : State) : Kept s (refuseAlert r id s) := postSelf ..

theorem dropReplaced (i : Ident) (s : State) : Kept s (dropReplaced i s) := by
  have text (o : OwnAlert) (s : State) : Kept s (keepText o s) := by
    unfold keepText
    split
    · exact refl s
    · exact setAlerts _ _ rfl
  unfold Machine.dropReplaced
  split
  · exact refl s
  · exact cond _ ((setAlerts _ _ (by exact rfl)).trans ((text ..).trans (noteEnd ..))) ((setAlerts _ _ (by exact rfl)).trans (text ..))

theorem dropTraces (i : Ident) (s : State) : Kept s (dropTraces i s) :=
  (dropKeptText ..).trans (.trans (t := dropOriginEntry i _) (setObjects ..) (setAlerts _ _ rfl))

theorem alertTextOp (id : Byte) (bs : List Byte) (s : State) : Kept s (alertTextOp id bs s) := by
  unfold Machine.alertTextOp
  split
  · exact refuseAlert ..
  · exact (cond _ (postClamp ..) (refl s)).trans (updateOwn ..)

theorem alertPictureBeginOp (id : Byte) (n : BitVec 24) (s : State) : Kept s (alertPictureBeginOp id n s) := by
  unfold Machine.alertPictureBeginOp
  split
  · exact refuseAlert ..
  · exact allocateReserve ..

theorem alertPictureChunkOp (id : Byte) (n : BitVec 24) (bs : List Byte) (s : State) :
    Kept s (alertPictureChunkOp id n bs s) := by
  unfold Machine.alertPictureChunkOp
  split
  · exact refuseAlert ..
  · exact reserveChunk ..

theorem alertAudioOp (id : Byte) (bs : List Byte) (s : State) : Kept s (alertAudioOp id bs s) := by
  unfold Machine.alertAudioOp
  split
  · exact refl s
  · exact cond _ (appendUnit ..) (refl s)

theorem alertEndOp (id : Byte) (s : State) : Kept s (alertEndOp id s) := by
  have ended (i : Ident) : Kept s (Machine.keeping (dropOwn i) s) := keeping ((setAlerts _ _ (by exact rfl)).trans ((postSelf ..).trans (judged _)))
  unfold Machine.alertEndOp
  split
  · exact refuseAlert ..
  · split
    · exact cond _ (refl s) (keeping ((updateOwn ..).trans (judged _)))
    · exact ended _
    · exact ended _

end Kept

end Sys2Proof.Machine
end

