-- ==== Sys2Proof/Proofs/Planning.lean ====
section
/-! SUPPORT. Planning, withdrawals, trims and reports keep the tenancies' invariant and the splits' (R55 to R78, R83): a claim is
planned on cells that the map shows free, a release inside the lane's own, and every change of a lane's cells is reported. -/

namespace Sys2Proof.Machine

/-! ### Steps that keep tenancies and splits sound -/

/-- From `s` to `t` the tenancies stay sound with changes up to three, or up to four, cycles ahead, and every split that the
cells gave, they give. -/
structure CellStep (s t : State) : Prop where
  fit : ∀ hi, 3 ≤ hi → hi ≤ 4 → s.Fit 1 hi → t.Fit 1 hi
  splits : ∀ i, s.SplitOk i → t.SplitOk i

namespace CellStep

variable {s t u : State}

theorem refl (s : State) : CellStep s s := ⟨fun _ _ _ => id, fun _ => id⟩

theorem trans (h : CellStep s t) (k : CellStep t u) : CellStep s u :=
  ⟨fun hi low high fit => k.fit hi low high (h.fit hi low high fit), fun i ok => k.splits i (h.splits i ok)⟩

theorem cond (c : Prop) [Decidable c] (h : CellStep s t) (k : CellStep s u) : CellStep s (if c then t else u) := by
  split
  · exact h
  · exact k

/-- `cond`, each branch under its condition. -/
theorem whether (c : Prop) [Decidable c] (h : c → CellStep s t) (k : ¬ c → CellStep s u) :
    CellStep s (if c then t else u) := by
  split
  next yes => exact h yes
  next no => exact k no

theorem forEach {α : Type} {f : α → State → State} (h : ∀ x s, CellStep s (f x s)) (xs : List α) (s : State) :
    CellStep s (forEach xs f s) := by
  induction xs generalizing s with
  | nil => exact refl s
  | cons x xs ih => exact (h x s).trans (ih _)

theorem forLanes {f : Lane → State → State} (h : ∀ l s, CellStep s (f l s)) (s : State) : CellStep s (forLanes f s) :=
  (h _ _).trans ((h _ _).trans (h _ _))

theorem ofKept (h : Kept s t) : CellStep s t := ⟨fun _ _ _ => h.fit, fun _ => h.splitOk⟩

end CellStep

/-- From `s` to `t` no lane's cells, change or split have changed, and neither has what they are judged by. -/
structure SameSplits (s t : State) : Prop where
  mode : t.mode.mode = s.mode.mode
  cycle : t.time.cycle = s.time.cycle
  config : t.config = s.config
  contracts : t.contracts = s.contracts
  runs : ∀ i, (t.tenancy.get i).runs = (s.tenancy.get i).runs
  change : ∀ i, (t.tenancy.get i).change = (s.tenancy.get i).change
  splits : ∀ i, (t.units.get i).split = (s.units.get i).split
  level : t.alerts.level = s.alerts.level

namespace SameSplits

variable {s t u : State}

theorem ofBlock (block : BlockStep s t) (runs : ∀ i, (t.tenancy.get i).runs = (s.tenancy.get i).runs)
    (change : ∀ i, (t.tenancy.get i).change = (s.tenancy.get i).change)
    (splits : ∀ i, (t.units.get i).split = (s.units.get i).split) (level : t.alerts.level = s.alerts.level) : SameSplits s t :=
  ⟨by rw [block.mode], by rw [block.time], block.config, block.contracts, runs, change, splits, level⟩

theorem fit {lo hi : Nat} (h : SameSplits s t) (fit : s.Fit lo hi) : t.Fit lo hi :=
  fit.withinAll (fun i => .same (h.runs i) (h.change i)) h.mode h.cycle

theorem splitOk {i : LaneId} (h : SameSplits s t) (ok : s.SplitOk i) : t.SplitOk i := by
  unfold State.SplitOk
  rw [h.splits, splitOf_congr (by rw [State.cells, State.cells, Tenancy.cells_eq, Tenancy.cells_eq, h.runs])
    h.config h.contracts fun _ => h.level]
  exact ok

theorem cellStep (h : SameSplits s t) : CellStep s t := ⟨fun _ _ _ => h.fit, fun _ => h.splitOk⟩

end SameSplits

/-- A split stands as long as its Lane Unit's budget, its cells, the configuration and the level do. -/
theorem State.SplitOk.congr {s t : State} {i : LaneId} (ok : s.SplitOk i) (block : BlockStep s t)
    (split : (t.units.get i).split = (s.units.get i).split) (tenancy : (t.tenancy.get i).runs = (s.tenancy.get i).runs)
    (level : t.alerts.level = s.alerts.level) : t.SplitOk i := by
  unfold SplitOk
  rw [split, splitOf_congr (by rw [State.cells, State.cells, Tenancy.cells_eq, Tenancy.cells_eq, tenancy])
    block.config block.contracts fun _ => level]
  exact ok

namespace CellStep

variable {s t u : State}

/-- What a report does, beside the split, keeps cells and splits. -/
theorem ofReported {i : LaneId} (h : Reported i s t) (block : BlockStep s t) : CellStep s t := by
  have own (j : LaneId) : ∃ r, t.tenancy.get j = { s.tenancy.get j with restoreTarget := r } := by
    by_cases here : j = i
    · subst here; exact ⟨_, h.own⟩
    · exact ⟨_, h.tenancies j here⟩
  refine SameSplits.cellStep (.ofBlock block (fun j => ?_) (fun j => ?_) (fun j => ?_) (by rw [h.alerts]))
  · obtain ⟨r, e⟩ := own j; rw [e]; rfl
  · obtain ⟨r, e⟩ := own j; rw [e]
  · by_cases here : j = i
    · subst here; exact h.split
    · rw [h.units j here]

/-! ### Reports -/

theorem resplit (i : LaneId) (s : State) : CellStep s (resplit i s) where
  fit _ _ _ fit := fit.congr rfl rfl rfl
  splits j ok := by
    by_cases here : j = i
    · subst here; exact splitOk_resplit j s
    · exact ok.congr (.resplit i s) (by rw [resplit_unit, if_neg here]) rfl rfl

theorem reportLane (i : LaneId) (s : State) : CellStep s (reportLane i s) :=
  (resplit i s).trans (ofReported (.reportLane i s) (by
    cases i with
    | svc l => exact .reportService l _
    | alert => exact .reportAlert _))

theorem splitOk_reportLane (i : LaneId) (s : State) : (Machine.reportLane i s).SplitOk i := by
  refine State.SplitOk.congr (splitOk_resplit i s) (?_ : BlockStep (Machine.resplit i s) _) (Reported.reportLane i s).split ?_
    (by rw [(Reported.reportLane i s).alerts])
  · cases i with
    | svc l => exact .reportService l _
    | alert => exact .reportAlert _
  · rw [(Reported.reportLane i s).own]; rfl

/-- A lane's tenancy changed, and the lane reported. -/
theorem report (i : LaneId) {x : Tenancy} (fit : ∀ hi, 3 ≤ hi → hi ≤ 4 → s.Fit 1 hi → (s.setTenancy i x).Fit 1 hi)
    (kept : Kept (s.setTenancy i x) t) : CellStep s (Machine.reportLane i t) where
  fit hi low high sound := (reportLane i t).fit hi low high (kept.fit (fit hi low high sound))
  splits j ok := by
    by_cases here : j = i
    · subst here; exact splitOk_reportLane j t
    · refine (reportLane i t).splits j (kept.splitOk ?_)
      refine ok.congr (.setTenancy ..) rfl ?_ rfl
      simp [Quad.get_set_of_ne _ _ _ _ here]

/-! ### Tenancy records with the same cells -/

/-- A tenancy record that keeps its cells but for their marks. -/
theorem remark (i : LaneId) (f : Tenancy → Tenancy) (s : State) (runs : ∀ t, (f t).runs = t.runs)
    (change : ∀ t, (f t).change = t.change) : CellStep s (onTenancy i f s) := by
  have same := SameCells.onTenancy i f s runs change
  exact SameSplits.cellStep (.ofBlock (.onTenancy ..) same.runs same.change same.split rfl)

theorem onTenancy (i : LaneId) (f : Tenancy → Tenancy) (s : State)
    (fragments : ∀ t, (f t).fragments = t.fragments := by exact fun _ => rfl)
    (change : ∀ t, (f t).change = t.change := by exact fun _ => rfl) : CellStep s (onTenancy i f s) :=
  remark i f s (fun t => by rw [Tenancy.runs_eq, Tenancy.runs_eq, fragments]) change

theorem setTargetRate (l : Lane) (r : Nat) (s : State) : CellStep s (setTargetRate l r s) := onTenancy ..

theorem setLaneState (i : LaneId) (x : LaneState) (s : State) : CellStep s (setLaneState i x s) := ofKept (.setLaneState ..)

theorem postSelf (k : EventKind) (l : Option LaneId) (a : Nat) (s : State) : CellStep s (postSelf k l a s) := ofKept (.postSelf ..)

theorem setAlerts (s : State) (x : AlertCtl) (level : x.level = s.alerts.level := by rfl) : CellStep s (s.setAlerts x) :=
  ofKept (.setAlerts s x level)

theorem closeLane (i : LaneId) (s : State) : CellStep s (closeLane i s) := ofKept (.closeLane ..)

theorem checkRestore (l : Lane) (s : State) : CellStep s (checkRestore l s) := ofReported (.checkRestore l s) (.checkRestore l s)

theorem defer (i : LaneId) (d : Deferral) (a : Nat) (s : State) : CellStep s (defer i d a s) :=
  (onTenancy i (fun t => { t with deferral := d }) s).trans (cond _ (refl _) (postSelf ..))

end CellStep

/-! ### Releases (R61, R67) -/

theorem trimDown_gone_ne_nil (n : Nat) (fs : List Fragment) (gone : List Run) (some : gone ≠ [] ∨ 0 < n ∧ fs ≠ []) :
    (trimDown n fs gone).2 ≠ [] := by
  fun_induction trimDown n fs gone with
  | case1 => simpa using some
  | case2 => simpa using some
  | case3 n f fs gone pos whole ih => exact ih (.inl nofun)
  | case4 => nofun

theorem trim_gone_ne_nil {n : Nat} {fs : List Fragment} (pos : 0 < n) (some : fs ≠ []) : (trim n fs).2 ≠ [] :=
  trimDown_gone_ne_nil n fs.reverse [] (.inr ⟨pos, by simpa using some⟩)

/-- A change planned now takes effect one to three cycles ahead (R61). -/
theorem effectiveCycle_ahead (s : State) (i : LaneId) (kind : ChangeKind) (rank : Rank) :
    1 ≤ (s.effectiveCycle i kind rank - s.time.cycle).toNat ∧ (s.effectiveCycle i kind rank - s.time.cycle).toNat ≤ 3 := by
  have announced : s.announceCycle i = s.time.cycle ∨ s.announceCycle i = s.time.cycle + 1 := by
    unfold State.announceCycle
    exact ite_eq_or_eq _ _ _
  have effective : s.effectiveCycle i kind rank = s.announceCycle i + 1 ∨
      s.effectiveCycle i kind rank = s.announceCycle i + 2 := by
    cases kind with
    | release => exact .inl rfl
    | claim =>
      cases rank with
      | alert => exact .inl rfl
      | ordinary | restore => exact .inr rfl
  generalize s.effectiveCycle i kind rank = e at *
  generalize s.announceCycle i = a at *
  generalize s.time.cycle = c at *
  rcases announced with rfl | rfl <;> rcases effective with rfl | rfl <;> constructor <;> bv_omega

theorem Tenancy.fragments_ne_nil {t : Tenancy} (h : 0 < t.cells) : t.fragments ≠ [] := by
  intro none
  simp [Tenancy.cells, none] at h

namespace CellStep

variable {s t u : State}

/-- A release of the top cells is planned inside the lane's cells. -/
theorem setRelease (i : LaneId) {k : Nat} (pos : 0 < k) (holds : 0 < (s.tenancy.get i).cells) :
    CellStep s (setRelease i k s) := by
  have some := Tenancy.fragments_ne_nil holds
  refine ⟨fun hi low _ sound => ?_, fun j ok => ok.congr (.setRelease ..) rfl ?_ rfl⟩
  · have good := sound.good i
    obtain ⟨trimmed, cells⟩ := trim_spec k (s.tenancy.get i).fragments good.fragments
    refine sound.set i ⟨good.fragments, fun c e => ?_⟩ (fun n o j ne => ?_) (fun _ c e => ?_) (fun off live => ?_)
    · obtain rfl : _ = c := Option.some.inj e
      refine ⟨trim_gone_ne_nil pos some, (runsGood_append.mp trimmed).2.1, fun n gone => ?_⟩
      show inRuns (fragmentRuns _) n = true
      rw [← cells, inRuns_append, gone, Bool.or_true]
    · rcases o with o | ⟨c, e, claims, -⟩
      · exact sound.apart i j n ne.symm (.inl o)
      · obtain rfl : _ = c := Option.some.inj e
        cases claims
    · obtain rfl : _ = c := Option.some.inj e
      obtain ⟨least, most⟩ := effectiveCycle_ahead s i .release (releaseRank i)
      exact ⟨least, most.trans low⟩
    · exact absurd (sound.off off live i).1 some
  · unfold Machine.setRelease setChange Machine.onTenancy
    by_cases here : j = i
    · subst here; simp [Tenancy.runs]
    · simp [Quad.get_set_of_ne _ _ _ _ here]

end CellStep

/-! ### Claims (R49 to R53, R59) -/

/-- A cell that the map shows free is held or claimed by none of the node's own lanes. -/
theorem not_occupies_of_free {s : State} {hi k : Nat} (on : s.onTrunk = true) (fit : s.Fit 1 hi) (high : hi ≤ 4)
    (free : cellFree s.coverings k = true) (j : LaneId) : ¬ (s.tenancy.get j).occupies k := by
  have onTrunk : s.mode.mode.onTrunk = true := by
    unfold State.onTrunk at on
    simp only [Bool.and_eq_true] at on
    exact on.2
  have ahead : ∀ c, (s.tenancy.get j).change = some c → changeReached s.time.cycle true c = false := by
    intro c e
    obtain ⟨least, most⟩ := fit.ahead onTrunk j c e
    have small : 1 ≤ (c.effective - s.time.cycle).toNat ∧ (c.effective - s.time.cycle).toNat ≤ 4 := ⟨least, most.trans high⟩
    have past : ¬ (s.time.cycle - c.effective).toNat < 2048 := by bv_omega
    simpa [changeReached, reached] using past
  have listed : some (s.sheet j) ∈ (allLanes.map (fun i => s.selfEntry.sheets.get i)) := by
    unfold State.selfEntry
    rw [if_pos on]
    rcases j with (_ | _ | _) | _ <;> simp [allLanes, Quad.get]
  have covering (c : Covering) (mem : c ∈ sheetCoverings s.time.cycle s.node true (s.sheet j)) : c.covers k = false := by
    have within : c ∈ s.coverings := by
      refine List.mem_flatMap.mpr ⟨s.node, ?_, ?_⟩
      · generalize s.node = n
        revert n
        decide
      · have self : s.entry s.node = s.selfEntry := if_pos rfl
        have present : s.selfEntry.counts = true ∧ s.selfEntry.inStep = true := by
          unfold State.selfEntry; rw [if_pos on]; exact ⟨rfl, rfl⟩
        rw [self, entryCoverings, if_pos present.1, present.2]
        refine List.mem_flatMap.mpr ⟨s.sheet j, ?_, mem⟩
        obtain ⟨i, inLanes, e⟩ := List.mem_map.mp listed
        exact List.mem_filterMap.mpr ⟨i, inLanes, e⟩
    simpa using List.all_eq_true.mp free c within
  have sheet : (s.sheet j).current = (s.tenancy.get j).runs ∧ (s.sheet j).change = (s.tenancy.get j).change := by
    unfold State.sheet
    cases j with
    | alert => exact ⟨rfl, rfl⟩
    | svc l => dsimp only; split <;> exact ⟨rfl, rfl⟩
  rw [sheetCoverings, sheet.1, sheet.2] at covering
  have apart {c : Covering} (e : c.less = []) (out : c.covers k = false) : inRuns c.runs k = false := by
    simpa [Covering.covers, e] using out
  rintro (held | ⟨c, pending, kind, asked⟩)
  · cases pending : (s.tenancy.get j).change with
    | none =>
      rw [pending] at covering
      have := apart rfl (covering _ List.mem_cons_self)
      simp_all
    | some c =>
      rw [pending] at covering
      dsimp only at covering
      rw [ahead c pending] at covering
      cases kind : c.kind with
      | release =>
        rw [kind] at covering
        have := apart rfl (covering _ List.mem_cons_self)
        simp_all
      | claim =>
        rw [kind] at covering
        have := apart rfl (covering _ List.mem_cons_self)
        simp_all
  · rw [pending] at covering
    dsimp only at covering
    rw [kind] at covering
    have := apart rfl (covering _ (List.mem_cons_of_mem _ List.mem_cons_self))
    simp_all

namespace CellStep

variable {s t u : State}

/-- A claim is planned on free cells, or put off. -/
theorem makeClaim (i : LaneId) (rank : Rank) {need : Nat} (pos : 0 < need) (on : s.onTrunk = true) :
    CellStep s (makeClaim i rank need s) := by
  unfold Machine.makeClaim
  dsimp only
  obtain ⟨free, clear⟩ := freeRuns_spec s
  obtain ⟨taken, offered⟩ := takeRuns_spec (s.tenancy.get i).fragments s.freeRuns need [] free
  generalize takeRuns (s.tenancy.get i).fragments s.freeRuns need [] = runs at taken offered ⊢
  refine whether _ (fun enough => ?_) (fun _ => defer ..)
  have nonempty : runs ≠ [] := by
    rintro rfl
    cases rank with
    | ordinary => simp only [runTotal, List.map_nil, List.sum_nil, beq_iff_eq] at enough; omega
    | restore | alert => simp [runTotal] at enough
  have planned (hi : Nat) (low : 3 ≤ hi) (high : hi ≤ 4) (sound : s.Fit 1 hi) : (s.setTenancy i { s.tenancy.get i with
      change := some ⟨.claim, rank, s.effectiveCycle i .claim rank, runs⟩, deferral := .none }).Fit 1 hi := by
    have outside (k : Nat) (here : inRuns runs k = true) (j : LaneId) : ¬ (s.tenancy.get j).occupies k :=
      not_occupies_of_free on sound high (clear k (offered k here)) j
    refine sound.set i ⟨(sound.good i).fragments, fun c e => ?_⟩ (fun n o j ne => ?_) (fun _ c e => ?_) (fun off _ => ?_)
    · obtain rfl : _ = c := Option.some.inj e
      refine ⟨nonempty, taken, fun k here => ?_⟩
      show inRuns (s.tenancy.get i).runs k = false
      simpa using fun held => outside k here i (.inl held)
    · rcases o with o | ⟨c, e, -, here⟩
      · exact sound.apart i j n ne.symm (.inl o)
      · obtain rfl : _ = c := Option.some.inj e
        exact outside n here j
    · obtain rfl : _ = c := Option.some.inj e
      obtain ⟨least, most⟩ := effectiveCycle_ahead s i .claim rank
      exact ⟨least, most.trans low⟩
    · simp [State.onTrunk, off] at on
  refine report i planned (.same ?_)
  simp [setChange, Machine.onTenancy, State.judgedBy]

end CellStep

end Sys2Proof.Machine
end

