-- ==== Sys2Proof/Proofs/LaneSteps.lean ====
section
/-! SUPPORT. The Tenancy Unit's requests, the lane records, the Alert Controller's entries and exits and the ports, each a
`CellStep` by the lemmas of planning and reporting. -/

namespace Sys2Proof.Machine

theorem onTrunk_of_claimMode {s : State} {i : LaneId} (h : s.claimMode i = true) : s.onTrunk = true := by
  cases i with
  | alert => exact h
  | svc l =>
    simp only [State.claimMode, Bool.and_eq_true, beq_iff_eq] at h
    simp [State.onTrunk, h.1, h.2, Mode.onTrunk]

/-! ### Cells given up at once -/

namespace Tenancy.Within

/-- Trimming the fragments at once keeps to the lane's own cells (R73). -/
theorem trimmed (k : Nat) (t : Tenancy) : t.Within
    { t with fragments := (trim k t.fragments).1, change := dropFromRelease (trim k t.fragments).2 t.change } := by
  refine dropped rfl (fun g => ?_) (fun none => by rw [none]; rfl)
  obtain ⟨good, cells⟩ := trim_spec k t.fragments g.fragments
  refine ⟨(runsGood_append.mp good).1, fun n => ?_⟩
  rw [t.runs_eq, ← cells, inRuns_append]
  cases left : inRuns (fragmentRuns (trim k t.fragments).1) n with
  | true => rw [inRuns_append_apart good left]; exact left
  | false =>
    cases gone : inRuns (trim k t.fragments).2 n with
    | true | false => exact left

/-- A lost fragment dropped keeps to the lane's own cells (R78). -/
theorem lost {s : State} {i : LaneId} {f : Fragment} (mem : f ∈ (s.tenancy.get i).fragments) :
    (s.tenancy.get i).Within (droppedTenancy s i f) :=
  dropped rfl (fun g => ⟨runsGood_filter _ g.fragments, inRuns_dropStart g.fragments mem⟩) (fun none => by
    rw [none] at mem; cases mem)

end Tenancy.Within

namespace CellStep

variable {s t u : State}

/-! ### Planning attempts and withdrawals -/

theorem planAttempt (i : LaneId) (s : State) : CellStep s (planAttempt i s) := by
  unfold Machine.planAttempt
  dsimp only
  refine whether _ (fun above => ?_) fun _ => whether _ (fun _ => refl s) fun below =>
    whether _ (fun may => cond _ (defer ..) ?_) (fun _ => refl s)
  · exact cond _ ((setRelease i (Nat.sub_pos_of_lt above) (Nat.zero_lt_of_lt above)).trans (reportLane ..)) (refl s)
  · exact makeClaim i _ (Nat.sub_pos_of_lt (Nat.not_le.mp below)) (onTrunk_of_claimMode may.1)

/-- A lane's tenancy changed within itself and with the same cells. -/
theorem within {i : LaneId} {x : Tenancy} (w : (s.tenancy.get i).Within x) (fragments : x.fragments = (s.tenancy.get i).fragments) :
    CellStep s (s.setTenancy i x) where
  fit _ _ _ fit := fit.within i w
  splits j ok := by
    refine ok.congr (.setTenancy ..) rfl ?_ rfl
    by_cases here : j = i
    · subst here; simp [Tenancy.runs_eq, fragments]
    · simp [Quad.get_set_of_ne _ _ _ _ here]

/-- A lane's tenancy changed within itself, and the lane reported. -/
theorem reportWithin {i : LaneId} {x : Tenancy} (w : (s.tenancy.get i).Within x) (kept : Kept (s.setTenancy i x) t) :
    CellStep s (Machine.reportLane i t) := report i (fun _ _ _ fit => fit.within i w) kept

theorem withdrawCore (i : LaneId) (c : Nat) (n : Node) (s : State) : CellStep s (withdrawCore i c n s) := by
  unfold Machine.withdrawCore
  split
  · exact cond _ (.trans (t := Machine.onTenancy i _ s) (within (.withdrawn rfl rfl) rfl) (postSelf ..)) (refl s)
  · exact refl s

theorem withdraw (i : LaneId) (c : Nat) (n : Node) (s : State) : CellStep s (withdraw i c n s) :=
  cond _ ((withdrawCore ..).trans (reportLane ..)) (refl s)

theorem withdrawRank (i : LaneId) (r : Rank) (c : Nat) (s : State) : CellStep s (withdrawRank i r c s) := by
  unfold Machine.withdrawRank
  split
  · exact cond _ (withdraw ..) (refl s)
  · exact refl s

theorem conflictCheck (m : Node) (b : Bool) (sh : Sheet) (i : LaneId) (s : State) : CellStep s (conflictCheck m b sh i s) := by
  unfold Machine.conflictCheck
  split
  · exact refl s
  · exact cond _ (refl s) (cond _ (withdraw ..) (cond _ (withdraw ..) (refl s)))

/-! ### Due changes, trims and losses -/

/-- RELEASE_DONE: a due release done, and the lane reported (R72). -/
theorem releaseDone (i : LaneId) (s : State) : CellStep s (Machine.reportLane i (applyRelease i s)) := by
  unfold applyRelease
  split
  · split
    · exact reportWithin (.released rfl rfl) (.postSelf ..)
    · exact reportLane ..
  · exact reportLane ..

/-- CLAIM_TAKEN: a due claim taken, and the lane reported (R72). -/
theorem claimTaken (i : LaneId) (s : State) : CellStep s (Machine.reportLane i (applyClaim i s)) := by
  unfold applyClaim
  split
  next c pending =>
    split
    next due =>
      have kind : c.kind = .claim := by
        simp only [PendingChange.due, Bool.and_eq_true, beq_iff_eq] at due
        exact due.1
      exact reportWithin (.claimed pending kind rfl rfl) (.postSelf ..)
    · exact reportLane ..
  · exact reportLane ..

theorem stepFour (i : LaneId) (s : State) : CellStep s (stepFour i s) :=
  cond _ ((onTenancy i (fun t => { t with backoff := t.backoff - 1 }) s).trans (cond _ (planAttempt ..) (refl _))) (planAttempt ..)

theorem tenancyStep4 (s : State) : CellStep s (tenancyStep4 s) := forEach stepFour _ _

theorem shrinkLane (l : Lane) (k : Nat) (s : State) : CellStep s (shrinkLane l k s) :=
  cond _ (refl s) (reportWithin (.trimmed k _) (.postSelf ..))

theorem lostSlot (i : LaneId) (c : Nat) (p : FramePos) (s : State) : CellStep s (lostSlot i c p s) := by
  unfold Machine.lostSlot
  split
  · exact refl s
  next f found =>
    refine cond _ (reportWithin (.lost (List.mem_of_find?_eq_some found)) (.postSelf ..)) ?_
    refine remark i _ s (fun t => ?_) (fun _ => rfl)
    simp only [Tenancy.runs, List.map_map]
    refine List.map_congr_left fun g _ => ?_
    dsimp only [Function.comp]
    split <;> rfl

/-! ### Requests of the Lane Units and the Mode Controller -/

theorem openUnplanned (l : Lane) (r : Nat) (s : State) : CellStep s (openUnplanned l r s) :=
  (setLaneState ..).trans ((postSelf ..).trans (setTargetRate ..))

theorem openService (l : Lane) (r : Nat) (s : State) : CellStep s (openService l r s) :=
  (openUnplanned ..).trans (planAttempt ..)

theorem rateRequest (l : Lane) (r : Nat) (s : State) : CellStep s (rateRequest l r s) :=
  cond _ (setAlerts ..) ((setTargetRate ..).trans ((withdrawCore ..).trans ((checkRestore ..).trans (planAttempt ..))))

theorem tenancyClose (l : Lane) (s : State) : CellStep s (tenancyClose l s) :=
  .trans (onTenancy (.svc l) (fun t => { t with target := 0, restoreTarget := none }) s) <| (withdrawCore ..).trans <|
    whether _ (fun holds => setRelease _ holds.1 holds.1) (fun _ => refl _)

theorem closeService (l : Lane) (s : State) : CellStep s (closeService l s) :=
  (tenancyClose l s).trans <| .trans (t := closeContexts l _) (setAlerts ..) <| cond _ (setLaneState ..) (closeLane ..)

theorem alertLaneTargetState (n : Nat) (s : State) : CellStep s (alertLaneTargetState n s) :=
  cond _ (cond _ (cond _ (refl s) (setLaneState ..)) (cond _ (refl s) (closeLane ..)))
    (cond _ ((setLaneState ..).trans (postSelf ..)) (refl s))

theorem setAlertTarget (n : Nat) (s : State) : CellStep s (setAlertTarget n s) :=
  .trans (onTenancy .alert (fun t => { t with target := n }) s) <| (cond _ (withdrawCore ..) (refl _)).trans <|
    (alertLaneTargetState ..).trans (planAttempt ..)

/-! ### Lane records -/

theorem rateOp (l : Lane) (c : Contract) (a : Nat) (s : State) : CellStep s (rateOp l c a s) :=
  (ofKept (.postRateClamped ..)).trans (rateRequest ..)

theorem laneOpenOp (l : Lane) (c : Contract) (r : Option (BitVec 16)) (s : State) : CellStep s (laneOpenOp l c r s) := by
  unfold Machine.laneOpenOp
  cases r with
  | none =>
    split
    · exact cond _ (openService ..) (refl s)
    iterate 5 exact refl s
  | some r =>
    split
    · exact cond _ ((ofKept (.postRateClamped ..)).trans (openService ..)) (refl s)
    iterate 4 exact rateOp ..
    exact refl s

theorem laneRateOp (l : Lane) (c : Contract) (r : BitVec 16) (s : State) : CellStep s (laneRateOp l c r s) := by
  unfold Machine.laneRateOp
  split
  iterate 4 exact rateOp ..
  iterate 2 exact refl s

theorem laneCloseOp (l : Lane) (s : State) : CellStep s (laneCloseOp l s) := by
  unfold Machine.laneCloseOp
  split
  iterate 4 exact closeService ..
  iterate 2 exact refl s

theorem actService (l : Lane) (c : Contract) (r : PortRecord) (s : State) : CellStep s (actService l c r s) := by
  cases r with
  | laneOpen => exact laneOpenOp ..
  | laneClose => exact laneCloseOp ..
  | laneRate => exact laneRateOp ..
  | audioUnit => exact ofKept (.audioUnitOp ..)
  | laneReset => exact ofKept (.laneResetOp ..)
  | captionPut => exact ofKept (.captionPutOp ..)
  | captionDrop => exact ofKept (.captionDropOp ..)
  | pictureBegin => exact ofKept (.pictureBeginOp ..)
  | pictureChunk => exact ofKept (.pictureChunkOp ..)
  | pictureDrop => exact ofKept (.removeObj ..)
  | alertRaise | alertText | alertPictureBegin | alertPictureChunk | alertAudio | alertEnd => exact refl s

/-! ### The lane alert and roles -/

theorem updateLaneAlert (s : State) : CellStep s (updateLaneAlert s) := by
  have begun : CellStep s ((s.setAlerts { s.alerts with laneAlert := s.laneAlertNow }).setSched .alert
      { s.scheds.get .alert with caption := none, picture := none }) := (setAlerts ..).trans (ofKept (.setSched ..))
  exact cond _ (refl s) (cond _ begun (begun.trans (setAlertTarget ..)))

theorem updateOwn (i : Ident) (f : OwnAlert → OwnAlert) (s : State) : CellStep s (s.updateOwn i f) := ofKept (.updateOwn ..)

theorem originate (i : Ident) (s : State) : CellStep s (originate i s) :=
  (updateOwn ..).trans ((updateLaneAlert _).trans (updateOwn ..))

theorem applyRole (i : Ident) (s : State) : CellStep s (applyRole i s) := by
  unfold Machine.applyRole
  split
  · exact refl s
  · split
    · exact cond _ (refl s) (cond _ (originate ..) ((updateOwn ..).trans (updateLaneAlert _)))
    · exact (updateOwn ..).trans ((ofKept (.copyShadow ..)).trans (updateLaneAlert _))
    · exact (updateOwn ..).trans (updateLaneAlert _)

theorem applyRoles (s : State) : CellStep s (applyRoles s) := forEach applyRole _ _

theorem judged (s : State) : CellStep s (judged s) := ofKept (.judged s)

theorem keeping {f : State → State} (h : CellStep s (f s)) : CellStep s (keeping f s) := h.trans (ofKept (.sweepIdents ..))

theorem raiseAlert (i : Ident) (n : Nat) (s : State) : CellStep s (raiseAlert i n s) := by
  unfold Machine.raiseAlert
  split
  · exact updateOwn ..
  · exact (ofKept ((Kept.dropReplaced ..).trans (.dropTraces ..))).trans <| (setAlerts ..).trans <|
      (applyRole ..).trans <| (updateLaneAlert _).trans (judged _)

theorem alertRaiseOp (id x : Byte) (d : BitVec 16) (s : State) : CellStep s (alertRaiseOp id x d s) := by
  unfold Machine.alertRaiseOp
  split
  · exact ofKept (.refuseAlert ..)
  · exact (ofKept (.cond _ (.refl s) (.postClamp ..))).trans ((ofKept (.postSelf ..)).trans (keeping (raiseAlert ..)))

theorem actAlert (r : PortRecord) (s : State) : CellStep s (actAlert r s) := by
  cases r with
  | alertRaise => exact alertRaiseOp ..
  | alertText => exact ofKept (.alertTextOp ..)
  | alertPictureBegin => exact ofKept (.alertPictureBeginOp ..)
  | alertPictureChunk => exact ofKept (.alertPictureChunkOp ..)
  | alertAudio => exact ofKept (.alertAudioOp ..)
  | alertEnd => exact ofKept (.alertEndOp ..)
  | audioUnit | laneOpen | laneClose | laneRate | laneReset | captionPut | captionDrop | pictureBegin | pictureChunk
  | pictureDrop => exact refl s

/-! ### Entry and exit -/

/-- A new level, whatever follows it, and the alert lane's split reckoned anew (R84, R110). -/
theorem relevel (s : State) (x : AlertCtl) (h : CellStep (s.setAlerts x) t) : CellStep s (Machine.resplit .alert t) where
  fit hi low high fit := (resplit .alert t).fit hi low high (h.fit hi low high (fit.congr rfl rfl rfl))
  splits i ok := by
    cases i with
    | alert => exact splitOk_resplit ..
    | svc l =>
      refine (resplit .alert t).splits _ (h.splits _ ?_)
      exact Eq.trans ok (splitOf_congr (s := s) (t := s.setAlerts x) (i := .svc l) rfl rfl rfl nofun).symm

theorem holdOrdinary (l : Lane) (s : State) : CellStep s (holdOrdinary l s) := by
  unfold Machine.holdOrdinary
  split
  · exact cond _ ((withdraw ..).trans (planAttempt ..)) (refl s)
  · exact refl s

theorem dropRestore (i : LaneId) (s : State) : CellStep s (Machine.onTenancy i (fun t => { t with restoreTarget := none }) s) :=
  onTenancy ..

theorem squeezeLane (y : Nat) (l : Lane) (s : State) : CellStep s (squeezeLane y l s) := by
  unfold Machine.squeezeLane
  refine cond _ (refl s) ((shrinkLane l (giveFor y (s.cells (.svc l)) (s.floorCells l)) s).trans ?_)
  dsimp only
  split
  iterate 3 exact refl _
  iterate 3 exact (dropRestore ..).trans (setLaneState ..)

theorem enterAlert (a : HeldAlert) (x : Timing) (s : State) : CellStep s (enterAlert a x s) := by
  have entered (t : State) : CellStep t (Machine.postSelf .takeoverEnter none (256 * a.ident.level +
      (Machine.post .alertFollowed a.lead.val none (1024 * x.code + a.ident.arg) t).alerts.stack.length)
        (Machine.post .alertFollowed a.lead.val none (1024 * x.code + a.ident.arg) t)) := ofKept ((Kept.post ..).trans (.postSelf ..))
  have held (t : State) : CellStep t (if s.alerts.level = 0 then Machine.forLanes Machine.holdOrdinary t else t) :=
    cond _ (forLanes holdOrdinary _) (refl _)
  have suspended (t : State) : CellStep t (if s.alerts.level ≤ 1 ∧ 2 ≤ a.ident.level then suspendLow t else t) :=
    cond _ (ofKept (.suspendLow _)) (refl _)
  refine (relevel s { s.alerts with
    stack := s.contextNow :: s.alerts.stack, level := a.ident.level
    followed := some ⟨a.ident, a.lead, s.time.cycle, none⟩, redirectCycle := none } ?_).trans (forLanes (squeezeLane a.yield) _)
  have pushed := ofKept (Kept.noteRedirect (s.setAlerts { s.alerts with
    stack := s.contextNow :: s.alerts.stack, level := a.ident.level
    followed := some ⟨a.ident, a.lead, s.time.cycle, none⟩, redirectCycle := none }))
  exact pushed.trans ((entered _).trans ((held _).trans
    ((forLanes (fun l => withdrawRank (.svc l) .restore 6) _).trans (suspended _))))

theorem applyKepts (c : Context) (s : State) : CellStep s (applyKepts c s).2 := by
  have all (ls : List Lane) (p : Context × State) : CellStep p.2 (ls.foldl
      (fun (p : Context × State) l => match c.kept.get l with | some r => applyKept l r p.1 p.2 | none => p) p).2 := by
    induction ls generalizing p with
    | nil => exact refl _
    | cons l ls ih =>
      refine .trans ?_ (ih _)
      dsimp only
      split
      · exact setTargetRate ..
      · exact refl _
  exact all Lane.all (c, s)

theorem restoreLane (l : Lane) (n : Nat) (s : State) : CellStep s (restoreLane l n s) := by
  have restored : CellStep s (if (s.tenancy.get (.svc l)).cells < n then
        Machine.checkRestore l (Machine.setLaneState (.svc l) .restoring
          (Machine.onTenancy (.svc l) (fun t => { t with restoreTarget := some n }) s))
      else
        let s' := Machine.onTenancy (.svc l) (fun t => { t with restoreTarget := none }) s
        if (s'.units.get (.svc l)).state = .opening ∧ (s.tenancy.get (.svc l)).cells = 0 then s'
        else Machine.setLaneState (.svc l) (s'.restoredState l) s') :=
    cond _ ((onTenancy ..).trans ((setLaneState ..).trans (checkRestore ..)))
      ((dropRestore ..).trans (cond _ (refl _) (setLaneState ..)))
  unfold Machine.restoreLane
  dsimp only
  split
  iterate 2 exact refl s
  iterate 4 exact restored

theorem restoreLanes (c : Context) (s : State) : CellStep s (restoreLanes c s) := by
  refine forLanes (fun l s => ?_) s
  split
  · split
    · exact restoreLane ..
    · exact refl s
  · exact refl s

theorem exitAlert (s : State) : CellStep s (exitAlert s) := by
  unfold Machine.exitAlert
  split
  · exact refl s
  next n c left popped =>
    have emptied (t : State) : CellStep t (if c.level = 0 then emptyCursors t else t) :=
      cond _ (ofKept (.emptyCursors _)) (refl _)
    have kept (t : State) : CellStep t (if left.isEmpty then Machine.applyKepts c t else (c, t)).2 := by
      split
      · exact applyKepts ..
      · exact refl _
    refine (relevel s { s.alerts with
      stack := left, level := c.level, followed := c.followed, redirect := none, redirectCycle := none } ((ofKept (.restorePositions c _)).trans (emptied _))).trans ((kept _).trans ?_)
    exact (restoreLanes ..).trans (postSelf ..)

theorem exitAttempts (s : State) : CellStep s (exitAttempts s) := forEach planAttempt _ _

theorem boundaryEntries (exited : Bool) (s : State) : CellStep s (boundaryEntries exited s) := by
  have offers (as : List HeldAlert) (t : State) : CellStep t (Machine.forEach as offerAlert t) := ofKept (.forEach Kept.offerAlert _ _)
  unfold Machine.boundaryEntries
  dsimp only
  generalize due : s.setAlerts { s.alerts with scheduled := s.alerts.scheduled.filter (fun x => x.boundary != s.time.cycle) } = u
  have removed : CellStep s u := due ▸ setAlerts ..
  refine removed.trans ?_
  split
  · exact refl _
  next b _ =>
    have pending : CellStep u (u.setAlerts { u.alerts with
      pendingAlerts := u.alerts.pendingAlerts.filter (fun x => x.ident != b.ident) }) := setAlerts ..
    have attempts (t : State) : CellStep t (if exited then Machine.exitAttempts t else t) := cond _ (exitAttempts _) (refl _)
    refine cond _ ?_ (offers ..)
    exact pending.trans ((attempts _).trans ((enterAlert ..).trans (offers ..)))

theorem boundaryExits (s : State) : CellStep s (boundaryExits s).2 := by
  have ended : CellStep s (Machine.updateLaneAlert (postOrphan (s.orphanNow (s.followedEnds s.dueEnds))
      (Machine.forEach s.dueEnds applyEnd s))) :=
    (ofKept ((Kept.forEach Kept.applyEnd _ _).trans (.postOrphan ..))).trans (updateLaneAlert _)
  unfold Machine.boundaryExits
  dsimp only
  split
  · exact ended.trans (exitAlert _)
  · exact ended

theorem alertBoundary (s : State) : CellStep s (alertBoundary s) := by
  refine cond _ (keeping ?_) (refl s)
  exact (ofKept (.forEach Kept.stepOnAir _ _)).trans <| (ofKept (.stepHolds _)).trans <| (ofKept (.orphanSaved _)).trans <|
    (boundaryExits _).trans <| (boundaryEntries ..).trans <| (ofKept (.updateRedirect _)).trans <|
      (applyRoles _).trans (judged _)

theorem afterExit (s : State) : CellStep s (afterExit s) :=
  (boundaryEntries ..).trans ((exitAttempts _).trans (ofKept (.syncRelay _)))

theorem exitDue (s : State) : CellStep s (exitDue s) :=
  (boundaryExits s).trans (cond _ (afterExit _) ((boundaryEntries ..).trans (ofKept (.syncRelay _))))

/-! ### Ports -/

theorem actRecord (p : LaneId) (r : PortRecord) (s : State) : CellStep s (actRecord p r s) := by
  unfold Machine.actRecord
  split
  · exact actAlert ..
  · split
    · exact actService ..
    · exact refl s

theorem portEvent (p : LaneId) (e : PortEvent) (s : State) : CellStep s (portEvent p e s) := by
  cases e with
  | taken r => exact actRecord ..
  | rejected n k => exact cond _ (refl s) (postSelf ..)

theorem readBits (p : LaneId) (bits : List Bool) (s : State) : CellStep s (readBits p bits s) :=
  (ofKept (.setPort ..)).trans (forEach (portEvent p) _ _)

theorem takeRecord (p : LaneId) (r : PortRecord) (s : State) : CellStep s (takeRecord p r s) :=
  cond _ (cond _ ((ofKept (.setPort ..)).trans (actRecord ..)) (readBits ..)) (refl s)

theorem rejectRecord (p : LaneId) (k : Byte) (n : BitVec 16) (body : List Byte) (crc : BitVec 16) (s : State) :
    CellStep s (rejectRecord p k n body crc s) := cond _ (readBits ..) (refl s)

end CellStep

end Sys2Proof.Machine
end

