-- ==== Sys2Proof/Proofs/DueChanges.lean ====
section
/-! SUPPORT. Steps 1 and 2 of a cycle boundary (R72): what a due change makes of a lane's tenancy, lane by lane, and that the
tenancies are sound again after them with every change that is left still ahead. -/

namespace Sys2Proof.Machine

/-! ### One lane's due change -/

/-- The tenancy after steps 1 and 2 at cycle `now`: a due release done, a due claim taken (R72). -/
def Tenancy.settle (t : Tenancy) (now : Cycle) : Tenancy :=
  match t.change with
  | none => t
  | some c =>
    if c.effective = now then
      match c.kind with
      | .release => { t with fragments := fragmentsMinus t.fragments c.runs, change := none }
      | .claim => { t with fragments := addRuns t.fragments c.runs, change := none }
    else t

theorem Tenancy.settle_of_not_due {t : Tenancy} {now : Cycle} (h : ∀ c, t.change = some c → c.effective ≠ now) :
    t.settle now = t := by
  unfold settle
  split
  · rfl
  next c pending => rw [if_neg (h c pending)]

theorem Tenancy.Within.settle (t : Tenancy) (now : Cycle) : t.Within (t.settle now) := by
  unfold Tenancy.settle
  split
  · exact refl t
  next c pending =>
    split
    · split
      · exact released rfl rfl
      next kind => exact claimed pending kind rfl rfl
    · exact refl t

/-- A change that is left after steps 1 and 2 is one that was not due. -/
theorem Tenancy.settle_change {t : Tenancy} {now : Cycle} {c : PendingChange} (h : (t.settle now).change = some c) :
    t.change = some c ∧ c.effective ≠ now := by
  unfold settle at h
  split at h
  next none => rw [none] at h; cases h
  next c' pending =>
    split at h
    · split at h <;> cases h
    next later =>
      rw [pending] at h
      obtain rfl := Option.some.inj h
      exact ⟨pending, later⟩

/-! ### Every lane's due change -/

/-- An operation carried out for the alert lane and lanes 0, 1 and 2, that changes nothing but its own lane's tenancy. -/
theorem forEach_planning_tenancy {f : LaneId → State → State} {g : Cycle → Tenancy → Tenancy}
    (tenancy : ∀ i s, (f i s).tenancy = s.tenancy.set i (g s.time.cycle (s.tenancy.get i))) (time : ∀ i s, (f i s).time = s.time)
    (i : LaneId) (s : State) :
    (forEach LaneId.planningOrder f s).tenancy.get i = g s.time.cycle (s.tenancy.get i) := by
  rcases i with (_ | _ | _) | _ <;>
    simp [forEach, LaneId.planningOrder, tenancy, time, Quad.get_set_of_ne]

/-- Step 1 for one tenancy. -/
def Tenancy.releaseDue (now : Cycle) (t : Tenancy) : Tenancy :=
  match t.change with
  | some c => if c.due .release now then { t with fragments := fragmentsMinus t.fragments c.runs, change := none } else t
  | none => t

/-- Step 2 for one tenancy. -/
def Tenancy.claimDue (now : Cycle) (t : Tenancy) : Tenancy :=
  match t.change with
  | some c => if c.due .claim now then { t with fragments := addRuns t.fragments c.runs, change := none } else t
  | none => t

theorem Tenancy.settle_eq (t : Tenancy) (now : Cycle) : t.settle now = (t.releaseDue now).claimDue now := by
  unfold settle releaseDue
  cases pending : t.change with
  | none => simp [claimDue, pending]
  | some c =>
    obtain ⟨kind, rank, effective, runs⟩ := c
    cases kind <;> by_cases due : effective = now <;> simp [claimDue, PendingChange.due, due, pending]

theorem applyRelease_tenancy (i : LaneId) (s : State) :
    (applyRelease i s).tenancy = s.tenancy.set i ((s.tenancy.get i).releaseDue s.time.cycle) := by
  unfold applyRelease Tenancy.releaseDue
  cases pending : (s.tenancy.get i).change with
  | none => exact (Quad.set_get ..).symm
  | some c =>
    dsimp only
    by_cases due : c.due .release s.time.cycle = true
    · rw [if_pos due, if_pos due]; rfl
    · rw [if_neg due, if_neg due, Quad.set_get]

theorem applyClaim_tenancy (i : LaneId) (s : State) :
    (applyClaim i s).tenancy = s.tenancy.set i ((s.tenancy.get i).claimDue s.time.cycle) := by
  unfold applyClaim Tenancy.claimDue
  cases pending : (s.tenancy.get i).change with
  | none => exact (Quad.set_get ..).symm
  | some c =>
    dsimp only
    by_cases due : c.due .claim s.time.cycle = true
    · rw [if_pos due, if_pos due]; rfl
    · rw [if_neg due, if_neg due, Quad.set_get]

/-- The state after steps 1 and 2, the reports still to be made. -/
def State.settled (s : State) : State :=
  forEach LaneId.planningOrder applyClaim (forEach LaneId.planningOrder applyRelease s)

theorem settled_block (s : State) : BlockStep s s.settled := (BlockStep.forEach .applyRelease _ _).trans (.forEach .applyClaim _ _)

theorem settled_tenancy (i : LaneId) (s : State) : s.settled.tenancy.get i = (s.tenancy.get i).settle s.time.cycle := by
  unfold State.settled
  rw [forEach_planning_tenancy applyClaim_tenancy (fun i s => (BlockStep.applyClaim i s).time),
    forEach_planning_tenancy applyRelease_tenancy (fun i s => (BlockStep.applyRelease i s).time),
    (BlockStep.forEach .applyRelease _ _).time, Tenancy.settle_eq]

theorem settled_units (s : State) : s.settled.units = s.units := by
  have release (i : LaneId) (s : State) : (applyRelease i s).units = s.units := by
    unfold applyRelease; split <;> [split <;> rfl; rfl]
  have claim (i : LaneId) (s : State) : (applyClaim i s).units = s.units := by
    unfold applyClaim; split <;> [split <;> rfl; rfl]
  simp [State.settled, forEach, LaneId.planningOrder, release, claim]

theorem settled_alerts (s : State) : s.settled.alerts = s.alerts := by
  simp [State.settled, forEach, LaneId.planningOrder]

/-! ### The invariants over steps 1 and 2 -/

theorem splitOk_reports {is : List LaneId} {i : LaneId} (mem : i ∈ is) (s : State) : (forEach is reportLane s).SplitOk i := by
  induction is generalizing s with
  | nil => cases mem
  | cons j is ih =>
    by_cases later : i ∈ is
    · exact ih later _
    · obtain rfl : i = j := (List.mem_cons.mp mem).resolve_right later
      exact (CellStep.forEach .reportLane is _).splits i (CellStep.splitOk_reportLane i s)

/-- Steps 1 and 2 keep every split. -/
theorem tenancySteps12_splits (s : State) (ok : ∀ i, s.SplitOk i) (i : LaneId) : (tenancySteps12 s).SplitOk i := by
  unfold tenancySteps12
  dsimp only
  by_cases changed : i ∈ LaneId.planningOrder.filter (fun i => s.isDue i .release || s.isDue i .claim)
  · exact splitOk_reports changed _
  · refine (CellStep.forEach .reportLane _ _).splits i ((ok i).congr (settled_block s) ?_ ?_ ?_)
    · show (s.settled.units.get i).split = _
      rw [settled_units]
    · show (s.settled.tenancy.get i).runs = _
      rw [settled_tenancy, Tenancy.settle_of_not_due fun c pending now => changed ?_]
      refine List.mem_filter.mpr ⟨by rcases i with (_ | _ | _) | _ <;> decide, ?_⟩
      obtain ⟨kind, rank, effective, runs⟩ := c
      cases kind <;> simp_all [State.isDue, PendingChange.due]
    · exact congrArg _ (settled_alerts s)

/-- After steps 1 and 2 every change that is left lies ahead. -/
theorem settled_fit {s : State} {hi : Nat} (fit : s.Fit 0 hi) : s.settled.Fit 1 hi := by
  have block := settled_block s
  have moved : s.settled.Fit 0 hi := fit.withinAll (fun i => settled_tenancy i s ▸ .settle ..) (by rw [block.mode]) (by rw [block.time])
  refine ⟨moved.good, moved.apart, fun on i c pending => ⟨?_, (moved.ahead on i c pending).2⟩, moved.off⟩
  have later := (Tenancy.settle_change (settled_tenancy i s ▸ pending)).2
  rw [block.time]
  generalize c.effective = e at *
  generalize s.time.cycle = now at *
  by_contra none
  exact later (by bv_omega)

theorem tenancySteps12_fit {s : State} {hi : Nat} (low : 3 ≤ hi) (high : hi ≤ 4) (fit : s.Fit 0 hi) :
    (tenancySteps12 s).Fit 1 hi := (CellStep.forEach .reportLane _ _).fit hi low high (settled_fit fit)

end Sys2Proof.Machine
end

