-- ==== Sys2Proof/Proofs/TrunkSilence.lean ====
section
/-! SUPPORT. What slots, peers, boundaries, pulses and modes keep of the tenancies and the splits, and O59 from it. -/

namespace Sys2Proof.Machine

/-! ### Modes and the Timebase -/

namespace State.Fit

variable {s t : State} {lo hi : Nat}

/-- Off the trunk no change is judged against the cycle. -/
theorem offTrunk (h : s.Fit lo hi) (tenancy : t.tenancy = s.tenancy) (mode : t.mode.mode = s.mode.mode)
    (off : s.mode.mode.onTrunk = false) (lo' hi' : Nat) : t.Fit lo' hi' := by
  refine ⟨fun i => tenancy ▸ h.good i, fun i j => by rw [tenancy]; exact h.apart i j, fun on => ?_, fun _ live i => ?_⟩
  · rw [mode, off] at on; cases on
  · rw [tenancy]; exact h.off off (mode ▸ live) i

/-- As the next cycle begins every change is a cycle nearer. -/
theorem nextCycle (h : s.Fit 1 4) (tenancy : t.tenancy = s.tenancy) (mode : t.mode.mode = s.mode.mode)
    (cycle : t.time.cycle = s.time.cycle + 1) : t.Fit 0 3 := by
  refine ⟨fun i => tenancy ▸ h.good i, fun i j => by rw [tenancy]; exact h.apart i j, fun on i c e => ⟨Nat.zero_le _, ?_⟩,
    fun off live i => by rw [tenancy]; exact h.off (mode ▸ off) (mode ▸ live) i⟩
  obtain ⟨least, most⟩ := h.ahead (mode ▸ on) i c (tenancy ▸ e)
  rw [cycle]
  generalize c.effective = e at *
  generalize s.time.cycle = now at *
  bv_omega

end State.Fit

/-- A split stands whatever the mode and the Timebase. -/
theorem State.SplitOk.sameLanes {s t : State} {i : LaneId} (ok : s.SplitOk i) (tenancy : t.tenancy = s.tenancy)
    (units : t.units = s.units) (config : t.config = s.config) (contracts : t.contracts = s.contracts)
    (level : t.alerts.level = s.alerts.level) : t.SplitOk i := by
  unfold State.SplitOk
  rw [units, splitOf_congr (by rw [State.cells, State.cells, tenancy]) config contracts fun _ => level]
  exact ok

namespace CellStep

variable {s t u : State}

/-- A change of the mode from the trunk to the trunk, or to HALTED. -/
theorem setMode {m : Mode} (h : m = .halted ∨ s.mode.mode.onTrunk = true ∧ m.onTrunk = true) : CellStep s (setMode m s) := by
  have same : (Machine.setMode m s).mode.mode = m ∧ (Machine.setMode m s).time = s.time ∧
      (Machine.setMode m s).tenancy = s.tenancy ∧ (Machine.setMode m s).units = s.units ∧
      (Machine.setMode m s).config = s.config ∧ (Machine.setMode m s).contracts = s.contracts ∧
      (Machine.setMode m s).alerts = s.alerts := by
    unfold Machine.setMode; dsimp only; split <;> exact ⟨rfl, rfl, rfl, rfl, rfl, rfl, rfl⟩
  obtain ⟨mode, time, tenancy, units, config, contracts, alerts⟩ := same
  exact ⟨fun _ _ _ fit => fit.toMode tenancy (by rw [time]) (by rw [mode]; exact h),
    fun i ok => ok.sameLanes tenancy units config contracts (by rw [alerts])⟩

theorem duplicateFound (k : Nat) (s : State) : CellStep s (duplicateFound k s) := (postSelf ..).trans (setMode (.inl rfl))

/-! ### Peers and slots -/

theorem adoptCycle (m : Node) (h : Header) (s : State) (joining : s.mode.mode = .joining) : CellStep s (adoptCycle m h s) :=
  cond _ ⟨fun _ _ _ fit => fit.offTrunk (by rfl) (by rfl) (by rw [joining]; rfl) _ _,
    fun i ok => ok.sameLanes rfl rfl rfl rfl rfl⟩ (refl s)

theorem storeManifest (m : Node) (x : Manifest) (s : State) : CellStep s (storeManifest m x s) := by
  have posted (e : PeerState) (b : Bool) (s : State) : Kept s (postStored m e b x.header s) := by
    unfold postStored
    split
    · split
      iterate 3 exact .post ..
      iterate 2 exact .refl s
    · split
      · exact .refl s
      iterate 4 exact .post ..
  have conflicts (b : Bool) (s : State) : CellStep s (checkConflicts m b x s) :=
    cond _ ((forEach (conflictCheck m b x.first) _ _).trans (forEach (conflictCheck m b x.second) _ _)) (refl s)
  exact (ofKept ((posted ..).trans (.setPeer ..))).trans ((conflicts ..).trans (ofKept (.headerStored ..)))

theorem passManifest (m : Node) (heard : Option (List Byte)) (s : State) : CellStep s (passManifest m heard s) := by
  unfold Machine.passManifest
  split
  · exact ofKept (.unheardReport ..)
  · exact cond _ (ofKept (.unheardReport ..)) ((whether _ (adoptCycle _ _ _) (fun _ => refl s)).trans (storeManifest ..))

theorem handOver (m : Node) (heard : Option (List Byte)) (s : State) : CellStep s (handOver m heard s) := by
  unfold Machine.handOver
  split
  iterate 2 exact refl s
  · exact ofKept (.unheardReport ..)
  · refine cond _ ?_ (passManifest ..)
    split
    · exact duplicateFound ..
    · exact refl s
  iterate 3 exact cond _ (refl s) (passManifest ..)

theorem directorySlot (k : Nat) (r : DirRead) (s : State) : CellStep s (directorySlot k r s) :=
  (ofKept (.setTrunk ..)).trans (cond _ (handOver ..) (refl _))

theorem relayHandOver (r : RelayCell) (s : State) : CellStep s (relayHandOver r s) := by
  refine (ofKept (.setTrunk ..)).trans (cond _ ?_ (refl _))
  rw [keeping_relayEnd]
  exact ofKept (.ofRelay (.relayEnd _))

theorem routeSlot (k : Nat) (tag : Byte) (content : List Byte) (s : State) : CellStep s (routeSlot k tag content s) :=
  cond _ (directorySlot ..) (cond _ (relayHandOver ..) (refl s))

theorem cutSlot (s : State) : CellStep s (cutSlot s) :=
  cond _ ((ofKept (.setTrunk ..)).trans (cond _ (directorySlot ..) (cond _ (relayHandOver ..) (refl _)))) (refl s)

theorem endSlot (tag : Byte) (content : List Byte) (s : State) : CellStep s (endSlot tag content s) := by
  have lost (k : Nat) (d : Option Driver) (s : State) : CellStep s (reportLoss k d s) := by
    unfold reportLoss
    split
    · exact cond _ (lostSlot ..) (refl s)
    · exact refl s
  unfold Machine.endSlot
  refine cond _ ?_ (refl s)
  dsimp only
  generalize begun : s.setTrunk { s.trunk with
    inProgress := false, slotState := slotResult s.trunk tag content, driver := none } = u
  have step : CellStep s u := begun ▸ ofKept (.setTrunk ..)
  refine step.trans ?_
  split
  · exact duplicateFound ..
  · exact (lost ..).trans (routeSlot ..)
  · exact routeSlot ..

theorem startSlot (k : Nat) (s : State) : CellStep s (startSlot k s) := by
  have copied (s : State) : Kept s (takeCopy k s) := .cond _ (.setTrunk ..) (.refl s)
  exact (cutSlot s).trans <| ofKept <| .trans (t := State.setTime _ _) (.same (by exact rfl)) <|
    (Kept.cond _ (.assembleFrame _) (.refl _)).trans <| (copied _).trans (.setTrunk ..)

end CellStep

/-! ### The frame's work -/

theorem SameSplits.frameWork (p : FramePos) (s : State) : SameSplits s (frameWork p s) := by
  have cells := SameCells.frameWork p s
  have relay := RelayStep.relayLeftover s
  have node := NodeStep.frameWork p s
  have tenancy : (relayLeftover s).tenancy = s.tenancy := by rw [relay.state]
  have units : (relayLeftover s).units = s.units := by rw [relay.state]
  exact ⟨by rw [frameWork_mode], by rw [(StillStep.frameWork p s).time], node.config, node.contracts,
    fun i => tenancy ▸ cells.runs i, fun i => tenancy ▸ cells.change i, fun i => units ▸ cells.split i,
    by rw [cells.alerts, relay.level]⟩

theorem Kept.listenStep (s : State) : Kept s (listenStep s) := cond _ (same rfl) (refl s)
theorem Kept.sampleMode (lines : ModeLines) (s : State) : Kept s (sampleMode lines s) := cond _ (same rfl) (refl s)
theorem Kept.postRegained (was : Timebase) (s : State) : Kept s (postRegained was s) := cond _ (postSelf ..) (refl s)
theorem Kept.takeRelaySet (s : State) : Kept s (takeRelaySet s) := setTrunk ..

/-! ### Cycle boundaries -/

/-- From `s` to `t` the tenancies stay sound, and with them the splits. -/
structure SoundStep (s t : State) : Prop where
  fit : s.Fit 1 4 → t.Fit 1 4
  splits : s.Fit 1 4 → (∀ i, s.SplitOk i) → ∀ i, t.SplitOk i

namespace SoundStep

variable {s t u : State}

theorem ofCells (h : CellStep s t) : SoundStep s t :=
  ⟨h.fit 4 (by decide) (by decide), fun _ ok i => h.splits i (ok i)⟩

theorem refl (s : State) : SoundStep s s := ofCells (.refl s)

theorem trans (h : SoundStep s t) (k : SoundStep t u) : SoundStep s u :=
  ⟨fun fit => k.fit (h.fit fit), fun fit ok => k.splits (h.fit fit) (h.splits fit ok)⟩

theorem cond (c : Prop) [Decidable c] (h : SoundStep s t) (k : SoundStep s u) : SoundStep s (if c then t else u) := by
  split
  · exact h
  · exact k

theorem whether (c : Prop) [Decidable c] (h : c → SoundStep s t) (k : ¬ c → SoundStep s u) :
    SoundStep s (if c then t else u) := by
  split
  next yes => exact h yes
  next no => exact k no

theorem ofKept (h : Kept s t) : SoundStep s t := ofCells (.ofKept h)

end SoundStep

/-- With no lane holding a cell every split is zero. -/
theorem splitOf_empty {s : State} {i : LaneId} (empty : (s.tenancy.get i).Empty) : s.splitOf i = ⟨0, 0, 0⟩ := by
  have none : s.cells i = 0 := empty.cells
  cases i <;> simp [State.splitOf, none, serviceSplit, alertSplit]

/-- A lane without cells keeps its zero split whatever the configuration, the level and the mode. -/
theorem SplitOk.ofEmpty {s t : State} {i : LaneId} (ok : s.SplitOk i) (empty : (s.tenancy.get i).Empty)
    (tenancy : t.tenancy = s.tenancy) (units : t.units = s.units) : t.SplitOk i := by
  unfold State.SplitOk at *
  rw [units, ok, splitOf_empty empty, splitOf_empty (tenancy ▸ empty)]

/-- From a mode off the trunk with no cells a step that leaves tenancies and Lane Units. -/
theorem SoundStep.ofOff {s t : State} (off : s.mode.mode.onTrunk = false) (live : s.mode.mode ≠ .halted)
    (tenancy : t.tenancy = s.tenancy) (units : t.units = s.units) : SoundStep s t :=
  ⟨fun fit => .ofEmpty (tenancy ▸ fit.off off live), fun fit ok i => SplitOk.ofEmpty (ok i) (fit.off off live i) tenancy units⟩

theorem setMode_same (m : Mode) (s : State) : (setMode m s).tenancy = s.tenancy ∧ (setMode m s).units = s.units := by
  unfold setMode; dsimp only; split <;> exact ⟨rfl, rfl⟩

/-- The end of the listen period (R29). -/
theorem SoundStep.endListening {s : State} (joining : s.mode.mode = .joining) : SoundStep s (endListening s) := by
  have opened (s : State) : CellStep s (autoOpenLanes s) := by
    refine .forLanes (fun l s => ?_) s
    split
    · exact .cond _ (.laneOpenOp ..) (.refl s)
    · exact .refl s
  have entered (m : Mode) : SoundStep s (setMode m s) :=
    ofOff (by rw [joining]; rfl) (by rw [joining]; nofun) (setMode_same m s).1 (setMode_same m s).2
  exact (entered _).trans (ofCells ((CellStep.postSelf ..).trans ((CellStep.cond _ (opened _) (.refl _)).trans (.judged _))))

/-- The transitions of R31 keep to the trunk. -/
theorem CellStep.modeTransition (s : State) : CellStep s (modeTransition s) := by
  have opened (s : State) : CellStep s (autoOpenUnplanned s) := by
    refine forLanes (fun l s => ?_) s
    split
    · exact cond _ (openUnplanned ..) (refl s)
    · exact refl s
  have checked (s : State) : CellStep s (withdrawnCheck s) :=
    whether _ (fun h => setMode (.inr ⟨by rw [h.1]; rfl, rfl⟩)) (fun _ => refl s)
  have withdrawn (active : s.mode.mode = .active) :
      CellStep s (withdrawnCheck (Machine.forLanes Machine.laneCloseOp (Machine.setMode .withdrawing s))) :=
    (setMode (.inr ⟨by rw [active]; rfl, rfl⟩)).trans ((forLanes laneCloseOp _).trans (checked _))
  unfold Machine.modeTransition
  split
  next active =>
    split
    · exact refl s
    iterate 2 exact withdrawn active
  next standby =>
    split
    · exact (setMode (.inr ⟨by rw [standby]; rfl, rfl⟩)).trans (opened _)
    iterate 2 exact refl s
  · exact checked s
  iterate 4 exact refl s

/-- The running blocks' work takes the changes due, and leaves every other ahead (R72 to R74). -/
theorem runningWork_fit {s : State} (on : s.inReset = false) (fit : s.Fit 0 3) : (runningWork s).Fit 1 4 := by
  unfold runningWork
  split
  next trunk =>
    have moved := ((CellStep.modeTransition (tenancySteps12 s)).trans (.alertBoundary _)).trans (.tenancyStep4 _)
    exact (moved.fit 3 (by decide) (by decide) (tenancySteps12_fit (by decide) (by decide) fit)).mono (by decide) (by decide)
  next off => exact fit.offTrunk rfl rfl (by simpa [State.onTrunk, on] using off) _ _

theorem runningWork_splits {s : State} (ok : ∀ i, s.SplitOk i) (i : LaneId) : (runningWork s).SplitOk i := by
  unfold runningWork
  split
  · have moved := ((CellStep.modeTransition (tenancySteps12 s)).trans (.alertBoundary _)).trans (.tenancyStep4 _)
    exact moved.splits i (tenancySteps12_splits s ok i)
  · exact ok i

/-- What a cycle boundary drives, with every change at most three cycles ahead and those due not yet applied. -/
theorem cycleWork_sound {s : State} (lines : ModeLines) (on : s.inReset = false) (fit : s.Fit 0 3) :
    (cycleWork lines s).Fit 1 4 ∧ ((∀ i, s.SplitOk i) → ∀ i, (cycleWork lines s).SplitOk i) := by
  unfold cycleWork
  split
  next live =>
    have sampled := Kept.sampleMode lines s
    have ended (t : State) : Kept t (statusRecords (storeBoundary t)) := (Kept.storeBoundary t).trans (.statusRecords _)
    have still : (sampleMode lines s).inReset = false := by unfold sampleMode; split <;> exact on
    dsimp only
    generalize sampleMode lines s = u at sampled still ⊢
    have at3 := sampled.fit fit
    split
    next listened =>
      have heard := SoundStep.endListening listened.1
      have at4 : u.Fit 1 4 := at3.offTrunk rfl rfl (by rw [listened.1]; rfl) _ _
      exact ⟨(ended _).fit (heard.fit at4),
        fun ok i => (ended _).splitOk (heard.splits at4 (fun i => sampled.splitOk (ok i)) i)⟩
    · exact ⟨(ended _).fit (runningWork_fit still at3),
        fun ok i => (ended _).splitOk (runningWork_splits (fun i => sampled.splitOk (ok i)) i)⟩
  next rest =>
    have off : s.mode.mode.onTrunk = false := by
      unfold State.live at rest
      rw [on] at rest
      cases mode : s.mode.mode <;> simp_all [Mode.takesRecords, Mode.onTrunk]
    exact ⟨fit.offTrunk rfl rfl off _ _, id⟩

/-- A cycle begins: the Timebase moves, the frame's work is done, and the cycle's work. -/
theorem SoundStep.beginCycle {s : State} (p : FramePos) (x : Timebase) (lines : ModeLines) (on : s.inReset = false)
    (cycle : s.mode.mode.onTrunk = true → x.cycle = s.time.cycle + 1) :
    SoundStep s (takeRelaySet (cycleWork lines (listenStep (frameWork p (s.setTime x))))) := by
  have framed := SameSplits.frameWork p (s.setTime x)
  have still : (listenStep (frameWork p (s.setTime x))).inReset = false :=
    ((NodeStep.frameWork p _).trans (.listenStep _)).inReset.trans on
  have listened := Kept.listenStep (frameWork p (s.setTime x))
  have near (fit : s.Fit 1 4) : (listenStep (frameWork p (s.setTime x))).Fit 0 3 := by
    refine listened.fit (framed.fit ?_)
    by_cases trunk : s.mode.mode.onTrunk = true
    · exact fit.nextCycle rfl rfl (cycle trunk)
    · exact fit.offTrunk (by rfl) (by rfl) (by simpa using trunk) _ _
  refine ⟨fun fit => (Kept.takeRelaySet _).fit (cycleWork_sound lines still (near fit)).1, fun fit ok i => ?_⟩
  refine (Kept.takeRelaySet _).splitOk ((cycleWork_sound lines still (near fit)).2 (fun i => ?_) i)
  exact listened.splitOk (framed.splitOk ((ok i).sameLanes rfl rfl rfl rfl rfl))

theorem comingCycle_onTrunk {s : State} (lock : s.time.lock ≠ .unset) (trunk : s.mode.mode.onTrunk = true) :
    s.comingCycle = s.time.cycle + 1 := by
  unfold State.comingCycle
  rw [if_neg lock, if_neg]
  rintro ⟨joining, -⟩
  rw [joining] at trunk
  cases trunk

namespace SoundStep

variable {s t u : State}

theorem cycleBoundary (lines : ModeLines) (late : Bool) (on : s.inReset = false) (lock : s.time.lock ≠ .unset) :
    SoundStep s (cycleBoundary lines late s) :=
  (ofCells (.cutSlot s)).trans <| beginCycle s.pos _ lines (by simpa using on) fun trunk =>
    comingCycle_onTrunk (by simpa using lock) trunk

theorem plainFrameBoundary (s : State) : SoundStep s (plainFrameBoundary s) := by
  unfold Machine.plainFrameBoundary
  dsimp only
  refine (ofCells (.cutSlot s)).trans ?_
  generalize Machine.cutSlot s = u
  have counted (n : Nat) : Kept u (u.setTime { u.time with localCount := n, hold := 0 }) := .same rfl
  exact (ofKept (counted _)).trans <| (ofCells (SameSplits.frameWork s.pos _).cellStep).trans <|
    ofKept ((Kept.listenStep _).trans (.takeRelaySet _))

theorem frameBoundary (lines : ModeLines) (on : s.inReset = false) (lock : s.time.lock ≠ .unset) :
    SoundStep s (frameBoundary lines s) := cond _ (plainFrameBoundary s) (cycleBoundary lines _ on lock)

/-! ### QUIET, and the pulses -/

/-- At QUIET entry every lane is given up (R55, R79). -/
theorem quietEntry (s : State) : SoundStep s (quietEntry s) := by
  have lanes := (quietEntry_spec s).lanes
  have empty (i : LaneId) : ((Machine.quietEntry s).tenancy.get i).Empty := by rw [(lanes i).1]; exact ⟨rfl, rfl⟩
  refine ⟨fun _ => .ofEmpty empty, fun _ _ i => ?_⟩
  unfold State.SplitOk
  rw [(lanes i).2.1, splitOf_empty (empty i)]
  rfl

theorem windowClose (s : State) : SoundStep s (windowClose s) := by
  have exhausted (s : State) : SoundStep s (holdoverExhausted s) := by
    unfold holdoverExhausted
    split
    iterate 4 exact quietEntry s
    iterate 3 exact refl s
  unfold Machine.windowClose
  refine cond _ ?_ (refl s)
  dsimp only
  generalize moved : s.setTime _ = u
  have missed : Kept s u := moved ▸ .same rfl
  exact (ofKept (missed.trans (.postSelf ..))).trans (cond _ ((ofKept (.postSelf ..)).trans (exhausted _)) (refl _))

/-- A mode off the trunk other than HALTED is left for another. -/
theorem setMode (m : Mode) (off : s.mode.mode.onTrunk = false) (live : s.mode.mode ≠ .halted) : SoundStep s (setMode m s) :=
  ofOff off live (setMode_same m s).1 (setMode_same m s).2

theorem cycleWork (lines : ModeLines) (on : s.inReset = false) (off : s.mode.mode.onTrunk = false) :
    SoundStep s (cycleWork lines s) := by
  have near (fit : s.Fit 1 4) : s.Fit 0 3 := fit.offTrunk rfl rfl off _ _
  exact ⟨fun fit => (cycleWork_sound lines on (near fit)).1, fun fit => (cycleWork_sound lines on (near fit)).2⟩

/-- The Timebase set anew off the trunk. -/
theorem setTime (x : Timebase) (off : s.mode.mode.onTrunk = false) : SoundStep s (s.setTime x) :=
  ⟨fun fit => fit.offTrunk (by rfl) (by rfl) off _ _, fun _ ok i => (ok i).sameLanes rfl rfl rfl rfl rfl⟩

theorem earlyPulse (arrival : Nat) (lines : ModeLines) (on : s.inReset = false) :
    SoundStep s (earlyPulse arrival lines s) := by
  unfold Machine.earlyPulse
  dsimp only
  generalize moved : s.setTime { s.time with localCount := min arrival (Config.cycleMicros - 1) } = u
  have counted : Kept s u := moved ▸ .same rfl
  have still : u.inReset = false := moved ▸ on
  refine (ofKept counted).trans ((ofCells (.cutSlot u)).trans ?_)
  have still : (Machine.cutSlot u).inReset = false := by simpa using still
  generalize Machine.cutSlot u = v at still ⊢
  have locked : Kept v (v.setTime v.time.locked) := .same rfl
  have regained := Kept.postRegained s.time (v.setTime v.time.locked)
  refine (ofKept (locked.trans regained)).trans (cycleBoundary lines false ?_ ?_)
  · exact (NodeStep.postRegained ..).inReset.trans still
  · rw [(StillStep.postRegained ..).time]; nofun

/-- Off the trunk a frame begins at a new phase. -/
theorem frameBegun (p : FramePos) (x : Timebase) (off : s.mode.mode.onTrunk = false) :
    SoundStep s (frameWork p (s.setTime x)) ∧ (frameWork p (s.setTime x)).inReset = s.inReset ∧
      (frameWork p (s.setTime x)).mode.mode = s.mode.mode :=
  ⟨(setTime x off).trans (ofCells (SameSplits.frameWork p _).cellStep), (NodeStep.frameWork p (s.setTime x)).inReset,
    congrArg ModeCtl.mode (frameWork_mode p (s.setTime x))⟩

/-- The listening begins, and the cycle's work off the trunk is done. -/
theorem listeningBegins (lines : ModeLines) (on : s.inReset = false) (off : s.mode.mode.onTrunk = false) :
    SoundStep s (takeRelaySet (Machine.cycleWork lines
      (s.setModeCtl { s.mode with listenCount := 0, cycleSource := none }))) := by
  generalize began : s.setModeCtl { s.mode with listenCount := 0, cycleSource := none } = u
  have begun : Kept s u := began ▸ .same rfl
  have still : u.inReset = false := began ▸ on
  exact (ofKept begun).trans ((cycleWork lines still (by rw [begun.mode]; exact off)).trans (ofKept (.takeRelaySet _)))

theorem firstPulse (lines : ModeLines) (on : s.inReset = false) (joining : s.mode.mode = .joining) :
    SoundStep s (firstPulse lines s) := by
  unfold Machine.firstPulse
  dsimp only
  refine (ofCells (.cutSlot s)).trans ?_
  have joining : (Machine.cutSlot s).mode.mode = .joining := by simpa using joining
  have on : (Machine.cutSlot s).inReset = false := by simpa using on
  generalize Machine.cutSlot s = u at joining on ⊢
  obtain ⟨begun, still, mode⟩ := frameBegun s.pos (u.time.locked.beginCycle u.time.cycle false) (by rw [joining]; rfl)
  refine begun.trans ?_
  generalize frameWork s.pos _ = v at still mode ⊢
  exact listeningBegins lines (still.trans on) (by rw [mode, joining]; rfl)

theorem realignPulse (lines : ModeLines) (on : s.inReset = false) (quiet : s.mode.mode = .quiet) :
    SoundStep s (realignPulse lines s) := by
  unfold Machine.realignPulse
  dsimp only
  refine (ofCells (.cutSlot s)).trans ?_
  have quiet : (Machine.cutSlot s).mode.mode = .quiet := by simpa using quiet
  have on : (Machine.cutSlot s).inReset = false := by simpa using on
  generalize Machine.cutSlot s = u at quiet on ⊢
  obtain ⟨begun, still, mode⟩ := frameBegun s.pos (u.time.locked.beginCycle (u.time.cycle + 1) false) (by rw [quiet]; rfl)
  refine begun.trans ?_
  generalize frameWork s.pos _ = v at still mode ⊢
  generalize posted : postSelf .refRegained none Config.lostMisses v = w
  have regained : Kept v w := posted ▸ .postSelf ..
  have on : w.inReset = false := posted ▸ still.trans on
  have mode : w.mode.mode = .quiet := posted ▸ mode.trans quiet
  have joined := setMode .joining (s := w) (by rw [mode]; rfl) (by rw [mode]; nofun)
  exact (ofKept regained).trans (joined.trans (listeningBegins (s := Machine.setMode .joining w) lines on rfl))

theorem pulse (arrival : Nat) (lines : ModeLines) (on : s.inReset = false) : SoundStep s (pulse arrival lines s) := by
  have late : Kept s (latePulse arrival s) := .trans (t := s.setTime _) (.same (by exact rfl)) (.postRegained ..)
  unfold Machine.pulse
  split
  · exact whether _ (firstPulse lines on) (fun _ => refl s)
  · exact whether _ (realignPulse lines on) (fun _ => refl s)
  iterate 2 exact cond _ (earlyPulse arrival lines on) (cond _ (ofKept late) (refl s))

end SoundStep

/-! ### Commands of a boundary -/

theorem Kept.atBoundary {f : State → State} (h : ∀ s, Kept s (f s)) (s : State) : Kept s (atBoundary f s) := by
  have done := h (s.setTime (s.time.beginCycle s.comingCycle s.time.lateOpen))
  exact ⟨done.mode, rfl, done.config, done.contracts, done.tenancy, done.splits, done.level⟩

/-- The orphan hold's end touches the tenancies only after steps 1 and 2, and then plans anew. -/
theorem orphanStep_cases (i : Ident) (s : State) : Kept s (orphanStep i s) ∨ CellStep (tenancySteps12 s) (orphanStep i s) := by
  unfold orphanStep
  split
  next f followed =>
    split
    · refine .inr ?_
      dsimp only
      generalize tenancySteps12 s = u
      generalize held : u.setAlerts { u.alerts with followed := some f.stepHold } = v
      have step : CellStep u v := held ▸ .setAlerts ..
      exact step.trans ((CellStep.ofKept (.postAlert ..)).trans ((CellStep.exitAlert _).trans (.afterExit _)))
    · exact .inl ((Kept.setAlerts _ _ (by exact rfl)).trans (.forEach (fun _ _ => .postAlert ..) _ _))
  · exact .inl (.refl s)

/-- As the Timebase is put back from the coming cycle every change is a cycle farther. -/
theorem State.Fit.lastCycle {s t : State} (h : s.Fit 1 3) (tenancy : t.tenancy = s.tenancy) (mode : t.mode.mode = s.mode.mode)
    (cycle : s.time.cycle = t.time.cycle + 1) : t.Fit 1 4 := by
  refine ⟨fun i => tenancy ▸ h.good i, fun i j => by rw [tenancy]; exact h.apart i j, fun on i c e => ?_,
    fun off live i => by rw [tenancy]; exact h.off (mode ▸ off) (mode ▸ live) i⟩
  obtain ⟨least, most⟩ := h.ahead (mode ▸ on) i c (tenancy ▸ e)
  rw [cycle] at least most
  generalize c.effective = e at *
  generalize t.time.cycle = now at *
  bv_omega

/-- ALERT_ORPHANED: steps 1 and 2 of the coming boundary, the exit, and its planning attempts (R156, R164; log 2). -/
theorem SoundStep.alertOrphaned {s : State} (i : Ident) (trunk : s.mode.mode.onTrunk = true) :
    SoundStep s (atBoundary (keeping (orphanStep i)) s) := by
  have coming : s.comingCycle = s.time.cycle ∨ s.comingCycle = s.time.cycle + 1 := by
    by_cases lock : s.time.lock = .unset
    · exact .inl (if_pos lock)
    · exact .inr (comingCycle_onTrunk lock trunk)
  generalize moved : s.setTime (s.time.beginCycle s.comingCycle s.time.lateOpen) = u
  have same : atBoundary (keeping (orphanStep i)) s = (keeping (orphanStep i) u).setTime s.time := by rw [← moved]; rfl
  have block : BlockStep u (keeping (orphanStep i) u) := .keeping (.orphanStep i) u
  have start {j : LaneId} (h : s.SplitOk j) : u.SplitOk j := moved ▸ h.sameLanes rfl rfl rfl rfl rfl
  have cycle : u.time.cycle = s.comingCycle := moved ▸ rfl
  have mode : u.mode = s.mode := moved ▸ rfl
  have tenancy : u.tenancy = s.tenancy := moved ▸ rfl
  rw [same]
  rcases orphanStep_cases i u with kept | planned
  · have kept := Kept.keeping kept
    generalize keeping (orphanStep i) u = v at kept block ⊢
    refine ⟨fun fit => fit.congr (kept.tenancy.trans tenancy) (kept.mode.trans (by rw [mode])) rfl, fun _ ok j => ?_⟩
    exact (kept.splitOk (start (ok j))).sameLanes rfl rfl rfl rfl rfl
  · have planned := CellStep.trans planned (.ofKept (.sweepIdents u.heldIdents _))
    change CellStep _ (keeping (orphanStep i) u) at planned
    generalize keeping (orphanStep i) u = v at planned block ⊢
    refine ⟨fun fit => ?_, fun _ ok j => ?_⟩
    · rcases coming with still | next
      · have settled := tenancySteps12_fit (s := u) (by decide) (by decide)
          ((fit.congr tenancy (by rw [mode]) (cycle.trans still)).mono (by decide : 0 ≤ 1) (le_refl 4))
        exact (planned.fit 4 (by decide) (by decide) settled).congr rfl rfl (by rw [block.time, cycle, still]; rfl)
      · have settled := tenancySteps12_fit (s := u) (by decide) (by decide)
          (fit.nextCycle tenancy (by rw [mode]) (cycle.trans next))
        exact (planned.fit 3 (by decide) (by decide) settled).lastCycle rfl rfl (by rw [block.time, cycle, next]; rfl)
    · exact (planned.splits j (tenancySteps12_splits u (fun j => start (ok j)) j)).sameLanes rfl rfl rfl rfl rfl

/-! ### Every command -/

theorem SoundStep.pinReset (s : State) (inReset loading : Bool) (queue : List Instr) :
    SoundStep s (State.pinReset inReset loading queue) := by
  have empty (i : LaneId) : ((State.pinReset inReset loading queue).tenancy.get i).Empty := by
    simp only [State.pinReset, Quad.get_const]; exact ⟨rfl, rfl⟩
  refine ⟨fun _ => .ofEmpty empty, fun _ _ i => ?_⟩
  unfold State.SplitOk
  rw [splitOf_empty (empty i)]
  simp only [State.pinReset, Quad.get_const]
  rfl

theorem SoundStep.finishLoad {s : State} (image : List Byte) (config : s.mode.mode = .config) :
    SoundStep s (finishLoad image s) := by
  have off {t : State} (tenancy : t.tenancy = s.tenancy) (units : t.units = s.units) : SoundStep s t :=
    ofOff (by rw [config]; rfl) (by rw [config]; nofun) tenancy units
  obtain ⟨t, load, bad | good⟩ := finishLoad_cases image s
  · obtain ⟨tenancy, units⟩ := setMode_same .halted t
    exact bad ▸ off (tenancy.trans load.tenancy) (units.trans load.units)
  · obtain ⟨tenancy, units⟩ := setMode_same .joining t
    obtain ⟨ports, e⟩ := enterJoining_eq t
    rw [good, e]
    exact off (tenancy.trans load.tenancy) (units.trans load.units)

theorem onTrunk_mode {s : State} (h : s.onTrunk = true) : s.mode.mode.onTrunk = true := by
  simp only [State.onTrunk, Bool.and_eq_true] at h
  exact h.2

theorem counting_out {s : State} (h : s.counting = true) : s.inReset = false := by
  simp only [State.counting, Bool.and_eq_true, Bool.not_eq_true'] at h
  exact h.1

/-- A command keeps the tenancies sound, and with them the splits. -/
theorem exec_sound {c : Instr} {s t : State} (h : exec c s = .next t) : SoundStep s t := by
  have record (p : LaneId) (r : PortRecord) : SoundStep s (takeRecord p r s) := .ofCells (.takeRecord ..)
  cases c with
  | resetAssert => cases h; exact .pinReset ..
  | resetRelease => cases h; exact .pinReset ..
  | configReadDone => cases h; exact .whether _ (fun h => .finishLoad _ (by simp at h; exact h.2)) (fun _ => .refl s)
  | refpulse =>
    cases h
    refine .whether _ (fun _ => .refl s) (fun on => .pulse _ _ (by simpa using on))
  | toleranceWindowClose => cases h; exact .cond _ (.windowClose s) (.refl s)
  | refLost => cases h; exact .cond _ (.windowClose s) (.refl s)
  | frameBoundary =>
    cases h; exact .whether _ (fun run => .frameBoundary _ (counting_out run) (counting_lock run)) (fun _ => .refl s)
  | cycleBoundary =>
    cases h; exact .whether _ (fun run => .cycleBoundary _ _ (counting_out run) (counting_lock run)) (fun _ => .refl s)
  | listenPeriodEnd =>
    cases h
    refine .whether _ (fun run => ?_) (fun _ => .refl s)
    simp only [Bool.and_eq_true] at run
    exact .cycleBoundary _ _ (counting_out run.1.1) (counting_lock run.1.1)
  | slotStart => cases h; exact .cond _ (.ofCells (.startSlot ..)) (.refl s)
  | slotEnd => cases h; exact .cond _ (.ofCells (.endSlot ..)) (.refl s)
  | peerSilent => cases h; exact .cond _ (.ofKept (.unheardReport ..)) (.refl s)
  | peerLost => cases h; exact .cond _ (.ofKept (.unheardReport ..)) (.refl s)
  | audioUnit | laneOpen | laneRate | laneClose | laneReset | captionPut | captionDrop | pictureBegin | pictureChunk
  | pictureDrop | alertRaise | alertText | alertPictureBegin | alertPictureChunk | alertAudio | alertEnd =>
    cases h; exact record ..
  | recordRejected => cases h; exact .ofCells (.rejectRecord ..)
  | laneStatusRecordDone | portClockResume => cases h; exact .cond _ (.ofKept (.setReturn ..)) (.refl s)
  | eventRecordSent => cases h; exact .cond _ (.refl s) (.ofKept (.same rfl))
  | releaseDone => cases h; exact .cond _ (.ofCells (.releaseDone ..)) (.refl s)
  | claimTaken => cases h; exact .cond _ (.ofCells (.claimTaken ..)) (.refl s)
  | backoffEnd => cases h; exact .cond _ (.ofCells (.planAttempt ..)) (.refl s)
  | alertEntry =>
    cases h
    exact .cond _ (.ofCells (.keeping ((CellStep.boundaryEntries ..).trans (.ofKept (.syncRelay _))))) (.refl s)
  | alertExit => cases h; exact .cond _ (.ofCells (.keeping (.exitDue _))) (.refl s)
  | alertExpired => cases h; exact .cond _ (.ofKept (.atBoundary (.expireAlert _) _)) (.refl s)
  | alertOrphaned => cases h; exact .whether _ (fun on => .alertOrphaned _ (onTrunk_mode on)) (fun _ => .refl s)
  | redirectStart => cases h; exact .cond _ (.ofKept (.updateRedirect _)) (.refl s)
  | dwellEnd => cases h; exact .cond _ (.ofKept (.onCaptions ..)) (.refl s)
  | objectExpired => cases h; exact .cond _ (.ofKept (.atBoundary (.expireObj _ _) _)) (.refl s)
  | objectTimeout => cases h; exact .cond _ (.ofKept (.atBoundary (.timeoutStep _ _) _)) (.refl s)

/-- A slot is driven on the trunk only, and the listen count stands at 32 at most. -/
def State.Quiet (s : State) : Prop := s.DrivesOnlyOnTrunk ∧ s.ListenBounded

theorem NodeStep.quiet {s t : State} (h : NodeStep s t) (quiet : s.Quiet) : t.Quiet := ⟨h.drives quiet.1, h.listen quiet.2⟩

theorem CalmStep.quiet {s t : State} (h : CalmStep s t) (quiet : s.Quiet) : t.Quiet := ⟨h.drives quiet.1, h.listen quiet.2⟩

/-- Reading the image leaves the slot and the listen count, and the mode entered after it drives nothing. -/
theorem finishLoad_quiet {s : State} (image : List Byte) (quiet : s.Quiet) : (finishLoad image s).Quiet := by
  obtain ⟨t, load, bad | good⟩ := finishLoad_cases image s
  all_goals
    have loaded : t.Quiet :=
      ⟨fun driving => by rw [load.mode]; exact quiet.1 (load.trunk ▸ driving), by
        unfold State.ListenBounded; rw [load.listen]; exact quiet.2⟩
  · exact bad ▸ (NodeStep.setMode .halted t).quiet loaded
  · obtain ⟨ports, e⟩ := enterJoining_eq t
    rw [good, e]
    exact ⟨((NodeStep.setMode .joining t).quiet loaded).1, Nat.zero_le _⟩

theorem exec_quiet {c : Instr} {s t : State} (quiet : s.Quiet) (h : exec c s = .next t) : t.Quiet := by
  have pinned (inReset loading : Bool) (queue : List Instr) : (State.pinReset inReset loading queue).Quiet :=
    ⟨nofun, Nat.zero_le _⟩
  by_cases moves : Instr.moves c = true
  · exact (exec_moves moves h).quiet quiet
  by_cases restarts : Instr.restarts c = true
  · cases c with
    | resetAssert => cases h; exact pinned ..
    | resetRelease => cases h; exact pinned ..
    | configReadDone image =>
      cases h
      split
      · exact finishLoad_quiet image quiet
      · exact quiet
    | _ => cases restarts
  · exact (exec_calm (by simpa using moves) (by simpa using restarts) h).quiet quiet

/-! ### Every step -/

theorem Kept.tick (s : State) : Kept s (tick s) := by
  refine cond _ (refl s) ⟨rfl, ?_, rfl, rfl, rfl, fun _ => rfl, rfl⟩
  show s.time.tick.cycle = s.time.cycle
  unfold Timebase.tick
  split
  · rfl
  · split
    · rfl
    · split <;> rfl

theorem tick_quiet {s : State} (quiet : s.Quiet) : (tick s).Quiet := by
  unfold tick
  split <;> exact quiet

theorem step_sound {s t : State} (h : step s = .next t) : SoundStep s t := by
  unfold step at h
  split at h
  · cases h; exact .ofKept (.tick s)
  next c rest _ => exact .trans (t := s.setQueue rest) (.ofKept (.same rfl)) (exec_sound h)

theorem step_quiet {s t : State} (quiet : s.Quiet) (h : step s = .next t) : t.Quiet := by
  unfold step at h
  split at h
  · cases h; exact tick_quiet quiet
  next c rest _ => exact exec_quiet (s := s.setQueue rest) quiet h

/-- Settles O59: every operation keeps the tenancies sound, the boundary by way of steps 1 and 2, and every change of a lane's
cells is followed by its report. -/
theorem stepKeepsTrunkSilence : Obligations.StepKeepsTrunkSilence := by
  refine ⟨fun s t drives listen run => step_quiet ⟨drives, listen⟩ run, fun s t sound run => ?_,
    fun s t sound splits run => ?_⟩
  · exact (tenanciesSound_iff t).mpr ((step_sound run).fit ((tenanciesSound_iff s).mp sound))
  · exact (splitsSound_iff t).mpr ((step_sound run).splits ((tenanciesSound_iff s).mp sound) ((splitsSound_iff s).mp splits))

end Sys2Proof.Machine
end

