-- ==== Sys2Proof/Proofs/CycleBoundary.lean ====
section
/-! The cycle boundary (R149, R155, R156), where the node holds two own alerts of one identity. R146 lets no state come to that, and
`AlertCtl.ListsSound` excludes it, but the statement speaks of every state. -/

namespace Sys2Proof.Machine

/-- An own alert in its last cycle on air. -/
def lastCycleOwn (endCycle : Option Cycle) : OwnAlert :=
  { ident := ⟨0, 1⟩, role := .lead, entry := 0, yield := 0, redirect := none, endCycle := endCycle, limit := 1, onAir := 1
    text := none, toggle := false, raised := 0 }

/-- A STANDBY node that follows its own alert, held twice: the first copy has no end cycle and expires at the coming boundary,
the second ends there. -/
def twiceHeld : State :=
  { State.reset with
    inReset := false
    time := { resetTime with lock := .locked }
    mode := { resetMode with mode := .standby }
    alerts := { resetAlerts with
      level := 1
      followed := some ⟨⟨0, 1⟩, 0, 0, none⟩
      stack := [⟨0, none, false, Trio.const none, Trio.const none, Trio.const none, Trio.const none⟩]
      own := [lastCycleOwn none, lastCycleOwn (some 1)] } }

/-- The alert level after a command. -/
def levelAfter : Host.Outcome State Fault Refusal → Option Nat
  | .next t => some t.alerts.level
  | .fault _ | .refused _ => none

/-- The expiry of the first copy gives the identity, and so the second copy too, an end cycle to come; no end is due any more, and
the takeover stays. -/
theorem levelAfter_twiceHeld : levelAfter (exec (.cycleBoundary 3) twiceHeld) = some 1 := by decide +kernel

/-- Refutes O14: with two own alerts of one identity, an end of the followed alert that is due before the boundary is put off by the
boundary's own count of cycles on air (R149), and the takeover is not exited. -/
theorem not_cycleBoundaryCountsSamplesAndMoves : ¬ Obligations.CycleBoundaryCountsSamplesAndMoves := by
  unfold Obligations.CycleBoundaryCountsSamplesAndMoves
  intro h
  obtain ⟨t, es, next, -, -, -, -, onTrunk, -⟩ := h (.cycleBoundary 3) 3 twiceHeld (.inl rfl) rfl (by decide) (by decide) rfl
  obtain ⟨-, -, -, -, exit, -⟩ := onTrunk rfl
  have left := exit ⟨⟨0, 1⟩, 0, 0, none⟩ _ [] rfl rfl
    (.inr ⟨rfl, lastCycleOwn (some 1), by simp [twiceHeld], rfl, rfl⟩)
    (fun n mem => by simp [twiceHeld, resetAlerts] at mem)
    (fun o mem due => by
      have copy : o = lastCycleOwn none ∨ o = lastCycleOwn (some 1) := by simpa [twiceHeld] using mem
      rcases copy with rfl | rfl <;> rfl)
    (by
      rintro (⟨f, held, hold⟩ | ⟨b, mem, f, held, -⟩)
      · obtain rfl := Option.some.inj held
        exact hold rfl
      · obtain rfl := List.mem_singleton.mp mem
        cases held)
    (fun b mem => by
      obtain rfl := List.mem_singleton.mp mem
      exact ⟨rfl, nofun⟩)
    rfl rfl
  have stays := levelAfter_twiceHeld
  rw [next] at stays
  have level : t.alerts.level = 1 := Option.some.inj stays
  exact absurd (level.symm.trans left.1) (by decide)

end Sys2Proof.Machine
end

