-- ==== Sys2Proof/Proofs/Halted.lean ====
section
/-! SUPPORT. The pin reset and HALTED (R20, R34): a node that takes no records acts on no record and on nothing that falls due in a
block, one held in reset on nothing at all, and one in HALTED lets only its Timebase, Trunk Interface and event line go on
(`HaltStep`). -/

namespace Sys2Proof.Machine

/-! ### A node that takes no records -/

/-- A node that takes no records is off the trunk. -/
theorem onTrunk_of_not_live {s : State} (off : s.live = false) : s.onTrunk = false := by
  have gated : s.mode.mode.onTrunk = true → s.mode.mode.takesRecords = true := by
    cases s.mode.mode <;> simp [Mode.onTrunk, Mode.takesRecords]
  by_contra trunk
  simp only [State.onTrunk, State.live, Bool.not_eq_false, Bool.and_eq_true] at off trunk
  simp [trunk.1, gated trunk.2] at off

/-- Off the trunk and taking no records, the node acts on no record and on nothing that falls due in a block. -/
theorem exec_calm_off {c : Instr} {s : State} (off : s.live = false) (still : Instr.moves c = false)
    (runs : Instr.restarts c = false) (sends : c ≠ .eventRecordSent) : exec c s = .next s := by
  have trunk := onTrunk_of_not_live off
  have record (p : LaneId) (r : PortRecord) : takeRecord p r s = s := by simp [takeRecord, off]
  cases c with
  | resetAssert | resetRelease | configReadDone => cases runs
  | refpulse | toleranceWindowClose | refLost | frameBoundary | cycleBoundary | listenPeriodEnd | slotStart | slotEnd
  | peerSilent | peerLost => cases still
  | eventRecordSent => exact absurd rfl sends
  | audioUnit | laneOpen | laneRate | laneClose | laneReset | captionPut | captionDrop | pictureBegin | pictureChunk
  | pictureDrop | alertRaise | alertText | alertPictureBegin | alertPictureChunk | alertAudio | alertEnd =>
    exact congrArg Host.Outcome.next (record ..)
  | recordRejected => exact congrArg Host.Outcome.next (by simp [rejectRecord, off])
  | laneStatusRecordDone | portClockResume | dwellEnd | objectTimeout =>
    exact congrArg Host.Outcome.next (if_neg (by simp [off]))
  | objectExpired => exact congrArg Host.Outcome.next (if_neg (by simp [off]))
  | releaseDone | claimTaken | backoffEnd | alertEntry | alertExit | alertExpired | alertOrphaned | redirectStart =>
    exact congrArg Host.Outcome.next (if_neg (by simp [trunk]))

/-- A peer's unheard report falls due only while the node takes records. -/
theorem peerDue_off {s : State} (off : s.live = false) (m : Node) : s.silentDue m = false ∧ s.lostDue m = false := by
  simp [State.silentDue, State.lostDue, off]

/-! ### Pin reset (R20) -/

/-- While RESET is asserted a command that is not one of the pin's changes nothing. -/
theorem exec_inReset {c : Instr} {s : State} (held : s.inReset = true) (noAssert : c ≠ .resetAssert)
    (noRelease : c ≠ .resetRelease) : exec c s = .next s := by
  have off : s.live = false := by simp [State.live, held]
  have stopped : s.counting = false := by simp [State.counting, held]
  cases c with
  | resetAssert => exact absurd rfl noAssert
  | resetRelease => exact absurd rfl noRelease
  | configReadDone => exact congrArg Host.Outcome.next (if_neg (by simp [held]))
  | refpulse | eventRecordSent => exact congrArg Host.Outcome.next (if_pos held)
  | toleranceWindowClose | refLost | frameBoundary | cycleBoundary | listenPeriodEnd | slotStart | slotEnd =>
    exact congrArg Host.Outcome.next (if_neg (by simp [stopped]))
  | peerSilent m => exact congrArg Host.Outcome.next (if_neg (by simp [peerDue_off off m]))
  | peerLost m => exact congrArg Host.Outcome.next (if_neg (by simp [peerDue_off off m]))
  | _ => exact exec_calm_off off rfl rfl (by exact nofun)

/-- Settles O4: the two commands of the pin by their meanings, every other by `exec_inReset`, a microsecond by `tick`'s gate. -/
theorem resetReturnsEveryBlock : Obligations.ResetReturnsEveryBlock :=
  ⟨fun _ => ⟨rfl, rfl⟩, fun _ _ held => ⟨exec_inReset held, if_pos held⟩⟩

/-! ### HALTED (R34) -/

/-- From `s` to `t` only the Timebase, the Trunk Interface and the event queue have gone on; NFAULT is as it was. -/
structure HaltStep (s t : State) : Prop where
  state : t = { s with time := t.time, trunk := t.trunk, events := t.events }
  nfault : t.events.nfault = s.events.nfault

namespace HaltStep

variable {s t u : State}

theorem refl (s : State) : HaltStep s s := ⟨rfl, rfl⟩

theorem trans (h : HaltStep s t) (k : HaltStep t u) : HaltStep s u where
  state := k.state.trans
    (congrArg (fun x : State => { x with time := u.time, trunk := u.trunk, events := u.events }) h.state)
  nfault := k.nfault.trans h.nfault

theorem cond (c : Prop) [Decidable c] (h : HaltStep s t) (k : HaltStep s u) : HaltStep s (if c then t else u) := by
  split
  · exact h
  · exact k

theorem mode (h : HaltStep s t) : t.mode = s.mode := by rw [h.state]

theorem halted (h : HaltStep s t) (was : s.mode.mode = .halted) : t.mode.mode = .halted := by rw [h.mode, was]

/-- An operation that is a `HaltStep` from HALTED, on a state that is in HALTED still. -/
theorem andThen (h : HaltStep s t) (was : s.mode.mode = .halted) (k : t.mode.mode = .halted → HaltStep t u) : HaltStep s u :=
  h.trans (k (h.halted was))

theorem setTime (s : State) (x : Timebase) : HaltStep s (s.setTime x) := ⟨rfl, rfl⟩
theorem setTrunk (s : State) (x : Trunk) : HaltStep s (s.setTrunk x) := ⟨rfl, rfl⟩

theorem postSelf (k : EventKind) (l : Option LaneId) (a : Nat) (s : State) : HaltStep s (postSelf k l a s) :=
  ⟨rfl, BlockStep.offer_nfault _ _⟩

theorem postRegained (was : Timebase) (s : State) : HaltStep s (postRegained was s) := cond _ (postSelf ..) (refl s)

theorem takeRelaySet (s : State) : HaltStep s (takeRelaySet s) := setTrunk ..

theorem takeCopy (k : Nat) (s : State) : HaltStep s (takeCopy k s) := cond _ (setTrunk ..) (refl s)

end HaltStep

theorem live_of_halted {s : State} (halted : s.mode.mode = .halted) : s.live = false := by
  simp [State.live, halted, Mode.takesRecords]

theorem onTrunk_of_halted {s : State} (halted : s.mode.mode = .halted) : s.onTrunk = false :=
  onTrunk_of_not_live (live_of_halted halted)

namespace HaltStep

variable {s : State}

/-! Slots -/

theorem directorySlot (k : Nat) (r : DirRead) (halted : s.mode.mode = .halted) : HaltStep s (directorySlot k r s) := by
  refine (setTrunk s { s.trunk with directory := setReading s.trunk.directory (k % 3) r }).trans (cond _ ?_ (refl _))
  simp only [handOver, State.setTrunk_mode, halted]
  exact refl _

theorem relayHandOver (r : RelayCell) (halted : s.mode.mode = .halted) : HaltStep s (relayHandOver r s) := by
  have off : ∀ x, (s.setTrunk x).onTrunk = false := fun _ => onTrunk_of_halted halted
  simp only [Machine.relayHandOver, off]
  exact setTrunk ..

theorem cutSlot (halted : s.mode.mode = .halted) : HaltStep s (cutSlot s) := by
  have ended := setTrunk s { s.trunk with inProgress := false, slotState := .cut, driver := none }
  exact cond _ (ended.trans (cond _ (directorySlot _ _ halted) (cond _ (relayHandOver _ halted) (refl _)))) (refl s)

theorem startSlot (k : Nat) (halted : s.mode.mode = .halted) : HaltStep s (startSlot k s) := by
  have cut := cutSlot halted
  have off : ∀ x, ((Machine.cutSlot s).setTime x).onTrunk = false := fun _ => onTrunk_of_halted (cut.halted halted)
  simp only [Machine.startSlot, off, Bool.false_eq_true, and_false, if_false]
  exact cut.trans ((setTime ..).trans ((takeCopy ..).trans (setTrunk ..)))

theorem routeSlot (k : Nat) (tag : Byte) (content : List Byte) (halted : s.mode.mode = .halted) :
    HaltStep s (routeSlot k tag content s) :=
  cond _ (directorySlot _ _ halted) (cond _ (relayHandOver _ halted) (refl s))

/-- HALTED is entered from HALTED (R34): the mode and NFAULT stand already. -/
theorem setMode (halted : s.mode.mode = .halted) (fault : s.events.nfault = true) : HaltStep s (setMode .halted s) := by
  have same : { s.mode with mode := .halted } = s.mode := by rw [← halted]
  refine ⟨?_, fault.symm⟩
  unfold Machine.setMode
  rw [same]
  rfl

/-- A node that is HALTED already is left so by what it finds (R16, R34). -/
theorem duplicateFound (k : Nat) (halted : s.mode.mode = .halted) (fault : s.events.nfault = true) :
    HaltStep s (duplicateFound k s) := by
  have posted := postSelf .duplicate none k s
  exact posted.trans (setMode (posted.halted halted) (posted.nfault.trans fault))

theorem endSlot (tag : Byte) (content : List Byte) (halted : s.mode.mode = .halted) (fault : s.events.nfault = true) :
    HaltStep s (endSlot tag content s) := by
  have unreported (k : Nat) (d : Option Driver) (x : Trunk) : reportLoss k d (s.setTrunk x) = s.setTrunk x := by
    have off : (s.setTrunk x).onTrunk = false := onTrunk_of_halted halted
    unfold reportLoss
    split
    · simp [off]
    · rfl
  unfold Machine.endSlot
  refine cond _ ?_ (refl s)
  dsimp only
  rw [unreported]
  split
  · exact (setTrunk ..).andThen halted fun still => duplicateFound _ still fault
  iterate 2 exact (setTrunk ..).andThen halted fun still => routeSlot _ _ _ still

/-! Boundaries and pulses -/

theorem frameWork (p : FramePos) (halted : s.mode.mode = .halted) : HaltStep s (frameWork p s) := by
  have frame : HaltStep s (trunkFrame s) := by
    rw [trunkFrame, relayLeftover_off (onTrunk_of_halted halted)]
    exact setTrunk ..
  unfold Machine.frameWork
  rw [if_neg (by simp [live_of_halted (frame.halted halted)])]
  exact frame

/-- In HALTED no listen frame is counted (R26, R34). -/
theorem listenStep (halted : s.mode.mode = .halted) : HaltStep s (listenStep s) := by
  rw [Machine.listenStep, if_neg (by simp [halted])]
  exact refl s

/-- In HALTED no block works at a cycle boundary (R34). -/
theorem cycleWork (lines : ModeLines) (halted : s.mode.mode = .halted) : HaltStep s (cycleWork lines s) := by
  rw [Machine.cycleWork, if_neg (by simp [live_of_halted halted])]
  exact refl s

theorem cycleBoundary (lines : ModeLines) (late : Bool) (halted : s.mode.mode = .halted) :
    HaltStep s (cycleBoundary lines late s) :=
  (cutSlot halted).andThen halted fun h => (setTime ..).andThen h fun h => (frameWork _ h).andThen h fun h =>
    (listenStep h).andThen h fun h => (cycleWork lines h).trans (takeRelaySet _)

theorem plainFrameBoundary (halted : s.mode.mode = .halted) : HaltStep s (plainFrameBoundary s) :=
  (cutSlot halted).andThen halted fun h => (setTime ..).andThen h fun h => (frameWork _ h).andThen h fun h =>
    (listenStep h).trans (takeRelaySet _)

theorem frameBoundary (lines : ModeLines) (halted : s.mode.mode = .halted) : HaltStep s (frameBoundary lines s) :=
  cond _ (plainFrameBoundary halted) (cycleBoundary _ _ halted)

theorem earlyPulse (arrival : Nat) (lines : ModeLines) (halted : s.mode.mode = .halted) :
    HaltStep s (earlyPulse arrival lines s) :=
  (setTime ..).andThen halted fun h => (cutSlot h).andThen h fun h => (setTime ..).andThen h fun h =>
    (postRegained ..).andThen h fun h => cycleBoundary _ _ h

theorem latePulse (arrival : Nat) (s : State) : HaltStep s (latePulse arrival s) := (setTime ..).trans (postRegained ..)

/-- The phase is set outright while JOINING or QUIET only (R11); the pulses that are left are those of R8. -/
theorem pulse (arrival : Nat) (lines : ModeLines) (halted : s.mode.mode = .halted) : HaltStep s (pulse arrival lines s) := by
  unfold Machine.pulse
  split
  · rw [if_neg (by simp [halted])]; exact refl s
  · rw [if_neg (by simp [halted])]; exact refl s
  iterate 2 exact cond _ (earlyPulse _ _ halted) (cond _ (latePulse ..) (refl s))

theorem windowClose (halted : s.mode.mode = .halted) : HaltStep s (windowClose s) := by
  have exhausted {t : State} (step : HaltStep s t) : HaltStep s (holdoverExhausted t) := by
    unfold holdoverExhausted
    rw [step.halted halted]
    exact step
  unfold Machine.windowClose
  refine cond _ ?_ (refl s)
  dsimp only
  have missed (x : Timebase) := (setTime s x).trans (postSelf .refMiss none (s.time.misses + 1) _)
  exact cond _ (exhausted ((missed _).trans (postSelf ..))) (missed _)

end HaltStep

/-- In HALTED the Timebase, the Trunk Interface and the event line go on, and nothing else does (R34). -/
theorem exec_halted {c : Instr} {s : State} (halted : s.mode.mode = .halted) (fault : s.events.nfault = true)
    (noAssert : c ≠ .resetAssert) (noRelease : c ≠ .resetRelease) : ∃ t, exec c s = .next t ∧ HaltStep s t := by
  have off := live_of_halted halted
  cases c with
  | resetAssert => exact absurd rfl noAssert
  | resetRelease => exact absurd rfl noRelease
  | configReadDone => exact ⟨_, rfl, by rw [if_neg (by simp [halted])]; exact .refl s⟩
  | refpulse => exact ⟨_, rfl, .cond _ (.refl s) (.pulse _ _ halted)⟩
  | toleranceWindowClose | refLost => exact ⟨_, rfl, .cond _ (.windowClose halted) (.refl s)⟩
  | frameBoundary => exact ⟨_, rfl, .cond _ (.frameBoundary _ halted) (.refl s)⟩
  | cycleBoundary | listenPeriodEnd => exact ⟨_, rfl, .cond _ (.cycleBoundary _ _ halted) (.refl s)⟩
  | slotStart => exact ⟨_, rfl, .cond _ (.startSlot _ halted) (.refl s)⟩
  | slotEnd => exact ⟨_, rfl, .cond _ (.endSlot _ _ halted fault) (.refl s)⟩
  | peerSilent m => exact ⟨_, rfl, by rw [if_neg (by simp [peerDue_off off m])]; exact .refl s⟩
  | peerLost m => exact ⟨_, rfl, by rw [if_neg (by simp [peerDue_off off m])]; exact .refl s⟩
  | eventRecordSent =>
    refine ⟨_, rfl, .cond _ (.refl s) ⟨rfl, ?_⟩⟩
    show s.events.sent.nfault = s.events.nfault
    unfold EventOut.sent
    split <;> rfl
  | _ => exact ⟨s, exec_calm_off off rfl rfl (by exact nofun), .refl s⟩

/-- Settles O5: every command is a `HaltStep`, NFAULT being asserted in HALTED (R181). -/
theorem haltedHoldsItsState : Obligations.HaltedHoldsItsState := by
  intro c s halted sound noAssert noRelease
  have fault : s.events.nfault = true := by rw [sound, halted]; rfl
  obtain ⟨t, run, step⟩ := exec_halted halted fault noAssert noRelease
  exact ⟨t, run, step.nfault, step.state⟩

end Sys2Proof.Machine
end

