-- ==== Sys2Proof/Proofs/ImageRead.lean ====
section
/-! SUPPORT. The end of the image's read (R21 to R25): what the Configuration Loader takes from each field and tells of it, and
the modes that a bad and a good image lead to. -/

namespace Sys2Proof.Machine

/-- CONFIG_READ_DONE while an image is read in CONFIG ends the read (R21). -/
theorem exec_configReadDone {s : State} (image : List Byte) (on : s.inReset = false) (loading : s.loading = true)
    (config : s.mode.mode = .config) : exec (.configReadDone image) s = .next (finishLoad image s) :=
  congrArg Host.Outcome.next (if_pos (by simp [on, loading, config]))

/-! ### A bad image (R21, R34) -/

theorem finishLoad_bad {image : List Byte} {reason : Nat} (bad : imageReason image = some reason) (s : State) :
    finishLoad image s = setMode .halted (post .configBad 255 none reason (s.setPins s.inReset false)) := by
  rw [finishLoad, bad]
  rfl

/-- Settles O6: CONFIG_BAD is posted, and then HALTED entered; with no slot driven there is none to release. -/
theorem badImageHalts : Obligations.BadImageHalts := by
  intro image s reason on loading config bad room idle
  have released : s.trunk.release = s.trunk := by
    unfold Trunk.release
    split
    · exact absurd ‹_› idle
    · rfl
  refine ⟨_, exec_configReadDone image on loading config, ?_⟩
  rw [finishLoad_bad bad]
  refine ⟨rfl, rfl, rfl, ?_, ?_⟩
  · exact post_posted (s := s.setPins s.inReset false) room .configBad 255 none reason
  · show State.mk _ _ _ _ _ s.trunk.release _ _ _ _ _ _ _ _ _ _ _ _ _ = _
    rw [released]
    rfl

/-! ### LANE_CONFIG, told of each clamp and disabling (R22, R23) -/

/-- LANE_CONFIG for each lane and argument of a list. -/
def tell (es : List (Option LaneId × Nat)) (s : State) : State := forEach es (fun e => postSelf .laneConfig e.1 e.2) s

theorem tell_append (es fs : List (Option LaneId × Nat)) (s : State) : tell (es ++ fs) s = tell fs (tell es s) :=
  List.foldl_append

/-- Telling touches the Event Output only. -/
theorem tell_eq (es : List (Option LaneId × Nat)) (s : State) : tell es s = s.setEvents (tell es s).events := by
  induction es generalizing s with
  | nil => rfl
  | cons e es ih => exact ih (postSelf .laneConfig e.1 e.2 s)

/-- What LANE_CONFIG of node `n` says of a lane and an argument. -/
def laneConfigSays (n : Nat) (e : Option LaneId × Nat) : EventKind × Nat × Option LaneId × Nat := (.laneConfig, n, e.1, e.2)

theorem tell_posted {es : List (Option LaneId × Nat)} {s : State} (room : s.Room es.length) :
    Posted s (tell es s) (es.map (laneConfigSays s.mode.node.val)) := by
  induction es generalizing s with
  | nil => exact .of_queue rfl
  | cons e es ih =>
    have one : s.Room 1 := by simp only [State.Room, List.length_cons] at *; omega
    have queue := post_queue one .laneConfig s.node.val e.1 e.2
    refine (post_posted one .laneConfig s.node.val e.1 e.2).trans (ih (s := postSelf .laneConfig e.1 e.2 s) ?_)
    simp only [State.Room, postSelf, queue, List.length_append, List.length_cons, List.length_nil] at *
    omega

/-- `s` with the tolerance T replaced. -/
def State.setTolerance (s : State) (n : Nat) : State := s.setTime { s.time with tolerance := n }

/-! What telling says does not depend on contracts, configuration or tolerance. -/

theorem tell_setContract (es : List (Option LaneId × Nat)) (s : State) (l : Lane) (c : Option Contract) :
    tell es (s.setContract l c) = (tell es s).setContract l c := by
  induction es generalizing s with
  | nil => rfl
  | cons e es ih => exact ih (postSelf .laneConfig e.1 e.2 s)

theorem tell_setConfig (es : List (Option LaneId × Nat)) (s : State) (c : NodeConfig) :
    tell es (s.setConfig c) = (tell es s).setConfig c := by
  induction es generalizing s with
  | nil => rfl
  | cons e es ih => exact ih (postSelf .laneConfig e.1 e.2 s)

theorem tell_setTolerance (es : List (Option LaneId × Nat)) (s : State) (n : Nat) :
    tell es (s.setTolerance n) = (tell es s).setTolerance n := by
  induction es generalizing s with
  | nil => rfl
  | cons e es ih => exact ih (postSelf .laneConfig e.1 e.2 s)

/-! ### Fields clamped -/

/-- What a clamp to a range tells. -/
def clampTold (lane : Option LaneId) (code lo hi n : Nat) : List (Option LaneId × Nat) :=
  if clampTo lo hi n = n then [] else [(lane, code)]

/-- What a clamp of a field whose 0 means a default tells. -/
def defaultTold (lane : Option LaneId) (code lo hi n : Nat) : List (Option LaneId × Nat) :=
  if n = 0 then [] else clampTold lane code lo hi n

/-- A field whose 0 means a default, brought into its range. -/
def clampOr (lo hi dflt n : Nat) : Nat := if n = 0 then dflt else clampTo lo hi n

theorem postConfig_eq (lane : Option LaneId) (disable : Bool) (code : Nat) (s : State) :
    postConfig lane disable code s = tell [(lane, (if disable then 256 else 0) + code)] s := rfl

theorem takeClamped_eq (lane : Option LaneId) (code lo hi n : Nat) (s : State) :
    takeClamped lane code lo hi n s = (clampTo lo hi n, tell (clampTold lane code lo hi n) s) := by
  unfold takeClamped clampTold
  split
  · rfl
  · simp [postConfig_eq]

theorem takeRate_eq (lane : Option LaneId) (code lo hi n : Nat) (s : State) :
    takeRate lane code lo hi n s = (clampTo lo hi (n / 8 * 8), tell (clampTold lane code lo hi (n / 8 * 8)) s) :=
  takeClamped_eq ..

theorem takeOrDefault_eq (lane : Option LaneId) (code lo hi dflt n : Nat) (s : State) :
    takeOrDefault lane code lo hi dflt n s = (clampOr lo hi dflt n, tell (defaultTold lane code lo hi n) s) := by
  unfold takeOrDefault clampOr defaultTold
  split
  · rfl
  · exact takeClamped_eq ..

theorem map_clampTold {α : Type} (f : Option LaneId × Nat → α) (lane : Option LaneId) (code lo hi n : Nat) :
    (clampTold lane code lo hi n).map f = if clampTo lo hi n = n then [] else [f (lane, code)] := by
  unfold clampTold
  split <;> rfl

theorem map_defaultTold {α : Type} (f : Option LaneId × Nat → α) (lane : Option LaneId) (code lo hi n : Nat) :
    (defaultTold lane code lo hi n).map f = if n = 0 then [] else (clampTold lane code lo hi n).map f := by
  unfold defaultTold
  split <;> rfl

theorem clampTold_length (lane : Option LaneId) (code lo hi n : Nat) : (clampTold lane code lo hi n).length ≤ 1 := by
  unfold clampTold
  split <;> simp

theorem defaultTold_length (lane : Option LaneId) (code lo hi n : Nat) : (defaultTold lane code lo hi n).length ≤ 1 := by
  unfold defaultTold
  split
  · exact Nat.zero_le _
  · exact clampTold_length ..

/-! ### The node-wide fields (R22) -/

/-- The image gives the alert lane a grade. -/
def alertGraded (image : List Byte) : Bool := decide (1 ≤ byteAt image 9 ∧ byteAt image 9 ≤ 4)

/-- The node-wide configuration that an image gives (R22, R183). -/
def imageConfig (image : List Byte) : NodeConfig where
  bulletin := clampTo 4 32 (byteAt image 8)
  alertGrade := if alertGraded image then some (byteAt image 9) else none
  takeoverRate := clampTo 16 192 (get16 image 10 / 8 * 8)
  duration1 := clampOr 16 4095 2812 (get16 image 12)
  duration2 := clampOr 16 4095 938 (get16 image 14)
  duration3 := clampOr 16 4095 469 (get16 image 16)
  apFraming := framingOf (byteAt image 18)

/-- What LANE_CONFIG tells of the node-wide fields, in the order of R22's table. -/
def nodeTold (image : List Byte) : List (Option LaneId × Nat) :=
  defaultTold none 16 4 250 (byteAt image 7) ++ clampTold (some .alert) 17 4 32 (byteAt image 8) ++
    (if alertGraded image then [] else [(some .alert, 256 + 18)]) ++
    clampTold (some .alert) 19 16 192 (get16 image 10 / 8 * 8) ++
    defaultTold (some .alert) 20 16 4095 (get16 image 12) ++ defaultTold (some .alert) 21 16 4095 (get16 image 14) ++
    defaultTold (some .alert) 22 16 4095 (get16 image 16)

/-- The state with the node-wide fields of an image, of which nothing is told yet. -/
def State.withNodeFields (s : State) (image : List Byte) : State :=
  ((s.setModeCtl { s.mode with node := Fin.ofNat 8 (byteAt image 6) }).setTolerance
    (clampOr 4 250 20 (byteAt image 7))).setConfig (imageConfig image)

theorem takeNodeFields_eq (image : List Byte) (s : State) :
    takeNodeFields image s = tell (nodeTold image) (s.withNodeFields image) := by
  have graded (s : State) : (if alertGraded image then s else postConfig (some .alert) true 18 s) =
      tell (if alertGraded image then [] else [(some .alert, 256 + 18)]) s := by split <;> rfl
  have tolerant (es : List (Option LaneId × Nat)) (s : State) (n : Nat) :
      (tell es s).setTime { (tell es s).time with tolerance := n } = tell es (s.setTolerance n) :=
    (tell_setTolerance es s n).symm
  unfold takeNodeFields
  simp only [takeOrDefault_eq, takeClamped_eq, takeRate_eq, tolerant]
  change (tell _ (tell _ (tell _ (tell _ (if alertGraded image then _ else _))))).setConfig (imageConfig image) = _
  rw [graded]
  simp only [nodeTold, State.withNodeFields, tell_append, tell_setConfig]

/-! ### The lane contracts (R23) -/

theorem byteAt_slice (image : List Byte) (b : Nat) {n i : Nat} (inside : i < n) :
    byteAt ((image.drop b).take n) i = byteAt image (b + i) := by
  simp [byteAt, List.getD_eq_getElem?_getD, inside]

theorem get16_slice (image : List Byte) (b : Nat) {n i : Nat} (inside : i + 1 < n) :
    get16 ((image.drop b).take n) i = get16 image (b + i) := by
  simp only [get16, byteAt_slice image b (Nat.lt_of_succ_lt inside), byteAt_slice image b inside, Nat.add_assoc]

theorem name_slice (image : List Byte) (b : Nat) :
    (((image.drop b).take 24).drop 3).take 8 = (image.drop (b + 3)).take 8 := by
  simp [List.drop_take, List.take_take]

/-- The rates of a contract stand in their order. -/
def ratesOrdered (c : List Byte) : Bool := decide
  (clampTo 8 384 (get16 c 13 / 8 * 8) ≤ clampTo 8 384 (get16 c 15 / 8 * 8) ∧
    clampTo 8 384 (get16 c 15 / 8 * 8) ≤ clampTo 8 384 (get16 c 17 / 8 * 8))

/-- The contract that 24 bytes of an image give a lane, or none for one that is disabled (R23, R183). -/
def contractOf (c : List Byte) : Option Contract :=
  if byteAt c 0 = 0 ∨ 1 < byteAt c 11 ∨ byteAt c 12 = 0 ∨ 4 < byteAt c 12 ∨ ratesOrdered c = false then none
  else some {
    serviceId := BitVec.ofNat 16 (get16 c 1), name := (c.drop 3).take 8
    laneClass := if byteAt c 11 = 1 then .yieldable else .kept
    grade := byteAt c 12, rmin := clampTo 8 384 (get16 c 13 / 8 * 8), rnom := clampTo 8 384 (get16 c 15 / 8 * 8)
    rmax := clampTo 8 384 (get16 c 17 / 8 * 8), annex := clampTo 0 512 (get16 c 19)
    autoOpen := decide (byteAt c 21 ≠ 0), framing := framingOf (byteAt c 22), dwell := clampTo 1 255 (byteAt c 23) }

/-- What LANE_CONFIG tells of a lane's 24 bytes, in the order of R23's table. -/
def contractTold (l : Lane) (c : List Byte) : List (Option LaneId × Nat) :=
  let lane := some (LaneId.svc l)
  if byteAt c 0 = 0 then []
  else if 1 < byteAt c 11 then [(lane, 256 + 1)]
  else if byteAt c 12 = 0 ∨ 4 < byteAt c 12 then [(lane, 256 + 2)]
  else clampTold lane 3 8 384 (get16 c 13 / 8 * 8) ++ clampTold lane 4 8 384 (get16 c 15 / 8 * 8) ++
    clampTold lane 5 8 384 (get16 c 17 / 8 * 8) ++
    if ratesOrdered c then clampTold lane 7 0 512 (get16 c 19) ++ clampTold lane 8 1 255 (byteAt c 23)
    else [(lane, 256 + 6)]

theorem disableLane_eq (l : Lane) (code : Nat) (s : State) :
    disableLane l code s = tell [(some (.svc l), 256 + code)] (s.setContract l none) := rfl

theorem takeContract_eq (l : Lane) (c : List Byte) (s : State) :
    takeContract l c s = tell (contractTold l c) (s.setContract l (contractOf c)) := by
  unfold takeContract contractTold contractOf
  by_cases used : byteAt c 0 = 0
  · simp only [if_pos used, if_pos (Or.inl used)]
    rfl
  by_cases known : 1 < byteAt c 11
  · simp only [if_neg used, if_pos known, if_pos (Or.inr (Or.inl known))]
    rfl
  by_cases graded : byteAt c 12 = 0 ∨ 4 < byteAt c 12
  · have disabled : byteAt c 0 = 0 ∨ 1 < byteAt c 11 ∨ byteAt c 12 = 0 ∨ 4 < byteAt c 12 ∨ ratesOrdered c = false := by
      tauto
    simp only [if_neg used, if_neg known, if_pos graded, if_pos disabled]
    rfl
  obtain ⟨some, low⟩ := not_or.mp graded
  simp only [used, known, some, low, false_or, or_self, if_false]
  unfold takeRates
  simp only [takeClamped_eq, takeRate_eq]
  cases ordered : ratesOrdered c with
  | true =>
    rw [if_pos (of_decide_eq_true ordered)]
    simp [tell_append, tell_setContract]
  | false =>
    rw [if_neg (of_decide_eq_false ordered)]
    simp [tell_append, tell_setContract, disableLane_eq]

theorem contractTold_length (l : Lane) (c : List Byte) : (contractTold l c).length ≤ 5 := by
  have one := clampTold_length (some (.svc l))
  have a := one 3 8 384 (get16 c 13 / 8 * 8)
  have b := one 4 8 384 (get16 c 15 / 8 * 8)
  have d := one 5 8 384 (get16 c 17 / 8 * 8)
  have e := one 7 0 512 (get16 c 19)
  have f := one 8 1 255 (byteAt c 23)
  unfold contractTold
  dsimp only
  split_ifs <;> simp only [List.length_append, List.length_cons, List.length_nil] <;> omega

theorem nodeTold_length (image : List Byte) : (nodeTold image).length ≤ 7 := by
  have a := defaultTold_length none 16 4 250 (byteAt image 7)
  have b := clampTold_length (some .alert) 17 4 32 (byteAt image 8)
  have d := clampTold_length (some .alert) 19 16 192 (get16 image 10 / 8 * 8)
  have e := defaultTold_length (some .alert) 20 16 4095 (get16 image 12)
  have f := defaultTold_length (some .alert) 21 16 4095 (get16 image 14)
  have g := defaultTold_length (some .alert) 22 16 4095 (get16 image 16)
  unfold nodeTold
  split <;> simp only [List.length_append, List.length_cons, List.length_nil] <;> omega

/-! ### A good image (R21 to R25) -/

/-- The 24 bytes of an image that give lane `l` its contract (R183). -/
def laneBytes (image : List Byte) (l : Lane) : List Byte := (image.drop (19 + 24 * l.num)).take 24

/-- What LANE_CONFIG tells of an image. -/
def imageTold (image : List Byte) : List (Option LaneId × Nat) :=
  nodeTold image ++ (contractTold .l0 (laneBytes image .l0) ++ contractTold .l1 (laneBytes image .l1) ++
    contractTold .l2 (laneBytes image .l2))

/-- The state with the fields of an image, of which nothing is told yet. -/
def State.withImage (s : State) (image : List Byte) : State :=
  (((s.withNodeFields image).setContract .l0 (contractOf (laneBytes image .l0))).setContract .l1
    (contractOf (laneBytes image .l1))).setContract .l2 (contractOf (laneBytes image .l2))

theorem finishLoad_good {image : List Byte} (good : imageReason image = none) (s : State) :
    finishLoad image s = enterJoining (tell (imageTold image) ((s.setPins s.inReset false).withImage image)) := by
  have taken (s : State) : takeContract .l2 ((image.drop 67).take 24) (takeContract .l1 ((image.drop 43).take 24)
      (takeContract .l0 ((image.drop 19).take 24) (takeNodeFields image s))) = tell (imageTold image) (s.withImage image) := by
    simp only [takeContract_eq, takeNodeFields_eq, imageTold, State.withImage, tell_append, tell_setContract]
    rfl
  rw [finishLoad, good]
  exact congrArg enterJoining (taken _)

theorem imageTold_length (image : List Byte) : (imageTold image).length ≤ 22 := by
  have a := nodeTold_length image
  have b := contractTold_length .l0 (laneBytes image .l0)
  have c := contractTold_length .l1 (laneBytes image .l1)
  have d := contractTold_length .l2 (laneBytes image .l2)
  simp only [imageTold, List.length_append]
  omega

/-- An image that passes the checks gives a node number of 0 to 7 (R21). -/
theorem node_of_good {image : List Byte} (good : imageReason image = none) : byteAt image 6 < 8 := by
  unfold imageReason at good
  split_ifs at good with _ _ _ far
  exact Nat.lt_succ_of_le (Nat.not_lt.mp far)

/-- The entry to JOINING from CONFIG: the listen period begins, every port hunts and NFAULT is released (R25, R26, R181). -/
theorem enterJoining_state (s : State) : enterJoining s = { s with
    mode := { s.mode with mode := .joining, listenCount := 0, cycleSource := none }
    trunk := s.trunk.release
    ports := Quad.const ⟨.hunt, []⟩
    events := { s.events with nfault := false } } := by
  have hunting (s : State) : forEach allLanes (fun i s => s.setPort i ⟨.hunt, []⟩) s =
      { s with ports := Quad.const ⟨.hunt, []⟩ } := by simp [forEach, allLanes, State.setPort, Quad.set, Quad.const]
  rw [enterJoining, hunting]
  rfl

/-- What a good image leaves: beside the events, the state of `State.withImage` in JOINING. -/
theorem finishLoad_good_state {image : List Byte} (good : imageReason image = none) (s : State) : ∃ events,
    (s.Room 22 → events.queue.map EventRecord.says = s.events.queue.map EventRecord.says ++
      (imageTold image).map (laneConfigSays (byteAt image 6))) ∧
    finishLoad image s = enterJoining ((((s.setPins s.inReset false).withImage image)).setEvents events) := by
  set read := (s.setPins s.inReset false).withImage image
  refine ⟨(tell (imageTold image) read).events, fun room => ?_, ?_⟩
  · have room : read.Room (imageTold image).length := Nat.le_trans (Nat.add_le_add_left (imageTold_length image) _) room
    have number : read.mode.node.val = byteAt image 6 := Nat.mod_eq_of_lt (node_of_good good)
    rw [← number]
    exact tell_posted room
  · rw [finishLoad_good good, ← tell_eq]

/-- Settles O7: the read ends in JOINING with the fields of `State.withImage`, and what was told of them on the way. -/
theorem goodImageJoins : Obligations.GoodImageJoins := by
  intro image s on loading config good event range told orDefault toldUnless0 rate graded base used ordered bad laneEvents
  have number : (Fin.ofNat 8 (byteAt image 6)).val = byteAt image 6 := Nat.mod_eq_of_lt (node_of_good good)
  obtain ⟨events, posted, read⟩ := finishLoad_good_state good s
  refine ⟨_, exec_configReadDone image on loading config, ?_⟩
  rw [read, enterJoining_state]
  refine ⟨rfl, rfl, number, rfl, rfl, rfl, rfl, rfl, rfl, rfl, rfl, rfl, rfl, fun l => ?_, fun room => ?_,
    fun i => Quad.get_const i _, rfl, rfl, rfl, rfl, rfl, rfl, rfl, rfl⟩
  · have taken : (((s.setPins s.inReset false).withImage image).contracts).get l = contractOf (laneBytes image l) := by
      cases l <;> rfl
    refine taken.trans ?_
    simp only [contractOf, ratesOrdered, laneBytes, name_slice, byteAt_slice, get16_slice, Nat.reduceAdd, Nat.reduceLT]
    refine if_congr ?_ rfl rfl
    simp only [bad, decide_eq_true_eq, or_assoc]
    rfl
  · refine (posted room).trans (congrArg _ ?_)
    have lane (l : Lane) : (contractTold l (laneBytes image l)).map (laneConfigSays (byteAt image 6)) = laneEvents l := by
      simp only [contractTold, ratesOrdered, laneBytes, byteAt_slice, get16_slice, Nat.reduceAdd, Nat.reduceLT,
        apply_ite (List.map _), List.map_append, map_clampTold]
      rfl
    simp only [imageTold, nodeTold, List.map_append, map_clampTold, map_defaultTold, apply_ite (List.map _), lane]
    rfl

end Sys2Proof.Machine
end

