-- ==== Sys2Proof/Proofs/ListenEnd.lean ====
section
/-! SUPPORT. The end of the listen period (R29): the mode and JOINED, and the lanes that are opened with it. -/

namespace Sys2Proof.Machine

/-! ### What leaves a lane's tenancy and Lane Unit alone -/

/-- From `s` to `t` lane `i`'s tenancy record and Lane Unit are as they were. -/
structure LaneStill (i : LaneId) (s t : State) : Prop where
  tenancy : t.tenancy.get i = s.tenancy.get i
  unit : t.units.get i = s.units.get i

namespace LaneStill

variable {i j : LaneId} {s t u : State}

/-- An operation that touches neither tenancies nor Lane Units. -/
theorem same (tenancy : t.tenancy = s.tenancy := by rfl) (units : t.units = s.units := by rfl) : LaneStill i s t :=
  ⟨by rw [tenancy], by rw [units]⟩

theorem refl (s : State) : LaneStill i s s := same

theorem trans (h : LaneStill i s t) (k : LaneStill i t u) : LaneStill i s u :=
  ⟨k.tenancy.trans h.tenancy, k.unit.trans h.unit⟩

theorem cond (c : Prop) [Decidable c] (h : LaneStill i s t) (k : LaneStill i s u) : LaneStill i s (if c then t else u) := by
  split
  · exact h
  · exact k

theorem forEach {α : Type} {f : α → State → State} (h : ∀ x s, LaneStill i s (f x s)) (xs : List α) (s : State) :
    LaneStill i s (forEach xs f s) := by
  induction xs generalizing s with
  | nil => exact refl s
  | cons x xs ih => exact (h x s).trans (ih (f x s))

theorem forLanes {f : Lane → State → State} (h : ∀ l s, LaneStill i s (f l s)) (s : State) :
    LaneStill i s (forLanes f s) :=
  (h _ _).trans ((h _ _).trans (h _ _))

theorem ofRelay (h : RelayStep s t) : LaneStill i s t := same (by rw [h.state]) (by rw [h.state])

theorem post (k : EventKind) (n : Nat) (l : Option LaneId) (a : Nat) (s : State) : LaneStill i s (post k n l a s) := same

theorem postSelf (k : EventKind) (l : Option LaneId) (a : Nat) (s : State) : LaneStill i s (postSelf k l a s) := same

theorem setAlerts (s : State) (x : AlertCtl) : LaneStill i s (s.setAlerts x) := same

theorem setObjects (s : State) (x : List Obj) : LaneStill i s (s.setObjects x) := same

/-! Alerts judged (R151) -/

theorem offerAlert (a : HeldAlert) (s : State) : LaneStill i s (offerAlert a s) := by
  unfold Machine.offerAlert
  split
  · exact same
  · exact cond _ same (refl s)

theorem switchLead (s : State) : LaneStill i s (switchLead s) := by
  unfold Machine.switchLead
  split
  · exact refl s
  · split
    · exact refl s
    · exact setAlerts ..

theorem scheduleCandidate (s : State) : LaneStill i s (scheduleCandidate s) := by
  unfold Machine.scheduleCandidate
  split
  · exact refl s
  · exact cond _ (setAlerts ..) (refl s)

theorem pruneScheduled (s : State) : LaneStill i s (pruneScheduled s) := setAlerts ..
theorem switchSaved (s : State) : LaneStill i s (switchSaved s) := setAlerts ..
theorem noteLeadEnds (s : State) : LaneStill i s (noteLeadEnds s) := setAlerts ..
theorem noteRedirect (s : State) : LaneStill i s (noteRedirect s) := setAlerts ..
theorem noteYields (s : State) : LaneStill i s (noteYields s) := setAlerts ..

theorem judgeAlerts (s : State) : LaneStill i s (judgeAlerts s) :=
  (pruneScheduled s).trans <| (switchLead _).trans <| (switchSaved _).trans <| (noteLeadEnds _).trans <|
    (scheduleCandidate _).trans (forEach offerAlert _ _)

theorem syncRelay (s : State) : LaneStill i s (syncRelay s) := by
  unfold Machine.syncRelay
  refine cond _ (refl s) ?_
  dsimp only
  split
  · exact (ofRelay (.pictureGap ..)).trans (setAlerts ..)
  · exact setAlerts ..

theorem judged (s : State) : LaneStill i s (judged s) :=
  (judgeAlerts s).trans ((noteRedirect _).trans ((noteYields _).trans (syncRelay _)))

/-! The Object Store and the return lines at a cycle boundary (R98, R135) -/

theorem expireObj (l : Lane) (id : Byte) (s : State) : LaneStill i s (expireObj l id s) := by
  unfold Machine.expireObj
  split
  · exact refl s
  · split
    · exact cond _ same same
    · exact refl s

theorem timeObj (l : Lane) (id : Byte) (s : State) : LaneStill i s (timeObj l id s) := by
  unfold Machine.timeObj
  split
  · exact refl s
  · exact cond _ (refl s) (cond _ same same)

theorem timeReserve (x : Ident) (s : State) : LaneStill i s (timeReserve x s) := by
  unfold Machine.timeReserve
  split
  · exact refl s
  · exact cond _ (refl s) (cond _ (setObjects ..) ((ofRelay (.discardReserve ..)).trans (postSelf ..)))

theorem storeBoundary (s : State) : LaneStill i s (storeBoundary s) :=
  (forLanes (fun _ _ => forEach (expireObj _) _ _) _).trans
    ((forLanes (fun _ _ => forEach (timeObj _) _ _) _).trans (forEach timeReserve _ _))

theorem statusRecords (s : State) : LaneStill i s (statusRecords s) := forLanes (fun _ _ => cond _ same (refl _)) s

theorem takeRelaySet (s : State) : LaneStill i s (takeRelaySet s) := by
  rw [takeRelaySet_eq]
  exact same

/-! Another lane's planning and opening (R58, R68) -/

theorem onTenancy (ne : i ≠ j) (f : Tenancy → Tenancy) (s : State) : LaneStill i s (onTenancy j f s) :=
  ⟨Quad.get_set_of_ne _ _ _ _ ne, rfl⟩

theorem onUnit (ne : i ≠ j) (f : LaneUnit → LaneUnit) (s : State) : LaneStill i s (onUnit j f s) :=
  ⟨rfl, Quad.get_set_of_ne _ _ _ _ ne⟩

theorem reportLane (ne : i ≠ j) (s : State) : LaneStill i s (reportLane j s) :=
  ⟨reportLane_tenancy_of_ne ne s, reportLane_unit_of_ne ne s⟩

theorem planAttempt (ne : i ≠ j) (s : State) : LaneStill i s (planAttempt j s) := by
  have claim (rank : Rank) (need : Nat) : LaneStill i s (makeClaim j rank need s) :=
    cond _ ((onTenancy ne _ _).trans ((onTenancy ne _ _).trans (reportLane ne _)))
      ((onTenancy ne _ _).trans (cond _ (refl _) (postSelf ..)))
  unfold Machine.planAttempt
  exact cond _ (cond _ ((onTenancy ne _ _).trans (reportLane ne _)) (refl s))
    (cond _ (refl s) (cond _ (cond _ ((onTenancy ne _ _).trans (cond _ (refl _) (postSelf ..))) (claim ..)) (refl s)))

theorem openService {l : Lane} (ne : i ≠ .svc l) (rate : Nat) (s : State) : LaneStill i s (openService l rate s) :=
  (onUnit ne _ _).trans ((postSelf ..).trans ((onTenancy ne _ _).trans (planAttempt ne _)))

end LaneStill

/-! ### A lane opened at the end of the listen period (R29) -/

/-- Lane `i` is OPENING, without cells, and wants `n` of them. -/
structure Unserved (i : LaneId) (n : Nat) (s : State) : Prop where
  opening : (s.units.get i).state = .opening
  bare : s.cells i = 0
  target : (s.tenancy.get i).target = n

namespace Unserved

variable {i : LaneId} {n : Nat} {s t : State}

theorem cond (c : Prop) [Decidable c] (h : Unserved i n s) (k : Unserved i n t) : Unserved i n (if c then s else t) := by
  split
  · exact h
  · exact k

theorem still (h : Unserved i n s) (k : LaneStill i s t) : Unserved i n t :=
  ⟨k.unit ▸ h.opening, by rw [State.cells, k.tenancy]; exact h.bare, k.tenancy ▸ h.target⟩

/-- A tenancy record that keeps fragments and target. -/
theorem onTenancy (h : Unserved i n s) (f : Tenancy → Tenancy)
    (fragments : ∀ t, (f t).fragments = t.fragments := by exact fun _ => rfl)
    (target : ∀ t, (f t).target = t.target := by exact fun _ => rfl) : Unserved i n (onTenancy i f s) := by
  refine ⟨h.opening, ?_, ?_⟩
  · have bare := h.bare
    simpa [State.cells, Tenancy.cells, Machine.onTenancy, fragments] using bare
  · simpa [Machine.onTenancy, target] using h.target

/-- A report leaves an OPENING lane OPENING until it has cells (R81). -/
theorem reportLane (h : Unserved i n s) : Unserved i n (reportLane i s) := by
  have tenancy := reportLane_tenancy i i s
  refine ⟨?_, ?_, ?_⟩
  · simp [reportLane_state, State.reportedState, h.opening, h.bare]
  · rw [State.cells, tenancy]; exact h.bare
  · rw [tenancy]; exact h.target

theorem defer (h : Unserved i n s) (d : Deferral) (a : Nat) : Unserved i n (defer i d a s) :=
  cond _ (h.onTenancy _) ((h.onTenancy _).still (.postSelf ..))

theorem makeClaim (h : Unserved i n s) (rank : Rank) (need : Nat) : Unserved i n (makeClaim i rank need s) :=
  cond _ ((h.onTenancy _).onTenancy _).reportLane (h.defer ..)

/-- A planning attempt plans a claim or puts it off: no cell is the lane's own before the claim is taken (R58, R72). -/
theorem planAttempt (h : Unserved i n s) : Unserved i n (planAttempt i s) := by
  have none : ¬ (s.tenancy.get i).target < (s.tenancy.get i).cells := by
    have bare : (s.tenancy.get i).cells = 0 := h.bare
    omega
  unfold Machine.planAttempt
  dsimp only
  rw [if_neg none]
  exact cond _ h (cond _ (cond _ (h.defer ..) (h.makeClaim ..)) h)

/-- A lane without cells that is opened at a rate wants the rate's cells (R57, R68). -/
theorem openService {l : Lane} (rate : Nat) (bare : s.cells (.svc l) = 0) :
    Unserved (.svc l) (cellsForRate rate (s.laneGrade (.svc l))) (openService l rate s) := by
  refine planAttempt ⟨setLaneState_state .., ?_, ?_⟩
  all_goals simp only [openUnplanned, setTargetRate, Machine.onTenancy, State.cells, State.setTenancy_tenancy, Quad.get_set_self]
  · exact bare
  · rfl

end Unserved

/-- The step of `autoOpenLanes` for one lane. -/
def autoOpenLane (l : Lane) (s : State) : State :=
  match s.contracts.get l with
  | some c => if c.autoOpen then laneOpenOp l c none s else s
  | none => s

theorem autoOpenLanes_eq (s : State) : autoOpenLanes s = forLanes autoOpenLane s := rfl

theorem autoOpenLane_block (l : Lane) (s : State) : BlockStep s (autoOpenLane l s) := by
  unfold autoOpenLane
  split
  · exact .cond _ (.laneOpenOp ..) (.refl s)
  · exact .refl s

/-- A lane opened leaves the others alone. -/
theorem autoOpenLane_other {i : LaneId} {l : Lane} (ne : i ≠ .svc l) (s : State) : LaneStill i s (autoOpenLane l s) := by
  have opened (c : Contract) : LaneStill i s (laneOpenOp l c none s) := by
    unfold laneOpenOp
    split
    · exact .cond _ (.openService ne ..) (.refl s)
    iterate 5 exact .refl s
  unfold autoOpenLane
  split
  · exact .cond _ (opened _) (.refl s)
  · exact .refl s

/-- What an operation of one lane after another does to lane `l` it does at `l`'s turn. -/
theorem forLanes_turn {f : Lane → State → State} (l : Lane) (block : ∀ k s, BlockStep s (f k s))
    (other : ∀ k s, k ≠ l → LaneStill (.svc l) s (f k s)) (s : State) :
    ∃ a, BlockStep s a ∧ LaneStill (.svc l) s a ∧ LaneStill (.svc l) (f l a) (forLanes f s) := by
  cases l with
  | l0 => exact ⟨s, .refl s, .refl s, (other _ _ (by decide)).trans (other _ _ (by decide))⟩
  | l1 => exact ⟨_, block .l0 s, other _ _ (by decide), other _ _ (by decide)⟩
  | l2 => exact ⟨_, (block .l0 s).trans (block .l1 _), (other _ _ (by decide)).trans (other _ _ (by decide)), .refl _⟩

/-- The lanes opened in ACTIVE (R29): a CLOSED lane without cells is opened at Rnom if its contract says so. -/
theorem autoOpenLanes_lane {s : State} {l : Lane} {c : Contract} (active : s.mode.mode = .active)
    (contract : s.contracts.get l = some c) (closed : (s.units.get (.svc l)).state = .closed) (bare : s.cells (.svc l) = 0) :
    if c.autoOpen then Unserved (.svc l) (cellsForRate c.rnom c.grade) (autoOpenLanes s)
    else ((autoOpenLanes s).units.get (.svc l)).state = .closed := by
  obtain ⟨a, block, before, after⟩ := forLanes_turn l autoOpenLane_block
    (fun k s ne => autoOpenLane_other (fun e => ne (LaneId.svc.inj e).symm) s) s
  have contract : a.contracts.get l = some c := by rw [block.contracts, contract]
  have closed : (a.units.get (.svc l)).state = .closed := by rw [before.unit, closed]
  have bare : a.cells (.svc l) = 0 := by rw [State.cells, before.tenancy]; exact bare
  have active : a.mode.mode = .active := by rw [block.mode, active]
  rw [autoOpenLanes_eq]
  cases opens : c.autoOpen with
  | false =>
    have same : autoOpenLane l a = a := by simp [autoOpenLane, contract, opens]
    rw [same] at after
    simpa [after.unit] using closed
  | true =>
    have same : autoOpenLane l a = openService l c.rnom a := by simp [autoOpenLane, contract, opens, laneOpenOp, closed, active]
    have grade : a.laneGrade (.svc l) = c.grade := by simp [State.laneGrade, contract]
    rw [same] at after
    exact grade ▸ (Unserved.openService c.rnom bare).still after

/-! ### The end of the listen period (R29) -/

/-- The mode that a request leads to at the end of the listen period. -/
def Request.joins (r : Request) : Mode := if r = .run then .active else .standby

/-- JOINED's argument (R29): 256 for STANDBY, and the cycle source, or 255. -/
def ModeCtl.joinedArg (m : ModeCtl) : Nat :=
  (if m.request = .run then 0 else 256) + match m.cycleSource with | some n => n.val | none => 255

/-- The node in the mode of its request, with JOINED posted and nothing else done. -/
def State.joined (s : State) : State := postSelf .joined none s.mode.joinedArg (setMode s.mode.request.joins s)

theorem setMode_joins (s : State) : setMode s.mode.request.joins s =
    { s with mode := { s.mode with mode := s.mode.request.joins }, events := { s.events with nfault := false } } := by
  unfold Request.joins
  cases s.mode.request <;> rfl

theorem joined_mode (s : State) : s.joined.mode = { s.mode with mode := s.mode.request.joins } := by
  rw [State.joined, setMode_joins]
  rfl

theorem joined_still (s : State) : StillStep s s.joined := (StillStep.setMode ..).trans (.ofBlock (.postSelf ..))

theorem joined_lane (i : LaneId) (s : State) : LaneStill i s s.joined := by
  rw [State.joined, setMode_joins]
  exact .same

theorem joined_queue {s : State} (room : s.Room 1) :
    s.joined.events.queue = s.events.queue ++ [eventRecord .joined s.mode.node.val none s.mode.joinedArg s] := by
  rw [State.joined, setMode_joins]
  show (post .joined _ none _ _).events.queue = _
  rw [post_queue (by exact room)]
  rfl

theorem endListening_eq (s : State) :
    endListening s = judged (if s.mode.request = .run then autoOpenLanes s.joined else s.joined) := by
  have entered := setMode_joins s
  unfold Request.joins at entered
  unfold endListening State.joined Request.joins
  simp only [beq_iff_eq]
  rw [entered]
  rfl

/-- All that follows JOINED at the end of the listen period. -/
theorem endListening_block (s : State) : BlockStep s.joined (endListening s) := by
  rw [endListening_eq]
  exact .trans (.cond _ (.autoOpenLanes _) (.refl _)) (.judged _)

/-- What the end of the listen period makes of a CLOSED lane without cells: in ACTIVE it is opened if its contract says so. -/
theorem endListening_lane {s : State} {l : Lane} {c : Contract} (contract : s.contracts.get l = some c)
    (closed : (s.units.get (.svc l)).state = .closed) (bare : s.cells (.svc l) = 0) :
    if s.mode.request = .run ∧ c.autoOpen = true then Unserved (.svc l) (cellsForRate c.rnom c.grade) (endListening s)
    else ((endListening s).units.get (.svc l)).state = .closed := by
  have still := joined_lane (.svc l) s
  have contracts : s.joined.contracts = s.contracts := ((NodeStep.setMode ..).trans (.ofBlock (.postSelf ..))).contracts
  have closed : (s.joined.units.get (.svc l)).state = .closed := by rw [still.unit, closed]
  have bare : s.joined.cells (.svc l) = 0 := by rw [State.cells, still.tenancy]; exact bare
  rw [endListening_eq]
  by_cases run : s.mode.request = .run
  · have active : s.joined.mode.mode = .active := by rw [joined_mode]; exact if_pos run
    have opened := autoOpenLanes_lane active (contracts ▸ contract) closed bare
    rw [if_pos run]
    cases opens : c.autoOpen with
    | true => simpa [run, opens] using (by simpa [opens] using opened : Unserved _ _ _).still (.judged _)
    | false => simpa [run, opens, (LaneStill.judged _).unit] using opened
  · simpa [run, (LaneStill.judged _).unit] using closed

/-! ### The boundary that ends the listen period -/

/-- The node at a cycle boundary while JOINING, once the frame's work is done and the listen count stepped. -/
def State.frameEnded (s : State) : State :=
  listenStep (frameWork s.pos (s.setTime (s.time.beginCycle s.comingCycle s.time.follows)))

/-- The same once the MODE lines are sampled, which the end of the listen period then finds (log 5). -/
def State.atListenEnd (s : State) (lines : ModeLines) : State :=
  s.frameEnded.setModeCtl { s.frameEnded.mode with request := sampled lines s.frameEnded.mode.request }

section

variable {s : State} (lines : ModeLines) (on : s.inReset = false) (joining : s.mode.mode = .joining)
  (due : 31 ≤ s.mode.listenCount)

include joining due in
theorem frameEnded_mode : s.frameEnded.mode = { s.mode with listenCount := 32 } := by
  have framed := frameWork_mode s.pos (s.setTime (s.time.beginCycle s.comingCycle s.time.follows))
  have full : min Config.listenFrames (s.mode.listenCount + 1) = 32 := by simp only [Config.listenFrames]; omega
  simp [State.frameEnded, listenStep, framed, joining, full]

include joining due in
theorem atListenEnd_mode : (s.atListenEnd lines).mode =
    { s.mode with request := sampled lines s.mode.request, listenCount := 32 } := by
  simp [State.atListenEnd, frameEnded_mode joining due]

theorem atListenEnd_still : StillStep (s.setTime (s.time.beginCycle s.comingCycle s.time.follows)) (s.atListenEnd lines) :=
  (StillStep.frameWork ..).trans ((StillStep.listenStep _).trans .same)

theorem atListenEnd_node : NodeStep s (s.atListenEnd lines) :=
  (NodeStep.setTime ..).trans <| (NodeStep.frameWork ..).trans <| (NodeStep.listenStep _).trans <|
    .setModeCtl _ _ rfl rfl id

include joining in
/-- Off the trunk no relay ends with the frame, and the frame's work leaves cells, Lane Units and events as they are. -/
theorem atListenEnd_lanes : SameCells s (s.atListenEnd lines) ∧ (s.atListenEnd lines).events = s.events := by
  set begun := s.setTime (s.time.beginCycle s.comingCycle s.time.follows) with hbegun
  have off : relayLeftover begun = begun :=
    relayLeftover_off (onTrunk_of_mode (by simp [hbegun, joining, Mode.onTrunk]))
  have cells := SameCells.frameWork s.pos begun
  have events := frameWork_events s.pos begun
  rw [off] at cells events
  have listened (t : State) : SameCells t (listenStep t) ∧ (listenStep t).events = t.events := by
    unfold listenStep
    split
    · exact ⟨⟨fun _ => rfl, fun _ => rfl, fun _ => rfl, fun _ => rfl, fun _ => rfl, rfl, rfl⟩, rfl⟩
    · exact ⟨.refl t, rfl⟩
  obtain ⟨same, posted⟩ := listened (frameWork s.pos begun)
  have all := cells.trans same
  exact ⟨⟨all.runs, all.change, all.state, all.fifo, all.split, all.alerts, all.store⟩, posted.trans events⟩

include on joining due in
/-- The cycle boundary that ends the listen period, with no slot left to cut. -/
theorem cycleBoundary_ends (idle : s.trunk.inProgress = false) : cycleBoundary lines s.time.follows s =
    takeRelaySet (statusRecords (storeBoundary (endListening (s.atListenEnd lines)))) := by
  have mode := frameEnded_mode joining due
  have live : s.frameEnded.live = true := by
    have still : s.frameEnded.inReset = false := ((NodeStep.frameWork ..).trans (.listenStep _)).inReset.trans on
    simp [State.live, still, mode, joining, Mode.takesRecords]
  have work : cycleWork lines s.frameEnded = statusRecords (storeBoundary (endListening (s.atListenEnd lines))) := by
    simp [cycleWork, live, sampleMode, mode, joining, Mode.takesRecords, Config.listenFrames, State.atListenEnd]
  rw [cycleBoundary, cutSlot_idle idle]
  exact congrArg takeRelaySet work

end

/-- The three commands that can bring the end of the listen period are the cycle boundary then (R6, R29; log 28). -/
theorem exec_listenEnd {c : Instr} {lines : ModeLines} {s : State}
    (cmd : c = .listenPeriodEnd lines ∨ c = .cycleBoundary lines ∨ c = .frameBoundary lines ∧ s.frameIndex = 15)
    (on : s.inReset = false) (lock : s.time.lock ≠ .unset) (joining : s.mode.mode = .joining) (due : 31 ≤ s.mode.listenCount) :
    exec c s = .next (cycleBoundary lines s.time.follows s) := by
  have counting := counting_of on lock
  rcases cmd with rfl | rfl | ⟨rfl, last⟩
  · exact congrArg Host.Outcome.next (if_pos (by simp [counting, joining, Config.listenFrames]; omega))
  · exact congrArg Host.Outcome.next (if_pos counting)
  · have cycle : frameBoundary lines s = cycleBoundary lines s.time.follows s := if_neg (by omega)
    exact congrArg Host.Outcome.next ((if_pos counting).trans cycle)

/-- Settles O15: JOINED is posted as the mode is entered, before the lanes are opened and the boundary's other work is done. -/
theorem listenPeriodEndsInMode : Obligations.ListenPeriodEndsInMode := by
  intro c lines s cmd on lock joining due idle asked source
  have run := exec_listenEnd cmd on lock joining due
  have moves : Instr.moves c = true := by rcases cmd with rfl | rfl | ⟨rfl, -⟩ <;> rfl
  have node := exec_moves moves run
  have ends := cycleBoundary_ends lines on joining due idle
  have time := cycleBoundary_time lines s.time.follows s
  rw [cutSlot_idle idle] at time
  have still := atListenEnd_still (s := s) lines
  have contracts := (atListenEnd_node (s := s) lines).contracts
  obtain ⟨cells, events⟩ := atListenEnd_lanes lines joining
  have mode := atListenEnd_mode lines joining due
  generalize s.atListenEnd lines = ended at *
  have rest : BlockStep ended.joined (statusRecords (storeBoundary (endListening ended))) :=
    (endListening_block ended).trans ((BlockStep.storeBoundary _).trans (.statusRecords _))
  refine ⟨_, run, ?_, ?_, fun room => ?_, fun l k contract closed bare _ => ?_, ?_,
    node.config, node.contracts, node.ports, node.pending⟩
  · rw [ends, takeRelaySet_mode, rest.mode, joined_mode, mode]
    rfl
  · rw [time]
    simp [State.comingCycle, lock, joining, due, Config.listenFrames, Timebase.beginCycle, Timebase.follows]
  · have queue := joined_queue (s := ended) (by rwa [State.Room, events])
    have first : ended.joined.events.queue <+: (cycleBoundary lines s.time.follows s).events.queue := by
      rw [ends, takeRelaySet_events]
      exact rest.queue
    have arg : ended.mode.joinedArg = (if asked = .run then 0 else 256) + source := by rw [mode]; rfl
    have posted : Posted s ended.joined [(.joined, s.mode.node.val, none, (if asked = .run then 0 else 256) + source)] := by
      simp [Posted, queue, events, eventRecord, EventRecord.says, ← arg, mode]
    refine ⟨.of_prefix posted first, eventRecord .joined ended.mode.node.val none ended.mode.joinedArg ended, ?_, ?_, ?_⟩
    · obtain ⟨more, all⟩ := first
      rw [← all, queue, events]
      simp
    · rw [time]
      exact congrArg Timebase.cycle still.time
    · show ended.time.localCount / Config.frameMicros = 0
      rw [still.time]
      exact Nat.zero_div _
  · have bare : ended.cells (.svc l) = 0 := by
      rw [State.cells, Tenancy.cells_eq, cells.runs, ← Tenancy.cells_eq]
      simp [Tenancy.cells, bare]
    have lane := endListening_lane (contracts ▸ contract) ((cells.state _).trans closed) bare
    have after (t : State) : LaneStill (.svc l) t (takeRelaySet (statusRecords (storeBoundary t))) :=
      (LaneStill.storeBoundary t).trans ((LaneStill.statusRecords _).trans (.takeRelaySet _))
    have request : ended.mode.request = asked := by rw [mode]; rfl
    rw [request] at lane
    rw [ends]
    by_cases opens : asked = .run ∧ k.autoOpen = true
    · rw [if_pos opens] at lane ⊢
      have opened := lane.still (after _)
      exact ⟨opened.opening, opened.target⟩
    · rw [if_neg opens] at lane ⊢
      rw [(after _).unit, lane]
  · rw [ends, takeRelaySet_eq, State.setTrunk_peers]
    exact rest.peers.trans ((joined_still ended).peers.trans still.peers)

end Sys2Proof.Machine
end

