-- ==== Sys2Proof/Proofs/Manifest.lean ====
section
/-! SUPPORT. The manifest's 108 bytes (R185): what each of its fields reads back as, that every manifest R35 to R37 allow is
judged valid when heard whole (R39), and what the outgoing manifest says of the node (R35 to R38). -/

namespace Sys2Proof.Machine

/-! ### Numbers in bytes (00_scope.md 6.6) -/

theorem toNat_byteOf (n : Nat) : (byteOf n).toNat = n % 256 := BitVec.toNat_ofNat ..

theorem byteAt_append_right (xs ys : List Byte) (i : Nat) : byteAt (xs ++ ys) (xs.length + i) = byteAt ys i := by
  simp [byteAt, List.getD_eq_getElem?_getD, List.getElem?_append_right]

theorem get16_append_right (xs ys : List Byte) (i : Nat) : get16 (xs ++ ys) (xs.length + i) = get16 ys i := by
  simp only [get16, Nat.add_assoc, byteAt_append_right]

theorem get24_append_right (xs ys : List Byte) (i : Nat) : get24 (xs ++ ys) (xs.length + i) = get24 ys i := by
  simp only [get24, get16, Nat.add_assoc, byteAt_append_right]

/-- The two bytes of a number spell it. -/
theorem put16_spells {n : Nat} (bound : n < 65536) : (byteOf (n / 256)).toNat * 256 + (byteOf n).toNat = n := by
  rw [toNat_byteOf, toNat_byteOf]
  omega

/-- The three bytes of two 12-bit numbers spell them (R185). -/
theorem put12x2_spells {a b : Nat} (first : a < 4096) (second : b < 4096) :
    let n := (a % 4096) * 4096 + b % 4096
    ((byteOf (n / 65536)).toNat * 256 + (byteOf (n / 256)).toNat) * 256 + (byteOf n).toNat = a * 4096 + b := by
  simp only [toNat_byteOf]
  omega

/-- The bytes that stand behind `i` others. -/
theorem slice_eq {bs pre xs : List Byte} {i n : Nat} (bytes : ∃ post, bs = pre ++ (xs ++ post)) (before : pre.length = i)
    (length : xs.length = n) : (bs.drop i).take n = xs := by
  obtain ⟨post, rfl⟩ := bytes
  subst before length
  simp

/-! ### Fragment lists (R36, R185) -/

/-- The three bytes of a place of a fragment list (R185). -/
def putRun : Option Run → List Byte
  | some r => put12x2 r.start r.len
  | none => [0, 0, 0]

theorem putRuns_eq (rs : List Run) :
    putRuns rs = putRun rs[0]? ++ putRun rs[1]? ++ putRun rs[2]? ++ putRun rs[3]? := by
  have places : putRuns rs = (List.range 4).flatMap (fun i => putRun rs[i]?) :=
    List.flatMap_congr fun i _ => by cases rs[i]? <;> rfl
  simp [places, List.range_succ]

theorem putRun_length (o : Option Run) : (putRun o).length = 3 := by cases o <;> rfl

theorem putRuns_length (rs : List Run) : (putRuns rs).length = 12 := by simp [putRuns_eq, putRun_length]

/-- Place `k` of a fragment list reads back the run put in it. -/
theorem get24_putRuns {rs : List Run} {k : Nat} {r : Run} (place : k < 4) (run : rs[k]? = some r)
    (start : r.start < 4096) (len : r.len < 4096) (rest : List Byte) :
    get24 (putRuns rs ++ rest) (3 * k) = r.start * 4096 + r.len := by
  have split : ∃ pre post, putRuns rs = pre ++ (put12x2 r.start r.len ++ post) ∧ pre.length = 3 * k := by
    rw [putRuns_eq]
    match k, place with
    | 0, _ => exact ⟨[], putRun rs[1]? ++ putRun rs[2]? ++ putRun rs[3]?, by simp [run, putRun], rfl⟩
    | 1, _ => exact ⟨putRun rs[0]?, putRun rs[2]? ++ putRun rs[3]?, by simp [run, putRun], by simp [putRun_length]⟩
    | 2, _ => exact ⟨putRun rs[0]? ++ putRun rs[1]?, putRun rs[3]?, by simp [run, putRun], by simp [putRun_length]⟩
    | 3, _ => exact ⟨putRun rs[0]? ++ putRun rs[1]? ++ putRun rs[2]?, [], by simp [run, putRun], by simp [putRun_length]⟩
  obtain ⟨pre, post, bytes, len'⟩ := split
  rw [bytes, ← len', List.append_assoc, List.append_assoc, ← Nat.add_zero pre.length, get24_append_right]
  exact put12x2_spells start len

/-- A fragment list of at most four runs in order reads back as it was (R36). -/
theorem getRuns_putRuns {rs : List Run} (four : rs.length ≤ 4) (good : runsGood rs = true) (pre rest : List Byte) :
    getRuns (pre ++ (putRuns rs ++ rest)) pre.length rs.length = rs := by
  refine List.ext_getElem (by simp [getRuns]) fun k inside inRs => ?_
  have proper := ((runsGood_iff rs).mp good).2 rs[k] (List.getElem_mem inRs)
  obtain ⟨start, len⟩ : rs[k].start < 4096 ∧ rs[k].len < 4096 := by
    simp only [Run.Proper, Config.cells] at proper
    omega
  have read := get24_putRuns (by omega) (List.getElem?_eq_getElem inRs) start len rest
  have start_eq : (rs[k].start * 4096 + rs[k].len) / 4096 = rs[k].start := by omega
  have len_eq : (rs[k].start * 4096 + rs[k].len) % 4096 = rs[k].len := by omega
  simp only [getRuns, List.getElem_map, List.getElem_range, get24_append_right, read, start_eq, len_eq]

/-! ### A sheet (R36, R185) -/

theorem laneOfCode_code (i : LaneId) : laneOfCode i.code = i := by
  rcases i with (_ | _ | _) | _ <;> rfl

theorem laneCode_lt (i : LaneId) : i.code < 4 := by
  rcases i with (_ | _ | _) | _ <;> decide

theorem LaneState.code_lt (x : LaneState) : x.code < 6 := by cases x <;> decide

theorem LaneState.ofCode_code (x : LaneState) : LaneState.ofCode x.code = some x := by cases x <;> rfl

theorem Rank.ofCode_code (r : Rank) : Rank.ofCode r.code = some r := by cases r <;> rfl

theorem Rank.code_lt (r : Rank) : r.code < 3 := by cases r <;> decide

theorem Sheet.bytes_length (s : Sheet) : s.bytes.length = 36 := by
  simp [Sheet.bytes, put16, putRuns_length]

/-- The runs of a sheet's pending change. -/
def Sheet.changeRuns (s : Sheet) : List Run := match s.change with | none => [] | some c => c.runs

/-- The fragment lists of a sheet stand behind eleven other bytes (R185). -/
theorem Sheet.bytes_eq (s : Sheet) : ∃ head : List Byte, head.length = 11 ∧
    s.bytes = head ++ (putRuns s.current ++ (putRuns s.changeRuns ++ [0])) := by
  refine ⟨_, ?_, by rw [Sheet.bytes, List.append_assoc, List.append_assoc]; rfl⟩
  rfl

/-- Bytes 7 and 8 of a sheet (R185): lengths, pending change and redirect origin. -/
def Sheet.flags (s : Sheet) : Nat := s.current.length
  + (match s.change with | none => 0 | some c => 8 + (if c.kind = .release then 16 else 0) + c.rank.code * 32)
  + if s.redirect.isSome then 128 else 0

theorem Sheet.byte0 (s : Sheet) : byteAt s.bytes 0 = s.lane.code + s.state.code * 16 := by
  have lane := laneCode_lt s.lane
  have state := s.state.code_lt
  show (byteOf _).toNat = _
  rw [toNat_byteOf]
  omega

/-- The lane of a sheet reads back as it was (R185). -/
theorem Sheet.lane_read (s : Sheet) : laneOfCode (byteAt s.bytes 0 % 4) = s.lane := by
  have lane := laneCode_lt s.lane
  rw [s.byte0, show (s.lane.code + s.state.code * 16) % 4 = s.lane.code by omega, laneOfCode_code]

namespace Sheet.Sendable

variable {s : Sheet} (h : s.Sendable)
include h

theorem changeRuns_length : s.changeRuns.length ≤ 4 := by
  unfold Sheet.changeRuns
  split
  · simp
  · rename_i c change
    exact (h.change c change).2.1

theorem current_read : getRuns s.bytes 11 s.current.length = s.current := by
  obtain ⟨head, len, bytes⟩ := s.bytes_eq
  obtain ⟨four, good⟩ := h.current
  rw [bytes, ← len, getRuns_putRuns four good]

theorem change_read {c : PendingChange} (change : s.change = some c) : getRuns s.bytes 23 c.runs.length = c.runs := by
  obtain ⟨head, len, bytes⟩ := s.bytes_eq
  obtain ⟨-, four, good⟩ := h.change c change
  have len : (head ++ putRuns s.current).length = 23 := by simp [len, putRuns_length]
  have runs : s.changeRuns = c.runs := by simp [Sheet.changeRuns, change]
  rw [bytes, runs, ← List.append_assoc, ← len, getRuns_putRuns four (by simp_all [changeGood])]

theorem byte1 : byteAt s.bytes 1 = (if s.laneClass = .yieldable then 128 else 0) + s.grade := by
  have grade := h.grade
  show (byteOf ((if s.laneClass == .yieldable then 128 else 0) + s.grade)).toNat = _
  rw [toNat_byteOf]
  cases s.laneClass <;> simp <;> omega

theorem byte7 : byteAt s.bytes 7 = s.flags := by
  have four := h.current.1
  have redirect : (if s.redirect.isSome then 128 else 0) ≤ 128 := by split <;> omega
  have change :
      (match s.change with | none => 0 | some c => 8 + (if c.kind = .release then 16 else 0) + c.rank.code * 32) ≤ 88 := by
    cases s.change with
    | none => simp
    | some c =>
      have rank := c.rank.code_lt
      have kind : (if c.kind = .release then 16 else 0) ≤ 16 := by split <;> omega
      simp only
      omega
  have byte : byteAt s.bytes 7 = s.flags % 256 := by
    rw [← toNat_byteOf]
    rcases s with ⟨_, _, _, _, _, _, _, _, _ | ⟨_ | _, _, _, _⟩, _⟩ <;> rfl
  rw [byte, Nat.mod_eq_of_lt]
  unfold Sheet.flags
  omega

theorem byte8 : byteAt s.bytes 8 = s.changeRuns.length + (match s.redirect with | none => 0 | some m => m.val * 16) := by
  have four := h.changeRuns_length
  have byte : byteAt s.bytes 8 =
      (s.changeRuns.length + (match s.redirect with | none => 0 | some m => m.val * 16)) % 256 := by
    rw [← toNat_byteOf]
    rcases s with ⟨_, _, _, _, _, _, _, _, _ | _, _⟩ <;> rfl
  rw [byte]
  cases s.redirect with
  | none => simp only; omega
  | some m => simp only; omega

end Sheet.Sendable

section

variable {s : Sheet} (four : s.current.length ≤ 4)
include four

/-- What byte 7 says of the lengths, the pending change and the redirect origin (R185). -/
theorem Sheet.flags_none (change : s.change = none) :
    s.flags % 8 = s.current.length ∧ s.flags / 8 % 2 = 0 ∧ (s.flags / 128 = 0 ↔ s.redirect = none) := by
  simp only [Sheet.flags, change]
  cases s.redirect <;> simp <;> omega

theorem Sheet.flags_some {c : PendingChange} (change : s.change = some c) :
    s.flags % 8 = s.current.length ∧ s.flags / 8 % 2 = 1 ∧ (s.flags / 128 = 0 ↔ s.redirect = none) ∧
      s.flags / 16 % 2 = (if c.kind = .release then 1 else 0) ∧ s.flags / 32 % 4 = c.rank.code := by
  have rank := c.rank.code_lt
  simp only [Sheet.flags, change]
  cases s.redirect <;> cases c.kind <;> simp <;> omega

end

/-- The redirect origin in the upper half of byte 8, where byte 7 marks one (R185). -/
theorem Sheet.Sendable.redirect_read {s : Sheet} (h : s.Sendable) (marked : s.flags / 128 = 0 ↔ s.redirect = none) :
    (if s.flags / 128 = 0 then none else some (Fin.ofNat 8 (byteAt s.bytes 8 / 16 % 8))) = s.redirect := by
  have four := h.changeRuns_length
  cases redirect : s.redirect with
  | none => exact if_pos (marked.mpr redirect)
  | some m =>
    have place : (s.changeRuns.length + m.val * 16) / 16 % 8 = m.val := by omega
    rw [if_neg (by simp [marked, redirect]), h.byte8, redirect, place]
    simp

/-- A sheet that R36 allows is judged good and reads back as it was (R39 check 5, R185, R189). -/
theorem parseSheet_bytes {s : Sheet} (h : s.Sendable) : parseSheet s.bytes = some s := by
  have lane := s.lane_read
  have state : LaneState.ofCode (byteAt s.bytes 0 / 16 % 8) = some s.state := by
    have lane := laneCode_lt s.lane
    have state := s.state.code_lt
    rw [s.byte0, show (s.lane.code + s.state.code * 16) / 16 % 8 = s.state.code by omega, LaneState.ofCode_code]
  obtain ⟨low, high⟩ := h.grade
  have grade : byteAt s.bytes 1 % 8 = s.grade := by
    rw [h.byte1]
    split <;> omega
  have laneClass : (if byteAt s.bytes 1 / 128 = 1 then LaneClass.yieldable else .kept) = s.laneClass := by
    rw [h.byte1]
    cases s.laneClass with
    | kept => exact if_neg (by simp; omega)
    | yieldable => exact if_pos (by simp; omega)
  have serviceId : get16 s.bytes 2 = s.serviceId.toNat := put16_spells s.serviceId.isLt
  have floor : byteAt s.bytes 4 = s.floor := (toNat_byteOf _).trans (Nat.mod_eq_of_lt h.floor)
  have annex : get16 s.bytes 5 = s.annex := put16_spells h.annex
  obtain ⟨four, good⟩ := h.current
  have current := h.current_read
  have graded : ¬ (s.grade = 0 ∨ 4 < s.grade ∨ 4 < s.current.length ∨ runsGood s.current = false) := by
    simp [good]
    omega
  unfold parseSheet
  cases change : s.change with
  | none =>
    obtain ⟨count, unmarked, marked⟩ := Sheet.flags_none four change
    simp only [h.byte7, count, state, grade, lane, laneClass, serviceId, floor, annex, current, h.redirect_read marked,
      unmarked, graded, if_false, if_true, Option.bind_eq_bind, Option.bind_some, BitVec.ofNat_toNat, BitVec.setWidth_eq]
    rw [← change]
  | some c =>
    obtain ⟨count, unmarked, marked, kind, rank⟩ := Sheet.flags_some four change
    obtain ⟨one, most, fits⟩ := h.change c change
    have places : byteAt s.bytes 8 % 8 = c.runs.length := by
      have runs : s.changeRuns = c.runs := by simp [Sheet.changeRuns, change]
      rw [h.byte8, runs]
      cases s.redirect <;> simp only <;> omega
    have effective : get16 s.bytes 9 = c.effective.toNat := by
      have bytes : get16 s.bytes 9 = (byteOf (c.effective.toNat / 256)).toNat * 256 + (byteOf c.effective.toNat).toNat := by
        rcases s with ⟨_, _, _, _, _, _, _, _, _ | _, _⟩ <;> cases change
        rfl
      exact bytes.trans (put16_spells (c.effective.isLt.trans (by decide)))
    have claimed : (if (if c.kind = .release then 1 else 0) = 0 then ChangeKind.claim else .release) = c.kind := by
      cases c.kind <;> rfl
    have changed : ¬ (c.runs.length = 0 ∨ 4 < c.runs.length ∨ changeGood s.current c = false) := by
      simp only [fits, Bool.true_eq_false, or_false]
      omega
    simp only [h.byte7, count, state, grade, lane, laneClass, serviceId, floor, annex, current, h.redirect_read marked,
      unmarked, graded, if_false, Option.bind_eq_bind, Option.bind_some, BitVec.ofNat_toNat, BitVec.setWidth_eq,
      kind, rank, Rank.ofCode_code, places, effective, h.change_read change, claimed, one_ne_zero, changed]
    rw [← change]

/-! ### A header (R35, R185) -/

/-- The eight bytes of a place of the own-alert list (R185). -/
def ownPlace : Option OwnEntry → List Byte
  | some e => e.bytes
  | none => List.replicate 8 0

theorem ownPlace_length (o : Option OwnEntry) : (ownPlace o).length = 8 := by cases o <;> rfl

theorem Role.ofCode_code (r : Role) : Role.ofCode r.code = some r := by cases r <;> rfl

theorem Role.code_lt (r : Role) : r.code < 3 := by cases r <;> decide

/-- The first seven bytes of a header, up to its own-alert list (R185). -/
def Header.head (h : Header) : List Byte :=
  byteOf h.node :: byteOf (modeCode h.mode * 16 + h.level) :: put16 (h.cycle.toNat * 16 + h.frame)
    ++ (match h.followed with | none => [0, 0, 0] | some (origin, i) => [byteOf origin, i.id, byteOf i.level])

theorem Header.head_length (h : Header) : h.head.length = 7 := by
  unfold Header.head
  cases h.followed <;> rfl

theorem Header.bytes_eq (h : Header) :
    h.bytes = h.head ++ (ownPlace h.own[0]? ++ (ownPlace h.own[1]? ++ (ownPlace h.own[2]? ++ [0]))) := by
  have places : h.bytes = h.head ++ (List.range 3).flatMap (fun i => ownPlace h.own[i]?) ++ [0] := by
    refine congrArg (· ++ [0]) (congrArg (h.head ++ ·) (List.flatMap_congr fun i _ => ?_))
    cases h.own[i]? <;> rfl
  simp [places, List.range_succ]

theorem Header.bytes_length (h : Header) : h.bytes.length = 32 := by
  simp [h.bytes_eq, h.head_length, ownPlace_length]

section

variable {e : OwnEntry}

/-- What byte 0 of an own-alert entry says (R185): level, role, and whether redirect and end cycle are given. -/
theorem OwnEntry.byte0 (high : e.ident.level ≤ 3) : byteAt e.bytes 0 % 4 = e.ident.level ∧
    byteAt e.bytes 0 / 4 % 4 = e.role.code ∧ byteAt e.bytes 0 / 16 % 2 = (if e.redirect.isSome then 1 else 0) ∧
      byteAt e.bytes 0 / 32 % 2 = (if e.endCycle.isSome then 1 else 0) := by
  have code := e.role.code_lt
  have byte : byteAt e.bytes 0 = e.ident.level + e.role.code * 4 + (if e.redirect.isSome then 16 else 0)
      + (if e.endCycle.isSome then 32 else 0) := by
    refine (toNat_byteOf _).trans (Nat.mod_eq_of_lt ?_)
    split <;> split <;> omega
  rw [byte]
  split <;> split <;> omega

/-- Entry and redirect cycle share three bytes of an own-alert entry (R185). -/
theorem OwnEntry.times (e : OwnEntry) :
    get24 e.bytes 3 = e.entry.toNat * 4096 + (match e.redirect with | none => 0 | some c => c.toNat) := by
  refine put12x2_spells (b := match e.redirect with | none => 0 | some c => c.toNat) e.entry.isLt ?_
  cases e.redirect with
  | none => decide
  | some c => exact c.isLt

theorem OwnEntry.entry_read (e : OwnEntry) : BitVec.ofNat 12 (get24 e.bytes 3 / 4096) = e.entry := by
  have entry : get24 e.bytes 3 / 4096 = e.entry.toNat := by
    rw [e.times]
    cases e.redirect with
    | none => simp
    | some c => simp only; omega
  simp [entry]

theorem OwnEntry.redirect_read (e : OwnEntry) :
    (if (if e.redirect.isSome then 1 else 0) = 0 then none else some (BitVec.ofNat 12 (get24 e.bytes 3 % 4096))) =
      e.redirect := by
  rw [e.times]
  cases e.redirect with
  | none => rfl
  | some c => simp [Nat.mod_eq_of_lt (show c.toNat < 4096 from c.isLt)]

theorem OwnEntry.endCycle_read (e : OwnEntry) :
    (if (if e.endCycle.isSome then 1 else 0) = 0 then none else some (BitVec.ofNat 12 (get16 e.bytes 6))) = e.endCycle := by
  have ending : get16 e.bytes 6 = (match e.endCycle with | none => 0 | some c => c.toNat) := by
    refine put16_spells ?_
    cases e.endCycle with
    | none => decide
    | some c => exact c.isLt.trans (by decide)
  rw [ending]
  cases e.endCycle with
  | none => rfl
  | some c => simp

end

/-- An own-alert entry of level 1 to 3 and yield 100 at most reads back as it was, and an unused place as none (R189). -/
theorem parseOwn_ownPlace {o : Option OwnEntry}
    (fits : ∀ e, o = some e → 1 ≤ e.ident.level ∧ e.ident.level ≤ 3 ∧ e.yield ≤ 100) : parseOwn (ownPlace o) = some o := by
  cases o with
  | none => rfl
  | some e =>
    obtain ⟨low, high, percent⟩ := fits e rfl
    obtain ⟨level, role, redirected, ended⟩ := OwnEntry.byte0 high
    have yield : byteAt e.bytes 2 = e.yield := (toNat_byteOf _).trans (Nat.mod_eq_of_lt (by omega))
    have id : e.bytes.getD 1 0 = e.ident.id := rfl
    have used : e.ident.level ≠ 0 := by omega
    show parseOwn e.bytes = _
    simp only [parseOwn, level, role, Role.ofCode_code, yield, id, redirected, ended, used, if_false, e.entry_read,
      e.redirect_read, e.endCycle_read, Option.bind_eq_bind, Option.bind_some, Nat.min_eq_right percent]

/-- An own-alert list that R35 allows is judged good and reads back as it was (R39 check 6, R189). -/
theorem parseOwnList_bytes {h : Header} (good : h.Sendable) {bs rest : List Byte} (bytes : bs = h.bytes ++ rest) :
    parseOwnList bs = some h.own := by
  obtain ⟨three, distinct⟩ := good.own
  have read (i : Nat) : parseOwn (ownPlace h.own[i]?) = some h.own[i]? :=
    parseOwn_ownPlace fun e mem => good.entries e (List.mem_of_getElem? mem)
  have first : (bs.drop 7).take 8 = ownPlace h.own[0]? :=
    slice_eq (pre := h.head) ⟨_, by simp only [bytes, h.bytes_eq, List.append_assoc]; rfl⟩ h.head_length (ownPlace_length _)
  have second : (bs.drop 15).take 8 = ownPlace h.own[1]? :=
    slice_eq (pre := h.head ++ ownPlace h.own[0]?) ⟨_, by simp only [bytes, h.bytes_eq, List.append_assoc]; rfl⟩
      (by simp [h.head_length, ownPlace_length]) (ownPlace_length _)
  have third : (bs.drop 23).take 8 = ownPlace h.own[2]? :=
    slice_eq (pre := h.head ++ ownPlace h.own[0]? ++ ownPlace h.own[1]?)
      ⟨_, by simp only [bytes, h.bytes_eq, List.append_assoc]; rfl⟩
      (by simp [h.head_length, ownPlace_length]) (ownPlace_length _)
  unfold parseOwnList
  simp only [first, second, third, read, Option.bind_eq_bind, Option.bind_some]
  match own : h.own, three with
  | [], _ => rfl
  | [a], _ => simp
  | [a, b], _ => simpa [own] using distinct
  | [a, b, c], _ => simpa [own, and_assoc] using distinct

/-! ### A manifest (R37, R39) -/

theorem modeCode_lt (m : Mode) : modeCode m < 3 := by cases m <;> decide

theorem manifestMode_code {m : Mode} (on : m.onTrunk = true) : manifestMode (modeCode m) = some m := by
  cases m <;> [cases on; cases on; rfl; rfl; rfl; cases on; cases on]

theorem Manifest.bytes_length (m : Manifest) : m.bytes.length = 108 := by
  simp [Manifest.bytes, Header.bytes_length, Sheet.bytes_length, put16]

/-- Bytes 4 to 6 tell of the followed alert, which is absent exactly at level 0 (R35, R39 check 6, R185). -/
theorem followed_read {m : Manifest} (good : m.Sendable) :
    ((byteAt m.bytes 6 == 0) != (m.header.level == 0)) = false ∧
      (if m.header.level = 0 then none else some (byteAt m.bytes 4, (⟨m.bytes.getD 5 0, byteAt m.bytes 6⟩ : Ident))) =
        m.header.followed := by
  have told := good.header.followed
  rcases m with ⟨⟨node, cycle, frame, mode, level, _ | ⟨origin, i⟩, own⟩, first, second⟩
  · obtain rfl : level = 0 := told
    have byte6 : byteAt (Manifest.bytes ⟨⟨node, cycle, frame, mode, 0, none, own⟩, first, second⟩) 6 = 0 := rfl
    simp [byte6]
  · obtain ⟨above, node_lt, low, high⟩ := told
    set bytes := Manifest.bytes ⟨⟨node, cycle, frame, mode, level, some (origin, i), own⟩, first, second⟩
    have byte4 : byteAt bytes 4 = origin := (toNat_byteOf _).trans (Nat.mod_eq_of_lt node_lt)
    have byte5 : bytes.getD 5 0 = i.id := rfl
    have byte6 : byteAt bytes 6 = i.level := (toNat_byteOf _).trans (Nat.mod_eq_of_lt high)
    have level0 : level ≠ 0 := above
    have ident0 : i.level ≠ 0 := by omega
    simp only [byte4, byte5, byte6, level0, if_false, and_true]
    simp [ident0, level0]

/-- Any manifest that R35 to R37 allow is judged valid when heard whole, and reads back as it was (R39). -/
theorem judgeManifest_bytes {m : Manifest} (good : m.Sendable) : judgeManifest m.bytes = some m := by
  set checked := m.header.bytes ++ m.first.bytes ++ m.second.bytes with hchecked
  have length : checked.length = 104 := by simp [hchecked, Header.bytes_length, Sheet.bytes_length]
  set pos := m.header.cycle.toNat * 16 + m.header.frame with hpos
  have bound : pos < 65536 := by
    have := m.header.cycle.isLt
    have := good.header.frame
    omega
  have bytes : m.bytes = checked ++ (put16 (crc16 checked).toNat ++ put16 pos) := by
    rw [Manifest.bytes, List.append_assoc]
  have covered : m.bytes.take 104 = checked := by rw [bytes, ← length, List.take_left]
  have check : get16 m.bytes 104 = (crc16 checked).toNat := by
    rw [bytes, ← length, ← Nat.add_zero checked.length, get16_append_right]
    exact put16_spells (crc16 checked).isLt
  have repeated : get16 m.bytes 106 = pos := by
    rw [bytes, show 106 = checked.length + 2 by omega, get16_append_right]
    exact put16_spells bound
  have position : get16 m.bytes 2 = pos := put16_spells bound
  have first : (m.bytes.drop 32).take 36 = m.first.bytes :=
    slice_eq (pre := m.header.bytes) ⟨_, by simp only [Manifest.bytes, List.append_assoc]; rfl⟩
      m.header.bytes_length m.first.bytes_length
  have second : (m.bytes.drop 68).take 36 = m.second.bytes :=
    slice_eq (pre := m.header.bytes ++ m.first.bytes) ⟨_, by simp only [Manifest.bytes, List.append_assoc]; rfl⟩
      (by simp [Header.bytes_length, Sheet.bytes_length]) m.second.bytes_length
  have firstLane : laneOfCode (byteAt m.bytes 32 % 4) = m.first.lane := by
    rw [← m.first.lane_read, ← first, byteAt_slice m.bytes 32 (by decide)]
  have secondLane : laneOfCode (byteAt m.bytes 68 % 4) = m.second.lane := by
    rw [← m.second.lane_read, ← second, byteAt_slice m.bytes 68 (by decide)]
  have own : parseOwnList m.bytes = some m.header.own :=
    parseOwnList_bytes good.header (rest := _) (by simp only [Manifest.bytes, List.append_assoc]; rfl)
  have code := modeCode_lt m.header.mode
  have low := good.header.level
  have byte1 : byteAt m.bytes 1 = modeCode m.header.mode * 16 + m.header.level :=
    (toNat_byteOf _).trans (Nat.mod_eq_of_lt (by omega))
  have mode : manifestMode (byteAt m.bytes 1 / 16) = some m.header.mode := by
    rw [byte1, ← manifestMode_code good.header.mode]
    congr 1
    omega
  have level : byteAt m.bytes 1 % 16 = m.header.level := by rw [byte1]; omega
  have node : byteAt m.bytes 0 = m.header.node := (toNat_byteOf _).trans (Nat.mod_eq_of_lt good.header.node)
  have frame : pos % 16 = m.header.frame := by have := good.header.frame; omega
  have cycle : BitVec.ofNat 12 (pos / 16) = m.header.cycle := by
    rw [show pos / 16 = m.header.cycle.toNat by have := good.header.frame; omega]
    simp
  have firstOf : m.first.lane = (sheetLanes m.header.frame).1 := congrArg Prod.fst good.lanes
  have secondOf : m.second.lane = (sheetLanes m.header.frame).2 := congrArg Prod.snd good.lanes
  unfold judgeManifest
  simp only [covered, check, repeated, position, mode, level, frame, firstLane, secondLane, firstOf, secondOf, first, second,
    own, parseSheet_bytes good.first, parseSheet_bytes good.second, node, cycle, Option.bind_eq_bind, Option.bind_some,
    ne_eq, not_true_eq_false, if_false, or_self, Nat.not_lt.mpr low]
  obtain ⟨marked, followed⟩ := followed_read good
  simp only [marked, followed, Bool.false_eq_true, if_false]

/-! ### The outgoing manifest (R35 to R38) -/

/-- The own-alert entries that the peers in view announce, the lowest peer's first (R54). -/
def State.heardEntries (s : State) : List OwnEntry :=
  ([0, 1, 2, 3, 4, 5, 6, 7] : List Node).flatMap (fun m =>
    let e := s.peers.get m
    if m ≠ s.mode.node ∧ (e.state = .present ∨ e.state = .silent ∨ e.state = .outOfStep) then
      match e.header with | some h => h.own | none => []
    else [])

theorem PeerEntry.counts_iff (e : PeerEntry) :
    e.counts = true ↔ e.state = .present ∨ e.state = .silent ∨ e.state = .outOfStep := by
  unfold PeerEntry.counts
  cases e.state <;> simp

/-- The announcements of one peer, with its number (R54). -/
def State.announcedOf (s : State) (m : Node) : List (Node × OwnEntry) :=
  if m ≠ s.mode.node ∧ (s.peers.get m).counts = true then
    match (s.peers.get m).header with | some h => h.own.map (fun o => (m, o)) | none => []
  else []

theorem peerAnnounced_eq (s : State) : s.peerAnnounced = allNodes.flatMap s.announcedOf := by
  refine List.flatMap_congr fun m _ => ?_
  unfold State.announcedOf State.node
  by_cases peer : m ≠ s.mode.node ∧ (s.peers.get m).counts = true
  · rw [if_pos peer]
    simp only [peer.1, peer.2, decide_true, ne_eq, not_false_eq_true, Bool.and_self]
    cases (s.peers.get m).header <;> simp only
  · rw [if_neg peer]
    have off : (decide (m ≠ s.mode.node) && (s.peers.get m).counts) = false := by simpa using peer
    simp only [off]

theorem heardEntries_eq (s : State) : s.heardEntries = s.peerAnnounced.map (fun x => x.2) := by
  rw [peerAnnounced_eq, List.map_flatMap]
  refine List.flatMap_congr fun m _ => ?_
  simp only [State.announcedOf, PeerEntry.counts_iff]
  split
  · cases (s.peers.get m).header <;> simp [Function.comp_def]
  · rfl

theorem heardEntries_find (s : State) (i : Ident) (r : Role) :
    s.heardEntries.find? (fun e => e.ident == i && e.role == r) = (s.peerEntryOf i r).map (fun x => x.2) := by
  rw [heardEntries_eq, List.find?_map]
  rfl

theorem heardEntries_copySource (s : State) (i : Ident) :
    (s.heardEntries.find? (fun e => e.ident == i && e.role == .lead)).or
      (s.heardEntries.find? (fun e => e.ident == i && e.role == .shadow)) = s.copySource i := by
  rw [heardEntries_find, heardEntries_find, State.copySource]
  cases s.peerEntryOf i .lead <;> rfl

@[simp] theorem announce_ident (s : State) (o : OwnAlert) : (s.announce o).ident = o.ident := by
  unfold State.announce
  cases o.role with
  | shadow => cases s.copySource o.ident <;> rfl
  | lead | held => rfl

@[simp] theorem announce_role (s : State) (o : OwnAlert) : (s.announce o).role = o.role := by
  unfold State.announce
  cases role : o.role with
  | shadow => cases s.copySource o.ident <;> simp [OwnAlert.heldAnnounce, role]
  | lead => rfl
  | held => exact role

theorem sheet_current (s : State) (i : LaneId) : (s.sheet i).current = (s.tenancy.get i).runs := by
  rcases i with l | _
  · simp only [State.sheet]
    cases s.contracts.get l <;> rfl
  · rfl

/-- Settles O26: the outgoing manifest is read off the state, and each of its fields stands at a place of its own. -/
theorem manifestsReadBack : Obligations.ManifestsReadBack := by
  refine ⟨fun s off => by simp [State.outgoing, off], fun s on => ?_,
    fun m good => ⟨m.bytes_length, judgeManifest_bytes good⟩⟩
  intro heard said entry sheet lanes
  have entry_eq : entry = s.announce := by
    funext o
    have source : (said o.ident .lead).or (said o.ident .shadow) = s.copySource o.ident := heardEntries_copySource s o.ident
    simp only [entry, source, State.announce, OwnAlert.heldAnnounce]
    cases o.role <;> cases s.copySource o.ident <;> simp only
  have sheet_eq : sheet = s.sheet := by
    funext i
    rcases i with l | _
    · simp only [sheet, State.sheet, State.laneGrade]
      cases s.contracts.get l <;> rfl
    · rfl
  have lanes_eq : lanes = sheetLanes s.frameIndex := rfl
  refine ⟨_, by rw [State.outgoing, if_pos on], ?_, fun sound => ?_, fun four => ?_, fun four => ?_⟩
  · rw [entry_eq]
    rfl
  · have ident (o : OwnAlert) : (s.announce o).ident = o.ident := announce_ident s o
    simpa [State.header, List.pairwise_map, ident] using sound.own
  · rw [sheet_eq, lanes_eq]
    exact Sheet.announced_of_le (by rw [sheet_current, Tenancy.runs, List.length_map]; exact four)
  · rw [sheet_eq, lanes_eq]
    exact Sheet.announced_of_le (by rw [sheet_current, Tenancy.runs, List.length_map]; exact four)

end Sys2Proof.Machine
end

