-- ==== Sys2Proof/Proofs/Voices.lean ====
section
/-! SUPPORT. The announcements that the Alert Controller reads, node by node in number order (R151). -/

namespace Sys2Proof.Machine

/-! ### The peer table -/

@[simp] theorem peers_get_set_self (v : Vector PeerEntry 8) (m : Node) (e : PeerEntry) : (v.set m e).get m = e :=
  Vector.getElem_set_self m.isLt

theorem peers_get_set_of_ne (v : Vector PeerEntry 8) {m n : Node} (ne : n ≠ m) (e : PeerEntry) :
    (v.set m e).get n = v.get n :=
  Vector.getElem_set_ne m.isLt n.isLt fun same => ne (Fin.ext same.symm)

/-! ### Announcements, node by node (R54, R151) -/

/-- What node `k` announces: the node's own alerts as they stand, or the own-alert list of a peer that counts (R54). -/
def State.voicesOf (s : State) (k : Node) : List (Node × OwnEntry) :=
  if k = s.mode.node then s.alerts.own.map (fun o => (s.mode.node, s.announce o)) else s.announcedOf k

theorem fst_of_mem_announcedOf {s : State} {k : Node} {y : Node × OwnEntry} (h : y ∈ s.announcedOf k) : y.1 = k := by
  unfold State.announcedOf at h
  split at h
  · cases header : (s.peers.get k).header with
    | none => simp [header] at h
    | some x =>
      simp only [header, List.mem_map] at h
      obtain ⟨o, -, rfl⟩ := h
      rfl
  · simp at h

theorem fst_of_mem_voicesOf {s : State} {k : Node} {y : Node × OwnEntry} (h : y ∈ s.voicesOf k) : y.1 = k := by
  unfold State.voicesOf at h
  split at h
  · rename_i own
    obtain ⟨o, -, rfl⟩ := List.mem_map.mp h
    exact own.symm
  · exact fst_of_mem_announcedOf h

/-- Announcements of one node each, of which those of some nodes are taken. -/
theorem filter_fst_flatMap {f : Node → List (Node × OwnEntry)} (own : ∀ k, ∀ y ∈ f k, y.1 = k) (p : Node → Bool)
    (ks : List Node) : (ks.flatMap f).filter (fun y => p y.1) = (ks.filter p).flatMap f := by
  induction ks with
  | nil => rfl
  | cons k ks ih =>
    rw [List.flatMap_cons, List.filter_append, ih, List.filter_cons]
    cases keep : p k with
    | true =>
      rw [List.filter_eq_self.mpr fun y mem => by rw [own k y mem, keep]]
      rfl
    | false =>
      rw [List.filter_eq_nil_iff.mpr fun y mem => by rw [own k y mem, keep]; decide]
      rfl

/-- What is announced on the trunk, the lowest node's first (R151). -/
theorem announced_eq (s : State) : s.announced = allNodes.flatMap s.voicesOf := by
  have nodes : ∀ n : Node, allNodes = allNodes.filter (fun k => decide (k < n)) ++ [n] ++
      allNodes.filter (fun k => decide (n < k)) := by
    decide
  have part (p : Node → Bool) (apart : p s.mode.node = false) :
      s.peerAnnounced.filter (fun y => p y.1) = (allNodes.filter p).flatMap s.voicesOf := by
    rw [peerAnnounced_eq, filter_fst_flatMap fun k y => fst_of_mem_announcedOf]
    refine List.flatMap_congr fun k mem => ?_
    have other : k ≠ s.mode.node := fun same => by
      rw [List.mem_filter, same, apart] at mem
      exact absurd mem.2 (by decide)
    exact (if_neg other).symm
  rw [nodes s.mode.node, List.flatMap_append, List.flatMap_append, ← part _ (by simp), ← part _ (by simp)]
  simp only [State.announced, State.voicesOf, State.node, List.flatMap_singleton, if_true]
  rfl

theorem mem_allNodes (k : Node) : k ∈ allNodes := by revert k; decide

theorem mem_announced {s : State} {y : Node × OwnEntry} : y ∈ s.announced ↔ y ∈ s.voicesOf y.1 := by
  rw [announced_eq, List.mem_flatMap]
  refine ⟨?_, fun mem => ⟨y.1, mem_allNodes _, mem⟩⟩
  rintro ⟨k, -, mem⟩
  exact fst_of_mem_voicesOf mem ▸ mem

/-- A peer in view announces the own-alert list of its last header (R54). -/
theorem voicesOf_peer {s : State} {m : Node} {h : Header} (peer : m ≠ s.mode.node) (counts : (s.peers.get m).counts = true)
    (header : (s.peers.get m).header = some h) : s.voicesOf m = h.own.map (fun o => (m, o)) := by
  simp [State.voicesOf, State.announcedOf, peer, counts, header]

theorem voicesOf_silent {s : State} {m : Node} (peer : m ≠ s.mode.node) (counts : (s.peers.get m).counts = false) :
    s.voicesOf m = [] := by
  simp [State.voicesOf, State.announcedOf, peer, counts]

end Sys2Proof.Machine
end

