-- ==== Sys2Proof/Proofs/Judging.lean ====
section
/-! SUPPORT. What the Alert Controller changes as it judges the announcements, list by list, and what it leaves alone
(R151, R157, R163). -/

namespace Sys2Proof.Machine

/-! ### What the Alert Controller touches while it judges -/

/-- The announcements are read off the peer table, the node number and the own alerts (R151). -/
theorem announced_congr {s t : State} (peers : t.peers = s.peers) (node : t.mode.node = s.mode.node)
    (own : t.alerts.own.map s.announce = s.alerts.own.map s.announce) : t.announced = s.announced := by
  have heard : t.peerAnnounced = s.peerAnnounced := by
    unfold State.peerAnnounced State.node
    rw [peers, node]
  have announce : t.announce = s.announce := by
    funext o
    unfold State.announce State.copySource State.peerEntryOf
    rw [heard]
  have voices : t.alerts.own.map (fun o => (t.mode.node, t.announce o)) =
      s.alerts.own.map (fun o => (s.mode.node, s.announce o)) := by
    simpa [announce, node, Function.comp_def] using congrArg (List.map (fun e => (s.mode.node, e))) own
  unfold State.announced State.node
  rw [heard, voices, node]

/-- From `s` to `t` the Alert Controller has taken note of what it hears: only its own state, the Object Store and the event
queue have changed, and no announcement and no role with them. -/
structure AlertStep (s t : State) : Prop where
  state : t = { s with alerts := t.alerts, store := t.store, events := t.events }
  announced : t.announced = s.announced
  roles : t.alerts.own.map (fun o => (o.ident, o.role)) = s.alerts.own.map (fun o => (o.ident, o.role))
  level : t.alerts.level = s.alerts.level

namespace AlertStep

variable {s t u : State}

theorem refl (s : State) : AlertStep s s := ⟨rfl, rfl, rfl, rfl⟩

theorem trans (h : AlertStep s t) (k : AlertStep t u) : AlertStep s u where
  state := k.state.trans
    (congrArg (fun x : State => { x with alerts := u.alerts, store := u.store, events := u.events }) h.state)
  announced := k.announced.trans h.announced
  roles := k.roles.trans h.roles
  level := k.level.trans h.level

theorem cond (c : Prop) [Decidable c] (h : AlertStep s t) (k : AlertStep s u) : AlertStep s (if c then t else u) := by
  split
  · exact h
  · exact k

theorem forEach {α : Type} {f : α → State → State} (h : ∀ x s, AlertStep s (f x s)) (xs : List α) (s : State) :
    AlertStep s (forEach xs f s) := by
  induction xs generalizing s with
  | nil => exact refl s
  | cons x xs ih => exact (h x s).trans (ih (f x s))

/-- An operation that leaves the own alerts and the level as they are. -/
theorem same (state : t = { s with alerts := t.alerts, store := t.store, events := t.events })
    (own : t.alerts.own = s.alerts.own) (level : t.alerts.level = s.alerts.level) : AlertStep s t where
  state := state
  announced := announced_congr (by rw [state]) (by rw [state]) (by rw [own])
  roles := by rw [own]
  level := level

theorem setAlerts (s : State) (x : AlertCtl) (own : x.own = s.alerts.own) (level : x.level = s.alerts.level) :
    AlertStep s (s.setAlerts x) := same rfl own level

theorem ofRelay (h : RelayStep s t) : AlertStep s t :=
  same (by rw [h.state]) (by rw [h.alerts]) h.level

theorem peers (h : AlertStep s t) : t.peers = s.peers := by rw [h.state]
theorem mode (h : AlertStep s t) : t.mode = s.mode := by rw [h.state]
theorem time (h : AlertStep s t) : t.time = s.time := by rw [h.state]
theorem node (h : AlertStep s t) : t.node = s.node := congrArg ModeCtl.node h.mode

/-! Queries of the announcements -/

theorem leadsOf (h : AlertStep s t) : t.leadsOf = s.leadsOf := by
  funext i
  rw [State.leadsOf, h.announced, State.leadsOf]

theorem otherLead (h : AlertStep s t) : t.otherLead = s.otherLead := by
  funext m i
  rw [State.otherLead, h.leadsOf, State.otherLead]

theorem activeAlerts (h : AlertStep s t) : t.activeAlerts = s.activeAlerts := by
  rw [State.activeAlerts, h.announced, State.activeAlerts]

theorem activeLead (h : AlertStep s t) : t.activeLead = s.activeLead := by
  funext i
  rw [State.activeLead, h.activeAlerts, State.activeLead]

theorem leadEntry (h : AlertStep s t) : t.leadEntry = s.leadEntry := by
  funext m i
  rw [State.leadEntry, h.announced, State.leadEntry]

theorem announcedBy (h : AlertStep s t) : t.announcedBy = s.announcedBy := by
  funext m i
  rw [State.announcedBy, h.announced, State.announcedBy]

theorem leadEnd (h : AlertStep s t) : t.leadEnd = s.leadEnd := by
  funext i n
  unfold State.leadEnd State.endBoundary
  rw [h.leadEntry, h.node, h.peers, h.time]

theorem timingOf (h : AlertStep s t) : t.timingOf = s.timingOf := by
  funext n c
  unfold State.timingOf
  rw [h.node, h.peers, h.time]

theorem yieldLast (h : AlertStep s t) : t.yieldLast = s.yieldLast := by
  funext n i y
  unfold State.yieldLast
  rw [h.leadEntry]

theorem nextLead (h : AlertStep s t) : t.nextLead = s.nextLead := by
  funext i n hold
  have roles (u : State) : u.alerts.own.any (fun o => o.ident == i && o.role != .lead) =
      (u.alerts.own.map (fun o => (o.ident, o.role))).any (fun p => p.1 == i && p.2 != .lead) := by
    rw [List.any_map]
    rfl
  unfold State.nextLead State.leadLost
  rw [roles, roles, h.roles, h.node, h.leadsOf]

/-! The operations -/

/-- A change of own alerts that no announcement and no role shows. -/
theorem updateOwn (i : Ident) (f : OwnAlert → OwnAlert) (s : State) (announce : ∀ o, s.announce (f o) = s.announce o)
    (ident : ∀ o, (f o).ident = o.ident) (role : ∀ o, (f o).role = o.role) : AlertStep s (s.updateOwn i f) where
  state := rfl
  announced := by
    refine announced_congr rfl rfl ?_
    simp only [State.updateOwn, State.setAlerts_alerts, List.map_map]
    refine List.map_congr_left fun o _ => ?_
    by_cases hit : o.ident = i <;> simp [hit, announce]
  roles := by
    simp only [State.updateOwn, State.setAlerts_alerts, List.map_map]
    refine List.map_congr_left fun o _ => ?_
    by_cases hit : o.ident = i <;> simp [hit, ident, role]
  level := rfl

/-- A SHADOW's copies are not what it announces: it announces the lead's entry as heard (R150). -/
theorem copyShadow (i : Ident) (s : State) : AlertStep s (copyShadow i s) := by
  unfold Machine.copyShadow
  split
  · refine updateOwn _ _ _ (fun o => ?_) (fun o => ?_) (fun o => ?_)
    · by_cases shadow : o.role = .shadow
      · simp only [shadow, if_true, State.announce, OwnAlert.heldAnnounce]
      · simp only [shadow, if_false]
    · split <;> rfl
    · split <;> rfl
  · exact refl s

theorem copyShadows (s : State) : AlertStep s (copyShadows s) := forEach copyShadow _ _

theorem noteEnd (i : Ident) (n : Node) (b : Cycle) (s : State) : AlertStep s (noteEnd i n b s) := setAlerts _ _ rfl rfl

theorem unschedule (i : Ident) (n : Node) (s : State) : AlertStep s (unschedule i n s) := setAlerts _ _ rfl rfl

theorem loseLead (m : Node) (i : Ident) (s : State) : AlertStep s (loseLead m i s) := setAlerts _ _ rfl rfl

theorem headerFor (m : Node) (h : Header) (i : Ident) (s : State) : AlertStep s (headerFor m h i s) := by
  unfold Machine.headerFor
  split
  · exact (unschedule ..).trans (noteEnd ..)
  · split
    · split
      · exact (unschedule ..).trans (noteEnd ..)
      · exact refl s
    · exact loseLead ..
    · exact loseLead ..

theorem pruneScheduled (s : State) : AlertStep s (pruneScheduled s) := setAlerts _ _ rfl rfl

theorem switchLead (s : State) : AlertStep s (switchLead s) := by
  unfold Machine.switchLead
  split
  · exact refl s
  · split
    · exact refl s
    · exact setAlerts _ _ rfl rfl

theorem switchSaved (s : State) : AlertStep s (switchSaved s) := setAlerts _ _ rfl rfl

theorem noteLeadEnds (s : State) : AlertStep s (noteLeadEnds s) := setAlerts _ _ rfl rfl

theorem scheduleCandidate (s : State) : AlertStep s (scheduleCandidate s) := by
  unfold Machine.scheduleCandidate
  split
  · exact refl s
  · exact cond _ (setAlerts _ _ rfl rfl) (refl s)

theorem holdAlert (a : HeldAlert) (s : State) : AlertStep s (holdAlert a s) := same rfl rfl rfl

theorem offerAlert (a : HeldAlert) (s : State) : AlertStep s (offerAlert a s) := by
  unfold Machine.offerAlert
  split
  · exact holdAlert a s
  · exact cond _ (holdAlert a s) (refl s)

theorem judgeAlerts (s : State) : AlertStep s (judgeAlerts s) :=
  (pruneScheduled s).trans <| (switchLead _).trans <| (switchSaved _).trans <| (noteLeadEnds _).trans <|
    (scheduleCandidate _).trans (forEach offerAlert _ _)

theorem noteRedirect (s : State) : AlertStep s (noteRedirect s) := setAlerts _ _ rfl rfl

theorem noteYields (s : State) : AlertStep s (noteYields s) := setAlerts _ _ rfl rfl

theorem syncRelay (s : State) : AlertStep s (syncRelay s) := by
  unfold Machine.syncRelay
  refine cond _ (refl s) ?_
  dsimp only
  split
  · exact (ofRelay (.pictureGap ..)).trans (setAlerts _ _ rfl rfl)
  · exact setAlerts _ _ rfl rfl

theorem judged (s : State) : AlertStep s (judged s) :=
  (judgeAlerts s).trans ((noteRedirect _).trans ((noteYields _).trans (syncRelay _)))

end AlertStep

/-! ### Judging, list by list (R151, R157, R163) -/

/-- The followed alert with the lead that judging gives it (R151, R163). -/
def State.relead (s : State) (f : Followed) : Followed :=
  match (s.activeLead f.ident).or (s.nextLead f.ident f.lead f.hold) with
  | none => f
  | some l => { f with lead := l, hold := none }

/-- A saved context with the lead that judging gives its alert (R163). -/
def State.resave (s : State) (c : Context) : Context :=
  match c.followed with
  | some f =>
    match s.nextLead f.ident f.lead f.hold with
    | some l => { c with followed := some { f with lead := l, hold := none } }
    | none => c
  | none => c

/-- A pending alert with the lead that judging gives it (R157, R163). -/
def State.repend (s : State) (x : HeldAlert) : HeldAlert :=
  match s.nextLead x.ident x.lead none with
  | some l => { x with lead := l }
  | none => x

/-- The scheduled entries whose alert is active, each with its lowest lead (R151). -/
def State.keptScheduled (s : State) : List Scheduled :=
  s.alerts.scheduled.filterMap (fun x => (s.activeLead x.ident).map (fun l => { x with lead := l }))

/-- The node with every alert it holds given its lead, the ends announced noted, and nothing scheduled or offered yet. -/
def State.releaded (s : State) : State := noteLeadEnds (switchSaved (switchLead (pruneScheduled s)))

theorem releaded_step (s : State) : AlertStep s s.releaded :=
  (AlertStep.pruneScheduled s).trans ((AlertStep.switchLead _).trans ((AlertStep.switchSaved _).trans (.noteLeadEnds _)))

theorem switchLead_alerts (s : State) :
    (switchLead s).alerts = { s.alerts with followed := s.alerts.followed.map s.relead } := by
  unfold switchLead
  cases followed : s.alerts.followed with
  | none =>
    show s.alerts = { s.alerts with followed := none }
    rw [← followed]
  | some f =>
    simp only [Option.map_some, State.relead]
    cases (s.activeLead f.ident).or (s.nextLead f.ident f.lead f.hold) with
    | none =>
      show s.alerts = { s.alerts with followed := some f }
      rw [← followed]
    | some l => rfl

theorem releaded_alerts (s : State) : s.releaded.alerts = { s.alerts with
    scheduled := s.keptScheduled, followed := s.alerts.followed.map s.relead, stack := s.alerts.stack.map s.resave
    pendingAlerts := s.alerts.pendingAlerts.map s.repend, ends := s.releaded.alerts.ends } := by
  have pruned := AlertStep.pruneScheduled s
  have led := pruned.trans (.switchLead _)
  have relead : (pruneScheduled s).relead = s.relead := by
    funext f
    unfold State.relead
    rw [pruned.activeLead, pruned.nextLead]
  have resave : (switchLead (pruneScheduled s)).resave = s.resave := by
    funext c
    unfold State.resave
    rw [led.nextLead]
  have repend : (switchLead (pruneScheduled s)).repend = s.repend := by
    funext x
    unfold State.repend
    rw [led.nextLead]
  have lists : (switchSaved (switchLead (pruneScheduled s))).alerts = { (switchLead (pruneScheduled s)).alerts with
      stack := (switchLead (pruneScheduled s)).alerts.stack.map (switchLead (pruneScheduled s)).resave
      pendingAlerts := (switchLead (pruneScheduled s)).alerts.pendingAlerts.map (switchLead (pruneScheduled s)).repend } := rfl
  have ends : s.releaded.alerts = { (switchSaved (switchLead (pruneScheduled s))).alerts with
      ends := s.releaded.alerts.ends } := rfl
  rw [ends, lists, resave, repend, switchLead_alerts, relead]
  rfl

/-- Judging up to the candidate: the best active alert above the level is scheduled (R151). -/
def State.rescheduled (s : State) : State := scheduleCandidate s.releaded

theorem rescheduled_step (s : State) : AlertStep s s.rescheduled := (releaded_step s).trans (.scheduleCandidate _)

/-- The entry of an alert scheduled now (R151, R153). -/
def State.newEntry (s : State) (a : HeldAlert) : Scheduled :=
  let entry := match s.announcedBy a.lead a.ident with | some e => e.entry | none => s.time.cycle
  ⟨a.ident, a.lead, (s.timingOf a.lead entry).1, (s.timingOf a.lead entry).2, a.yield⟩

/-- The node follows the identity, or keeps it scheduled. -/
def State.keepsScheduled (s : State) (i : Ident) : Bool :=
  (match s.alerts.followed with | some f => f.ident == i | none => false) || s.keptScheduled.any (fun x => x.ident == i)

/-- The scheduled entries once the best active alert above the level that is not held is among them (R151). -/
def State.nextScheduled (s : State) : List Scheduled :=
  match bestAlert s.activeAlerts with
  | none => s.keptScheduled
  | some a =>
    if s.alerts.level < a.ident.level ∧ s.keepsScheduled a.ident = false then
      s.keptScheduled.filter (fun x => x.ident.level != a.ident.level) ++ [s.newEntry a]
    else s.keptScheduled

theorem releaded_follows (s : State) (i : Ident) : s.releaded.followsOrScheduled i = s.keepsScheduled i := by
  unfold State.followsOrScheduled State.keepsScheduled
  rw [releaded_alerts]
  cases s.alerts.followed with
  | none => rfl
  | some f =>
    have ident : (s.relead f).ident = f.ident := by
      unfold State.relead
      split <;> rfl
    simp [ident]

theorem rescheduled_alerts (s : State) : s.rescheduled.alerts = { s.releaded.alerts with scheduled := s.nextScheduled } := by
  have step := releaded_step s
  have scheduled : s.releaded.alerts.scheduled = s.keptScheduled := by rw [releaded_alerts]
  have entry (a : HeldAlert) : s.releaded.newEntry a = s.newEntry a := by
    unfold State.newEntry
    rw [step.announcedBy, step.timingOf, step.time]
  unfold State.rescheduled scheduleCandidate State.nextScheduled
  rw [step.activeAlerts]
  cases bestAlert s.activeAlerts with
  | none =>
    simp only
    rw [← scheduled]
  | some a =>
    simp only [releaded_follows]
    by_cases higher : s.releaded.alerts.level < a.ident.level ∧ s.keepsScheduled a.ident = false
    · rw [if_pos higher, if_pos (step.level ▸ higher), ← entry, ← scheduled]
      rfl
    · rw [if_neg higher, if_neg (step.level ▸ higher), ← scheduled]

/-- The pending list after an alert is offered to it (R157). -/
def offered (ps : List HeldAlert) (a : HeldAlert) : List HeldAlert :=
  match ps.find? (fun x => x.ident.level == a.ident.level) with
  | none => ps.filter (fun x => x.ident.level != a.ident.level) ++ [a]
  | some h => if a.lead < h.lead then ps.filter (fun x => x.ident.level != a.ident.level) ++ [a] else ps

theorem offerAlert_alerts (a : HeldAlert) (s : State) :
    (offerAlert a s).alerts = { s.alerts with pendingAlerts := offered s.alerts.pendingAlerts a } := by
  unfold offerAlert offered
  cases s.alerts.pendingAlerts.find? (fun x => x.ident.level == a.ident.level) with
  | none => rfl
  | some h =>
    simp only
    split <;> rfl

theorem offers_alerts (as : List HeldAlert) (s : State) : (forEach as offerAlert s).alerts =
    { s.alerts with pendingAlerts := as.foldl offered s.alerts.pendingAlerts } := by
  induction as generalizing s with
  | nil => rfl
  | cons a as ih =>
    show (forEach as offerAlert (offerAlert a s)).alerts = _
    rw [ih, offerAlert_alerts]
    rfl

/-- The relay source and its wanted alert touch the collectors alone (R160). -/
theorem syncRelay_alerts (s : State) : (syncRelay s).alerts = { s.alerts with
    relayTexts := (syncRelay s).alerts.relayTexts, captionCollector := (syncRelay s).alerts.captionCollector
    pictureCollector := (syncRelay s).alerts.pictureCollector, keptTexts := (syncRelay s).alerts.keptTexts
    relayKey := (syncRelay s).alerts.relayKey } := by
  unfold syncRelay
  dsimp only
  split
  · rfl
  · split
    · rename_i k _
      have gap := (RelayStep.pictureGap k.2 s).alerts
      generalize pictureGap k.2 s = t at gap ⊢
      rw [State.setAlerts_alerts, gap]
    · rfl

section

variable (s : State)

theorem judgeAlerts_alerts : (judgeAlerts s).alerts = { s.rescheduled.alerts with
    pendingAlerts := s.rescheduled.offers.foldl offered (s.alerts.pendingAlerts.map s.repend) } := by
  have pending : s.rescheduled.alerts.pendingAlerts = s.alerts.pendingAlerts.map s.repend := by
    rw [rescheduled_alerts, releaded_alerts]
  rw [← pending]
  exact offers_alerts s.rescheduled.offers s.rescheduled

/-- What the redirect, the yields and the relay make of the lists that judging leaves (R159, R160, R167). -/
theorem judged_lists : (judged s).alerts.followed = (judgeAlerts s).alerts.followed ∧
    (judged s).alerts.stack = (judgeAlerts s).alerts.stack ∧ (judged s).alerts.ends = (judgeAlerts s).alerts.ends ∧
    (judged s).alerts.scheduled =
      (judgeAlerts s).alerts.scheduled.map (fun x => { x with yield := s.yieldLast x.lead x.ident x.yield }) ∧
    (judged s).alerts.pendingAlerts =
      (judgeAlerts s).alerts.pendingAlerts.map (fun x => { x with yield := s.yieldLast x.lead x.ident x.yield }) := by
  have last : (noteRedirect (judgeAlerts s)).yieldLast = s.yieldLast :=
    ((AlertStep.judgeAlerts s).trans (.noteRedirect _)).yieldLast
  have yields (t : State) : (syncRelay (noteYields (noteRedirect t))).alerts.followed = t.alerts.followed ∧
      (syncRelay (noteYields (noteRedirect t))).alerts.stack = t.alerts.stack ∧
      (syncRelay (noteYields (noteRedirect t))).alerts.ends = t.alerts.ends ∧
      (syncRelay (noteYields (noteRedirect t))).alerts.scheduled = t.alerts.scheduled.map
        (fun x => { x with yield := (noteRedirect t).yieldLast x.lead x.ident x.yield }) ∧
      (syncRelay (noteYields (noteRedirect t))).alerts.pendingAlerts = t.alerts.pendingAlerts.map
        (fun x => { x with yield := (noteRedirect t).yieldLast x.lead x.ident x.yield }) := by
    rw [syncRelay_alerts]
    exact ⟨rfl, rfl, rfl, rfl, rfl⟩
  rw [← last, judged]
  exact yields (judgeAlerts s)

/-- The followed alert after judging (R151, R163). -/
theorem judged_followed : (judged s).alerts.followed = s.alerts.followed.map s.relead := by
  rw [(judged_lists s).1, judgeAlerts_alerts, rescheduled_alerts, releaded_alerts]

/-- The takeover stack after judging (R163). -/
theorem judged_stack : (judged s).alerts.stack = s.alerts.stack.map s.resave := by
  rw [(judged_lists s).2.1, judgeAlerts_alerts, rescheduled_alerts, releaded_alerts]

/-- The ends noted after judging (R155). -/
theorem judged_ends : (judged s).alerts.ends = s.releaded.alerts.ends := by
  rw [(judged_lists s).2.2.1, judgeAlerts_alerts, rescheduled_alerts]

/-- The scheduled entries after judging (R151, R167). -/
theorem judged_scheduled : (judged s).alerts.scheduled =
    s.nextScheduled.map (fun x => { x with yield := s.yieldLast x.lead x.ident x.yield }) := by
  rw [(judged_lists s).2.2.2.1, judgeAlerts_alerts, rescheduled_alerts]

/-- The pending list after judging (R157, R163, R167). -/
theorem judged_pending : (judged s).alerts.pendingAlerts =
    (s.rescheduled.offers.foldl offered (s.alerts.pendingAlerts.map s.repend)).map
      (fun x => { x with yield := s.yieldLast x.lead x.ident x.yield }) := by
  rw [(judged_lists s).2.2.2.2, judgeAlerts_alerts]

end

/-! ### The keep rule (R155) -/

theorem RelayStep.sweepIdents (before : List Ident) (s : State) : RelayStep s (sweepIdents before s) := by
  unfold Machine.sweepIdents forEach
  generalize before.filter (fun i => !s.holds i) = gone
  induction gone generalizing s with
  | nil => exact refl s
  | cons i gone ih => exact (((discardReserve i s).trans (dropKeptText ..)).trans (setTexts ..)).trans (ih _)

/-- What the keep rule sweeps away is no more than texts, collectors and reserve entries. -/
theorem keeping_relay (f : State → State) (s : State) : RelayStep (f s) (keeping f s) := .sweepIdents _ _

theorem AlertStep.keeping {f : State → State} (h : ∀ s, AlertStep s (f s)) (s : State) : AlertStep s (keeping f s) :=
  (h s).trans (.ofRelay (keeping_relay f s))

theorem syncRelay_keyed (s : State) : (syncRelay s).alerts.relayKey = (syncRelay s).relayKeyNow := by
  have step := AlertStep.syncRelay s
  have now : (syncRelay s).relayKeyNow = s.relayKeyNow := by
    have followed : (syncRelay s).alerts.followed = s.alerts.followed := by rw [syncRelay_alerts]
    have scheduled : (syncRelay s).alerts.scheduled = s.alerts.scheduled := by rw [syncRelay_alerts]
    unfold State.relayKeyNow
    rw [relaySource_congr scheduled followed (congrArg ModeCtl.node step.mode)]
    unfold State.wantedAlert
    rw [step.peers]
  rw [now]
  unfold syncRelay
  dsimp only
  split
  · rename_i same
    exact same.symm
  · rfl

/-- The one lead entry of highest level is the wanted alert (R160). -/
theorem topIdent_eq {es : List OwnEntry} {e : OwnEntry} (mem : e ∈ es)
    (top : ∀ y ∈ es, y = e ∨ y.ident.level < e.ident.level) : topIdent (es.map (fun y => y.ident)) = some e.ident := by
  have spec := topIdent_spec (es.map (fun y => y.ident))
  cases h : topIdent (es.map (fun y => y.ident)) with
  | none =>
    rw [h] at spec
    simp [List.map_eq_nil_iff.mp spec] at mem
  | some i =>
    rw [h] at spec
    obtain ⟨found, highest⟩ := spec
    obtain ⟨y, inEs, rfl⟩ := List.mem_map.mp found
    rcases top y inEs with same | lower
    · rw [same]
    · exact absurd (highest e.ident (List.mem_map_of_mem mem)) (Nat.not_le.mpr lower)

theorem relayKeyed_of {s : State} (key : s.alerts.relayKey = s.relayKeyNow) : s.RelayKeyed := by
  refine ⟨s.relaySource, relaySource_namesRelay s, ?_⟩
  rw [key, State.relayKeyNow]
  cases s.relaySource with
  | none => rfl
  | some n =>
    simp only [Option.bind_some, State.wantedAlert]
    cases (s.peers.get n).header with
    | none => exact ⟨fun _ => rfl, fun _ mem => absurd mem List.not_mem_nil⟩
    | some h =>
      refine ⟨fun none => ?_, fun e mem top => ?_⟩
      · simp only [none, List.map_nil, topIdent, Option.map_none]
      · simp only [topIdent_eq mem top, Option.map_some]

/-- The key stays as judging left it while the keep rule sweeps. -/
theorem RelayStep.relayKeyed {s t : State} (h : RelayStep s t) (key : s.alerts.relayKey = s.relayKeyNow) : t.RelayKeyed := by
  have step := AlertStep.ofRelay h
  refine relayKeyed_of ?_
  rw [h.relayKey, key, State.relayKeyNow, State.relayKeyNow,
    relaySource_congr h.scheduled h.followed (congrArg ModeCtl.node step.mode)]
  unfold State.wantedAlert
  rw [step.peers]

theorem judged_keyed (s : State) : (judged s).alerts.relayKey = (judged s).relayKeyNow := by
  unfold judged
  exact syncRelay_keyed _

end Sys2Proof.Machine
end

