-- ==== Sys2Proof/Proofs/LeadLoss.lean ====
section
/-! SUPPORT. Alerts whose lead is lost, one by one and once they are judged again (R157, R163). -/

namespace Sys2Proof.Machine

/-! ### Active alerts and leads (R151) -/

theorem mem_activeAlerts {s : State} {a : HeldAlert} : a ∈ s.activeAlerts ↔
    ∃ e : OwnEntry, (a.lead, e) ∈ s.announced ∧ e.role = .lead ∧ e.endCycle = none ∧ a = ⟨e.ident, a.lead, e.yield⟩ := by
  unfold State.activeAlerts
  constructor
  · intro h
    obtain ⟨⟨n, e⟩, mem, rfl⟩ := List.mem_map.mp h
    simp only [List.mem_filter, Bool.and_eq_true, beq_iff_eq, Option.isNone_iff_eq_none] at mem
    exact ⟨e, mem.1, mem.2.1, mem.2.2, rfl⟩
  · rintro ⟨e, mem, lead, open_, same⟩
    rw [same]
    exact List.mem_map.mpr ⟨(a.lead, e), List.mem_filter.mpr ⟨mem, by simp [lead, open_]⟩, rfl⟩

theorem mem_leadsOf {s : State} {i : Ident} {n : Node} :
    n ∈ s.leadsOf i ↔ ∃ e : OwnEntry, (n, e) ∈ s.announced ∧ e.role = .lead ∧ e.ident = i := by
  unfold State.leadsOf
  constructor
  · intro h
    obtain ⟨⟨k, e⟩, mem, rfl⟩ := List.mem_map.mp h
    simp only [List.mem_filter, Bool.and_eq_true, beq_iff_eq] at mem
    exact ⟨e, mem.1, mem.2.2, mem.2.1⟩
  · rintro ⟨e, mem, lead, rfl⟩
    exact List.mem_map.mpr ⟨(n, e), List.mem_filter.mpr ⟨mem, by simp [lead]⟩, rfl⟩

/-- Where no lead of an identity gives an end cycle, its lowest lead leads the active alert (R151). -/
theorem activeLead_eq_head {s : State} {i : Ident}
    (endless : ∀ y ∈ s.announced, y.2.role = .lead → y.2.ident = i → y.2.endCycle = none) :
    s.activeLead i = (s.leadsOf i).head? := by
  unfold State.activeLead State.activeAlerts State.leadsOf
  rw [List.find?_map, List.head?_map, List.head?_filter, Option.map_map, List.find?_filter]
  refine congrArg _ (List.find?_congr fun y mem => ?_)
  rw [Bool.eq_iff_iff]
  simp only [Bool.and_eq_true, beq_iff_eq, Option.isNone_iff_eq_none, Function.comp_apply, decide_eq_true_eq]
  exact ⟨fun h => ⟨h.2, h.1.1⟩, fun h => ⟨⟨h.2, endless y mem h.2 h.1⟩, h.1⟩⟩

theorem activeLead_isSome {s : State} {a : HeldAlert} (mem : a ∈ s.activeAlerts) : (s.activeLead a.ident).isSome = true := by
  unfold State.activeLead
  rw [Option.isSome_map, List.find?_isSome]
  exact ⟨a, mem, by simp⟩

theorem bestAlert_spec (as : List HeldAlert) : match bestAlert as with
    | some b => b ∈ as ∧ ∀ a ∈ as, a.ident.level ≤ b.ident.level
    | none => as = [] := by
  induction as with
  | nil => rfl
  | cons a rest ih =>
    unfold bestAlert
    revert ih
    cases bestAlert rest with
    | none => intro ih; subst ih; simp
    | some b =>
      intro ⟨mem, top⟩
      by_cases better : b.better a = true
      · have level : a.ident.level ≤ b.ident.level := by
          simp only [HeldAlert.better, Bool.or_eq_true, decide_eq_true_eq, Bool.and_eq_true, beq_iff_eq] at better
          omega
        dsimp only
        rw [if_pos better]
        exact ⟨List.mem_cons_of_mem _ mem, fun x hx => (List.mem_cons.mp hx).elim (fun e => e ▸ level) (top x)⟩
      · have level : b.ident.level ≤ a.ident.level := by
          simp only [HeldAlert.better, Bool.or_eq_true, decide_eq_true_eq, not_or] at better
          omega
        dsimp only
        rw [if_neg better]
        exact ⟨List.mem_cons_self, fun x hx =>
          (List.mem_cons.mp hx).elim (fun e => e ▸ le_rfl) (fun inRest => (top x inRest).trans level)⟩

theorem bestAlert_mem {as : List HeldAlert} {b : HeldAlert} (h : bestAlert as = some b) : b ∈ as := by
  have spec := bestAlert_spec as
  rw [h] at spec
  exact spec.1

/-- The lead that replaces a lost one, if any, is the lowest (R163). -/
theorem nextLead_cases (s : State) (i : Ident) (n : Node) (hold : Option Nat) :
    s.nextLead i n hold = none ∨ s.nextLead i n hold = (s.leadsOf i).head? := by
  unfold State.nextLead
  split
  · exact .inr rfl
  · exact .inl rfl

theorem nextLead_none {s : State} {i : Ident} (none : (s.leadsOf i).head? = none) (n : Node) (hold : Option Nat) :
    s.nextLead i n hold = .none := (nextLead_cases s i n hold).elim id (fun next => next.trans none)

/-! ### Other alerts are left alone -/

/-- Members of one key stand through a selection that leaves them alone and changes no key. -/
theorem mem_filterMap_of_kept {α β : Type} {key : α → β} {g : α → Option α} {b : β} (kept : ∀ z, key z = b → g z = some z)
    (keys : ∀ z w, g z = some w → key w = key z) {x : α} (same : key x = b) {xs : List α} :
    x ∈ xs.filterMap g ↔ x ∈ xs := by
  rw [List.mem_filterMap]
  constructor
  · rintro ⟨z, mem, made⟩
    have stays := kept z ((keys z x made).symm.trans same)
    rw [stays] at made
    exact Option.some.inj made ▸ mem
  · exact fun mem => ⟨x, mem, kept x same⟩

/-- From `s` to `t` what the node holds of alert `i` is as it was, whatever became of others. -/
structure Apart (i : Ident) (s t : State) : Prop where
  followed : ∀ f, s.alerts.followed = some f → f.ident = i → t.alerts.followed = some f
  depth : t.alerts.stack.length = s.alerts.stack.length
  saved : ∀ (n : Nat) c f, s.alerts.stack[n]? = some c → c.followed = some f → f.ident = i → t.alerts.stack[n]? = some c
  scheduled : ∀ x, x.ident = i → (x ∈ t.alerts.scheduled ↔ x ∈ s.alerts.scheduled)
  pending : ∀ x, x.ident = i → (x ∈ t.alerts.pendingAlerts ↔ x ∈ s.alerts.pendingAlerts)

namespace Apart

variable {i j : Ident} {s t u : State}

theorem refl (s : State) : Apart i s s := ⟨fun _ h _ => h, rfl, fun _ _ _ h _ _ => h, fun _ _ => .rfl, fun _ _ => .rfl⟩

theorem trans (h : Apart i s t) (k : Apart i t u) : Apart i s u where
  followed f mem ident := k.followed f (h.followed f mem ident) ident
  depth := k.depth.trans h.depth
  saved n c f mem same ident := k.saved n c f (h.saved n c f mem same ident) same ident
  scheduled x ident := (k.scheduled x ident).trans (h.scheduled x ident)
  pending x ident := (k.pending x ident).trans (h.pending x ident)

/-- Lists as they were. -/
theorem same (followed : t.alerts.followed = s.alerts.followed) (stack : t.alerts.stack = s.alerts.stack)
    (scheduled : t.alerts.scheduled = s.alerts.scheduled) (pending : t.alerts.pendingAlerts = s.alerts.pendingAlerts) :
    Apart i s t :=
  ⟨fun _ h _ => followed.trans h, by rw [stack], fun _ _ _ h _ _ => stack ▸ h, fun _ _ => by rw [scheduled],
    fun _ _ => by rw [pending]⟩

theorem noteEnd (n : Node) (b : Cycle) (s : State) : Apart i s (noteEnd j n b s) := same rfl rfl rfl rfl

theorem unschedule (ne : j ≠ i) (n : Node) (s : State) : Apart i s (unschedule j n s) := by
  refine ⟨fun _ h _ => h, rfl, fun _ _ _ h _ _ => h, fun x ident => ?_, fun _ _ => .rfl⟩
  have other : x.ident ≠ j := fun same => ne (same.symm.trans ident)
  simp [Machine.unschedule, other]

theorem loseLead (ne : j ≠ i) (m : Node) (s : State) : Apart i s (loseLead m j s) := by
  have other {k : Ident} (ident : k = i) : k ≠ j := fun same => ne (same.symm.trans ident)
  refine ⟨fun f mem ident => ?_, by simp [Machine.loseLead], fun n c f mem same ident => ?_, fun x ident => ?_,
    fun x ident => ?_⟩
  · simp [Machine.loseLead, mem, other ident]
  · have kept : { c with followed := some f } = c := by rw [← same]
    simp [Machine.loseLead, mem, same, other ident, kept]
  · refine mem_filterMap_of_kept (key := fun z : Scheduled => z.ident) (fun z same => ?_) (fun z w made => ?_) ident
    · simp [other same]
    · split at made
      · obtain ⟨l, -, rfl⟩ := Option.map_eq_some_iff.mp made
        rfl
      · exact congrArg _ (Option.some.inj made).symm
  · refine mem_filterMap_of_kept (key := fun z : HeldAlert => z.ident) (fun z same => ?_) (fun z w made => ?_) ident
    · simp [other same]
    · split at made
      · obtain ⟨l, -, rfl⟩ := Option.map_eq_some_iff.mp made
        rfl
      · exact congrArg _ (Option.some.inj made).symm

theorem headerFor (ne : j ≠ i) (m : Node) (h : Header) (s : State) : Apart i s (headerFor m h j s) := by
  unfold Machine.headerFor
  split
  · exact (unschedule ne m s).trans (noteEnd ..)
  · split
    · split
      · exact (unschedule ne m s).trans (noteEnd ..)
      · exact refl s
    · exact loseLead ne m s
    · exact loseLead ne m s

theorem forEach {f : Ident → State → State} {js : List Ident} (h : ∀ j ∈ js, ∀ s, Apart i s (f j s)) (s : State) :
    Apart i s (forEach js f s) := by
  induction js generalizing s with
  | nil => exact refl s
  | cons j js ih =>
    exact (h j List.mem_cons_self s).trans (ih (fun k mem => h k (List.mem_cons_of_mem _ mem)) (f j s))

end Apart

/-! ### The lead of one alert is lost (R157, R163) -/

/-- In the node's records `m` leads alert `i`: followed, saved and not ended, scheduled or pending. -/
def State.Leads (s : State) (m : Node) (i : Ident) : Prop :=
  (∃ f, s.alerts.followed = some f ∧ f.ident = i ∧ f.lead = m) ∨
    (∃ c ∈ s.alerts.stack, c.ended = false ∧ ∃ f, c.followed = some f ∧ f.ident = i ∧ f.lead = m) ∨
    (∃ x ∈ s.alerts.scheduled, x.ident = i ∧ x.lead = m) ∨ ∃ x ∈ s.alerts.pendingAlerts, x.ident = i ∧ x.lead = m

/-- From `s` to `u` alert `i` has lost its lead `m`, with `other` in its place where there is one. -/
structure Bereft (m : Node) (i : Ident) (other : Option Node) (s u : State) : Prop where
  followed : ∀ f, s.alerts.followed = some f → f.ident = i → f.lead = m → u.alerts.followed = some (f.lose other)
  depth : u.alerts.stack.length = s.alerts.stack.length
  saved : ∀ (n : Nat) c f, s.alerts.stack[n]? = some c → c.ended = false → c.followed = some f → f.ident = i → f.lead = m →
    u.alerts.stack[n]? = some { c with followed := some (f.lose other) }
  scheduled : ∀ x ∈ s.alerts.scheduled, x.ident = i → x.lead = m → ∀ k, other = some k →
    { x with lead := k } ∈ u.alerts.scheduled
  pending : ∀ x ∈ s.alerts.pendingAlerts, x.ident = i → x.lead = m → ∀ k, other = some k →
    { x with lead := k } ∈ u.alerts.pendingAlerts
  gone : other = none → ∀ x ∈ u.alerts.pendingAlerts, x.ident = i → x.lead ≠ m

namespace Bereft

variable {m : Node} {i : Ident} {other : Option Node} {s t u : State}

theorem lose_ident (f : Followed) (other : Option Node) : (f.lose other).ident = f.ident := by
  cases other <;> rfl

/-- What is left alone before the loss and after it makes no difference. -/
theorem apart {v : State} (before : Apart i s t) (h : Bereft m i other t u) (after : Apart i u v) : Bereft m i other s v where
  followed f mem ident lead :=
    after.followed _ (h.followed f (before.followed f mem ident) ident lead) ((lose_ident f other).trans ident)
  depth := after.depth.trans (h.depth.trans before.depth)
  saved n c f mem open_ same ident lead :=
    after.saved n _ _ (h.saved n c f (before.saved n c f mem same ident) open_ same ident lead) rfl
      ((lose_ident f other).trans ident)
  scheduled x mem ident lead k some :=
    (after.scheduled { x with lead := k } ident).mpr (h.scheduled x ((before.scheduled x ident).mpr mem) ident lead k some)
  pending x mem ident lead k some :=
    (after.pending { x with lead := k } ident).mpr (h.pending x ((before.pending x ident).mpr mem) ident lead k some)
  gone none x mem ident := h.gone none x ((after.pending x ident).mp mem) ident

theorem loseLead (m : Node) (i : Ident) (s : State) : Bereft m i (s.otherLead m i) s (loseLead m i s) where
  followed f mem ident lead := by simp [Machine.loseLead, mem, ident, lead]
  depth := by simp [Machine.loseLead]
  saved n c f mem open_ same ident lead := by simp [Machine.loseLead, mem, same, ident, lead, open_]
  scheduled x mem ident lead k some := by
    refine List.mem_filterMap.mpr ⟨x, mem, ?_⟩
    simp [ident, lead, some]
  pending x mem ident lead k some := by
    refine List.mem_filterMap.mpr ⟨x, mem, ?_⟩
    simp [ident, lead, some]
  gone none x mem ident lead := by
    obtain ⟨z, -, made⟩ := List.mem_filterMap.mp mem
    split at made
    · simp [none] at made
    · rename_i miss
      obtain rfl := Option.some.inj made
      exact miss (by simp [ident, lead])

/-- One report after another, the one of alert `i` among them if `m` leads it. -/
theorem forEach {f : Ident → State → State} {js : List Ident} (distinct : js.Nodup) (led : s.Leads m i → i ∈ js)
    (step : ∀ j s, AlertStep s (f j s)) (others : ∀ j, j ≠ i → ∀ s, Apart i s (f j s))
    (loses : ∀ u, AlertStep s u → f i u = Machine.loseLead m i u) : Bereft m i (s.otherLead m i) s (forEach js f s) := by
  by_cases mem : i ∈ js
  · obtain ⟨as, bs, rfl⟩ := List.append_of_mem mem
    have notAs : i ∉ as := fun inAs => (List.nodup_append.mp distinct).2.2 i inAs i List.mem_cons_self rfl
    have notBs : i ∉ bs := (List.nodup_cons.mp (List.nodup_append.mp distinct).2.1).1
    have aparts {ks : List Ident} (out : i ∉ ks) (u : State) : Apart i u (Machine.forEach ks f u) :=
      .forEach (fun j inKs => others j fun same => out (same ▸ inKs)) u
    have split : Machine.forEach (as ++ i :: bs) f s = Machine.forEach bs f (f i (Machine.forEach as f s)) := by
      simp [Machine.forEach]
    have before : AlertStep s (Machine.forEach as f s) := .forEach step as s
    have lost := Bereft.loseLead m i (Machine.forEach as f s)
    rw [before.otherLead] at lost
    rw [split, loses _ before]
    exact lost.apart (aparts notAs s) (aparts notBs _)
  · have apart : Apart i s (Machine.forEach js f s) := .forEach (fun j inJs => others j fun same => mem (same ▸ inJs)) s
    have free : ¬ s.Leads m i := fun leads => mem (led leads)
    exact {
      followed := fun f same ident lead => absurd (.inl ⟨f, same, ident, lead⟩) free
      depth := apart.depth
      saved := fun n c f at_ open_ same ident lead =>
        absurd (.inr (.inl ⟨c, List.mem_of_getElem? at_, open_, f, same, ident, lead⟩)) free
      scheduled := fun x inList ident lead => absurd (.inr (.inr (.inl ⟨x, inList, ident, lead⟩))) free
      pending := fun x inList ident lead => absurd (.inr (.inr (.inr ⟨x, inList, ident, lead⟩))) free
      gone := fun _ x inList ident lead =>
        free (.inr (.inr (.inr ⟨x, (apart.pending x ident).mp inList, ident, lead⟩))) }

end Bereft

/-! ### Judging after the loss (R151, R157, R163) -/

theorem mem_offers {s : State} {a : HeldAlert} (mem : a ∈ s.offers) :
    a ∈ s.activeAlerts ∧ s.activeLead a.ident = some a.lead := by
  simp only [State.offers, List.mem_filter, List.mem_flatMap, Bool.and_eq_true, beq_iff_eq] at mem
  obtain ⟨⟨_, -, active, -⟩, -, lead⟩ := mem
  exact ⟨active, lead⟩

/-- What an offer keeps of the pending list and what it may add, over a row of offers (R157). -/
theorem foldl_offered_induction {P : List HeldAlert → Prop} {as ps : List HeldAlert} (start : P ps)
    (step : ∀ a ∈ as, ∀ ps, P ps → P (offered ps a)) : P (as.foldl offered ps) := by
  induction as generalizing ps with
  | nil => exact start
  | cons a as ih => exact ih (step a List.mem_cons_self ps start) fun b mem => step b (List.mem_cons_of_mem _ mem)

/-- An offer leaves the list as it is, or puts the alert in its level's place (R157). -/
theorem offered_cases (ps : List HeldAlert) (a : HeldAlert) :
    offered ps a = ps ∨ offered ps a = ps.filter (fun x => x.ident.level != a.ident.level) ++ [a] := by
  unfold offered
  split
  · exact .inr rfl
  · split
    · exact .inr rfl
    · exact .inl rfl

theorem mem_nextScheduled {s : State} {x : Scheduled} (mem : x ∈ s.nextScheduled) :
    x ∈ s.keptScheduled ∨ ∃ a ∈ s.activeAlerts, x = s.newEntry a := by
  unfold State.nextScheduled at mem
  split at mem
  · exact .inl mem
  · rename_i a best
    split at mem
    · rcases List.mem_append.mp mem with kept | new
      · exact .inl (List.mem_of_mem_filter kept)
      · exact .inr ⟨a, bestAlert_mem best, List.mem_singleton.mp new⟩
    · exact .inl mem

/-- A scheduled entry of an active alert stays, where no other alert of its level is active (R151). -/
theorem mem_nextScheduled_of_kept {s : State} {x : Scheduled} (kept : x ∈ s.keptScheduled)
    (only : ∀ a ∈ s.activeAlerts, a.ident.level = x.ident.level → a.ident = x.ident) : x ∈ s.nextScheduled := by
  unfold State.nextScheduled
  split
  · exact kept
  · rename_i a best
    split
    · rename_i new
      refine List.mem_append_left _ (List.mem_filter.mpr ⟨kept, bne_iff_ne.mpr fun level => ?_⟩)
      have same := only a (bestAlert_mem best) level.symm
      have held : s.keepsScheduled a.ident = true := by
        simp only [State.keepsScheduled, Bool.or_eq_true, List.any_eq_true, beq_iff_eq]
        exact .inr ⟨x, kept, same.symm⟩
      rw [new.2] at held
      cases held
    · exact kept

theorem mem_keptScheduled {s : State} {x : Scheduled} : x ∈ s.keptScheduled ↔
    ∃ z ∈ s.alerts.scheduled, ∃ l, s.activeLead z.ident = some l ∧ x = { z with lead := l } := by
  simp only [State.keptScheduled, List.mem_filterMap, Option.map_eq_some_iff]
  exact ⟨fun ⟨z, mem, l, lead, made⟩ => ⟨z, mem, l, lead, made.symm⟩,
    fun ⟨z, mem, l, lead, made⟩ => ⟨z, mem, l, lead, made.symm⟩⟩

section

variable {m : Node} {i : Ident} {s u : State} (lost : Bereft m i (s.otherLead m i) s u)
  (lead : u.activeLead i = s.otherLead m i) (head : (u.leadsOf i).head? = s.otherLead m i)
  (only : ∀ a ∈ u.activeAlerts, a.ident.level = i.level → a.ident = i)
include lost lead head only

/-- Judging after the loss completes what R163 and R157 say of it. -/
theorem leadLost_judged (level : u.alerts.level = s.alerts.level) : LeadLost m i s (judged u) where
  level := ⟨(AlertStep.judged u).level.trans level, by rw [judged_stack, List.length_map, lost.depth]⟩
  followed f mem ident by_ := by
    rw [judged_followed, lost.followed f mem ident by_, Option.map_some]
    unfold State.relead
    rw [Bereft.lose_ident, ident, lead]
    cases other : s.otherLead m i with
    | some k => rfl
    | none =>
      rw [other] at head
      intro free
      simp [nextLead_none head, Followed.lose, free, ident]
  saved n c f at_ open_ mem ident by_ := by
    subst ident
    have resaved : u.resave { c with followed := some (f.lose (s.otherLead m f.ident)) } =
        { c with followed := some (f.lose (s.otherLead m f.ident)) } := by
      unfold State.resave
      simp only [Bereft.lose_ident]
      rcases nextLead_cases u f.ident (f.lose (s.otherLead m f.ident)).lead
        (f.lose (s.otherLead m f.ident)).hold with next | next
      · rw [next]
      · rw [next, head]
        cases s.otherLead m f.ident <;> rfl
    rw [judged_stack, List.getElem?_map, lost.saved n c f at_ open_ mem rfl by_, Option.map_some, resaved]
    cases s.otherLead m f.ident with
    | some k => rfl
    | none =>
      intro free
      simp [Followed.lose, free]
  scheduled x mem ident by_ := by
    rw [judged_scheduled]
    cases other : s.otherLead m i with
    | some k =>
      rw [other] at lead
      have there := lost.scheduled x mem ident by_ k other
      have kept : { x with lead := k } ∈ u.keptScheduled :=
        mem_keptScheduled.mpr ⟨_, there, k, by simpa [ident] using lead, rfl⟩
      have next := mem_nextScheduled_of_kept kept fun a active level => ident ▸ only a active (ident ▸ level)
      exact ⟨_, List.mem_map_of_mem next, ident, rfl, rfl, rfl⟩
    | none =>
      rw [other] at lead
      intro y there same
      obtain ⟨z, next, rfl⟩ := List.mem_map.mp there
      rcases mem_nextScheduled next with kept | ⟨a, active, rfl⟩
      · obtain ⟨w, -, l, found, rfl⟩ := mem_keptScheduled.mp kept
        rw [show w.ident = i from same, lead] at found
        cases found
      · have found := activeLead_isSome active
        rw [show a.ident = i from same, lead] at found
        cases found
  pending x mem ident by_ := by
    have step := rescheduled_step u
    have offer {a : HeldAlert} (inOffers : a ∈ u.rescheduled.offers) :
        a ∈ u.activeAlerts ∧ u.activeLead a.ident = some a.lead := by
      have spec := mem_offers inOffers
      rwa [step.activeAlerts, step.activeLead] at spec
    have repended (z : HeldAlert) : (u.repend z).ident = z.ident := by
      unfold State.repend
      split <;> rfl
    rw [judged_pending]
    cases other : s.otherLead m i with
    | some k =>
      rw [other] at lead head
      have there := lost.pending x mem ident by_ k other
      have found : ∃ y ∈ u.rescheduled.offers.foldl offered (u.alerts.pendingAlerts.map u.repend),
          y.ident = i ∧ y.lead = k := by
        refine foldl_offered_induction (P := fun ps => ∃ y ∈ ps, y.ident = i ∧ y.lead = k) ?_ fun a inOffers ps held => ?_
        · refine ⟨_, List.mem_map_of_mem there, (repended _).trans ident, ?_⟩
          unfold State.repend
          rcases nextLead_cases u x.ident k none with next | next
          · rw [next]
          · rw [next, ident, head]
        · obtain ⟨y, inPs, same, by_⟩ := held
          obtain ⟨active, leads⟩ := offer inOffers
          rcases offered_cases ps a with kept | put
          · exact ⟨y, by rwa [kept], same, by_⟩
          · rw [put]
            by_cases level : a.ident.level = i.level
            · have alike := only a active level
              rw [alike, lead] at leads
              exact ⟨a, by simp, alike, (Option.some.inj leads).symm⟩
            · refine ⟨y, List.mem_append_left _ (List.mem_filter.mpr ⟨inPs, ?_⟩), same, by_⟩
              rw [same]
              exact bne_iff_ne.mpr fun e => level e.symm
      obtain ⟨y, inList, same, by_⟩ := found
      exact ⟨_, List.mem_map_of_mem inList, same, by_⟩
    | none =>
      rw [other] at lead head
      have gone : ∀ y ∈ u.rescheduled.offers.foldl offered (u.alerts.pendingAlerts.map u.repend),
          y.ident = i → y.lead ≠ m := by
        refine foldl_offered_induction (P := fun ps => ∀ y ∈ ps, y.ident = i → y.lead ≠ m) ?_ fun a inOffers ps held => ?_
        · intro y inList same
          obtain ⟨z, inU, rfl⟩ := List.mem_map.mp inList
          have zident := (repended z).symm.trans same
          have still : u.repend z = z := by
            unfold State.repend
            rw [nextLead_none (zident ▸ head)]
          rw [still]
          exact lost.gone other z inU zident
        · rcases offered_cases ps a with kept | put
          · rwa [kept]
          · intro y inList same
            rw [put, List.mem_append, List.mem_singleton] at inList
            rcases inList with old | rfl
            · exact held y (List.mem_of_mem_filter old) same
            · obtain ⟨-, leads⟩ := offer inOffers
              rw [same, lead] at leads
              cases leads
      intro y there same
      obtain ⟨z, inList, rfl⟩ := List.mem_map.mp there
      exact gone z inList same

end

/-! ### A peer's entry replaced (R43, R46) -/

/-- The leads that other nodes than `m` announce. -/
def State.leadsBut (s : State) (m : Node) : List (Node × OwnEntry) :=
  s.announced.filter (fun y => y.1 != m && y.2.role == .lead)

/-- A change of one peer's entry changes no lead that another node announces. -/
theorem leadsBut_congr {s t : State} {m : Node} (others : ∀ k, k ≠ m → t.peers.get k = s.peers.get k)
    (node : t.mode.node = s.mode.node) (own : t.alerts.own = s.alerts.own) : t.leadsBut m = s.leadsBut m := by
  unfold State.leadsBut
  rw [announced_eq, announced_eq, List.filter_flatMap, List.filter_flatMap]
  refine List.flatMap_congr fun k _ => ?_
  by_cases self : k = m
  · have nothing (u : State) : (u.voicesOf k).filter (fun y => y.1 != m && y.2.role == .lead) = [] := by
      refine List.filter_eq_nil_iff.mpr fun y mem => ?_
      simp [fst_of_mem_voicesOf mem, self]
    rw [nothing, nothing]
  · unfold State.voicesOf
    by_cases mine : k = s.mode.node
    · rw [if_pos (node ▸ mine), if_pos mine, node, own, List.filter_map, List.filter_map]
      have picked (u : State) : (fun y : Node × OwnEntry => y.1 != m && y.2.role == .lead) ∘
          (fun o => (s.mode.node, u.announce o)) = fun o => s.mode.node != m && o.role == .lead := by
        funext o
        simp
      rw [picked, picked]
      refine List.map_congr_left fun o mem => ?_
      have lead : o.role = .lead := by
        have both := (List.mem_filter.mp mem).2
        rw [Bool.and_eq_true, beq_iff_eq] at both
        exact both.2
      simp [State.announce, lead]
    · rw [if_neg (node ▸ mine), if_neg mine]
      unfold State.announcedOf
      rw [others k self, node]

theorem otherLead_eq (s : State) (m : Node) (i : Ident) :
    s.otherLead m i = ((s.leadsBut m).find? (fun y => y.2.ident == i)).map (fun y => y.1) := by
  unfold State.otherLead State.leadsOf State.leadsBut
  rw [List.find?_map, List.find?_filter, List.find?_filter]
  refine congrArg _ (List.find?_congr fun y _ => ?_)
  rw [Bool.eq_iff_iff]
  simp only [Bool.and_eq_true, decide_eq_true_eq, Function.comp_apply]
  tauto

/-- Without a word of node `m` as lead, the lowest lead is the lowest of the others. -/
theorem head_leadsOf {s : State} {m : Node} {i : Ident}
    (none : ∀ y ∈ s.announced, y.1 = m → y.2.role = .lead → y.2.ident ≠ i) : (s.leadsOf i).head? = s.otherLead m i := by
  unfold State.otherLead State.leadsOf
  rw [List.find?_map, List.find?_filter, List.head?_map, List.head?_filter]
  refine congrArg _ (List.find?_congr fun y mem => ?_)
  rw [Bool.eq_iff_iff]
  simp only [Bool.and_eq_true, decide_eq_true_eq, Function.comp_apply, beq_iff_eq, bne_iff_ne]
  exact ⟨fun h => ⟨h, fun self => none y mem self h.2 h.1⟩, fun h => h.1⟩

theorem mem_leadsBut {s : State} {m : Node} {y : Node × OwnEntry} :
    y ∈ s.leadsBut m ↔ y ∈ s.announced ∧ y.1 ≠ m ∧ y.2.role = .lead := by
  simp [State.leadsBut]

/-- What is announced once a peer's entry is replaced, and the lists of what the node holds are as they were: the same leads
but the peer's own, and of alert `i` none of the peer's. -/
structure Unled (m : Node) (i : Ident) (s u : State) : Prop where
  others : u.leadsBut m = s.leadsBut m
  silent : ∀ y ∈ u.announced, y.1 = m → y.2.role = .lead → y.2.ident.level ≠ i.level

namespace Unled

variable {m : Node} {i : Ident} {s u : State} (h : Unled m i s u)
include h

theorem otherLead (j : Ident) : u.otherLead m j = s.otherLead m j := by rw [otherLead_eq, otherLead_eq, h.others]

theorem head : (u.leadsOf i).head? = s.otherLead m i := by
  rw [← h.otherLead]
  exact head_leadsOf fun y mem self lead same => h.silent y mem self lead (congrArg _ same)

theorem lead_of_mem {y : Node × OwnEntry} (mem : y ∈ u.announced) (lead : y.2.role = .lead)
    (level : y.2.ident.level = i.level) : y ∈ s.announced ∧ y.1 ≠ m := by
  have other : y.1 ≠ m := fun self => h.silent y mem self lead level
  have stays := mem_leadsBut.mpr ⟨mem, other, lead⟩
  rw [h.others] at stays
  exact ⟨(mem_leadsBut.mp stays).1, other⟩

variable (alone : ∀ y ∈ s.announced, y.1 ≠ m → y.2.role = .lead → y.2.ident.level = i.level →
  y.2.ident = i ∧ y.2.endCycle = none)
include alone

theorem activeLead : u.activeLead i = s.otherLead m i := by
  rw [← h.head]
  refine activeLead_eq_head fun y mem lead same => ?_
  obtain ⟨there, other⟩ := h.lead_of_mem mem lead (congrArg _ same)
  exact (alone y there other lead (congrArg _ same)).2

theorem only {a : HeldAlert} (mem : a ∈ u.activeAlerts) (level : a.ident.level = i.level) : a.ident = i := by
  obtain ⟨e, announced, lead, -, same⟩ := mem_activeAlerts.mp mem
  have ident : a.ident = e.ident := by rw [same]
  obtain ⟨there, other⟩ := h.lead_of_mem announced lead (ident ▸ level)
  exact ident.trans (alone _ there other lead (ident ▸ level)).1

end Unled

end Sys2Proof.Machine
end

