-- ==== Sys2Proof/Proofs/UnheardPeer.lean ====
section
/-! SUPPORT. Unheard reports: SILENT at the sixteenth, LOST at the forty-eighth with the alerts that the peer led (R45, R46,
R163), and when a directory slot makes one (R40). -/

namespace Sys2Proof.Machine

/-! ### The loss of a peer's alerts (R163) -/

theorem mem_ledBy {s : State} {m : Node} {i : Ident} (before : Option Header) (leads : s.Leads m i) : i ∈ s.ledBy m before := by
  unfold State.ledBy
  simp only [List.mem_dedup, List.mem_append, List.mem_filterMap, List.mem_map, List.mem_filter, beq_iff_eq]
  rcases leads with ⟨f, followed, ident, lead⟩ | ⟨c, mem, open_, f, followed, ident, lead⟩ | ⟨x, mem, ident, lead⟩ |
      ⟨x, mem, ident, lead⟩
  · exact .inl (.inl (.inl (.inl (by simp [followed, ident, lead]))))
  · exact .inl (.inl (.inl (.inr ⟨c, mem, by simp [followed, ident, lead, open_]⟩)))
  · exact .inl (.inl (.inr ⟨x, ⟨mem, lead⟩, ident⟩))
  · exact .inl (.inr ⟨x, ⟨mem, lead⟩, ident⟩)

theorem RelayStep.leadLost {m : Node} {i : Ident} {s v t : State} (h : RelayStep v t) (lost : LeadLost m i s v) :
    LeadLost m i s t := by
  obtain ⟨level, followed, saved, scheduled, pending⟩ := lost
  constructor <;> rw [h.alerts]
  · exact level
  · exact followed
  · exact saved
  · exact scheduled
  · exact pending

/-- A lead lost among what a hand-over does, judged and swept (R163). -/
theorem leadLost_of_bereft {m : Node} {i : Ident} {s v u : State} (apart : Apart i s v)
    (level : v.alerts.level = s.alerts.level) (unled : Unled m i s v)
    (alone : ∀ y ∈ s.announced, y.1 ≠ m → y.2.role = .lead → y.2.ident.level = i.level →
      y.2.ident = i ∧ y.2.endCycle = none)
    (lost : Bereft m i (v.otherLead m i) v u) (step : AlertStep v u) {f : State → State} {w : State} (told : f w = judged u) :
    LeadLost m i s (keeping f w) := by
  rw [unled.otherLead] at lost
  have swept := keeping_relay f w
  rw [told] at swept
  refine swept.leadLost (leadLost_judged (lost.apart apart (.refl u)) ?_ ?_ ?_ (step.level.trans level))
  · rw [step.activeLead, unled.activeLead alone]
  · rw [step.leadsOf, unled.head]
  · intro a active
    rw [step.activeAlerts] at active
    exact unled.only alone active

/-! ### The entry of a lost peer (R45, R46) -/

/-- The entry that a loss leaves (R46). -/
def lostEntry : PeerEntry := ⟨.lost, 48, false, none, Quad.const none⟩

/-- The node once an entry is LOST and PEER_LOST posted, the Alert Controller still to be told. -/
def State.lostPeer (s : State) (m : Node) : State :=
  post .peerLost m.val none ((s.peers.get m).coveredCount s.time.cycle) { s with peers := s.peers.set m lostEntry }

/-- The node once an entry is SILENT and PEER_SILENT posted. -/
def State.silentPeer (s : State) (m : Node) : State :=
  let e := s.peers.get m
  post .peerSilent m.val none (e.coveredCount s.time.cycle)
    { s with peers := s.peers.set m { e with state := .silent, unheard := 16, silentOutOfStep := e.state == .outOfStep } }

section

variable {s : State} {m : Node} (peer : m ≠ s.mode.node)
include peer

/-- An unheard report counts, and at the sixteenth or the forty-eighth it is more than that (R45). -/
theorem unheardReport_eq : unheardReport m s =
    let e := s.peers.get m
    let n := min 48 (e.unheard + 1)
    let counted := s.setPeer m { e with unheard := n }
    match e.state with
    | .present | .outOfStep => if n = 16 then silencePeer m counted else counted
    | .silent => if n = 48 then losePeer m counted else counted
    | .unheard | .lost => counted := if_neg peer

theorem unheardReport_counted
    (early : (s.peers.get m).state = .present ∨ (s.peers.get m).state = .outOfStep → (s.peers.get m).unheard ≠ 15)
    (late : (s.peers.get m).state = .silent → (s.peers.get m).unheard < 47) : unheardReport m s =
      { s with peers := s.peers.set m { s.peers.get m with unheard := min 48 ((s.peers.get m).unheard + 1) } } := by
  rw [unheardReport_eq peer]
  dsimp only
  split
  · rename_i state
    exact if_neg (by have := early (.inl state); omega)
  · rename_i state
    exact if_neg (by have := early (.inr state); omega)
  · rename_i state
    exact if_neg (by have := late state; omega)
  · rfl
  · rfl

theorem unheardReport_silent (state : (s.peers.get m).state = .present ∨ (s.peers.get m).state = .outOfStep)
    (count : (s.peers.get m).unheard = 15) : unheardReport m s = s.silentPeer m := by
  have silenced : silencePeer m (s.setPeer m { s.peers.get m with unheard := 16 }) = s.silentPeer m := by
    simp only [silencePeer, State.silentPeer, State.setPeer, peers_get_set_self, Vector.set_set]
    rfl
  rw [unheardReport_eq peer]
  rcases state with state | state <;> simpa [state, count] using silenced

theorem unheardReport_lost (state : (s.peers.get m).state = .silent) (count : (s.peers.get m).unheard = 47) :
    unheardReport m s = peerLossAlerts m (s.lostPeer m) := by
  have lost : losePeer m (s.setPeer m { s.peers.get m with unheard := 48 }) = peerLossAlerts m (s.lostPeer m) := by
    simp only [losePeer, State.lostPeer, State.setPeer, peers_get_set_self, Vector.set_set]
    rfl
  rw [unheardReport_eq peer]
  simpa [state, count] using lost

end

theorem lostPeer_unled (i : Ident) {s : State} {m : Node} (peer : m ≠ s.mode.node) : Unled m i s (s.lostPeer m) where
  others := leadsBut_congr (fun k ne => peers_get_set_of_ne s.peers ne lostEntry) rfl rfl
  silent y mem self := by
    have quiet : (s.lostPeer m).voicesOf m = [] := by
      refine voicesOf_silent peer ?_
      show ((s.peers.set m lostEntry).get m).counts = false
      rw [peers_get_set_self]
      rfl
    rw [mem_announced, self, quiet] at mem
    cases mem

/-! ### Cells that sheets cover (R45, R49 to R51) -/

/-- A stored sheet covers cell `k`, its change reached or not (R49 to R51). -/
def Sheet.coversCell (inStep : Bool) (own : Cycle) (sh : Sheet) (k : Nat) : Bool :=
  match sh.change with
  | none => inRuns sh.current k
  | some c => match c.kind with
    | .claim => inRuns sh.current k || inRuns c.runs k
    | .release => inRuns sh.current k && !(changeReached own inStep c && inRuns c.runs k)

theorem sheetCoverings_cover (own : Cycle) (m : Node) (inStep : Bool) (sh : Sheet) (k : Nat) :
    (sheetCoverings own m inStep sh).any (fun c => c.covers k) = sh.coversCell inStep own k := by
  unfold sheetCoverings Sheet.coversCell
  cases sh.change with
  | none => simp [Covering.covers]
  | some c =>
    dsimp only
    cases c.kind with
    | claim => simp [Covering.covers]
    | release => cases changeReached own inStep c <;> simp [Covering.covers]

theorem coveredCount_eq (e : PeerEntry) (own : Cycle) : e.coveredCount own = ((List.range 776).filter (fun k =>
    ([e.sheets.l0, e.sheets.l1, e.sheets.l2, e.sheets.alert].filterMap id).any
      (fun sh => sh.coversCell e.inStep own k))).length := by
  have sheets : e.sheetList = [e.sheets.l0, e.sheets.l1, e.sheets.l2, e.sheets.alert].filterMap id := by
    simp [PeerEntry.sheetList, allLanes, List.filterMap_cons, Quad.get]
  unfold PeerEntry.coveredCount
  rw [sheets]
  refine congrArg List.length (List.filter_congr fun k _ => ?_)
  rw [List.any_flatMap]
  simp only [sheetCoverings_cover]

theorem sheetCoverings_node {own : Cycle} {m : Node} {inStep : Bool} {sh : Sheet} {c : Covering}
    (mem : c ∈ sheetCoverings own m inStep sh) : c.node = m := by
  unfold sheetCoverings at mem
  split at mem
  · simp_all
  · split at mem
    · simp_all
    · simp only [List.mem_cons, List.not_mem_nil, or_false] at mem
      rcases mem with rfl | rfl <;> rfl

/-- A peer whose entry does not count covers no cell. -/
theorem coverings_ne {s : State} {m : Node} (peer : m ≠ s.mode.node) (counts : (s.peers.get m).counts = false) :
    ∀ c ∈ s.coverings, c.node ≠ m := by
  intro c mem self
  obtain ⟨k, -, inEntry⟩ := List.mem_flatMap.mp mem
  have node : c.node = k := by
    unfold entryCoverings at inEntry
    split at inEntry
    · obtain ⟨sh, -, inSheet⟩ := List.mem_flatMap.mp inEntry
      exact sheetCoverings_node inSheet
    · cases inEntry
  have entry : s.entry m = s.peers.get m := if_neg peer
  rw [← node, self, entry] at inEntry
  simp [entryCoverings, counts] at inEntry

/-! ### The third directory slot of a node (R17, R40) -/

/-- The node once the third directory slot of a node has been read, its result still to be handed over. -/
def State.thirdRead (s : State) (tag : Byte) (content : List Byte) : State :=
  { s with trunk := { s.trunk with
    inProgress := false, driver := none, directory := (s.trunk.directory.1, s.trunk.directory.2.1, .read tag content) } }

/-- What three directory slots gave, as the third was read (R17). -/
def State.heardBytes (s : State) (m : Node) (tag : Byte) (content : List Byte) : Option (List Byte) :=
  heardManifest m (s.trunk.directory.1, s.trunk.directory.2.1, .read tag content)

theorem exec_thirdSlot {s : State} {m : Node} (tag : Byte) (content : List Byte) (on : s.inReset = false)
    (lock : s.time.lock ≠ .unset) (inProgress : s.trunk.inProgress = true) (listening : s.trunk.slotState = .listening)
    (third : s.trunk.slotsBegun = 3 * m.val + 3) :
    exec (.slotEnd tag content) s = .next (handOver m (s.heardBytes m tag content) (s.thirdRead tag content)) := by
  have result : slotResult s.trunk tag content = .listening := by simp [slotResult, listening]
  have ended : endedSlot tag content s = { s with trunk := { s.trunk with inProgress := false, driver := none } } := by
    unfold endedSlot
    rw [result, ← listening]
    rfl
  have slot : s.trunk.slotsBegun - 1 = 3 * m.val + 2 := by omega
  have place : (3 * m.val + 2) % 3 = 2 := by omega
  have node : Fin.ofNat 8 ((3 * m.val + 2) / 3) = m := Fin.ext (by simp; omega)
  rw [exec_slotEnd tag content on lock, endSlot_routed inProgress (by simp [result]) (by simp [result]), ended, slot]
  unfold routeSlot
  rw [if_pos (by simp [Config.directorySlots]; omega)]
  unfold directorySlot
  simp only [place, node, if_true]
  rfl

/-- Nothing is heard of a node whose three slots do not all read its tag, or whose bytes are not judged valid (R17, R39). -/
theorem heardBytes_bind {s : State} {m : Node} {tag : Byte} {content : List Byte}
    (unheard : ∀ c0 c1, s.trunk.directory.1 = .read (tagOf m .manifest) c0 →
      s.trunk.directory.2.1 = .read (tagOf m .manifest) c1 → tag = tagOf m .manifest →
      judgeManifest (c0 ++ c1 ++ content) = none) : (s.heardBytes m tag content).bind judgeManifest = none := by
  unfold State.heardBytes heardManifest
  split
  · rename_i t0 c0 t1 c1 t2 c2 same
    simp only [Prod.mk.injEq, DirRead.read.injEq] at same
    obtain ⟨first, second, rfl, rfl⟩ := same
    dsimp only
    split
    · rename_i tags
      obtain ⟨rfl, rfl, rfl⟩ := tags
      exact unheard c0 c1 first second rfl
    · rfl
  · rfl

/-- A hand-over with nothing valid heard makes an unheard report, but for the node's own number and in CONFIG and HALTED. -/
theorem handOver_unheard {m : Node} {heard : Option (List Byte)} (s : State) (nothing : heard.bind judgeManifest = none) :
    handOver m heard s = handOver m none s := by
  unfold handOver passManifest
  rw [nothing]
  rfl

/-- In QUIET a hand-over makes an unheard report whatever was read, and where the Directory Unit rests it makes none (R40). -/
theorem handOver_deaf {m : Node} (heard : Option (List Byte)) {s : State}
    (deaf : s.mode.mode = .config ∨ s.mode.mode = .halted ∨ s.mode.mode = .quiet ∨
      m = s.mode.node ∧ s.mode.mode ∈ [.active, .standby, .withdrawing]) :
    handOver m heard s = handOver m none s := by
  unfold handOver State.node
  rcases deaf with mode | mode | mode | ⟨own, mode⟩
  · simp only [mode]
  · simp only [mode]
  · simp only [mode]
  · simp only [List.mem_cons, List.not_mem_nil, or_false] at mode
    rcases mode with mode | mode | mode <;> simp only [mode, own, if_true]

/-- PEER_SILENT and PEER_LOST as commands make the report that is due (R45; log 2). -/
theorem exec_peerSilent_due {s : State} {m : Node} (live : s.live = true)
    (state : (s.peers.get m).state = .present ∨ (s.peers.get m).state = .outOfStep) (count : (s.peers.get m).unheard = 15) :
    exec (.peerSilent m) s = .next (unheardReport m s) := by
  have due : s.silentDue m = true := by
    rcases state with state | state <;> simp [State.silentDue, live, state, count, Config.silentFrames]
  exact congrArg Host.Outcome.next (if_pos due)

theorem exec_peerLost_due {s : State} {m : Node} (live : s.live = true) (state : (s.peers.get m).state = .silent)
    (count : (s.peers.get m).unheard = 47) : exec (.peerLost m) s = .next (unheardReport m s) := by
  have due : s.lostDue m = true := by simp [State.lostDue, live, state, count, Config.lostFrames]
  exact congrArg Host.Outcome.next (if_pos due)

/-- What the loss of a peer does to the Alert Controller's records, and that nothing but it, the Object Store and the event
queue is touched (R46, R163). -/
theorem peerLossAlerts_step (m : Node) (s : State) : AlertStep s (peerLossAlerts m s) := by
  have told (s : State) : AlertStep s (judged (forEach (s.ledBy m none) (loseLead m) s)) :=
    (AlertStep.forEach (AlertStep.loseLead m) _ _).trans (.judged _)
  exact .cond _ (.keeping told s) (.refl s)

theorem peerLossAlerts_leadLost {m : Node} {i : Ident} {s : State} (peer : m ≠ s.mode.node) (on : s.onTrunk = true)
    (alone : ∀ y ∈ s.announced, y.1 ≠ m → y.2.role = .lead → y.2.ident.level = i.level →
      y.2.ident = i ∧ y.2.endCycle = none) : LeadLost m i s (peerLossAlerts m (s.lostPeer m)) := by
  have told : peerLossAlerts m (s.lostPeer m) =
      keeping (fun s => judged (forEach (s.ledBy m none) (loseLead m) s)) (s.lostPeer m) := if_pos (by exact on)
  rw [told]
  have lost : Bereft m i ((s.lostPeer m).otherLead m i) (s.lostPeer m)
      (forEach ((s.lostPeer m).ledBy m none) (loseLead m) (s.lostPeer m)) :=
    .forEach (List.nodup_dedup _) (mem_ledBy none) (fun _ _ => .loseLead ..) (fun _ ne _ => .loseLead ne m _)
      (fun _ _ => rfl)
  have apart : Apart i s (s.lostPeer m) := .same rfl rfl rfl rfl
  exact leadLost_of_bereft apart rfl (lostPeer_unled i peer) alone lost (.forEach (AlertStep.loseLead m) _ _) rfl

/-- Settles O28: a report counts, and the sixteenth and the forty-eighth are posted with the cells that the sheets cover; the
lost peer's alerts lose their lead before the alerts are judged again. -/
theorem unheardPeerSilentThenLost : Obligations.UnheardPeerSilentThenLost := by
  refine ⟨fun m s => ?_, fun m tag content s on lock inProgress listening third => ?_, fun m s live peer room => ?_⟩
  · exact ⟨fun own => if_pos own, fun peer early late => unheardReport_counted peer early late, fun live _ =>
      ⟨fun due => exec_peerSilent_due live due.1 due.2, fun due => exec_peerLost_due live due.1 due.2⟩⟩
  · intro d mine read unheard
    have run := exec_thirdSlot tag content on lock inProgress listening third
    have reported : (s.heardBytes m tag content).bind judgeManifest = none ∨ s.mode.mode = .config ∨ s.mode.mode = .halted ∨
        s.mode.mode = .quiet ∨ m = s.mode.node ∧ s.mode.mode ∈ [.active, .standby, .withdrawing] →
        exec (.slotEnd tag content) s = .next
          (if s.mode.mode = .config ∨ s.mode.mode = .halted ∨ m = s.mode.node then read else unheardReport m read) := by
      rintro (nothing | deaf)
      · rw [run, handOver_unheard _ nothing, handOver_none]
        rfl
      · rw [run, handOver_deaf _ (by exact deaf), handOver_none]
        rfl
    refine ⟨fun peer heard => ?_, fun deaf => ?_⟩
    · have takes : ¬ (s.mode.mode = .config ∨ s.mode.mode = .halted ∨ m = s.mode.node) := by
        rcases heard with quiet | ⟨mode, -⟩
        · simp [quiet, peer]
        · simp only [List.mem_cons, List.not_mem_nil, or_false] at mode
          rcases mode with mode | mode | mode | mode <;> simp [mode, peer]
      rw [reported (heard.elim (fun quiet => .inr (.inr (.inr (.inl quiet)))) fun h => .inl (heardBytes_bind h.2)),
        if_neg takes]
    · have rests : s.mode.mode = .config ∨ s.mode.mode = .halted ∨ m = s.mode.node :=
        deaf.imp_right fun h => h.imp_right And.left
      rw [reported, if_pos rests]
      rcases deaf with config | halted | ⟨own, mode | nothing⟩
      · exact .inr (.inl config)
      · exact .inr (.inr (.inl halted))
      · rcases List.mem_cons.mp mode with quiet | serving
        · exact .inr (.inr (.inr (.inl quiet)))
        · exact .inr (.inr (.inr (.inr ⟨own, serving⟩)))
      · exact .inl (heardBytes_bind nothing)
  · intro e reached covers covered
    have counted : e.coveredCount s.time.cycle = covered := by
      rw [coveredCount_eq, inStep_eq]
      rfl
    refine ⟨fun state count => ?_, fun state count => ?_⟩
    · refine ⟨_, (exec_peerSilent_due live state count).trans (by rw [unheardReport_silent peer state count]), ?_,
        fun n ne => peers_get_set_of_ne s.peers ne _, ?_, rfl⟩
      · exact peers_get_set_self ..
      · rw [← counted]
        exact post_posted (by exact room) ..
    · have step := peerLossAlerts_step m (s.lostPeer m)
      have peers : (peerLossAlerts m (s.lostPeer m)).peers = s.peers.set m lostEntry := step.peers
      have others := step.state
      refine ⟨_, (exec_peerLost_due live state count).trans (by rw [unheardReport_lost peer state count]), ?_, fun n ne => ?_,
        ?_, fun on i alone => peerLossAlerts_leadLost peer on alone, coverings_ne ?_ ?_, ?_⟩
      · rw [peers, peers_get_set_self]
        rfl
      · rw [peers, peers_get_set_of_ne s.peers ne]
      · refine .of_prefix ?_ (BlockStep.peerLossAlerts m (s.lostPeer m)).queue
        rw [← counted]
        exact post_posted (by exact room) ..
      · rw [step.mode]
        exact peer
      · rw [peers, peers_get_set_self]
        rfl
      · rw [others]
        exact ⟨rfl, rfl, rfl, rfl, rfl, rfl, rfl, rfl, rfl, rfl, rfl⟩

end Sys2Proof.Machine
end

