-- ==== Sys2Proof/Proofs/ClaimChecks.lean ====
section
/-! SUPPORT. A pending claim held against a stored sheet: what one check does, that it depends on its own lane alone, and the turn
that each lane has among the checks of all (R62, R63, R64). -/

namespace Sys2Proof.Machine

/-! ### One lane judged alike in two states -/

/-- Lane `i` is the same in `s` and `t`, and so is all that a report of it reads: the clock, the modes, the alerts, the
configuration and the contracts. -/
structure LaneAlike (i : LaneId) (s t : State) : Prop where
  tenancy : t.tenancy.get i = s.tenancy.get i
  unit : t.units.get i = s.units.get i
  time : t.time = s.time
  mode : t.mode = s.mode
  alerts : t.alerts = s.alerts
  config : t.config = s.config
  contracts : t.contracts = s.contracts

namespace LaneAlike

variable {i : LaneId} {s t u : State}

theorem refl (s : State) : LaneAlike i s s := ⟨rfl, rfl, rfl, rfl, rfl, rfl, rfl⟩

theorem trans (h : LaneAlike i s t) (k : LaneAlike i t u) : LaneAlike i s u :=
  ⟨k.tenancy.trans h.tenancy, k.unit.trans h.unit, k.time.trans h.time, k.mode.trans h.mode, k.alerts.trans h.alerts,
    k.config.trans h.config, k.contracts.trans h.contracts⟩

/-- What leaves the lane and the alerts alone. -/
theorem ofStill (h : LaneStill i s t) (block : BlockStep s t) (alerts : t.alerts = s.alerts) : LaneAlike i s t :=
  ⟨h.tenancy, h.unit, block.time, block.mode, alerts, block.config, block.contracts⟩

section

variable (h : LaneAlike i s t)
include h

theorem ite {s' t' : State} (c : Prop) [Decidable c] (k : LaneAlike i s' t') :
    LaneAlike i (if c then s else s') (if c then t else t') := by
  split
  · exact h
  · exact k

theorem onTenancy (f : Tenancy → Tenancy) : LaneAlike i (onTenancy i f s) (onTenancy i f t) :=
  { h with tenancy := by simp [Machine.onTenancy, h.tenancy] }

theorem onUnit (f : LaneUnit → LaneUnit) : LaneAlike i (onUnit i f s) (onUnit i f t) :=
  { h with unit := by simp [Machine.onUnit, h.unit] }

theorem setLaneState (x : LaneState) : LaneAlike i (setLaneState i x s) (setLaneState i x t) := h.onUnit _

theorem postSelf (k : EventKind) (l : Option LaneId) (a : Nat) : LaneAlike i (postSelf k l a s) (postSelf k l a t) :=
  { h with }

theorem cells : t.cells i = s.cells i := by rw [State.cells, h.tenancy, State.cells]

theorem closeLane : LaneAlike i (closeLane i s) (closeLane i t) := by
  have tenancy (s : State) : (Machine.closeLane i s).tenancy = s.tenancy := by
    have sched (s : State) : (closeSched i s).tenancy = s.tenancy := by
      cases i with
      | alert => rfl
      | svc l => exact interruptPicture_tenancy ..
    obtain ⟨lines, e⟩ := statusIfHeld_eq i (s.units.get i).intake (Machine.postSelf .laneClosed (some i)
      (s.units.get i).fifo.length (closeSched i (Machine.onUnit i (fun u => { u.discard with state := .closed }) s)))
    rw [Machine.closeLane, e]
    exact sched _
  have block := BlockStep.closeLane i
  refine ⟨?_, ?_, ?_, ?_, ?_, ?_, ?_⟩
  · rw [tenancy, tenancy, h.tenancy]
  · rw [closeLane_unit, closeLane_unit, h.unit]
  · rw [(block s).time, (block t).time, h.time]
  · rw [(block s).mode, (block t).mode, h.mode]
  · rw [closeLane_alerts, closeLane_alerts, h.alerts]
  · rw [(block s).config, (block t).config, h.config]
  · rw [(block s).contracts, (block t).contracts, h.contracts]

theorem splitOf : t.splitOf i = s.splitOf i := by
  unfold State.splitOf State.laneGrade State.alertGrade
  rw [h.cells, h.config, h.contracts, h.alerts]

theorem resplit : LaneAlike i (resplit i s) (resplit i t) := by
  unfold Machine.resplit
  rw [h.splitOf]
  exact h.onUnit _

end

theorem restoredState {l : Lane} (h : LaneAlike (.svc l) s t) : t.restoredState l = s.restoredState l := by
  unfold State.restoredState State.bottomRestore State.floorCells
  rw [h.cells, h.alerts, h.contracts]

theorem checkRestore {l : Lane} (h : LaneAlike (.svc l) s t) : LaneAlike (.svc l) (checkRestore l s) (checkRestore l t) := by
  unfold Machine.checkRestore
  rw [h.tenancy, h.unit, h.restoredState]
  dsimp only
  split
  · exact ((h.onTenancy _).setLaneState _).ite _ h
  · exact h

theorem reportService {l : Lane} (h : LaneAlike (.svc l) s t) :
    LaneAlike (.svc l) (reportService l s) (reportService l t) := by
  have floor : t.floorCells l = s.floorCells l := by rw [State.floorCells, h.contracts, State.floorCells]
  unfold Machine.reportService
  rw [h.tenancy, h.unit, floor]
  dsimp only
  split
  · exact h
  · exact (h.setLaneState _).ite _ h
  · exact (h.setLaneState _).ite _ h
  · exact (h.setLaneState _).ite _ ((h.setLaneState _).ite _ h)
  · exact h.checkRestore
  · exact h.closeLane.ite _ h

theorem reportAlert (h : LaneAlike .alert s t) : LaneAlike .alert (reportAlert s) (reportAlert t) := by
  unfold Machine.reportAlert
  rw [h.tenancy, h.unit]
  dsimp only
  split
  · exact (h.setLaneState _).ite _ h
  · exact (h.setLaneState _).ite _ h
  · exact (((h.closeLane.setLaneState _).postSelf ..).ite _ h.closeLane).ite _ h
  all_goals exact h

theorem reportLane (h : LaneAlike i s t) : LaneAlike i (reportLane i s) (reportLane i t) := by
  cases i with
  | svc l => exact h.resplit.reportService
  | alert => exact h.resplit.reportAlert

end LaneAlike

/-! ### A pending claim held against a stored sheet (R62, R63) -/

/-- The cause for which a stored sheet withdraws the pending claim of a lane, if it does (R62, R63). -/
def State.conflictCause (s : State) (m : Node) (inStep : Bool) (sh : Sheet) (i : LaneId) : Option Nat :=
  match (s.tenancy.get i).change with
  | none => none
  | some c =>
    if c.kind ≠ .claim then none
    else
      let cs := sheetCoverings s.time.cycle m inStep sh
      let pending := (cs.filter (fun x => x.pendingFor.isSome)).flatMap (fun x => x.runs)
      let peerRank := match sh.change with | some p => p.rank | none => .ordinary
      let held := cs.filter (fun x => x.pendingFor.isNone)
      if runsMeet c.runs pending ∧ ownLoses c.rank peerRank s.node m then some 1
      else if (runCells c.runs).any (fun k => held.any (fun x => x.covers k)) then some 2
      else none

/-- The node once a claim of lane `i` is withdrawn and CLAIM_WITHDRAWN posted, the Lane Unit still to be told (R64). -/
def State.claimWithdrawn (s : State) (i : LaneId) (cause : Nat) (m : Node) : State :=
  postSelf .claimWithdrawn (some i) (256 * cause + m.val) (onTenancy i (fun t => { t with
    change := none, deferral := .none
    backoff := match t.change with | some c => withdrawBackoff s.node cause c.rank t.backoff | none => t.backoff }) s)

theorem withdraw_claim {s : State} {i : LaneId} {c : PendingChange} (change : (s.tenancy.get i).change = some c)
    (claim : c.kind = .claim) (cause : Nat) (m : Node) : withdraw i cause m s = reportLane i (s.claimWithdrawn i cause m) := by
  have claiming : (s.tenancy.get i).claiming = true := by simp [Tenancy.claiming, change, claim]
  unfold withdraw withdrawCore State.claimWithdrawn onTenancy
  rw [if_pos claiming]
  simp only [change, if_pos claim]

theorem conflictCheck_eq (m : Node) (inStep : Bool) (sh : Sheet) (i : LaneId) (s : State) :
    conflictCheck m inStep sh i s = match s.conflictCause m inStep sh i with
      | some cause => reportLane i (s.claimWithdrawn i cause m)
      | none => s := by
  unfold conflictCheck State.conflictCause
  cases change : (s.tenancy.get i).change with
  | none => rfl
  | some c =>
    dsimp only
    by_cases claim : c.kind = .claim
    · rw [if_neg (not_not.mpr claim), if_neg (not_not.mpr claim), withdraw_claim change claim, withdraw_claim change claim]
      cases sh.change with
      | none | some p =>
        dsimp only
        split
        · rfl
        · split <;> rfl
    · rw [if_pos claim, if_pos claim]

section

variable {i : LaneId} {s t : State}

theorem LaneAlike.conflictCause (h : LaneAlike i s t) (m : Node) (b : Bool) (sh : Sheet) :
    t.conflictCause m b sh i = s.conflictCause m b sh i := by
  unfold State.conflictCause State.node
  rw [h.tenancy, h.time, h.mode]

theorem LaneAlike.conflictCheck (h : LaneAlike i s t) (m : Node) (b : Bool) (sh : Sheet) :
    LaneAlike i (conflictCheck m b sh i s) (conflictCheck m b sh i t) := by
  rw [conflictCheck_eq, conflictCheck_eq, h.conflictCause]
  cases s.conflictCause m b sh i with
  | none => exact h
  | some cause =>
    refine LaneAlike.reportLane ?_
    unfold State.claimWithdrawn State.node
    rw [h.mode]
    exact (h.onTenancy _).postSelf ..

@[simp] theorem conflictCheck_alerts (m : Node) (b : Bool) (sh : Sheet) (j : LaneId) (s : State) :
    (conflictCheck m b sh j s).alerts = s.alerts := by
  rw [conflictCheck_eq]
  split
  · rw [reportLane_alerts]
    rfl
  · rfl

/-- The check of one lane leaves the others as they are. -/
theorem LaneAlike.otherCheck {j : LaneId} (ne : i ≠ j) (m : Node) (b : Bool) (sh : Sheet) (s : State) :
    LaneAlike i s (Machine.conflictCheck m b sh j s) := by
  refine .ofStill ?_ (.conflictCheck ..) (conflictCheck_alerts ..)
  rw [conflictCheck_eq]
  split
  · exact ((LaneStill.onTenancy ne _ s).trans (.postSelf ..)).trans (.reportLane ne _)
  · exact .refl s

/-- The checks of several lanes, one after another: lane `i` has its turn in a state that is `s` for it, and is left alone after
it. -/
theorem conflictChecks_turn (m : Node) (b : Bool) (sh : Sheet) {js : List LaneId} (once : js.Nodup) (mem : i ∈ js) (s : State) :
    ∃ u, LaneAlike i s u ∧ BlockStep s u ∧ BlockStep (conflictCheck m b sh i u) (forEach js (conflictCheck m b sh) s) ∧
      LaneAlike i (conflictCheck m b sh i u) (forEach js (conflictCheck m b sh) s) := by
  have others {ks : List LaneId} (out : i ∉ ks) (s : State) : LaneAlike i s (forEach ks (conflictCheck m b sh) s) := by
    induction ks generalizing s with
    | nil => exact .refl s
    | cons k ks ih =>
      rw [List.mem_cons, not_or] at out
      exact (LaneAlike.otherCheck out.1 m b sh s).trans (ih out.2 _)
  have block (ks : List LaneId) (s : State) : BlockStep s (forEach ks (conflictCheck m b sh) s) :=
    .forEach (fun _ _ => .conflictCheck ..) ks s
  obtain ⟨as, bs, rfl⟩ := List.append_of_mem mem
  have notAs : i ∉ as := fun inAs => (List.nodup_append.mp once).2.2 i inAs i List.mem_cons_self rfl
  have notBs : i ∉ bs := (List.nodup_cons.mp (List.nodup_append.mp once).2.1).1
  have split : forEach (as ++ i :: bs) (conflictCheck m b sh) s =
      forEach bs (conflictCheck m b sh) (conflictCheck m b sh i (forEach as (conflictCheck m b sh) s)) := by
    simp [forEach]
  refine ⟨_, others notAs s, block as s, ?_, ?_⟩
  · rw [split]
    exact block bs _
  · rw [split]
    exact others notBs _

end

end Sys2Proof.Machine
end

