-- ==== Sys2Proof/Proofs/HeardManifest.lean ====
section
/-! SUPPORT. A manifest stored: the entry of the peer, the events of the store and of the claim checks, and the lanes after the
checks (R43, R44). -/

namespace Sys2Proof.Machine

/-! ### Events posted along the way -/

theorem room_of_prefix {s t : State} (grows : s.events.queue <+: t.events.queue) {n : Nat} (room : t.Room n) : s.Room n :=
  (Nat.add_le_add_right grows.length_le n).trans room

theorem posted_of_prefix {s t : State} (grows : s.events.queue <+: t.events.queue) : ∃ es, Posted s t es := by
  obtain ⟨more, e⟩ := grows
  exact ⟨more.map EventRecord.says, by rw [Posted, ← e, List.map_append]⟩

/-- What is posted first somewhere along the way is among what is posted. -/
theorem mem_of_postedFirst {s u v t : State} {d : EventKind × Nat × Option LaneId × Nat}
    {es : List (EventKind × Nat × Option LaneId × Nat)} (before : s.events.queue <+: u.events.queue)
    (first : PostedFirst u v [d]) (after : v.events.queue <+: t.events.queue) (posted : Posted s t es) : d ∈ es := by
  obtain ⟨early, here⟩ := posted_of_prefix before
  obtain ⟨more, now⟩ := first
  obtain ⟨late, there⟩ := posted_of_prefix after
  have all := (here.trans now).trans there
  unfold Posted at posted all
  rw [posted, List.append_cancel_left_eq] at all
  simp [all]

/-! ### A manifest stored (R43, R44) -/

/-- The node once a manifest is stored in the peer table and its event posted, the claims and the alerts still to be judged. -/
def State.filed (s : State) (m : Node) (x : Manifest) : State :=
  (postStored m (s.peers.get m).state (s.matchesOwn x.header) x.header s).setPeer m
    ((s.peers.get m).store (s.matchesOwn x.header) x)

/-- The node once the pending claims are held against the two sheets as well. -/
def State.claimsChecked (s : State) (m : Node) (x : Manifest) : State :=
  checkConflicts m (s.matchesOwn x.header) x (s.filed m x)

/-- What the Alert Controller does with a header on the trunk, before the keep rule sweeps. -/
def hearHeader (m : Node) (before : Option Header) (h : Header) (s : State) : State :=
  judged (forEach ((copyShadows s).ledBy m before) (headerFor m h) (copyShadows s))

theorem headerStored_eq (m : Node) (before : Option Header) (h : Header) (s : State) :
    headerStored m before h s = if s.onTrunk then keeping (hearHeader m before h) s else s := rfl

theorem storeManifest_eq (m : Node) (x : Manifest) (s : State) :
    storeManifest m x s = headerStored m (s.peers.get m).header x.header (s.claimsChecked m x) := rfl

section

variable (m : Node) (x : Manifest) (s : State)

theorem postStored_block (was : PeerState) (b : Bool) (h : Header) : BlockStep s (postStored m was b h s) := by
  unfold postStored
  cases b with
  | true =>
    cases was with
    | silent | lost | outOfStep => exact .post ..
    | unheard | present => exact .refl s
  | false =>
    cases was with
    | outOfStep => exact .refl s
    | unheard | present | silent | lost => exact .post ..

theorem postStored_events (was : PeerState) (b : Bool) (h : Header) :
    postStored m was b h s = { s with events := (postStored m was b h s).events } := by
  unfold postStored
  cases b <;> cases was <;> rfl

theorem filed_eq : s.filed m x = { s with
    peers := s.peers.set m ((s.peers.get m).store (s.matchesOwn x.header) x), events := (s.filed m x).events } := by
  have told := postStored_events m s (s.peers.get m).state (s.matchesOwn x.header) x.header
  unfold State.filed State.setPeer
  rw [told]

theorem filed_queue : s.events.queue <+: (s.filed m x).events.queue := (postStored_block ..).queue

theorem claimsChecked_block : BlockStep (s.filed m x) (s.claimsChecked m x) :=
  .cond _ ((BlockStep.forEach (fun _ _ => .conflictCheck ..) _ _).trans (.forEach (fun _ _ => .conflictCheck ..) _ _)) (.refl _)

theorem claimsChecked_alerts : (s.claimsChecked m x).alerts = s.alerts := by
  have checks (sh : Sheet) (b : Bool) (s : State) : (forEach LaneId.planningOrder (conflictCheck m b sh) s).alerts = s.alerts :=
    forEach_alerts (fun j s => conflictCheck_alerts m b sh j s) _ s
  have filed : (s.filed m x).alerts = s.alerts := by rw [filed_eq]
  unfold State.claimsChecked checkConflicts
  split
  · rw [checks, checks, filed]
  · exact filed

theorem filed_mode : (s.filed m x).mode = s.mode := by rw [filed_eq]

theorem filed_onTrunk : (s.filed m x).onTrunk = s.onTrunk := by rw [filed_eq]; rfl

theorem claimsChecked_onTrunk : (s.claimsChecked m x).onTrunk = s.onTrunk := by
  have block := claimsChecked_block m x s
  unfold State.onTrunk
  rw [block.mode, block.inReset, filed_eq]

end

theorem hearHeader_step (m : Node) (before : Option Header) (h : Header) (s : State) : AlertStep s (hearHeader m before h s) :=
  (AlertStep.copyShadows s).trans ((AlertStep.forEach (AlertStep.headerFor m h) _ _).trans (.judged _))

theorem headerStored_step (m : Node) (before : Option Header) (h : Header) (s : State) :
    AlertStep s (headerStored m before h s) :=
  .cond _ (.keeping (hearHeader_step m before h) s) (.refl s)

theorem storeManifest_onTrunk {m : Node} {x : Manifest} {s : State} (on : s.onTrunk = true) : storeManifest m x s =
    keeping (hearHeader m (s.peers.get m).header x.header) (s.claimsChecked m x) := by
  rw [storeManifest_eq, headerStored_eq, if_pos (by rw [claimsChecked_onTrunk, on])]

theorem storeManifest_offTrunk {m : Node} {x : Manifest} {s : State} (off : s.onTrunk = false) :
    storeManifest m x s = s.filed m x := by
  have checked : s.claimsChecked m x = s.filed m x := by
    unfold State.claimsChecked checkConflicts
    rw [filed_onTrunk, off]
    rfl
  rw [storeManifest_eq, headerStored_eq, if_neg (by rw [claimsChecked_onTrunk, off]; exact Bool.false_ne_true), checked]

theorem hearHeader_keyed (m : Node) (before : Option Header) (h : Header) (s : State) :
    (hearHeader m before h s).alerts.relayKey = (hearHeader m before h s).relayKeyNow := by
  unfold hearHeader
  generalize forEach _ _ _ = u
  exact judged_keyed u

theorem storeManifest_keyed {m : Node} {x : Manifest} {s : State} (on : s.onTrunk = true) :
    (storeManifest m x s).RelayKeyed := by
  rw [storeManifest_onTrunk on]
  exact (keeping_relay _ _).relayKeyed (hearHeader_keyed ..)

/-! ### The pending claims held against the two sheets (R43 step 7) -/

theorem conflictCheck_told {m : Node} {b : Bool} {sh : Sheet} {i : LaneId} {s : State} {cause : Nat}
    (found : s.conflictCause m b sh i = some cause) (room : s.Room 1) :
    PostedFirst s (conflictCheck m b sh i s) [(.claimWithdrawn, s.node.val, some i, 256 * cause + m.val)] := by
  rw [conflictCheck_eq, found]
  refine .of_prefix (t := s.claimWithdrawn i cause m) ?_ (BlockStep.reportLane i _).queue
  unfold State.claimWithdrawn postSelf
  exact post_posted (s := onTenancy i _ s) room ..

section

variable {m : Node} {x : Manifest} {s : State} (on : s.onTrunk = true) (i : LaneId)
include on

/-- Lane `i` as the two checks of it leave it is lane `i` once all lanes have been checked, and its checks have their turns. -/
theorem claimsChecked_turns : ∃ u v, LaneAlike i s u ∧ s.events.queue <+: u.events.queue ∧
    BlockStep (conflictCheck m (s.matchesOwn x.header) x.first i u) v ∧
    LaneAlike i (conflictCheck m (s.matchesOwn x.header) x.first i u) v ∧
    BlockStep (conflictCheck m (s.matchesOwn x.header) x.second i v) (s.claimsChecked m x) ∧
    LaneAlike i (conflictCheck m (s.matchesOwn x.header) x.second i v) (s.claimsChecked m x) := by
  have once : LaneId.planningOrder.Nodup := by decide
  have mem : i ∈ LaneId.planningOrder := by rcases i with (_ | _ | _) | _ <;> decide
  have checked : s.claimsChecked m x = forEach LaneId.planningOrder (conflictCheck m (s.matchesOwn x.header) x.second)
      (forEach LaneId.planningOrder (conflictCheck m (s.matchesOwn x.header) x.first) (s.filed m x)) :=
    if_pos ((filed_onTrunk m x s).trans on)
  have filed : LaneAlike i s (s.filed m x) := by rw [filed_eq]; exact ⟨rfl, rfl, rfl, rfl, rfl, rfl, rfl⟩
  obtain ⟨u, before, grows, after, kept⟩ := conflictChecks_turn m (s.matchesOwn x.header) x.first once mem (s.filed m x)
  obtain ⟨v, before', grows', after', kept'⟩ := conflictChecks_turn m (s.matchesOwn x.header) x.second once mem
    (forEach LaneId.planningOrder (conflictCheck m (s.matchesOwn x.header) x.first) (s.filed m x))
  rw [← checked] at after' kept'
  exact ⟨u, v, filed.trans before, (filed_queue m x s).trans grows.queue, after.trans grows', kept.trans before', after', kept'⟩

theorem storeManifest_lane :
    let checked := conflictCheck m (s.matchesOwn x.header) x.second i (conflictCheck m (s.matchesOwn x.header) x.first i s)
    (storeManifest m x s).tenancy.get i = checked.tenancy.get i ∧ (storeManifest m x s).units.get i = checked.units.get i := by
  obtain ⟨u, v, alike, -, -, first, -, second⟩ := claimsChecked_turns (m := m) (x := x) on i
  have both := (((alike.conflictCheck m _ x.first).trans first).conflictCheck m _ x.second).trans second
  rw [storeManifest_eq, (headerStored_step ..).state]
  exact ⟨both.tenancy, both.unit⟩

/-- The events of the two checks of a lane are among those posted. -/
theorem storeManifest_told {es : List (EventKind × Nat × Option LaneId × Nat)} {e : EventKind × Nat × Option LaneId × Nat}
    (posted : Posted s (storeManifest m x s) es) (room : (storeManifest m x s).Room 1)
    (told : Posted s (conflictCheck m (s.matchesOwn x.header) x.second i
      (conflictCheck m (s.matchesOwn x.header) x.first i s)) [e]) : e ∈ es := by
  obtain ⟨u, v, alike, before, middle, first, after, -⟩ := claimsChecked_turns (m := m) (x := x) on i
  have last := after.queue.trans (BlockStep.headerStored m (s.peers.get m).header x.header _).queue
  rw [← storeManifest_eq] at last
  generalize s.matchesOwn x.header = b at told middle first after last
  have check (sh : Sheet) (s : State) : s.events.queue <+: (conflictCheck m b sh i s).events.queue :=
    (BlockStep.conflictCheck ..).queue
  have whole : s.events.queue <+: (storeManifest m x s).events.queue :=
    before.trans ((check x.first u).trans (middle.queue.trans ((check x.second v).trans last)))
  have node {w : State} (alike : LaneAlike i s w) : w.node = s.node := congrArg ModeCtl.node alike.mode
  cases one : s.conflictCause m b x.first i with
  | some cause =>
    have mine := mem_of_postedFirst (List.prefix_refl _) (conflictCheck_told one (room_of_prefix whole room))
      (check x.second _) told
    rw [← List.mem_singleton.mp mine, ← node alike]
    exact mem_of_postedFirst before (conflictCheck_told ((alike.conflictCause m b x.first).trans one)
      (room_of_prefix ((check x.first u).trans (middle.queue.trans ((check x.second v).trans last))) room))
      (middle.queue.trans ((check x.second v).trans last)) posted
  | none =>
    have idle {w : State} (alike : LaneAlike i s w) : conflictCheck m b x.first i w = w := by
      rw [conflictCheck_eq, alike.conflictCause, one]
    rw [idle (.refl s)] at told
    rw [idle alike] at middle first
    cases two : s.conflictCause m b x.second i with
    | some cause =>
      have mine := mem_of_postedFirst (List.prefix_refl _) (conflictCheck_told two (room_of_prefix whole room))
        (List.prefix_refl _) told
      rw [← List.mem_singleton.mp mine, ← node (alike.trans first)]
      exact mem_of_postedFirst (before.trans middle.queue) (conflictCheck_told
        (((alike.trans first).conflictCause m b x.second).trans two) (room_of_prefix ((check x.second v).trans last) room))
        last posted
    | none =>
      rw [conflictCheck_eq, two] at told
      simp [Posted] at told

end

/-! ### The entry of the peer (R43, R44) -/

theorem matchesOwn_eq (s : State) (h : Header) : s.matchesOwn h = decide (h.cycle = s.time.cycle ∧ h.frame = s.frameIndex) := by
  simp [State.matchesOwn, Bool.decide_and, beq_eq_decide]

/-- What a stored manifest posts (R43, R44). -/
def storedSays (m : Node) (was : PeerState) (inStep : Prop) [Decidable inStep] (h : Header) :
    List (EventKind × Nat × Option LaneId × Nat) :=
  if inStep then
    match was with
    | .silent => [(.peerBack, m.val, none, 1)]
    | .lost => [(.peerBack, m.val, none, 2)]
    | .outOfStep => [(.peerBack, m.val, none, 3)]
    | .unheard | .present => []
  else if was = .outOfStep then []
  else [(.peerOutOfStep, m.val, none, h.cycle.toNat * 16 + h.frame)]

theorem filed_posted (m : Node) (x : Manifest) {s : State} (room : s.Room 1) : Posted s (s.filed m x)
    (storedSays m (s.peers.get m).state (x.header.cycle = s.time.cycle ∧ x.header.frame = s.frameIndex) x.header) := by
  have nothing : Posted s s [] := .of_queue rfl
  have told (k : EventKind) (a : Nat) : Posted s (post k m.val none a s) [(k, m.val, none, a)] := post_posted room ..
  have same : Posted s (postStored m (s.peers.get m).state (s.matchesOwn x.header) x.header s) (storedSays m
      (s.peers.get m).state (x.header.cycle = s.time.cycle ∧ x.header.frame = s.frameIndex) x.header) := by
    rw [matchesOwn_eq]
    unfold postStored storedSays
    by_cases inStep : x.header.cycle = s.time.cycle ∧ x.header.frame = s.frameIndex
    · rw [if_pos inStep, if_pos (decide_eq_true inStep)]
      cases (s.peers.get m).state with
      | silent | lost | outOfStep => exact told ..
      | unheard | present => exact nothing
    · rw [if_neg inStep, if_neg (by simpa using inStep)]
      cases (s.peers.get m).state with
      | outOfStep => exact nothing
      | unheard | present | silent | lost => exact told ..
  exact same

section

variable (m : Node) (x : Manifest) (s : State)

theorem storeManifest_block : BlockStep (s.filed m x) (storeManifest m x s) :=
  (claimsChecked_block m x s).trans (.headerStored ..)

theorem storeManifest_peers : (storeManifest m x s).peers =
    s.peers.set m ((s.peers.get m).store (s.matchesOwn x.header) x) := by
  rw [(storeManifest_block m x s).peers, filed_eq]

end

/-- A sheet of the entry once a manifest is stored in it (R43). -/
theorem store_sheets (e : PeerEntry) (b : Bool) {x : Manifest} (apart : x.first.lane ≠ x.second.lane) :
    (e.store b x).sheets.get x.first.lane = some x.first ∧ (e.store b x).sheets.get x.second.lane = some x.second ∧
      ∀ i, i ≠ x.first.lane → i ≠ x.second.lane → (e.store b x).sheets.get i =
        if e.state = .silent ∨ e.state = .lost then none else e.sheets.get i := by
  unfold PeerEntry.store
  refine ⟨?_, Quad.get_set_self .., fun i first second => ?_⟩
  · rw [Quad.get_set_of_ne _ _ _ _ apart, Quad.get_set_self]
  · rw [Quad.get_set_of_ne _ _ _ _ second, Quad.get_set_of_ne _ _ _ _ first]
    cases e.state <;> simp

end Sys2Proof.Machine
end

