-- ==== Sys2Proof/Proofs/HeardAlerts.lean ====
section
/-! SUPPORT. The announcements once a header is stored, and an alert that the header lists as SHADOW or HELD (R54, R151, R163). -/

namespace Sys2Proof.Machine

/-! ### The announcements once a header is stored (R54, R151) -/

/-- The node once a manifest is stored, the claims are checked and the own SHADOW alerts have copied afresh: what its lists are
told of the header from. -/
@[irreducible] def State.heardFrom (s : State) (m : Node) (x : Manifest) : State := copyShadows (s.claimsChecked m x)

/-- The node once every alert that the peer led has been told of the header, the alerts still to be judged. -/
@[irreducible] def State.told (s : State) (m : Node) (x : Manifest) : State :=
  forEach ((s.heardFrom m x).ledBy m (s.peers.get m).header) (headerFor m x.header) (s.heardFrom m x)

theorem copyShadows_alerts (s : State) : (copyShadows s).alerts = { s.alerts with own := (copyShadows s).alerts.own } := by
  have one (i : Ident) (s : State) : (copyShadow i s).alerts = { s.alerts with own := (copyShadow i s).alerts.own } := by
    unfold copyShadow
    split <;> rfl
  unfold copyShadows
  generalize s.alerts.own.map (fun o => o.ident) = is
  induction is generalizing s with
  | nil => rfl
  | cons i is ih =>
    show (forEach is copyShadow (copyShadow i s)).alerts =
      { s.alerts with own := (forEach is copyShadow (copyShadow i s)).alerts.own }
    rw [ih, one]

section

variable (m : Node) (x : Manifest) (s : State)

theorem heardFrom_step : AlertStep (s.claimsChecked m x) (s.heardFrom m x) := by
  unfold State.heardFrom
  exact .copyShadows _

theorem heardFrom_alerts : (s.heardFrom m x).alerts = { s.alerts with own := (s.heardFrom m x).alerts.own } := by
  unfold State.heardFrom
  rw [copyShadows_alerts, claimsChecked_alerts]

theorem heardFrom_roles : (s.heardFrom m x).alerts.own.map (fun o => (o.ident, o.role)) =
    s.alerts.own.map (fun o => (o.ident, o.role)) := by
  rw [(heardFrom_step m x s).roles, claimsChecked_alerts]

theorem heardFrom_peers : (s.heardFrom m x).peers = s.peers.set m ((s.peers.get m).store (s.matchesOwn x.header) x) := by
  rw [(heardFrom_step m x s).peers, (claimsChecked_block m x s).peers, filed_eq]

theorem heardFrom_mode : (s.heardFrom m x).mode = s.mode := by
  rw [(heardFrom_step m x s).mode, (claimsChecked_block m x s).mode, filed_mode]

theorem heardFrom_time : (s.heardFrom m x).time = s.time := by
  rw [(heardFrom_step m x s).time, (claimsChecked_block m x s).time, filed_eq]

theorem heardFrom_inStep : ((s.heardFrom m x).peers.get m).inStep = s.matchesOwn x.header := by
  rw [heardFrom_peers, peers_get_set_self]
  unfold PeerEntry.inStep PeerEntry.store
  cases s.matchesOwn x.header <;> rfl

/-- The leads that other nodes announce are as they were. -/
theorem heardFrom_leadsBut : (s.heardFrom m x).leadsBut m = s.leadsBut m := by
  unfold State.leadsBut
  rw [(heardFrom_step m x s).announced]
  refine leadsBut_congr (fun k ne => ?_) ?_ ?_
  · rw [(claimsChecked_block m x s).peers, filed_eq]
    exact peers_get_set_of_ne s.peers ne _
  · rw [(claimsChecked_block m x s).mode, filed_mode]
  · rw [claimsChecked_alerts]

theorem told_step : AlertStep (s.heardFrom m x) (s.told m x) := by
  unfold State.told
  exact .forEach (AlertStep.headerFor m x.header) _ _

end

section

variable {m : Node} {s : State} (peer : m ≠ s.mode.node) (x : Manifest)
include peer

/-- The peer announces what its header lists. -/
theorem heardFrom_voices : (s.heardFrom m x).voicesOf m = x.header.own.map (fun e => (m, e)) := by
  have entry : (s.heardFrom m x).peers.get m = (s.peers.get m).store (s.matchesOwn x.header) x := by
    rw [heardFrom_peers, peers_get_set_self]
  refine voicesOf_peer (heardFrom_mode m x s ▸ peer) ?_ ?_
  · rw [entry]
    unfold PeerEntry.store PeerEntry.counts
    cases s.matchesOwn x.header <;> rfl
  · rw [entry]
    rfl

theorem mem_heardFrom_self {e : OwnEntry} : (m, e) ∈ (s.heardFrom m x).announced ↔ e ∈ x.header.own := by
  rw [mem_announced, heardFrom_voices peer x]
  simp

/-- A lead announced is the peer's, listed in its header, or another node's, announced before. -/
theorem mem_heardFrom_lead {y : Node × OwnEntry} (mem : y ∈ (s.heardFrom m x).announced) (lead : y.2.role = .lead) :
    y.1 = m ∧ y.2 ∈ x.header.own ∨ y.1 ≠ m ∧ y ∈ s.announced := by
  by_cases self : y.1 = m
  · subst self
    exact .inl ⟨rfl, (mem_heardFrom_self peer x).mp mem⟩
  · have stays : y ∈ (s.heardFrom m x).leadsBut m := mem_leadsBut.mpr ⟨mem, self, lead⟩
    rw [heardFrom_leadsBut] at stays
    exact .inr ⟨self, (mem_leadsBut.mp stays).1⟩

end

theorem hearHeader_eq (m : Node) (x : Manifest) (s : State) :
    hearHeader m (s.peers.get m).header x.header (s.claimsChecked m x) = judged (s.told m x) := by
  unfold hearHeader State.told State.heardFrom
  rfl

/-- On the trunk, what a stored manifest does to the alerts is what judging does once the peer's alerts are told of it. -/
theorem storeManifest_judged {m : Node} {x : Manifest} {s : State} (on : s.onTrunk = true) :
    RelayStep (judged (s.told m x)) (storeManifest m x s) := by
  rw [storeManifest_onTrunk on, ← hearHeader_eq]
  exact keeping_relay _ _

/-! ### A listing as SHADOW or HELD: the lead is lost (R163) -/

/-- One entry of a kind in a list is the one found of a narrower kind it meets. -/
theorem find?_of_filter_eq {α : Type} {p q : α → Bool} {xs : List α} {e : α} (one : xs.filter p = [e])
    (narrow : ∀ y, q y = true → p y = true) (hit : q e = true) : xs.find? q = some e := by
  have mem : e ∈ xs.filter p := one ▸ List.mem_singleton_self e
  cases found : xs.find? q with
  | none => exact absurd hit (List.find?_eq_none.mp found e (List.mem_of_mem_filter mem))
  | some y =>
    have only : y ∈ xs.filter p := List.mem_filter.mpr ⟨List.mem_of_find?_eq_some found, narrow y (List.find?_some found)⟩
    rw [one, List.mem_singleton] at only
    rw [only]

theorem eq_of_filter_eq {α : Type} {p : α → Bool} {xs : List α} {e y : α} (one : xs.filter p = [e]) (mem : y ∈ xs)
    (hit : p y = true) : y = e := by
  have only : y ∈ xs.filter p := List.mem_filter.mpr ⟨mem, hit⟩
  rwa [one, List.mem_singleton] at only

theorem headerFor_demoted {m : Node} {h : Header} {i : Ident} {e : OwnEntry} (s : State)
    (listed : h.own.find? (fun y => y.ident == i) = some e) (demoted : e.role ≠ .lead) :
    headerFor m h i s = loseLead m i s := by
  unfold headerFor
  rw [listed]
  cases role : e.role with
  | lead => exact absurd role demoted
  | shadow | held => simp only [role]

theorem storeManifest_demoted {m : Node} {x : Manifest} {e : OwnEntry} {s : State} (on : s.onTrunk = true)
    (peer : m ≠ s.mode.node) (one : x.header.own.filter (fun y => y.ident.level == e.ident.level) = [e])
    (demoted : e.role ≠ .lead) (alone : ∀ y ∈ s.announced, y.1 ≠ m → y.2.role = .lead → y.2.ident.level = e.ident.level →
      y.2.ident = e.ident ∧ y.2.endCycle = none) : LeadLost m e.ident s (storeManifest m x s) := by
  have listed : x.header.own.find? (fun y => y.ident == e.ident) = some e :=
    find?_of_filter_eq one (fun y same => by simp [beq_iff_eq.mp same]) (by simp)
  have unled : Unled m e.ident s (s.heardFrom m x) := by
    refine ⟨heardFrom_leadsBut m x s, fun y mem self lead level => demoted ?_⟩
    have inHeader : y.2 ∈ x.header.own := (mem_heardFrom_self peer x).mp (self ▸ mem)
    rw [← eq_of_filter_eq one inHeader (by simp [level]), lead]
  have lost : Bereft m e.ident ((s.heardFrom m x).otherLead m e.ident) (s.heardFrom m x) (s.told m x) := by
    unfold State.told
    exact .forEach (List.nodup_dedup _) (mem_ledBy _) (AlertStep.headerFor m x.header) (fun _ ne _ => .headerFor ne m _ _)
      (fun u _ => headerFor_demoted u listed demoted)
  have apart : Apart e.ident s (s.heardFrom m x) := by
    have alerts := heardFrom_alerts m x s
    exact .same (by rw [alerts]) (by rw [alerts]) (by rw [alerts]) (by rw [alerts])
  rw [storeManifest_onTrunk on]
  exact leadLost_of_bereft apart (by rw [heardFrom_alerts]) unled alone lost (told_step m x s) (hearHeader_eq m x s)

end Sys2Proof.Machine
end

