-- ==== Sys2Proof/Proofs/HeardEnds.lean ====
section
/-! SUPPORT. Ends noted, and those that a stored header shows of the alerts its node leads (R155). -/

namespace Sys2Proof.Machine

/-! ### Ends noted (R155) -/

theorem mem_addEnd_of_mem {ends : List EndNote} {n : EndNote} (k : EndNote) (mem : n ∈ ends) : n ∈ addEnd ends k := by
  unfold addEnd
  split
  · exact mem
  · exact List.mem_append_left _ mem

theorem mem_addEnd {ends : List EndNote} {n k : EndNote} (mem : n ∈ addEnd ends k) : n ∈ ends ∨ n = k := by
  unfold addEnd at mem
  split at mem
  · exact .inl mem
  · exact (List.mem_append.mp mem).imp_right List.mem_singleton.mp

theorem mem_addEnd_self {ends : List EndNote} {n : EndNote} (new : ∀ k ∈ ends, k.ident = n.ident → k.lead ≠ n.lead) :
    n ∈ addEnd ends n := by
  have unknown : ends.any (fun k => k.ident == n.ident && k.lead == n.lead) = false := by
    simpa using new
  simp [addEnd, unknown]

/-- An end of the identity and lead is noted, the one given or an earlier one. -/
theorem addEnd_noted (ends : List EndNote) (n : EndNote) : ∃ k ∈ addEnd ends n, k.ident = n.ident ∧ k.lead = n.lead := by
  unfold addEnd
  split
  · rename_i known
    obtain ⟨k, mem, same⟩ := List.any_eq_true.mp known
    rw [Bool.and_eq_true, beq_iff_eq, beq_iff_eq] at same
    exact ⟨k, mem, same⟩
  · exact ⟨n, by simp, rfl, rfl⟩

theorem mem_foldl_addEnd {ends : List EndNote} {n : EndNote} (ns : List EndNote) (mem : n ∈ ends) :
    n ∈ ns.foldl addEnd ends := by
  induction ns generalizing ends with
  | nil => exact mem
  | cons k ns ih => exact ih (mem_addEnd_of_mem k mem)

theorem foldl_addEnd_noted {ns : List EndNote} {n : EndNote} (mem : n ∈ ns) (ends : List EndNote) :
    ∃ k ∈ ns.foldl addEnd ends, k.ident = n.ident ∧ k.lead = n.lead := by
  induction ns generalizing ends with
  | nil => cases mem
  | cons j ns ih =>
    rcases List.mem_cons.mp mem with rfl | later
    · obtain ⟨k, noted, same⟩ := addEnd_noted ends n
      exact ⟨k, mem_foldl_addEnd ns noted, same⟩
    · exact ih later _

/-- Ends noted stay noted while the node judges. -/
theorem mem_judged_ends {s : State} {n : EndNote} (mem : n ∈ s.alerts.ends) : n ∈ (judged s).alerts.ends := by
  have same : (switchSaved (switchLead (pruneScheduled s))).alerts.ends = s.alerts.ends := by
    show (switchLead (pruneScheduled s)).alerts.ends = s.alerts.ends
    rw [switchLead_alerts]
    rfl
  rw [judged_ends]
  exact mem_foldl_addEnd _ (same ▸ mem)

/-- The end that the lead of the followed alert announces is noted (R155, R163). -/
theorem judged_ends_followed {s : State} {f : Followed} {n : EndNote} (followed : s.alerts.followed.map s.relead = some f)
    (ended : s.leadEnd f.ident f.lead = some n) : ∃ k ∈ (judged s).alerts.ends, k.ident = n.ident ∧ k.lead = n.lead := by
  have step : AlertStep s (switchSaved (switchLead (pruneScheduled s))) :=
    (AlertStep.pruneScheduled s).trans ((AlertStep.switchLead _).trans (.switchSaved _))
  have now : (switchSaved (switchLead (pruneScheduled s))).alerts.followed = some f := by
    rw [← followed, show s.alerts.followed.map s.relead = s.releaded.alerts.followed by rw [releaded_alerts]]
    rfl
  rw [judged_ends]
  refine foldl_addEnd_noted (List.mem_filterMap.mpr ⟨(f.ident, f.lead), ?_, ?_⟩) _
  · unfold State.heldLeads
    rw [now]
    simp
  · rw [step.leadEnd]
    exact ended

/-! ### Ends that a header shows (R155) -/

/-- The boundary of the end that a header of node `m` shows for an alert that `m` leads, if it shows one (R155). -/
def State.headerEnd (s : State) (m : Node) (h : Header) (i : Ident) : Option Cycle :=
  match h.own.find? (fun e => e.ident == i) with
  | none => some (if h.frame ≤ 11 then s.time.cycle + 1 else s.time.cycle + 2)
  | some e => if e.role = .lead then e.endCycle.map (s.endBoundary m) else none

theorem headerFor_ends (m : Node) (h : Header) (i : Ident) (s : State) : (headerFor m h i s).alerts.ends =
    match s.headerEnd m h i with
    | some b => addEnd s.alerts.ends ⟨i, m, b⟩
    | none => s.alerts.ends := by
  unfold headerFor State.headerEnd
  cases h.own.find? (fun e => e.ident == i) with
  | none => rfl
  | some e =>
    cases role : e.role with
    | lead =>
      cases ended : e.endCycle with
      | none => simp [role, ended]
      | some c => simp [role, ended]; rfl
    | shadow | held => simp [role]; rfl

theorem AlertStep.headerEnd {s t : State} (h : AlertStep s t) : t.headerEnd = s.headerEnd := by
  funext m x i
  unfold State.headerEnd State.endBoundary
  rw [h.time, h.peers]

/-- The end that a header shows for an alert is noted when its turn comes, if none of that lead was noted. -/
theorem mem_headerFor_ends {m : Node} {h : Header} {i : Ident} {b : Cycle} {js : List Ident} (once : js.Nodup) (mem : i ∈ js)
    {s : State} (shown : s.headerEnd m h i = some b) (new : ∀ n ∈ s.alerts.ends, n.ident = i → n.lead ≠ m) :
    ⟨i, m, b⟩ ∈ (forEach js (headerFor m h) s).alerts.ends := by
  have stays {ks : List Ident} {n : EndNote} {s : State} (noted : n ∈ s.alerts.ends) :
      n ∈ (forEach ks (headerFor m h) s).alerts.ends := by
    induction ks generalizing s with
    | nil => exact noted
    | cons k ks ih =>
      refine ih (s := headerFor m h k s) ?_
      rw [headerFor_ends]
      cases s.headerEnd m h k with
      | none => exact noted
      | some c => exact mem_addEnd_of_mem _ noted
  induction js generalizing s with
  | nil => cases mem
  | cons j js ih =>
    by_cases here : j = i
    · refine stays (s := headerFor m h j s) ?_
      rw [here, headerFor_ends, shown]
      exact mem_addEnd_self new
    · have later := (List.mem_cons.mp mem).resolve_left fun same => here same.symm
      refine ih (s := headerFor m h j s) (List.nodup_cons.mp once).2 later ?_ fun n noted same => ?_
      · rw [(AlertStep.headerFor m h j s).headerEnd]
        exact shown
      · rw [headerFor_ends] at noted
        cases ended : s.headerEnd m h j with
        | none =>
          rw [ended] at noted
          exact new n noted same
        | some c =>
          rw [ended] at noted
          rcases mem_addEnd noted with old | rfl
          · exact new n old same
          · exact absurd same here

/-- What leads an active alert announces it without an end cycle (R151). -/
theorem activeLead_spec {s : State} {i : Ident} {l : Node} (lead : s.activeLead i = some l) :
    ∃ e : OwnEntry, (l, e) ∈ s.announced ∧ e.role = .lead ∧ e.endCycle = none ∧ e.ident = i := by
  unfold State.activeLead at lead
  obtain ⟨a, found, rfl⟩ := Option.map_eq_some_iff.mp lead
  obtain ⟨e, mem, role, open_, same⟩ := mem_activeAlerts.mp (List.mem_of_find?_eq_some found)
  have ident := List.find?_some found
  rw [beq_iff_eq, same] at ident
  exact ⟨e, mem, role, open_, ident⟩

/-- Judging leaves no scheduled entry of an alert with a lead that does not lead it as an active one. -/
theorem judged_unscheduled {s : State} {m : Node} {i : Ident}
    (ended : ∀ e : OwnEntry, (m, e) ∈ s.announced → e.role = .lead → e.ident = i → e.endCycle ≠ none) :
    ∀ y ∈ (judged s).alerts.scheduled, y.ident = i → y.lead ≠ m := by
  intro y mem same lead
  rw [judged_scheduled] at mem
  obtain ⟨z, there, rfl⟩ := List.mem_map.mp mem
  rcases mem_nextScheduled there with kept | ⟨a, active, rfl⟩
  · obtain ⟨w, -, l, found, rfl⟩ := mem_keptScheduled.mp kept
    obtain ⟨e, announced, role, open_, ident⟩ := activeLead_spec found
    exact ended e (lead ▸ announced) role (ident.trans same) open_
  · obtain ⟨e, announced, role, open_, made⟩ := mem_activeAlerts.mp active
    have ident : e.ident = a.ident := by rw [made]
    exact ended e (lead ▸ announced) role (ident.trans same) open_

/-! ### An end heard of an alert that the peer leads -/

section

variable {m : Node} {x : Manifest} {i : Ident} {s : State}

/-- The alerts of which the peer leads a record are told of its header, those of which the node holds a SHADOW copy too. -/
theorem mem_ledBy_heardFrom (peer : m ≠ s.mode.node) (leads : s.Leads m i ∨
    ∃ o ∈ s.alerts.own, o.ident = i ∧ o.role = .shadow ∧
      (∃ h, (s.peers.get m).header = some h ∧ ∃ e ∈ h.own, e.ident = i ∧ e.role = .lead) ∧
      ∀ y ∈ s.announced, y.2.ident = i → y.2.role = .lead → y.1 = m) :
    i ∈ (s.heardFrom m x).ledBy m (s.peers.get m).header := by
  rcases leads with leads | ⟨o, own, ident, shadow, ⟨h, header, e, inHeader, listed, led⟩, alone⟩
  · refine mem_ledBy _ ?_
    unfold State.Leads
    rw [heardFrom_alerts]
    exact leads
  · have role : (i, Role.shadow) ∈ (s.heardFrom m x).alerts.own.map (fun o => (o.ident, o.role)) := by
      rw [heardFrom_roles]
      exact List.mem_map.mpr ⟨o, own, by rw [ident, shadow]⟩
    obtain ⟨o', own', same⟩ := List.mem_map.mp role
    obtain ⟨ident', shadow'⟩ := Prod.mk.inj same
    have all : ((s.heardFrom m x).leadsOf i).all (fun n => n == m) = true := by
      refine List.all_eq_true.mpr fun n mem => ?_
      obtain ⟨e', announced, lead, same'⟩ := mem_leadsOf.mp mem
      rcases mem_heardFrom_lead peer x announced lead with ⟨self, -⟩ | ⟨-, before⟩
      · exact beq_iff_eq.mpr self
      · exact beq_iff_eq.mpr (alone _ before same' lead)
    have before : h.own.any (fun e => e.ident == i && e.role == .lead) = true :=
      List.any_eq_true.mpr ⟨e, inHeader, by simp [listed, led]⟩
    unfold State.ledBy
    rw [List.mem_dedup, header]
    refine List.mem_append_right _ (List.mem_map.mpr ⟨o', List.mem_filter.mpr ⟨own', ?_⟩, ident'⟩)
    simp only [ident', shadow', all, before, Bool.and_self, beq_self_eq_true]

/-- An end that the header shows is noted, and a scheduled entry of the alert with that lead goes (R155). -/
theorem storeManifest_ends (on : s.onTrunk = true) (peer : m ≠ s.mode.node)
    (told : i ∈ (s.heardFrom m x).ledBy m (s.peers.get m).header) (new : ∀ n ∈ s.alerts.ends, n.ident = i → n.lead ≠ m)
    {b : Cycle} (shown : (s.heardFrom m x).headerEnd m x.header i = some b)
    (ended : ∀ e ∈ x.header.own, e.role = .lead → e.ident = i → e.endCycle ≠ none) :
    (⟨i, m, b⟩ : EndNote) ∈ (storeManifest m x s).alerts.ends ∧
      ∀ y ∈ (storeManifest m x s).alerts.scheduled, y.ident = i → y.lead ≠ m := by
  have swept := storeManifest_judged (m := m) (x := x) on
  have ends : (storeManifest m x s).alerts.ends = (judged (s.told m x)).alerts.ends := by rw [swept.alerts]
  have noted : (⟨i, m, b⟩ : EndNote) ∈ (s.told m x).alerts.ends := by
    unfold State.told
    refine mem_headerFor_ends (List.nodup_dedup _) told shown ?_
    rw [heardFrom_alerts]
    exact new
  rw [ends, swept.scheduled]
  refine ⟨mem_judged_ends noted, judged_unscheduled fun e mem lead same => ?_⟩
  rw [(told_step m x s).announced] at mem
  exact ended e ((mem_heardFrom_self peer x).mp mem) lead same

end

end Sys2Proof.Machine
end

