-- ==== Sys2Proof/Proofs/HeardHold.lean ====
section
/-! SUPPORT. An orphan hold that ends as a stored header lists the followed alert as led (R163). -/

namespace Sys2Proof.Machine

/-! ### An orphan hold ended by a header (R163) -/

/-- A header that lists an alert as led leaves the alert with its lead. -/
theorem headerFor_followed {m : Node} {h : Header} {i : Ident} {e : OwnEntry} (s : State)
    (listed : h.own.find? (fun y => y.ident == i) = some e) (lead : e.role = .lead) :
    (headerFor m h i s).alerts.followed = s.alerts.followed := by
  unfold headerFor
  rw [listed]
  simp only [lead]
  cases e.endCycle with
  | none | some c => rfl

/-- The peer's one entry of an alert, as LEAD, is its lead entry. -/
theorem leadEntry_heardFrom {m : Node} {x : Manifest} {i : Ident} {e : OwnEntry} {s : State} (peer : m ≠ s.mode.node)
    (one : x.header.own.filter (fun y => y.ident == i) = [e]) (lead : e.role = .lead) :
    (s.heardFrom m x).leadEntry m i = some e := by
  have listed : e ∈ x.header.own.filter (fun y => y.ident == i) := one ▸ List.mem_singleton_self e
  have announced := (mem_heardFrom_self peer x).mpr (List.mem_of_mem_filter listed)
  unfold State.leadEntry
  cases found : (s.heardFrom m x).announced.find? (fun y => y.1 == m && y.2.ident == i && y.2.role == .lead) with
  | none =>
    have none := List.find?_eq_none.mp found (m, e) announced
    simp [beq_iff_eq.mp (List.mem_filter.mp listed).2, lead] at none
  | some y =>
    have hit := List.find?_some found
    simp only [Bool.and_eq_true, beq_iff_eq] at hit
    obtain ⟨⟨rfl, same⟩, -⟩ := hit
    have inHeader := (mem_heardFrom_self peer x).mp (List.mem_of_find?_eq_some found)
    rw [Option.map_some, eq_of_filter_eq one inHeader (beq_iff_eq.mpr same)]

section

variable {m : Node} {x : Manifest} {e : OwnEntry} {f : Followed} {s : State} (peer : m ≠ s.mode.node)
  (followed : s.alerts.followed = some f) (one : x.header.own.filter (fun y => y.ident == f.ident) = [e])
  (lead : e.role = .lead)
include one lead

include followed in
theorem told_followed : (s.told m x).alerts.followed = some f := by
  have listed : x.header.own.find? (fun y => y.ident == f.ident) = some e := by rw [← List.head?_filter, one]; rfl
  have start : (s.heardFrom m x).alerts.followed = some f := by rw [heardFrom_alerts, followed]
  unfold State.told
  generalize (s.heardFrom m x).ledBy m (s.peers.get m).header = js
  generalize s.heardFrom m x = u at start
  induction js generalizing u with
  | nil => exact start
  | cons j js ih =>
    refine ih (headerFor m x.header j u) ?_
    by_cases here : j = f.ident
    · subst here
      rw [headerFor_followed u listed lead, start]
    · exact (Apart.headerFor here m x.header u).followed f start rfl

variable (hold : f.hold ≠ none) (alone : ∀ y ∈ s.announced, y.1 ≠ m → y.2.ident = f.ident → y.2.role ≠ .lead)
include peer hold alone

/-- The peer is the one lead announced, and takes the alert in its orphan hold. -/
theorem told_relead : (s.told m x).relead f = { f with lead := m, hold := none } := by
  have step := told_step m x s
  have only {n : Node} {y : OwnEntry} (mem : (n, y) ∈ (s.heardFrom m x).announced) (role : y.role = .lead)
      (same : y.ident = f.ident) : n = m := by
    rcases mem_heardFrom_lead peer x mem role with ⟨self, -⟩ | ⟨other, before⟩
    · exact self
    · exact absurd role (alone _ before other same)
  have inHeader : e ∈ x.header.own ∧ e.ident = f.ident := by
    have mem : e ∈ x.header.own.filter (fun y => y.ident == f.ident) := one ▸ List.mem_singleton_self e
    exact ⟨List.mem_of_mem_filter mem, beq_iff_eq.mp (List.mem_filter.mp mem).2⟩
  have leads : m ∈ (s.told m x).leadsOf f.ident := by
    rw [step.leadsOf]
    exact mem_leadsOf.mpr ⟨e, (mem_heardFrom_self peer x).mpr inHeader.1, lead, inHeader.2⟩
  have next : (s.told m x).nextLead f.ident f.lead f.hold = some m := by
    have lost : (s.told m x).leadLost f.ident f.lead f.hold = true := by
      simp [State.leadLost, Option.isSome_iff_ne_none.mpr hold]
    unfold State.nextLead
    rw [if_pos lost]
    cases head : ((s.told m x).leadsOf f.ident).head? with
    | none => rw [List.head?_eq_none_iff.mp head] at leads; cases leads
    | some n =>
      have mem := List.mem_of_head? head
      rw [step.leadsOf] at mem
      obtain ⟨y, announced, role, same⟩ := mem_leadsOf.mp mem
      rw [only announced role same]
  unfold State.relead
  rw [next]
  cases active : (s.told m x).activeLead f.ident with
  | none => rfl
  | some n =>
    rw [step.activeLead] at active
    obtain ⟨y, announced, role, -, same⟩ := activeLead_spec active
    rw [only announced role same]
    rfl

include followed in
theorem storeManifest_hold (on : s.onTrunk = true) :
    (storeManifest m x s).alerts.followed = some { f with lead := m, hold := none } ∧
      (e.endCycle ≠ none → ∃ n ∈ (storeManifest m x s).alerts.ends, n.ident = f.ident ∧ n.lead = m) := by
  have swept := storeManifest_judged (m := m) (x := x) on
  have ends : (storeManifest m x s).alerts.ends = (judged (s.told m x)).alerts.ends := by rw [swept.alerts]
  have taken : (s.told m x).alerts.followed.map (s.told m x).relead = some { f with lead := m, hold := none } := by
    rw [told_followed followed one lead, Option.map_some, told_relead peer one lead hold alone]
  refine ⟨?_, fun ended => ?_⟩
  · rw [swept.followed, judged_followed, taken]
  · obtain ⟨c, given⟩ := Option.ne_none_iff_exists'.mp ended
    have step := told_step m x s
    have entry : (s.told m x).leadEntry m f.ident = some e := by
      rw [step.leadEntry, leadEntry_heardFrom peer one lead]
    have shown : (s.told m x).leadEnd f.ident m = some ⟨f.ident, m, (s.told m x).endBoundary m c⟩ := by
      have node : m ≠ (s.told m x).node := by
        rw [step.node, State.node, heardFrom_mode]
        exact peer
      unfold State.leadEnd
      rw [if_neg node, entry]
      simp [given]
    rw [ends]
    exact judged_ends_followed taken shown

end

end Sys2Proof.Machine
end

