-- ==== Sys2Proof/Proofs/HeardSlot.lean ====
section
/-! SUPPORT. A valid manifest at the third directory slot of its node: stored, or a duplicate found (R17, R27, R28, R40). -/

namespace Sys2Proof.Machine

/-! ### A valid manifest handed over at the third directory slot (R17, R27, R28, R40) -/

/-- The node once a JOINING node without a cycle source has taken over the header's cycle number, if its frame index is the
node's (R27). -/
def State.adopted (s : State) (m : Node) (h : Header) : State :=
  if s.mode.mode = .joining ∧ s.mode.cycleSource = none ∧ h.frame = s.frameIndex then
    { s with time := { s.time with cycle := h.cycle }, mode := { s.mode with cycleSource := some m } }
  else s

theorem adoptCycle_eq (m : Node) (h : Header) (s : State) :
    (if s.mode.mode = .joining then adoptCycle m h s else s) = s.adopted m h := by
  unfold adoptCycle State.adopted
  simp only [Option.isNone_iff_eq_none]
  by_cases joining : s.mode.mode = .joining
  · simp only [joining, true_and, if_true]
    rfl
  · simp only [joining, false_and, if_false]

theorem passManifest_valid {m : Node} {heard : Option (List Byte)} {x : Manifest} (s : State)
    (valid : heard.bind judgeManifest = some x) : passManifest m heard s =
      if x.header.node = m.val then storeManifest m x (s.adopted m x.header) else unheardReport m s := by
  unfold passManifest
  rw [valid, ← adoptCycle_eq]
  dsimp only
  by_cases named : x.header.node = m.val
  · rw [if_pos named, if_neg (not_not.mpr named)]
  · rw [if_neg named, if_pos named]

/-- A peer's result is passed on from JOINING on. -/
theorem handOver_peer {m : Node} (heard : Option (List Byte)) {s : State} (peer : m ≠ s.mode.node)
    (mode : s.mode.mode ∈ [.joining, .active, .standby, .withdrawing]) : handOver m heard s = passManifest m heard s := by
  unfold handOver State.node
  simp only [List.mem_cons, List.not_mem_nil, or_false] at mode
  rcases mode with mode | mode | mode | mode <;> simp only [mode, peer, if_false]

/-- A manifest under a JOINING node's own number is a duplicate (R28). -/
theorem handOver_duplicate {m : Node} {heard : Option (List Byte)} {x : Manifest} {s : State} (own : m = s.mode.node)
    (joining : s.mode.mode = .joining) (valid : heard.bind judgeManifest = some x) :
    handOver m heard s = duplicateFound (3 * m.val) s := by
  unfold handOver State.node
  simp only [joining, own, if_true, valid]

/-- The node is HALTED once a duplicate is found, and DUPLICATE names the slot (R28, R34). -/
theorem duplicateFound_spec (slot : Nat) {s : State} (room : s.Room 1) :
    let t := duplicateFound slot s
    t.mode = { s.mode with mode := .halted } ∧ t.events.nfault = true ∧
      Posted s t [(.duplicate, s.mode.node.val, none, slot)] ∧
      t = { s with mode := t.mode, events := t.events, trunk := t.trunk } :=
  ⟨rfl, rfl, post_posted (s := s) room .duplicate s.mode.node.val none slot, rfl⟩

/-- Three readings of the node's tag are heard in a row (R17). -/
theorem heardBytes_read {s : State} {m : Node} {c0 c1 : List Byte} {last : DirRead} (content : List Byte)
    (read : s.trunk.directory = (.read (tagOf m .manifest) c0, .read (tagOf m .manifest) c1, last)) :
    s.heardBytes m (tagOf m .manifest) content = some (c0 ++ c1 ++ content) := by
  unfold State.heardBytes heardManifest
  rw [read]
  simp only [and_self, if_true]

end Sys2Proof.Machine
end

