-- ==== Sys2Proof/Proofs/Murmurs.lean ====
section
/-! SUPPORT. How many records a stored manifest and its claim checks post at most, ALERT_HELD none of them. -/

namespace Sys2Proof.Machine

/-! ### Records posted that are no ALERT_HELD -/

/-- From `s` to `t` at most `n` records were posted, ALERT_HELD none of them. -/
def Murmurs (n : Nat) (s t : State) : Prop := ∃ es, Posted s t es ∧ es.length ≤ n ∧ ∀ e ∈ es, e.1 ≠ .alertHeld

namespace Murmurs

variable {n k : Nat} {s t u : State}

theorem silent (n : Nat) (events : t.events = s.events := by rfl) : Murmurs n s t :=
  ⟨[], .of_queue (by rw [events]), Nat.zero_le n, fun _ mem => absurd mem List.not_mem_nil⟩

theorem trans (h : Murmurs n s t) (l : Murmurs k t u) : Murmurs (n + k) s u := by
  obtain ⟨es, posted, few, kinds⟩ := h
  obtain ⟨fs, posted', few', kinds'⟩ := l
  refine ⟨es ++ fs, posted.trans posted', ?_, fun e mem => ?_⟩
  · rw [List.length_append]
    exact Nat.add_le_add few few'
  · exact (List.mem_append.mp mem).elim (kinds e) (kinds' e)

theorem mono (h : Murmurs n s t) (le : n ≤ k) : Murmurs k s t := by
  obtain ⟨es, posted, few, kinds⟩ := h
  exact ⟨es, posted, few.trans le, kinds⟩

theorem cond (c : Prop) [Decidable c] (h : Murmurs n s t) (l : Murmurs n s u) : Murmurs n s (if c then t else u) := by
  split
  · exact h
  · exact l

theorem post {kind : EventKind} (other : kind ≠ .alertHeld) (m : Nat) (l : Option LaneId) (a : Nat) (s : State) :
    Murmurs 1 s (post kind m l a s) := by
  by_cases room : s.Room 1
  · exact ⟨_, post_posted room .., le_rfl, by simpa using other⟩
  · refine ⟨[], .of_queue ?_, Nat.zero_le 1, fun _ mem => absurd mem List.not_mem_nil⟩
    have full : ¬ s.events.queue.length < Config.eventRecords := room
    simp [Machine.post, EventOut.offer, full]

theorem postSelf {kind : EventKind} (other : kind ≠ .alertHeld) (l : Option LaneId) (a : Nat) (s : State) :
    Murmurs 1 s (postSelf kind l a s) := post other ..

theorem interruptPicture (l : Lane) (s : State) : Murmurs 1 s (interruptPicture l s) := by
  unfold Machine.interruptPicture
  split
  · exact silent 1
  · exact cond _ (trans (n := 0) (silent 0) (postSelf (by decide) ..)) (silent 1)

theorem statusIfHeld (i : LaneId) (x : Intake) (s : State) : Murmurs 0 s (statusIfHeld i x s) := by
  obtain ⟨lines, e⟩ := statusIfHeld_eq i x s
  rw [e]
  exact silent 0

theorem closeAlert (s : State) : Murmurs 1 s (closeLane .alert s) :=
  trans (n := 0) (silent 0) (trans (k := 0) (postSelf (by decide) ..) (statusIfHeld ..))

theorem closeLane (l : Lane) (s : State) : Murmurs 2 s (closeLane (.svc l) s) :=
  trans (n := 0) (silent 0) (trans (n := 1) (trans (n := 0) (silent 0) (interruptPicture ..))
    (trans (k := 0) (postSelf (by decide) ..) (statusIfHeld ..)))

theorem reportService (l : Lane) (s : State) : Murmurs 2 s (reportService l s) := by
  have state (x : LaneState) (s : State) : Murmurs 2 s (setLaneState (.svc l) x s) := silent 2
  have still : Murmurs 2 s s := silent 2
  unfold Machine.reportService
  dsimp only
  split
  · exact still
  · exact cond _ (state ..) still
  · exact cond _ (state ..) still
  · exact cond _ (state ..) (cond _ (state ..) still)
  · unfold checkRestore
    dsimp only
    split
    · exact cond _ (silent 2) still
    · exact still
  · exact cond _ (closeLane ..) still

theorem reportAlert (s : State) : Murmurs 2 s (reportAlert s) := by
  have state (x : LaneState) (s : State) : Murmurs 2 s (setLaneState .alert x s) := silent 2
  have still : Murmurs 2 s s := silent 2
  unfold Machine.reportAlert
  dsimp only
  split
  · exact cond _ (state ..) still
  · exact cond _ (state ..) still
  · exact cond _ (trans (k := 1) (closeAlert s)
      (cond _ (trans (n := 0) (silent 0) (postSelf (by decide) ..)) (silent 1))) still
  all_goals exact still

theorem reportLane (i : LaneId) (s : State) : Murmurs 2 s (reportLane i s) := by
  cases i with
  | svc l => exact trans (n := 0) (silent 0) (reportService l _)
  | alert => exact trans (n := 0) (silent 0) (reportAlert _)

end Murmurs

/-- The number of lanes with a pending change. -/
def State.changesPending (s : State) : Nat := LaneId.planningOrder.countP (fun i => (s.tenancy.get i).change.isSome)

theorem changesPending_lt {s t : State} {i : LaneId} (others : ∀ j, j ≠ i → t.tenancy.get j = s.tenancy.get j)
    (was : ((s.tenancy.get i).change).isSome = true) (gone : (t.tenancy.get i).change = none) :
    t.changesPending + 1 = s.changesPending := by
  have mem : i ∈ LaneId.planningOrder := by rcases i with (_ | _ | _) | _ <;> decide
  have once : LaneId.planningOrder.Nodup := by decide
  have perm := List.perm_cons_erase mem
  unfold State.changesPending
  rw [perm.countP_eq, perm.countP_eq, List.countP_cons_of_pos (p := fun i => (s.tenancy.get i).change.isSome) was,
    List.countP_cons_of_neg (by simp [gone])]
  refine congrArg (· + 1) (List.countP_congr fun j inRest => ?_)
  rw [others j (once.mem_erase_iff.mp inRest).1]

/-- Checks of pending claims with a stored sheet: three records at most for each change that goes, ALERT_HELD none of them. -/
def ChecksTold (s t : State) : Prop := ∃ n, Murmurs n s t ∧ n + 3 * t.changesPending ≤ 3 * s.changesPending

namespace ChecksTold

theorem refl (s : State) : ChecksTold s s := ⟨0, .silent 0, by omega⟩

theorem trans {s t u : State} (h : ChecksTold s t) (k : ChecksTold t u) : ChecksTold s u := by
  obtain ⟨n, told, paid⟩ := h
  obtain ⟨l, told', paid'⟩ := k
  exact ⟨n + l, told.trans told', by omega⟩

theorem conflictCheck (m : Node) (b : Bool) (sh : Sheet) (i : LaneId) (s : State) :
    ChecksTold s (conflictCheck m b sh i s) := by
  rw [conflictCheck_eq]
  cases found : s.conflictCause m b sh i with
  | none => exact refl s
  | some cause =>
    have was : (s.tenancy.get i).change.isSome = true := by
      unfold State.conflictCause at found
      cases change : (s.tenancy.get i).change with
      | none => simp [change] at found
      | some c => rfl
    have gone : ((reportLane i (s.claimWithdrawn i cause m)).tenancy.get i).change = none := by
      rw [reportLane_tenancy]
      simp [State.claimWithdrawn, postSelf, post, State.setEvents, onTenancy]
    have others (j : LaneId) (ne : j ≠ i) : (reportLane i (s.claimWithdrawn i cause m)).tenancy.get j = s.tenancy.get j := by
      rw [reportLane_tenancy_of_ne ne]
      exact Quad.get_set_of_ne _ _ _ _ ne
    have told : Murmurs 3 s (reportLane i (s.claimWithdrawn i cause m)) :=
      .trans (n := 1) (.trans (n := 0) (.silent 0) (.postSelf (by decide) ..)) (.reportLane ..)
    have paid := changesPending_lt others was gone
    exact ⟨3, told, by dsimp only; omega⟩

theorem forEach {α : Type} {f : α → State → State} (h : ∀ x s, ChecksTold s (f x s)) (xs : List α) (s : State) :
    ChecksTold s (forEach xs f s) := by
  induction xs generalizing s with
  | nil => exact refl s
  | cons x xs ih => exact (h x s).trans (ih (f x s))

end ChecksTold

theorem claimsChecked_murmurs (m : Node) (x : Manifest) (s : State) : Murmurs 13 s (s.claimsChecked m x) := by
  have filed : Murmurs 1 s (s.filed m x) := by
    have stored : Murmurs 1 s (postStored m (s.peers.get m).state (s.matchesOwn x.header) x.header s) := by
      unfold postStored
      cases s.matchesOwn x.header with
      | true =>
        cases (s.peers.get m).state with
        | silent | lost | outOfStep => exact .post (by decide) ..
        | unheard | present => exact .silent 1
      | false =>
        cases (s.peers.get m).state with
        | outOfStep => exact .silent 1
        | unheard | present | silent | lost => exact .post (by decide) ..
    exact stored.trans (k := 0) (.silent 0)
  have checks : ChecksTold (s.filed m x) (s.claimsChecked m x) := by
    unfold State.claimsChecked checkConflicts
    split
    · exact (ChecksTold.forEach (.conflictCheck m _ _) _ _).trans (.forEach (.conflictCheck m _ _) _ _)
    · exact .refl _
  obtain ⟨n, told, paid⟩ := checks
  have four : (s.filed m x).changesPending ≤ 4 := List.countP_le_length
  exact (filed.trans told).mono (by omega)

end Sys2Proof.Machine
end

