-- ==== Sys2Proof/Proofs/HeardLead.lean ====
section
/-! SUPPORT. A lead that a stored header announces of an alert new to the node: what is active with it, and what its scheduled
entry says (R151, R153). -/

namespace Sys2Proof.Machine

/-- The followed alert gives the level (R154). -/
theorem followed_level {s : State} (sound : s.alerts.Sound) {f : Followed} (followed : s.alerts.followed = some f) :
    f.ident.level = s.alerts.level := by
  unfold AlertCtl.Sound at sound
  rw [followed] at sound
  cases stack : s.alerts.stack with
  | nil =>
    rw [stack] at sound
    obtain ⟨-, none⟩ := sound
    cases none
  | cons c rest =>
    rw [stack] at sound
    obtain ⟨-, level, -⟩ := sound
    exact Option.some.inj level

/-- The lead of an active alert is that of an active alert of its identity. -/
theorem activeLead_active {s : State} {i : Ident} {l : Node} (lead : s.activeLead i = some l) :
    ∃ a ∈ s.activeAlerts, a.ident = i ∧ a.lead = l := by
  unfold State.activeLead at lead
  obtain ⟨a, found, rfl⟩ := Option.map_eq_some_iff.mp lead
  have hit := List.find?_some found
  exact ⟨a, List.mem_of_find?_eq_some found, beq_iff_eq.mp hit, rfl⟩

/-- Peer `m` lists one alert, as its lead and without an end cycle; the node holds it nowhere, and no other active alert but
the followed one is announced. -/
structure NewLead (m : Node) (x : Manifest) (e : OwnEntry) (s : State) : Prop where
  peer : m ≠ s.mode.node
  own : x.header.own = [e]
  lead : e.role = .lead
  endless : e.endCycle = none
  fresh : s.followsOrScheduled e.ident = false
  unsaved : s.saved e.ident = false
  sound : s.alerts.Sound
  others : ∀ y ∈ s.announced, y.1 ≠ m → y.2.role = .lead → y.2.endCycle = none →
    s.alerts.followed.map (fun f => f.ident) = some y.2.ident

namespace NewLead

variable {m : Node} {x : Manifest} {e : OwnEntry} {s : State} (h : NewLead m x e s)
include h

theorem headerFor_cases (j : Ident) (u : State) :
    headerFor m x.header j u = u ∨ ∃ b, headerFor m x.header j u = noteEnd j m b (unschedule j m u) := by
  unfold headerFor
  rw [h.own]
  by_cases here : e.ident = j
  · simp [here, h.lead, h.endless]
  · exact .inr ⟨_, by simp [here]; rfl⟩

/-- The alerts that the peer led before lose no more than their scheduled entries. -/
theorem told_alerts : ∃ scheduled ends, (s.told m x).alerts =
    { (s.heardFrom m x).alerts with scheduled := scheduled, ends := ends } ∧ scheduled ⊆ s.alerts.scheduled := by
  have start : (s.heardFrom m x).alerts.scheduled = s.alerts.scheduled := by rw [heardFrom_alerts]
  unfold State.told
  rw [← start]
  generalize (s.heardFrom m x).ledBy m (s.peers.get m).header = js
  generalize s.heardFrom m x = u
  induction js generalizing u with
  | nil => exact ⟨_, _, rfl, List.Subset.refl _⟩
  | cons j js ih =>
    obtain ⟨scheduled, ends, alerts, sub⟩ := ih (headerFor m x.header j u)
    refine ⟨scheduled, ends, alerts.trans ?_, List.Subset.trans sub ?_⟩
    · rcases h.headerFor_cases j u with same | ⟨b, noted⟩
      · rw [same]
      · rw [noted]; rfl
    · rcases h.headerFor_cases j u with same | ⟨b, noted⟩
      · rw [same]
        exact List.Subset.refl _
      · rw [noted]
        exact List.filter_subset_self _

theorem told_lists : (s.told m x).alerts.followed = s.alerts.followed ∧ (s.told m x).alerts.stack = s.alerts.stack ∧
    (s.told m x).alerts.pendingAlerts = s.alerts.pendingAlerts ∧ (s.told m x).alerts.scheduled ⊆ s.alerts.scheduled ∧
    (s.told m x).alerts.level = s.alerts.level := by
  obtain ⟨scheduled, ends, alerts, sub⟩ := h.told_alerts
  rw [alerts, heardFrom_alerts]
  exact ⟨rfl, rfl, rfl, sub, rfl⟩

/-- The identity is not the followed alert's. -/
theorem not_followed : s.alerts.followed.map (fun f => f.ident) ≠ some e.ident := by
  have fresh := h.fresh
  unfold State.followsOrScheduled at fresh
  cases followed : s.alerts.followed with
  | none => simp
  | some f =>
    simp only [followed, Bool.or_eq_false_iff, beq_eq_false_iff_ne] at fresh
    simpa using fresh.1

theorem not_scheduled {z : Scheduled} (mem : z ∈ s.alerts.scheduled) : z.ident ≠ e.ident := by
  have fresh := h.fresh
  unfold State.followsOrScheduled at fresh
  rw [Bool.or_eq_false_iff, List.any_eq_false] at fresh
  simpa using fresh.2 z mem

/-- What the peer announces is active, and else the followed alert at most. -/
theorem told_active {a : HeldAlert} (mem : a ∈ (s.told m x).activeAlerts) :
    a = ⟨e.ident, m, e.yield⟩ ∨ s.alerts.followed.map (fun f => f.ident) = some a.ident := by
  rw [(told_step m x s).activeAlerts] at mem
  obtain ⟨y, announced, role, open_, same⟩ := mem_activeAlerts.mp mem
  rcases mem_heardFrom_lead h.peer x announced role with ⟨self, inHeader⟩ | ⟨other, before⟩
  · rw [h.own, List.mem_singleton] at inHeader
    dsimp only at self inHeader
    rw [same, inHeader, self]
    exact .inl rfl
  · refine .inr ?_
    rw [same]
    exact h.others _ before other role open_

theorem mem_told_active : (⟨e.ident, m, e.yield⟩ : HeldAlert) ∈ (s.told m x).activeAlerts := by
  rw [(told_step m x s).activeAlerts]
  exact mem_activeAlerts.mpr ⟨e, (mem_heardFrom_self h.peer x).mpr (by simp [h.own]), h.lead, h.endless, rfl⟩

theorem told_activeLead : (s.told m x).activeLead e.ident = some m := by
  obtain ⟨l, found⟩ := Option.isSome_iff_exists.mp (activeLead_isSome h.mem_told_active)
  obtain ⟨a, active, ident, lead⟩ := activeLead_active found
  rcases h.told_active active with mine | followed
  · rw [found, ← lead, mine]
  · rw [ident] at followed
    exact absurd followed h.not_followed

/-- A scheduled entry that stays is that of the followed alert. -/
theorem told_kept {z : Scheduled} (mem : z ∈ (s.told m x).keptScheduled) :
    z.ident ≠ e.ident ∧ s.alerts.followed.map (fun f => f.ident) = some z.ident := by
  obtain ⟨-, -, -, sub, -⟩ := h.told_lists
  obtain ⟨w, there, l, found, rfl⟩ := mem_keptScheduled.mp mem
  have ident := h.not_scheduled (sub there)
  refine ⟨ident, ?_⟩
  obtain ⟨a, active, same, -⟩ := activeLead_active found
  rcases h.told_active active with mine | followed
  · rw [mine] at same
    exact absurd same.symm ident
  · rwa [same] at followed

theorem told_keeps : (s.told m x).keepsScheduled e.ident = false := by
  obtain ⟨followed, -⟩ := h.told_lists
  have free := h.not_followed
  unfold State.keepsScheduled
  rw [followed, Bool.or_eq_false_iff, List.any_eq_false]
  refine ⟨?_, fun z mem => by simpa using (h.told_kept mem).1⟩
  cases given : s.alerts.followed with
  | none => rfl
  | some f =>
    rw [given] at free
    simpa using free

/-- The followed alert's level is the current one. -/
theorem level_of_followed {i : Ident} (followed : s.alerts.followed.map (fun f => f.ident) = some i) :
    i.level = s.alerts.level := by
  obtain ⟨f, given, rfl⟩ := Option.map_eq_some_iff.mp followed
  exact followed_level h.sound given

theorem told_yield : (s.told m x).yieldLast m e.ident e.yield = e.yield := by
  have entry : (s.heardFrom m x).leadEntry m e.ident = some e :=
    leadEntry_heardFrom h.peer (by simp [h.own]) h.lead
  unfold State.yieldLast
  rw [(told_step m x s).leadEntry, entry]

/-- The scheduled entry of the alert (R151, R153). -/
theorem told_newEntry : (s.told m x).newEntry ⟨e.ident, m, e.yield⟩ =
    let inStep := x.header.cycle = s.time.cycle ∧ x.header.frame = s.frameIndex
    let ahead := (e.entry - s.time.cycle).toNat = 1 ∨ (e.entry - s.time.cycle).toNat = 2
    ⟨e.ident, m, if inStep ∧ ahead then e.entry else s.time.cycle + 1,
      if ¬ inStep then .outOfStep else if ahead then .onTime else .late, e.yield⟩ := by
  have step := told_step m x s
  have entry : (s.told m x).announcedBy m e.ident = some e := by
    rw [step.announcedBy]
    unfold State.announcedBy
    cases found : (s.heardFrom m x).announced.find? (fun y => y.1 == m && y.2.ident == e.ident) with
    | none =>
      have none := List.find?_eq_none.mp found (m, e) ((mem_heardFrom_self h.peer x).mpr (by simp [h.own]))
      simp at none
    | some y =>
      have hit := List.find?_some found
      simp only [Bool.and_eq_true, beq_iff_eq] at hit
      obtain ⟨rfl, -⟩ := hit
      have inHeader := (mem_heardFrom_self h.peer x).mp (List.mem_of_find?_eq_some found)
      rw [h.own, List.mem_singleton] at inHeader
      rw [Option.map_some, inHeader]
  have node : m ≠ (s.heardFrom m x).node := by rw [State.node, heardFrom_mode]; exact h.peer
  unfold State.newEntry
  simp only [entry, step.timingOf]
  unfold State.timingOf soon
  rw [if_neg node, heardFrom_inStep, heardFrom_time, matchesOwn_eq]
  simp only [decide_eq_true_eq]
  by_cases inStep : x.header.cycle = s.time.cycle ∧ x.header.frame = s.frameIndex
  · by_cases ahead : (e.entry - s.time.cycle).toNat = 1 ∨ (e.entry - s.time.cycle).toNat = 2
    · simp only [inStep, ahead, and_self, if_true, not_true, if_false]
    · simp only [inStep, ahead, and_false, and_self, if_true, not_true, if_false]
  · simp only [inStep, false_and, if_false, not_false_eq_true, if_true]

end NewLead

/-! ### Identities kept while the node judges -/

theorem relead_ident (s : State) (f : Followed) : (s.relead f).ident = f.ident := by
  unfold State.relead
  split <;> rfl

theorem rescheduled_followed (s : State) :
    s.rescheduled.alerts.followed.map (fun f => f.ident) = s.alerts.followed.map (fun f => f.ident) := by
  rw [rescheduled_alerts, releaded_alerts, Option.map_map]
  exact congrArg (fun g => s.alerts.followed.map g) (funext fun f => relead_ident s f)

theorem resave_ident (s : State) (c : Context) :
    (s.resave c).followed.map (fun f => f.ident) = c.followed.map (fun f => f.ident) := by
  unfold State.resave
  split
  · split
    · rename_i given _ _ _
      rw [given]
      rfl
    · rfl
  · rfl

theorem rescheduled_saved (s : State) (i : Ident) : s.rescheduled.saved i = s.saved i := by
  have saved (c : Context) : (match c.followed with | some f => f.ident == i | none => false) =
      (c.followed.map (fun f => f.ident)).any (fun j => j == i) := by
    cases c.followed <;> rfl
  have any (u : State) : u.saved i = u.alerts.stack.any (fun c => (c.followed.map (fun f => f.ident)).any (fun j => j == i)) :=
    congrArg (fun p => u.alerts.stack.any p) (funext saved)
  rw [any, any, rescheduled_alerts, releaded_alerts, List.any_map]
  exact congrArg (fun p => s.alerts.stack.any p) (funext fun c => by simp only [Function.comp_apply, resave_ident])

/-- The alerts offered to the pending list (R151, R157). -/
theorem mem_offers_iff {s : State} {a : HeldAlert} : a ∈ s.offers ↔ (1 ≤ a.ident.level ∧ a.ident.level ≤ 3) ∧
    a ∈ s.activeAlerts ∧ a.ident.level ≤ s.alerts.level ∧ s.followsOrScheduled a.ident = false ∧ s.saved a.ident = false ∧
    s.activeLead a.ident = some a.lead := by
  have levels : a.ident.level ∈ [3, 2, 1] ↔ 1 ≤ a.ident.level ∧ a.ident.level ≤ 3 := by
    simp only [List.mem_cons, List.not_mem_nil, or_false]
    omega
  have placed : a ∈ [3, 2, 1].flatMap (fun level => s.activeAlerts.filter (fun a => a.ident.level == level)) ↔
      a.ident.level ∈ [3, 2, 1] ∧ a ∈ s.activeAlerts := by
    rw [List.mem_flatMap]
    constructor
    · rintro ⟨level, mem, inLevel⟩
      obtain ⟨active, same⟩ := List.mem_filter.mp inLevel
      rw [beq_iff_eq] at same
      exact ⟨same ▸ mem, active⟩
    · rintro ⟨mem, active⟩
      exact ⟨_, mem, List.mem_filter.mpr ⟨active, by simp⟩⟩
  unfold State.offers
  rw [List.mem_filter, placed, levels]
  simp only [Bool.and_eq_true, decide_eq_true_eq, Bool.not_eq_true', beq_iff_eq]
  tauto

/-- The pending list takes an alert offered (R157). -/
def takesOffer (ps : List HeldAlert) (a : HeldAlert) : Bool :=
  match ps.find? (fun x => x.ident.level == a.ident.level) with
  | none => true
  | some p => decide (a.lead < p.lead)

theorem offered_eq (ps : List HeldAlert) (a : HeldAlert) : offered ps a =
    if takesOffer ps a then ps.filter (fun x => x.ident.level != a.ident.level) ++ [a] else ps := by
  unfold offered takesOffer
  cases ps.find? (fun x => x.ident.level == a.ident.level) with
  | none => rfl
  | some p => simp only [decide_eq_true_eq]

theorem offerAlert_eq (a : HeldAlert) (s : State) :
    offerAlert a s = if takesOffer s.alerts.pendingAlerts a then holdAlert a s else s := by
  unfold offerAlert takesOffer
  cases s.alerts.pendingAlerts.find? (fun x => x.ident.level == a.ident.level) with
  | none => rfl
  | some p => simp only [decide_eq_true_eq]

/-- An alert taken is not taken again. -/
theorem takesOffer_offered (ps : List HeldAlert) (a : HeldAlert) : takesOffer (offered ps a) a = false := by
  rw [offered_eq]
  cases takes : takesOffer ps a with
  | false => exact takes
  | true =>
    have found : (ps.filter (fun x => x.ident.level != a.ident.level) ++ [a]).find?
        (fun x => x.ident.level == a.ident.level) = some a := by
      rw [List.find?_append, List.find?_eq_none.mpr fun y mem => by simpa using (List.mem_filter.mp mem).2]
      simp
    rw [if_pos rfl, takesOffer, found]
    exact decide_eq_false (lt_irrefl _)

/-- One alert offered more than once is offered once. -/
theorem forEach_offer {as : List HeldAlert} {a : HeldAlert} (all : ∀ b ∈ as, b = a) (some : a ∈ as) (s : State) :
    forEach as offerAlert s = offerAlert a s := by
  have idle {bs : List HeldAlert} (all : ∀ b ∈ bs, b = a) {u : State} (full : takesOffer u.alerts.pendingAlerts a = false) :
      forEach bs offerAlert u = u := by
    induction bs with
    | nil => rfl
    | cons b bs ih =>
      have same : offerAlert b u = u := by rw [all b List.mem_cons_self, offerAlert_eq, full]; rfl
      show forEach bs offerAlert (offerAlert b u) = u
      rw [same]
      exact ih fun c mem => all c (List.mem_cons_of_mem _ mem)
  cases as with
  | nil => cases some
  | cons b bs =>
    show forEach bs offerAlert (offerAlert b s) = offerAlert a s
    rw [all b List.mem_cons_self]
    refine idle (fun c mem => all c (List.mem_cons_of_mem _ mem)) ?_
    rw [offerAlert_alerts]
    exact takesOffer_offered ..

end Sys2Proof.Machine
end

