-- ==== Sys2Proof/Proofs/HeardOffer.lean ====
section
/-! SUPPORT. A new alert scheduled above the level, or offered to the pending list at it or below (R151, R157). -/

namespace Sys2Proof.Machine

/-! ### Records posted while the node judges: ALERT_HELD for an alert taken, and no others (R157) -/

theorem rescheduled_events (s : State) : s.rescheduled.events = s.events := by
  have candidate (s : State) : (scheduleCandidate s).events = s.events := by
    unfold scheduleCandidate
    split
    · rfl
    · split <;> rfl
  have lead (s : State) : (switchLead s).events = s.events := by
    unfold switchLead
    split
    · rfl
    · split <;> rfl
  unfold State.rescheduled State.releaded
  rw [candidate]
  exact lead (pruneScheduled s)

theorem judged_events (s : State) : (judged s).events = (judgeAlerts s).events := by
  have sync (s : State) : (syncRelay s).events = s.events := by
    unfold syncRelay
    dsimp only
    split
    · rfl
    · split
      · rename_i k _
        have gap := (RelayStep.pictureGap k.2 s).state
        generalize pictureGap k.2 s = t at gap ⊢
        rw [State.setAlerts_events, gap]
      · rfl
  have rest (t : State) : (syncRelay (noteYields (noteRedirect t))).events = t.events := sync _
  rw [judged]
  exact rest (judgeAlerts s)

theorem told_events (m : Node) (x : Manifest) (s : State) : (s.told m x).events = (s.claimsChecked m x).events := by
  have each {α : Type} {f : α → State → State} (h : ∀ y s, (f y s).events = s.events) (ys : List α) (s : State) :
      (forEach ys f s).events = s.events := forEach_events h ys s
  have copy (i : Ident) (s : State) : (copyShadow i s).events = s.events := by
    unfold copyShadow
    split <;> rfl
  have header (i : Ident) (s : State) : (headerFor m x.header i s).events = s.events := by
    unfold headerFor
    split
    · rfl
    · split
      · split <;> rfl
      all_goals rfl
  unfold State.told State.heardFrom
  rw [each header]
  exact each copy _ _

theorem told_murmurs (m : Node) (x : Manifest) (s : State) : Murmurs 13 s (s.told m x).rescheduled := by
  obtain ⟨es, posted, few, kinds⟩ := claimsChecked_murmurs m x s
  refine ⟨es, ?_, few, kinds⟩
  unfold Posted
  rw [rescheduled_events, told_events]
  exact posted

theorem RelayStep.events {s t : State} (h : RelayStep s t) : t.events = s.events := by rw [h.state]

theorem storeManifest_events {m : Node} {x : Manifest} {s : State} (on : s.onTrunk = true) :
    (storeManifest m x s).events = (judgeAlerts (s.told m x)).events :=
  (storeManifest_judged on).events.trans (judged_events _)

namespace NewLead

variable {m : Node} {x : Manifest} {e : OwnEntry} {s : State} (h : NewLead m x e s)
include h

/-! ### The alert scheduled above the level (R151, R153) -/

theorem told_best (higher : s.alerts.level < e.ident.level) :
    bestAlert (s.told m x).activeAlerts = some ⟨e.ident, m, e.yield⟩ := by
  have spec := bestAlert_spec (s.told m x).activeAlerts
  have mem := h.mem_told_active
  cases best : bestAlert (s.told m x).activeAlerts with
  | none =>
    rw [best] at spec
    rw [spec] at mem
    cases mem
  | some b =>
    rw [best] at spec
    obtain ⟨active, top⟩ := spec
    rcases h.told_active active with mine | followed
    · rw [mine]
    · have low := h.level_of_followed followed
      have high := top _ mem
      dsimp only at high
      omega

theorem told_nextScheduled_higher (higher : s.alerts.level < e.ident.level) : (s.told m x).nextScheduled =
    (s.told m x).keptScheduled.filter (fun z => z.ident.level != e.ident.level) ++
      [(s.told m x).newEntry ⟨e.ident, m, e.yield⟩] := by
  obtain ⟨-, -, -, -, level⟩ := h.told_lists
  unfold State.nextScheduled
  rw [h.told_best higher]
  exact if_pos ⟨by rw [level]; exact higher, h.told_keeps⟩

theorem told_nextScheduled_lower (lower : ¬ s.alerts.level < e.ident.level) :
    (s.told m x).nextScheduled = (s.told m x).keptScheduled := by
  obtain ⟨-, -, -, -, level⟩ := h.told_lists
  unfold State.nextScheduled
  split
  · rfl
  · rename_i b best
    refine if_neg fun new => lower ?_
    have high : s.alerts.level < b.ident.level := level ▸ new.1
    rcases h.told_active (bestAlert_mem best) with mine | followed
    · rw [mine] at high
      exact high
    · rw [h.level_of_followed followed] at high
      exact absurd high (lt_irrefl _)

/-! ### The alert offered to the pending list (R157) -/

/-- Only the new alert is offered, and only at the level or below it. -/
theorem told_offers {a : HeldAlert} (mem : a ∈ (s.told m x).rescheduled.offers) :
    a = ⟨e.ident, m, e.yield⟩ ∧ e.ident.level ≤ s.alerts.level := by
  obtain ⟨followedAs, -, -, -, level⟩ := h.told_lists
  have step := rescheduled_step (s.told m x)
  obtain ⟨-, active, low, free, -, -⟩ := mem_offers_iff.mp mem
  rw [step.activeAlerts] at active
  rw [step.level, level] at low
  rcases h.told_active active with mine | followed
  · rw [mine] at low
    exact ⟨mine, low⟩
  · have follows := rescheduled_followed (s.told m x)
    rw [followedAs, followed] at follows
    obtain ⟨f, given, ident⟩ := Option.map_eq_some_iff.mp follows
    unfold State.followsOrScheduled at free
    rw [given] at free
    simp [ident] at free

theorem mem_told_offers (lower : ¬ s.alerts.level < e.ident.level) (least : 1 ≤ e.ident.level) (most : e.ident.level ≤ 3) :
    (⟨e.ident, m, e.yield⟩ : HeldAlert) ∈ (s.told m x).rescheduled.offers := by
  obtain ⟨followedAs, stack, -, -, level⟩ := h.told_lists
  have step := rescheduled_step (s.told m x)
  refine mem_offers_iff.mpr ⟨⟨least, most⟩, ?_, ?_, ?_, ?_, ?_⟩
  · rw [step.activeAlerts]
    exact h.mem_told_active
  · rw [step.level, level]
    exact Nat.not_lt.mp lower
  · have scheduled : (s.told m x).rescheduled.alerts.scheduled = (s.told m x).keptScheduled := by
      rw [rescheduled_alerts]
      exact h.told_nextScheduled_lower lower
    have follows := rescheduled_followed (s.told m x)
    rw [followedAs] at follows
    have other := h.not_followed
    rw [← follows] at other
    unfold State.followsOrScheduled
    rw [scheduled, Bool.or_eq_false_iff, List.any_eq_false]
    refine ⟨?_, fun z mem => by simpa using (h.told_kept mem).1⟩
    cases given : (s.told m x).rescheduled.alerts.followed with
    | none => rfl
    | some f =>
      rw [given] at other
      simpa using other
  · rw [rescheduled_saved]
    unfold State.saved
    rw [stack]
    exact h.unsaved
  · rw [step.activeLead]
    exact h.told_activeLead

theorem told_judge_higher (higher : s.alerts.level < e.ident.level) :
    judgeAlerts (s.told m x) = (s.told m x).rescheduled := by
  have none : (s.told m x).rescheduled.offers = [] :=
    List.eq_nil_iff_forall_not_mem.mpr fun a mem => absurd (h.told_offers mem).2 (Nat.not_le.mpr higher)
  show forEach (s.told m x).rescheduled.offers offerAlert (s.told m x).rescheduled = _
  rw [none]
  rfl

theorem told_judge_lower (lower : ¬ s.alerts.level < e.ident.level) (least : 1 ≤ e.ident.level) (most : e.ident.level ≤ 3) :
    judgeAlerts (s.told m x) = offerAlert ⟨e.ident, m, e.yield⟩ (s.told m x).rescheduled :=
  forEach_offer (fun _ mem => (h.told_offers mem).1) (h.mem_told_offers lower least most) _

/-- With its own alerts LEAD, a pending alert of the node's own keeps its lead (R163). -/
theorem told_pending (led : ∀ p ∈ s.alerts.pendingAlerts, p.lead = s.mode.node → ∀ o ∈ s.alerts.own, o.ident = p.ident →
    o.role = .lead) : (s.told m x).rescheduled.alerts.pendingAlerts = s.alerts.pendingAlerts := by
  obtain ⟨-, -, pending, -, -⟩ := h.told_lists
  rw [rescheduled_alerts, releaded_alerts]
  show (s.told m x).alerts.pendingAlerts.map (s.told m x).repend = s.alerts.pendingAlerts
  rw [pending]
  conv_rhs => rw [← List.map_id s.alerts.pendingAlerts]
  refine List.map_congr_left fun p mem => ?_
  have kept : (s.told m x).nextLead p.ident p.lead none = none := by
    have step := told_step m x s
    have roles : (s.told m x).alerts.own.any (fun o => o.ident == p.ident && o.role != .lead) =
        (s.alerts.own.map (fun o => (o.ident, o.role))).any (fun q => q.1 == p.ident && q.2 != .lead) := by
      rw [← heardFrom_roles m x s, ← step.roles, List.any_map]
      rfl
    have own : p.lead = s.mode.node → (s.alerts.own.map (fun o => (o.ident, o.role))).any
        (fun q => q.1 == p.ident && q.2 != .lead) = false := by
      intro mine
      rw [List.any_map, List.any_eq_false]
      intro o inOwn
      simpa using led p mem mine o inOwn
    have here : (s.told m x).node = s.mode.node := by rw [step.node, State.node, heardFrom_mode]
    unfold State.nextLead State.leadLost
    rw [roles, here, if_neg]
    by_cases mine : p.lead = s.mode.node
    · simp [own mine]
    · simp [mine]
  unfold State.repend
  rw [kept]
  rfl

end NewLead

end Sys2Proof.Machine
end

