-- ==== Sys2Proof/Proofs/StoredManifest.lean ====
section
/-! What a heard manifest changes: the peer's entry, the pending claims, and the alerts that the peer leads (R43, R44, R151 to
R157, R163). -/

namespace Sys2Proof.Machine

/-- What ALERT_HELD says of an alert (R157). -/
def heldSays (m : Node) (i : Ident) : EventKind × Nat × Option LaneId × Nat :=
  (.alertHeld, m.val, none, 256 * i.level + i.id.toNat)

namespace NewLead

variable {m : Node} {x : Manifest} {e : OwnEntry} {s : State} (h : NewLead m x e s) (on : s.onTrunk = true)
include h on

/-! ### What a new lead changes (R151, R153, R157) -/

theorem stored_level : (storeManifest m x s).alerts.level = s.alerts.level ∧
    (storeManifest m x s).alerts.followed.map (fun f => f.ident) = s.alerts.followed.map (fun f => f.ident) := by
  obtain ⟨followed, -, -, -, level⟩ := h.told_lists
  have swept := storeManifest_judged (m := m) (x := x) on
  refine ⟨?_, ?_⟩
  · rw [swept.level, (AlertStep.judged _).level, level]
  · rw [swept.followed, judged_followed, followed, Option.map_map]
    exact congrArg (fun g => s.alerts.followed.map g) (funext fun f => relead_ident _ f)

theorem stored_scheduled (higher : s.alerts.level < e.ident.level) :
    let entry := (s.told m x).newEntry ⟨e.ident, m, e.yield⟩
    entry ∈ (storeManifest m x s).alerts.scheduled ∧
      ∀ y ∈ (storeManifest m x s).alerts.scheduled, y.ident.level = e.ident.level → y = entry := by
  have yields : ({ (s.told m x).newEntry ⟨e.ident, m, e.yield⟩ with
      yield := (s.told m x).yieldLast m e.ident e.yield } : Scheduled) = (s.told m x).newEntry ⟨e.ident, m, e.yield⟩ := by
    rw [h.told_yield]
    rfl
  rw [(storeManifest_judged on).scheduled, judged_scheduled, h.told_nextScheduled_higher higher, List.map_append]
  refine ⟨List.mem_append_right _ (List.mem_singleton.mpr yields.symm), fun y mem level => ?_⟩
  rcases List.mem_append.mp mem with kept | new
  · obtain ⟨z, there, rfl⟩ := List.mem_map.mp kept
    exact absurd level (by simpa using (List.mem_filter.mp there).2)
  · exact (List.mem_singleton.mp new).trans yields

theorem stored_quiet (higher : s.alerts.level < e.ident.level) :
    ∃ es, Posted s (storeManifest m x s) es ∧ ∀ d ∈ es, d.1 ≠ .alertHeld := by
  obtain ⟨es, posted, -, kinds⟩ := told_murmurs m x s
  refine ⟨es, ?_, kinds⟩
  unfold Posted
  rw [storeManifest_events on, h.told_judge_higher higher]
  exact posted

section

variable (lower : ¬ s.alerts.level < e.ident.level) (least : 1 ≤ e.ident.level) (most : e.ident.level ≤ 3)
  (led : ∀ p ∈ s.alerts.pendingAlerts, p.lead = s.mode.node → ∀ o ∈ s.alerts.own, o.ident = p.ident → o.role = .lead)
include lower least most led

theorem stored_pending : (storeManifest m x s).alerts.pendingAlerts =
    (offered s.alerts.pendingAlerts ⟨e.ident, m, e.yield⟩).map
      (fun y => { y with yield := (s.told m x).yieldLast y.lead y.ident y.yield }) := by
  obtain ⟨-, -, -, -, yields⟩ := judged_lists (s.told m x)
  have swept : (storeManifest m x s).alerts.pendingAlerts = (judged (s.told m x)).alerts.pendingAlerts := by
    rw [(storeManifest_judged on).alerts]
  rw [swept, yields, h.told_judge_lower lower least most, offerAlert_alerts, h.told_pending led]

/-- ALERT_HELD is posted where the pending list takes the alert. -/
theorem stored_held (room : s.Room 24) : ∃ es, Posted s (storeManifest m x s) es ∧
    (heldSays m e.ident ∈ es ↔ takesOffer s.alerts.pendingAlerts ⟨e.ident, m, e.yield⟩ = true) := by
  obtain ⟨es, posted, few, kinds⟩ := told_murmurs m x s
  have silent : heldSays m e.ident ∉ es := fun mem => kinds _ mem rfl
  have events := storeManifest_events (m := m) (x := x) on
  rw [h.told_judge_lower lower least most, offerAlert_eq, h.told_pending led] at events
  cases takes : takesOffer s.alerts.pendingAlerts ⟨e.ident, m, e.yield⟩ with
  | false =>
    rw [takes] at events
    refine ⟨es, ?_, by simp [silent]⟩
    unfold Posted
    rw [events]
    exact posted
  | true =>
    rw [takes] at events
    have here : (s.told m x).rescheduled.Room 1 := by
      have length := congrArg List.length posted
      rw [List.length_map, List.length_append, List.length_map] at length
      unfold State.Room at room ⊢
      omega
    have told : Posted (s.told m x).rescheduled (holdAlert ⟨e.ident, m, e.yield⟩ (s.told m x).rescheduled)
        [heldSays m e.ident] := by
      generalize (s.told m x).rescheduled = u at here
      exact post_posted (s := u.setAlerts _) here .alertHeld m.val none _
    refine ⟨es ++ [heldSays m e.ident], ?_, by simp⟩
    unfold Posted
    rw [events]
    exact posted.trans told

end

end NewLead

/-! ### The parts of the obligation -/

theorem storeManifest_checks (m : Node) (x : Manifest) (s : State) :
    let inStep : Bool := decide (x.header.cycle = s.time.cycle ∧ x.header.frame = s.frameIndex)
    let t := storeManifest m x s
    let checked (i : LaneId) : State := conflictCheck m inStep x.second i (conflictCheck m inStep x.first i s)
    if s.onTrunk = true then
      t.RelayKeyed ∧ (∀ i, t.tenancy.get i = (checked i).tenancy.get i ∧ t.units.get i = (checked i).units.get i) ∧
        ∃ es, Posted s t es ∧ (t.Room 1 → ∀ i e, Posted s (checked i) [e] → e ∈ es)
    else t.tenancy = s.tenancy ∧ t.units = s.units ∧ t.alerts = s.alerts := by
  dsimp only
  rw [← matchesOwn_eq]
  split
  · rename_i on
    obtain ⟨es, posted⟩ := posted_of_prefix ((filed_queue m x s).trans (storeManifest_block m x s).queue)
    exact ⟨storeManifest_keyed on, storeManifest_lane on, es, posted, fun room i e => storeManifest_told on i posted room⟩
  · rename_i off
    rw [storeManifest_offTrunk (Bool.not_eq_true _ ▸ off), filed_eq]
    exact ⟨rfl, rfl, rfl⟩

/-- A new lead above the level is scheduled, one at it or below it is offered (R151, R153, R157). -/
theorem storeManifest_newLead {m : Node} {x : Manifest} {e : OwnEntry} {s : State} (h : NewLead m x e s)
    (on : s.onTrunk = true) (least : 1 ≤ e.ident.level) (most : e.ident.level ≤ 3)
    (led : ∀ p ∈ s.alerts.pendingAlerts, p.lead = s.mode.node → ∀ o ∈ s.alerts.own, o.ident = p.ident → o.role = .lead)
    (room : s.Room 24) :
    let entry := (s.told m x).newEntry ⟨e.ident, m, e.yield⟩
    let t := storeManifest m x s
    ∃ es, Posted s t es ∧ t.alerts.level = s.alerts.level ∧
      t.alerts.followed.map (fun f => f.ident) = s.alerts.followed.map (fun f => f.ident) ∧
      if s.alerts.level < e.ident.level then
        entry ∈ t.alerts.scheduled ∧ (∀ y ∈ t.alerts.scheduled, y.ident.level = e.ident.level → y = entry) ∧
          heldSays m e.ident ∉ es
      else match s.alerts.pendingAlerts.find? (fun p => p.ident.level == e.ident.level) with
        | some p =>
          if m < p.lead then
            (∀ y ∈ t.alerts.pendingAlerts, y.ident.level = e.ident.level → y = ⟨e.ident, m, e.yield⟩) ∧
              (⟨e.ident, m, e.yield⟩ : HeldAlert) ∈ t.alerts.pendingAlerts ∧ heldSays m e.ident ∈ es
          else (∃ y ∈ t.alerts.pendingAlerts, y.ident = p.ident ∧ y.lead = p.lead) ∧ heldSays m e.ident ∉ es
        | none => (⟨e.ident, m, e.yield⟩ : HeldAlert) ∈ t.alerts.pendingAlerts ∧ heldSays m e.ident ∈ es := by
  obtain ⟨level, followed⟩ := h.stored_level on
  intro entry t
  by_cases higher : s.alerts.level < e.ident.level
  · obtain ⟨es, posted, kinds⟩ := h.stored_quiet on higher
    obtain ⟨mem, only⟩ := h.stored_scheduled on higher
    refine ⟨es, posted, level, followed, ?_⟩
    rw [if_pos higher]
    exact ⟨mem, only, fun held => kinds _ held rfl⟩
  · obtain ⟨es, posted, held⟩ := h.stored_held on higher least most led room
    have pending := h.stored_pending on higher least most led
    have mine : ({ (⟨e.ident, m, e.yield⟩ : HeldAlert) with
        yield := (s.told m x).yieldLast m e.ident e.yield } : HeldAlert) = ⟨e.ident, m, e.yield⟩ := by rw [h.told_yield]
    have put (takes : takesOffer s.alerts.pendingAlerts ⟨e.ident, m, e.yield⟩ = true) :
        (∀ y ∈ t.alerts.pendingAlerts, y.ident.level = e.ident.level → y = ⟨e.ident, m, e.yield⟩) ∧
          (⟨e.ident, m, e.yield⟩ : HeldAlert) ∈ t.alerts.pendingAlerts := by
      show (∀ y ∈ (storeManifest m x s).alerts.pendingAlerts, _) ∧ _ ∈ (storeManifest m x s).alerts.pendingAlerts
      rw [pending, offered_eq, if_pos takes, List.map_append]
      refine ⟨fun y mem same => ?_, List.mem_append_right _ (List.mem_singleton.mpr mine.symm)⟩
      rcases List.mem_append.mp mem with kept | new
      · obtain ⟨z, there, rfl⟩ := List.mem_map.mp kept
        exact absurd same (by simpa using (List.mem_filter.mp there).2)
      · exact (List.mem_singleton.mp new).trans mine
    refine ⟨es, posted, level, followed, ?_⟩
    rw [if_neg higher]
    cases found : s.alerts.pendingAlerts.find? (fun p => p.ident.level == e.ident.level) with
    | none =>
      have takes : takesOffer s.alerts.pendingAlerts ⟨e.ident, m, e.yield⟩ = true := by simp [takesOffer, found]
      exact ⟨(put takes).2, held.mpr takes⟩
    | some p =>
      have takes : takesOffer s.alerts.pendingAlerts ⟨e.ident, m, e.yield⟩ = decide (m < p.lead) := by
        simp [takesOffer, found]
      dsimp only
      split
      · rename_i below
        rw [decide_eq_true below] at takes
        exact ⟨(put takes).1, (put takes).2, held.mpr takes⟩
      · rename_i above
        rw [decide_eq_false above] at takes
        refine ⟨?_, fun mem => ?_⟩
        · show ∃ y ∈ (storeManifest m x s).alerts.pendingAlerts, _
          rw [pending, offered_eq, takes]
          exact ⟨_, List.mem_map_of_mem (List.mem_of_find?_eq_some found), rfl, rfl⟩
        · rw [held.mp mem] at takes
          cases takes

/-- The end that a header shows is learned of an alert that the peer leads in the node's records (R155). -/
theorem storeManifest_learnsEnd (m : Node) (x : Manifest) (i : Ident) (s : State) (on : s.onTrunk = true)
    (peer : m ≠ s.mode.node) (told : i ∈ (s.heardFrom m x).ledBy m (s.peers.get m).header)
    (new : ∀ n ∈ s.alerts.ends, n.ident = i → n.lead ≠ m) :
    let inStep := x.header.cycle = s.time.cycle ∧ x.header.frame = s.frameIndex
    let ahead (c : Cycle) := (c - s.time.cycle).toNat = 1 ∨ (c - s.time.cycle).toNat = 2
    let t := storeManifest m x s
    let ends (boundary : Cycle) : Prop :=
      (⟨i, m, boundary⟩ : EndNote) ∈ t.alerts.ends ∧ ∀ y ∈ t.alerts.scheduled, y.ident = i → y.lead ≠ m
    match x.header.own.filter (fun e => e.ident == i) with
    | [] => ends (if x.header.frame ≤ 11 then s.time.cycle + 1 else s.time.cycle + 2)
    | [e] => ∀ c, e.role = .lead → e.endCycle = some c → ends (if inStep ∧ ahead c then c else s.time.cycle + 1)
    | _ => True := by
  have first : x.header.own.find? (fun e => e.ident == i) = (x.header.own.filter (fun e => e.ident == i)).head? :=
    List.head?_filter.symm
  intro inStep ahead t ends
  split
  · rename_i none
    refine storeManifest_ends on peer told new ?_ fun e mem _ same => ?_
    · unfold State.headerEnd
      rw [first, none, heardFrom_time]
      rfl
    · exact absurd (beq_iff_eq.mpr same) (List.filter_eq_nil_iff.mp none e mem)
  · rename_i e one
    intro c lead ended
    refine storeManifest_ends on peer told new ?_ fun y mem _ same => ?_
    · unfold State.headerEnd State.endBoundary soon
      rw [first, one, heardFrom_time, heardFrom_inStep, matchesOwn_eq]
      simp only [List.head?_cons, lead, ended, if_true, Option.map_some, decide_eq_true_eq]
      rfl
    · rw [eq_of_filter_eq one mem (beq_iff_eq.mpr same), ended]
      exact Option.some_ne_none c
  · trivial

/-- Settles O27: a manifest is filed in the peer's entry, the claims are checked against it lane by lane, and the alerts that
the peer led are told of its header before all are judged. -/
theorem storedManifestUpdatesEntry : Obligations.StoredManifestUpdatesEntry := by
  refine ⟨storeManifest_checks, fun m x s apart => ?_, fun m x e s on sound peer own lead endless fresh unsaved least most
    others led room => ?_, fun m x e s on peer one demoted alone => storeManifest_demoted on peer one demoted alone,
    fun m x i s on peer leads new => ?_, fun m x e f s on peer followed hold one lead alone => ?_,
    fun m c0 c1 content last x s on lock mode inProgress listening third => ?_⟩
  · intro before inStep gone t after
    have entry : after = before.store (s.matchesOwn x.header) x := by
      show (storeManifest m x s).peers.get m = _
      rw [storeManifest_peers, peers_get_set_self]
    have block := storeManifest_block m x s
    have rest : t.time = s.time ∧ t.mode = s.mode ∧ t.trunk = s.trunk := by
      rw [block.time, block.mode, block.trunk, filed_eq]
      exact ⟨rfl, rfl, rfl⟩
    obtain ⟨first, second, kept⟩ := store_sheets before (s.matchesOwn x.header) apart
    rw [entry]
    refine ⟨?_, rfl, rfl, first, second, kept, fun room => ?_, fun n ne => ?_, rest⟩
    · rw [matchesOwn_eq]
      simp only [PeerEntry.store, decide_eq_true_eq]
      rfl
    · exact .of_prefix (filed_posted m x room) block.queue
    · show (storeManifest m x s).peers.get n = _
      rw [storeManifest_peers, peers_get_set_of_ne s.peers ne]
  · have h : NewLead m x e s := ⟨peer, own, lead, endless, fresh, unsaved, sound, others⟩
    have told := storeManifest_newLead h on least most led room
    rw [h.told_newEntry] at told
    exact told
  · refine storeManifest_learnsEnd m x i s on peer (mem_ledBy_heardFrom peer ?_) new
    rcases leads with followed | saved | scheduled | pending | shadow
    · exact .inl (.inl followed)
    · exact .inl (.inr (.inl saved))
    · exact .inl (.inr (.inr (.inl scheduled)))
    · exact .inl (.inr (.inr (.inr pending)))
    · exact .inr shadow
  · exact storeManifest_hold peer followed one lead hold alone on
  · intro tag directory judged heard adopted
    have bytes : (s.heardBytes m tag content).bind judgeManifest = some x := by
      rw [heardBytes_read content directory]
      exact judged
    have read : s.thirdRead tag content = heard := by
      unfold State.thirdRead
      rw [directory]
    have run := exec_thirdSlot tag content on lock inProgress listening third
    rw [read] at run
    refine ⟨fun peer => ?_, fun own joining room => ⟨duplicateFound (3 * m.val) heard, ?_, ?_⟩⟩
    · rw [run, handOver_peer (s := heard) _ peer mode, passManifest_valid heard bytes]
      rfl
    · rw [run, handOver_duplicate (s := heard) own joining bytes]
    · obtain ⟨halted, fault, posted, rest⟩ := duplicateFound_spec (3 * m.val) (s := heard) room
      rw [own]
      rw [own] at posted rest halted fault
      exact ⟨halted, fault, posted, rest⟩

end Sys2Proof.Machine
end
